-- ==== Sys2Proof/Word.lean ====
section
/-! DEFINITION. The element types that are bits: an octet (spec/20_memory.md R30) and the 16-bit
CRC register (spec/10_state.md R19). Every other number of the block is an exact integer
(spec/40_frontend.md R88), so no other word type exists. -/

namespace Sys2Proof

/-- An octet of `RAW`, `BUF` or an encoding: a `u8`, bit 0 the least significant (R6, R30). -/
abbrev Byte := BitVec 8

/-- The `u16` of the CRC and the FCS (R19). -/
abbrev Word16 := BitVec 16

end Sys2Proof
end

