-- ==== Sys2Proof/Config.lean ====
section
/-! DEFINITION. What the spec leaves open, each as an opaque constant without a body, so that nothing
can be proved of a particular value: the kernel taps (spec/00_scope.md R5, spec/93 U6), the rounding of
the sink's text (U7) and the contents of elements nothing has written since reset (U1, U4, U5). -/

namespace Sys2Proof.Config

/-- The open coefficient `H3[i]`, `1 ≤ i ≤ 30`, stored with offset 349525, so that its range is exactly
the one the spec allows, `|H3[i]| ≤ 349525` (R73, U6; log 7). -/
opaque h3Open : Nat → Fin 699051

/-- The open coefficient `H8[i]`, `1 ≤ i ≤ 30`, stored with offset 131072, so that its range is exactly
the one the spec allows, `|H8[i]| ≤ 131072` (R73, U6; log 7). -/
opaque h8Open : Nat → Fin 262145

/-- Free value: what element `a` of `RAW` holds while nothing has written it since event `epoch`
(R28 "unspecified", U4, U5; log 6). -/
opaque unwrittenRaw (epoch a : Nat) : Byte

/-- Free value: what octet `a` of `BUF` holds while nothing has written it since event `epoch`
(R28 "unspecified", U1, U4; log 6). -/
opaque unwrittenBuf (epoch a : Nat) : Byte

/-- Free value: what element `a` of stream buffer `stream` (0 to 3: `I1`, `Q1`, `I2`, `Q2`) holds while
nothing has written it since event `epoch` (R28 "unspecified", U4; log 6). -/
opaque unwrittenElem (epoch stream a : Nat) : Int

/-- `RENDER_ROUNDING` of R5, open: the integer a sink's decimal text shows for the exact rational
`num / den` (R153, U7; log 19). Only the rendering uses it; no record depends on it. -/
opaque renderRounding (num : Int) (den : Nat) : Int

end Sys2Proof.Config
end

