-- ==== Sys2Proof/Machine/Params.lean ====
section
/-! DEFINITION. The constants of spec/00_scope.md R5 under their own names, the symbol grid (R98) and the
pattern ROM (R56). The thresholds are named constants, as the source asks; other values are refused by U8,
so they are no fields of the machine. -/

namespace Sys2Proof.Machine

/-- `NIQ`: complex samples per input block (R5). -/
def nIQ : Nat := 300000

/-- `H3[0]`, the centre tap of kernel `h3` (R5, R15). -/
def h3Centre : Int := 349525

/-- `H8[0]`, the centre tap of kernel `h8` (R5, R15). -/
def h8Centre : Int := 131072

/-- `FIR_SHIFT`: the post-shift of the FIR accumulator (R5, R72). -/
def firShift : Nat := 19

/-- `DCM3`: decimation ratio of C2 (R5). -/
def dcm3 : Nat := 3

/-- `DCM`: decimation ratio of C4 (R5, R85). -/
def dcm : Nat := 2

/-- `TRIM3`: trailing outputs C2 does not produce (R5). -/
def trim3 : Nat := 10

/-- `TRIM2`: trailing outputs C4 does not produce (R5). -/
def trim2 : Nat := 15

/-- `GATE_RUN`: consecutive samples the burst gate needs (R5, R96). -/
def gateRun : Nat := 100

/-- `GATE_ON`: power threshold of the burst gate (R5, R96). -/
def gateOn : Int := 16

/-- `GATE_OFF`: power threshold of the in-frame gate (R5, R112). -/
def gateOff : Int := 4

/-- `TAIL`: the locator starts no decode with fewer samples left (R5, R97). -/
def tailGuard : Nat := 500

/-- `KSPAN`: number of candidate shifts, `k` in 0..104 (R5, R100). -/
def kSpan : Nat := 105

/-- `SKIP_AHEAD`: samples skipped after a failed search (R5, R104). -/
def skipAhead : Nat := 1145

/-- `PATLEN`: symbols in the reference pattern (R5). -/
def patLen : Nat := 32

/-- `FRAME_BYTES`: capacity of the bit frame (R5, R14). -/
def frameBytes : Nat := 256

/-- `HDR`: octets reserved at the start of the bit frame (R5, R33). -/
def hdr : Nat := 4

/-- `CRC_POLY` 0x1021 with its 16 bits reversed, the form least-significant-bit-first processing
uses (R5, R127). -/
def crcPolyReversed : Word16 := 0x8408

/-- `CRC_INIT` (R5, R127). -/
def crcInit : Word16 := 0xFFFF

/-- `CRC_XOROUT` (R5, R127). -/
def crcXorOut : Word16 := 0xFFFF

/-- `off(q)`: the sample offset of symbol `q` from symbol 0, `⌊q·T + ½⌋` with `T = 125/24` (R98). -/
def off (q : Nat) : Nat := (125 * q + 12) / 24

/-- The reference bits `b[0..31]`, first bit first (R55): the alternating preamble and the flag 0x7E. -/
def patBits : List Bool :=
  [ false, true, false, true, false, true, false, true, false, true, false, true,
    false, true, false, true, false, true, false, true, false, true, false, true ] ++
  [ false, true, true, true, true, true, true, false ]

/-- NRZI in the encoding direction: the level is kept by a 1 and toggled by a 0 (R56, R58). -/
def nrziLevels (level : Bool) : List Bool → List Bool
  | [] => []
  | b :: bs =>
    let level' := if b then level else !level
    level' :: nrziLevels level' bs

/-- A symbol as the correlator weighs it: 0 is +1, 1 is −1 (R56). -/
def symbolSign (sym : Bool) : Int := if sym then -1 else 1

/-- `PAT[0..31]`: the NRZI image of the reference bits from starting level 1 (R16, R56). -/
def pat : List Int := (nrziLevels true patBits).map symbolSign

end Sys2Proof.Machine
end

