-- ==== Sys2Proof/Machine/State.lean ====
section
/-! DEFINITION. The state of the block as plain data (spec/10_state.md), the reasons a step can stop, and
the state after reset (R28). INVENTORY.md lists each field with its rule and its reset value. -/

namespace Sys2Proof.Machine

/-- The channel number, 1 or 2 (R22). -/
inductive Channel where
  | one
  | two
  deriving DecidableEq, Repr

/-- The four stream buffers (R11). -/
inductive StreamId where
  | i1
  | q1
  | i2
  | q2
  deriving DecidableEq, Repr

/-- The two coefficient ROMs (R15). -/
inductive Kernel where
  | h3
  | h8
  deriving DecidableEq, Repr

/-- The sign of the correlation that found the pattern (`pol`, R21). -/
inductive Polarity where
  | plus
  | minus
  deriving DecidableEq, Repr

/-- The message-body length in octets, 21 or 53 (`blen`, R19). -/
inductive BodyLen where
  | octets21
  | octets53
  deriving DecidableEq, Repr

/-- The sub-phases of a decode attempt (R24). -/
inductive SubPhase where
  | gate
  | corr
  | deframe
  | check
  | unpack
  | emit
  deriving DecidableEq, Repr

/-- The sequencer state `phase` (R24). There is no bare `SCAN(ch)`: while no attempt is in progress the model writes the
sub-phase GATE (log 27). -/
inductive Phase where
  | idle
  | read
  | sdec
  | dec3
  | split
  | dec2
  | demod
  | scan (c : Channel) (sub : SubPhase)
  | done
  deriving DecidableEq, Repr

/-- The six conditions (spec/60_exceptions.md R171 to R177). Each is a normal return. -/
inductive Condition where
  /-- Code 1: no preamble found (R171). -/
  | noSync
  /-- Code 2: too few bits stored (R172). -/
  | midFrameFade
  /-- Code 3: the FCS differs (R173). -/
  | crcMismatch
  /-- Code 4: a valid frame of another message ID (R176). -/
  | unknownMessageId
  /-- Code 5: fewer than 500 samples left (R174). -/
  | bufferExhaustion
  /-- Code 6: the source cannot deliver a block (R175). -/
  | sourceClosed
  deriving DecidableEq, Repr

/-- Why the deframer loop stops (R119). -/
inductive StopReason where
  | exhausted
  | fade
  deriving DecidableEq, Repr

/-- The five outcomes of a decode attempt (R156). -/
inductive AttemptOutcome where
  | eob
  | nosync
  | short
  | crcfail
  | record
  deriving DecidableEq, Repr

/-- What an operation returned to its caller inside the sequencer (R170; log 11). -/
inductive Result where
  /-- The operation completed and returned nothing the sequencer tests. -/
  | plain
  /-- READ: a block was delivered (R161). -/
  | block
  /-- READ: the source has neither a whole block nor closed; the core waits (R161, U12). -/
  | waiting
  /-- SLICE stopped (R112). -/
  | stop (r : StopReason)
  /-- DESTUFF: the bit is data (R116). -/
  | keep
  /-- DESTUFF: the bit is a stuff bit (R116). -/
  | drop
  /-- The operation raised a condition (R170). -/
  | raised (c : Condition)
  /-- AISDEC ended with an outcome (R155). -/
  | attempt (o : AttemptOutcome)
  deriving DecidableEq, Repr

/-- The record of spec/45_unpacker.md R141: integers and ASCII codes, unscaled and unchecked. -/
inductive Record where
  /-- IDs 1, 2, 3. -/
  | pos (id mmsi sog : Nat) (lon lat : Int) (cog : Nat)
  /-- ID 4. -/
  | base (id mmsi year month day hour minute second : Nat) (lon lat : Int)
  /-- ID 5; the three texts are lists of ASCII codes. -/
  | static (id mmsi : Nat) (callsign name dest : List Nat)
  /-- Every other ID. -/
  | unknown (id mmsi : Nat)
  deriving DecidableEq, Repr

/-- What the sink receives: the stream-start event (R160) or a record (R150). -/
inductive SinkItem where
  | streamStart
  | item (r : Record)
  deriving DecidableEq, Repr

/-- The operation the sequencer performs next (R24, R69; log 1). -/
inductive Fetch where
  /-- The operation with this index. -/
  | tag (w : Byte)
  /-- The message class of the first body octet `BUF[4]` (R66). -/
  | body
  /-- No operation: `DONE` is final (R167). -/
  | halt
  deriving DecidableEq, Repr

/-- A byte buffer: the elements written so far as (index, octet) cells, indices strictly rising; an index
that is not listed has not been written and the list gives it no value. -/
abbrev Memory := List Host.Cell

/-- The parameters of the run (R5, R27). No operation writes them. A kernel list gives the taps 1, 2, …;
a tap it does not list is the open constant of `Sys2Proof.Config` (log 7). -/
structure Cfg where
  n : Nat
  h3 : List Int
  h8 : List Int
  deriving DecidableEq, Repr

/-- The state of the block, its two external agents and the model's own fields (INVENTORY.md). -/
@[ext]
structure State where
  cfg : Cfg
  src : List Byte
  srcClosed : Bool
  sink : List SinkItem
  phase : Phase
  started : Bool
  fetch : Fetch
  res : Result
  resume : Nat
  raw : Memory
  rawEpoch : Nat
  buf : Memory
  epoch : Nat
  i1 : List Int
  q1 : List Int
  i2 : List Int
  q2 : List Int
  len1 : Nat
  len2 : Nat
  fOut : List Int
  aOut : List Int
  ch : Channel
  i : Nat
  run : Nat
  k : Nat
  j : Nat
  score : Int
  smax : Int
  imax : Nat
  p0 : Nat
  m : Nat
  idx : Nat
  prev : Option Bool
  hist : BitVec 5
  wp : Nat
  bp : Nat
  nbits : Nat
  sym : Bool
  out : Bool
  mid : BitVec 6
  blen : BodyLen
  crc : Word16
  fcs : Word16
  record : Record
  sync : Bool
  pol : Polarity
  short : Bool
  crcOk : Bool
  argCh : Channel
  firX : StreamId
  firH : Kernel
  firN : Nat
  firY : Int
  crcD : List Byte
  gbO : Nat
  gbW : Nat
  gbV : Nat
  deriving DecidableEq, Repr

/-- Why a step stops with a fault: the two index errors of spec/93 U2, which the spec calls a fault of the
model because no rule gives such a read a value (R26, R35, R181). -/
inductive Fault where
  /-- Raised by CORR when it forms a stream index at or beyond the active length. Safe: the spec gives the
  read no value, and no sequenced attempt forms such an index (R106). -/
  | streamRange
  /-- Raised by PACK and GETBITS when they form a `BUF` index beyond 255. Safe: the spec gives the access no
  value, and no sequenced operation forms such an index (R35, R136). -/
  | bufRange
  deriving DecidableEq, Repr

/-- Why a step is refused. -/
inductive Refusal where
  /-- Raised by `exec` for an instruction that has no meaning yet. Safe: nothing runs. -/
  | notModelled (mnemonic : String)
  /-- Raised by `step` when the operation latch holds no index of R69. Safe: nothing runs. -/
  | noSuchOperation (tag : Byte)
  /-- Raised by RUN while a run is in progress, which spec/93 U13 says to refuse. Safe: nothing runs. -/
  | runInProgress
  /-- Raised by RUN when a kernel breaks the constraint `|h[i]| ≤ h[0]`, which spec/93 U6 says to refuse.
  Safe: nothing runs. -/
  | kernelConstraint
  deriving DecidableEq, Repr

/-- The machine right after reset (R28). `phase`, `started`, `len1`, `len2` have the values R28 gives; the
buffers hold nothing written; every other register has the value log 5 names. -/
def State.reset : State where
  cfg := ⟨nIQ, [], []⟩
  src := []
  srcClosed := false
  sink := []
  phase := .idle
  started := false
  fetch := .tag 0x00
  res := .plain
  resume := 0
  raw := []
  rawEpoch := 0
  buf := []
  epoch := 0
  i1 := []
  q1 := []
  i2 := []
  q2 := []
  len1 := 0
  len2 := 0
  fOut := []
  aOut := []
  ch := .one
  i := 0
  run := 0
  k := 0
  j := 0
  score := 0
  smax := 0
  imax := 0
  p0 := 0
  m := 0
  idx := 0
  prev := none
  hist := 0
  wp := 4
  bp := 0
  nbits := 0
  sym := false
  out := false
  mid := 0
  blen := .octets21
  crc := 0
  fcs := 0
  record := .unknown 0 0
  sync := false
  pol := .plus
  short := false
  crcOk := false
  argCh := .one
  firX := .i1
  firH := .h3
  firN := 0
  firY := 0
  crcD := []
  gbO := 0
  gbW := 1
  gbV := 0

end Sys2Proof.Machine
end

