-- ==== Sys2Proof/Machine/Ops.lean ====
section
/-! DEFINITION. The named operations over the buffers and registers: reading and writing one element
(spec/20_memory.md R37), storing a stage's output (R46), sequencing two operations, raising a condition and
returning from an attempt (spec/60_exceptions.md R170, R180), and the reset that entry to RUN applies (R28). -/

namespace Sys2Proof.Machine

/-- What an operation of the block answers. -/
abbrev StepOutcome := Host.Outcome State Fault Refusal

/-- Two operations in program order (R44): the second runs on what the first leaves; a fault or a refusal
of the first ends both. -/
def seqOp (o : StepOutcome) (f : State → StepOutcome) : StepOutcome :=
  match o with
  | .next s => f s
  | .fault r => .fault r
  | .refused r => .refused r

/-! ### Byte buffers -/

/-- Indices strictly rising: the canonical form of a byte buffer. An unlisted index has no value in the list,
so no entry can equal what an unlisted index reads as. -/
def Memory.wf : Memory → Bool
  | [] => true
  | [_] => true
  | (a, _) :: (b, w) :: rest => decide (a < b) && Memory.wf ((b, w) :: rest)

/-- The octet written at an index, or none if nothing has been written there. -/
def Memory.get? (mem : Memory) (a : Nat) : Option Byte := mem.lookup a

/-- Writing one octet (R37); keeps the canonical form. -/
def Memory.set : Memory → Nat → Byte → Memory
  | [], a, v => [(a, v)]
  | (b, w) :: rest, a, v =>
    if a < b then (a, v) :: (b, w) :: rest
    else if a = b then (a, v) :: rest
    else (b, w) :: Memory.set rest a v

/-- Octets written at consecutive indices from `base`, and nothing else. -/
def Memory.ofBytes (base : Nat) : List Byte → Memory
  | [] => []
  | b :: bs => (base, b) :: Memory.ofBytes (base + 1) bs

/-- `RAW[a]`, for `a` in `[0, 2N)`: what was written, or the free value of an element nothing has
written (U4, U5). -/
def State.rawRead (s : State) (a : Nat) : Byte :=
  (s.raw.get? a).getD (Config.unwrittenRaw s.rawEpoch a)

/-- `BUF[a]`, for `a` in `[0, 256)`: what was written, or the free value of an octet nothing has
written (U1, U4). -/
def State.bufRead (s : State) (a : Nat) : Byte :=
  (s.buf.get? a).getD (Config.unwrittenBuf s.epoch a)

/-- `BUF[a] <- v`. -/
def State.bufWrite (s : State) (a : Nat) (v : Byte) : State :=
  { s with buf := s.buf.set a v }

/-- `sink <- sink ++ [x]`: the sink accepts everything (R34, D23). -/
def State.appendSink (s : State) (x : SinkItem) : State :=
  { s with sink := s.sink ++ [x] }

/-! ### Stream buffers -/

/-- A stream buffer's contents, in index order, stale elements included. -/
def State.stream (s : State) : StreamId → List Int
  | .i1 => s.i1
  | .q1 => s.q1
  | .i2 => s.i2
  | .q2 => s.q2

/-- The number under which the free values know a stream buffer. -/
def StreamId.number : StreamId → Nat
  | .i1 => 0
  | .q1 => 1
  | .i2 => 2
  | .q2 => 3

/-- The `I` buffer (after DEMOD the `F` stream, R13) of a channel. -/
def Channel.iStream : Channel → StreamId
  | .one => .i1
  | .two => .i2

/-- The `Q` buffer (after DEMOD the `A` stream, R13) of a channel. -/
def Channel.qStream : Channel → StreamId
  | .one => .q1
  | .two => .q2

/-- The active length of a channel's pair, `len1` or `len2` (R12). -/
def State.len (s : State) : Channel → Nat
  | .one => s.len1
  | .two => s.len2

/-- The active length of a stream. -/
def State.streamLen (s : State) : StreamId → Nat
  | .i1 | .q1 => s.len1
  | .i2 | .q2 => s.len2

/-- Element `a` of a stream buffer, for `a` inside its active range: what was written, or the free value of
an element nothing has written (U4). -/
def State.elem (s : State) (x : StreamId) (a : Nat) : Int :=
  ((s.stream x)[a]?).getD (Config.unwrittenElem s.epoch x.number a)

/-- Element `a` of a stream buffer where the index may leave the active range; none outside it (R26, U2). -/
def State.elem? (s : State) (x : StreamId) (a : Nat) : Option Int :=
  if a < s.streamLen x then some (s.elem x a) else none

/-- `X[0 .. y.length) <- y`: the elements beyond keep what they held (R26, R92). -/
def overlay (y x : List Int) : List Int := y ++ x.drop y.length

/-- Storing a stage's output in a channel's pair and setting its active length. -/
def State.storePair (s : State) (c : Channel) (yI yQ : List Int) (len : Nat) : State :=
  match c with
  | .one => { s with i1 := overlay yI s.i1, q1 := overlay yQ s.q1, len1 := len }
  | .two => { s with i2 := overlay yI s.i2, q2 := overlay yQ s.q2, len2 := len }

/-- R92: the streams FMDEM and AMENV produced replace the operand channel's `I` and `Q`, and its length
falls by one. R92 applies the two only together: that AMENV performed without FMDEM before it on the channel stores
whatever `fOut` holds over `I` is the model's choice (log 12). -/
def State.commitDemod (s : State) : State :=
  s.storePair s.argCh s.fOut s.aOut (s.len s.argCh - 1)

/-! ### Sequencer moves -/

/-- `phase <- p` with the operation that is next. -/
def State.goto (s : State) (p : Phase) (f : Fetch) : State :=
  { s with phase := p, fetch := f }

/-- `phase <- p`. -/
def State.setPhase (s : State) (p : Phase) : State :=
  { s with phase := p }

/-- `raise c(info)` (R170, R179): the operation ends with outcome `c`; the info, when there is one, is the
resume index. No other state changes: nothing is saved, no mode changes, no handler runs. -/
def State.raise (s : State) (c : Condition) (info : Option Nat) : State :=
  { s with res := .raised c, resume := info.getD s.resume }

/-- `i <- a` (R158). -/
def State.setI (s : State) (a : Nat) : State :=
  { s with i := a }

/-- The operation that is next, the phase unchanged. -/
def State.setFetch (s : State) (f : Fetch) : State :=
  { s with fetch := f }

/-- The channel operand of SCAN, FMDEM and AMENV (log 4). -/
def State.setArgCh (s : State) (c : Channel) : State :=
  { s with argCh := c }

/-- An operation that returns `r` and raises nothing. -/
def State.ret (s : State) (r : Result) : State :=
  { s with res := r }

/-- The return from an attempt (R156, R180): its outcome goes to the caller; the resume index is in
`resume`. -/
def State.finish (s : State) (o : AttemptOutcome) : State :=
  { s with res := .attempt o }

/-- Whether the last operation raised `c`. -/
def State.hasRaised (s : State) (c : Condition) : Bool :=
  s.res == .raised c

/-- The reset applied at entry to RUN (R28, R190): every field as `State.reset` has it, but for the
parameters of the run and the two external agents, which are outside the block; what is unwritten dates from
this reset (log 6). -/
def State.runReset (s : State) : State :=
  { State.reset with
    cfg := s.cfg
    src := s.src
    srcClosed := s.srcClosed
    sink := s.sink
    epoch := s.epoch + 1
    rawEpoch := s.rawEpoch + 1 }

end Sys2Proof.Machine
end

