-- ==== Sys2Proof/Machine/Operands.lean ====
section
/-! DEFINITION. The operand forms: kernel taps (spec/40_frontend.md R72, R73), stream taps that read 0
outside the stream (R74), the streams `A` and `F` of the selected channel (spec/10_state.md R22), and bit
fields of `BUF` (spec/45_unpacker.md R135 to R138). -/

namespace Sys2Proof.Machine

/-! ### Kernels -/

/-- `h[0]` of a kernel. -/
def Kernel.centre : Kernel → Int
  | .h3 => h3Centre
  | .h8 => h8Centre

/-- The taps 1, 2, … of a kernel that the run's parameters fix. -/
def Cfg.taps (c : Cfg) : Kernel → List Int
  | .h3 => c.h3
  | .h8 => c.h8

/-- The open coefficient `h[t]` of a kernel, `t ≥ 1`, inside the constraint `|h[t]| ≤ h[0]` (R73). -/
def Kernel.openTap (h : Kernel) (t : Nat) : Int :=
  match h with
  | .h3 => (Config.h3Open t : Nat) - h3Centre
  | .h8 => (Config.h8Open t : Nat) - h8Centre

/-- `h[t]`: the centre tap, or the tap the parameters fix, or the open coefficient (R15, R73; log 7). -/
def Cfg.tap (c : Cfg) (h : Kernel) : Nat → Int
  | 0 => h.centre
  | t + 1 => ((c.taps h)[t]?).getD (h.openTap (t + 1))

/-- The constraint of R73 on the parameters, `|h[t]| ≤ h[0]`, and at most thirty taps (U6). -/
def Cfg.ok (c : Cfg) : Bool :=
  c.h3.length ≤ 30 && c.h8.length ≤ 30 &&
  c.h3.all (fun t => decide (-h3Centre ≤ t ∧ t ≤ h3Centre)) &&
  c.h8.all (fun t => decide (-h8Centre ≤ t ∧ t ≤ h8Centre))

/-! ### Streams -/

/-- `X(k)` of R74: the element for `0 ≤ k < nx`, otherwise 0. -/
def State.tapIn (s : State) (x : StreamId) (k : Int) : Int :=
  if 0 ≤ k ∧ k < s.streamLen x then s.elem x k.toNat else 0

/-- The active length `n` of the selected channel (R22). -/
def State.n (s : State) : Nat := s.len s.ch

/-- `A[t]` of the selected channel, for `t < n` (R13, R22). -/
def State.aAt (s : State) (t : Nat) : Int := s.elem s.ch.qStream t

/-- `F[t]` of the selected channel, for `t < n` (R13, R22). -/
def State.fAt (s : State) (t : Nat) : Int := s.elem s.ch.iStream t

/-- `F[t]` of the selected channel; none when `t` leaves the active range (U2). -/
def State.fAt? (s : State) (t : Nat) : Option Int := s.elem? s.ch.iStream t

/-! ### Bit fields of `BUF` -/

/-- `blen` as a number of octets. -/
def BodyLen.octets : BodyLen → Nat
  | .octets21 => 21
  | .octets53 => 53

/-- The message bit at offset `b`: octet `4 + b/8`, bit position `7 − (b mod 8)` (R40, R64). -/
def State.msgBit (s : State) (b : Nat) : Nat :=
  ((s.bufRead (hdr + b / 8)).toNat >>> (7 - b % 8)) % 2

/-- The value of `GETBITS(o, w)`: most significant bit first (R135). -/
def State.bits (s : State) (o w : Nat) : Nat :=
  (List.range w).foldl (fun v t => 2 * v + s.msgBit (o + t)) 0

/-- `sext_w(v)` (R6). -/
def sext (w v : Nat) : Int :=
  if 2 ^ (w - 1) ≤ v then (v : Int) - 2 ^ w else v

/-- `SIGNED(o, w)` (R137). -/
def State.signedBits (s : State) (o w : Nat) : Int := sext w (s.bits o w)

/-- The ASCII code of a six-bit character (R65, R138). -/
def sixBitChar (v : Nat) : Nat := if v < 32 then v + 64 else v

/-- `TEXT(o, c)`: all `c` characters, none trimmed (R138). -/
def State.text (s : State) (o c : Nat) : List Nat :=
  (List.range c).map fun q => sixBitChar (s.bits (o + 6 * q) 6)

/-- The octets `BUF[a .. a + n)`. -/
def State.bufOctets (s : State) (a n : Nat) : List Byte :=
  (List.range n).map fun q => s.bufRead (a + q)

/-- The message ID of a first body octet: its six high bits, `octet >> 2` (R66). -/
def messageId (octet : Byte) : BitVec 6 := octet.extractLsb' 2 6

/-- The body length a message ID selects: 53 octets for ID 5, 21 for every other (R66, R125). -/
def bodyLenOf (mid : BitVec 6) : BodyLen :=
  if mid = 5 then .octets53 else .octets21

end Sys2Proof.Machine
end

