-- ==== Sys2Proof/Machine/Flags.lean ====
section
/-! DEFINITION. The four one-bit conditions of spec/10_state.md R21 and the two tests the sequencer makes on
numbers. There are no arithmetic condition codes. -/

namespace Sys2Proof.Machine

/-- `sync`: a shift qualified with a non-zero score (R103). -/
def syncFlag (smax : Int) : Bool := smax != 0

/-- `pol`: the sign of the best score; R103 writes nothing when it is 0. -/
def polFlag (old : Polarity) (smax : Int) : Polarity :=
  if smax > 0 then .plus else if smax < 0 then .minus else old

/-- `short`: fewer bits stored than the body and its FCS need (R125, R126). -/
def shortFlag (nbits : Nat) (blen : BodyLen) : Bool := nbits < 8 * (blen.octets + 2)

/-- `crc_ok`: the computed CRC equals the received FCS (R130). -/
def crcOkFlag (crc fcs : Word16) : Bool := crc == fcs

/-- The tail test of R97: fewer than 500 samples left from `i`. -/
def tailTooShort (n i : Nat) : Bool := n < i + tailGuard

/-- The loop test of SCAN, `i ≤ n − 500` over the integers (R158). -/
def scanContinues (n i : Nat) : Bool := i + tailGuard ≤ n

end Sys2Proof.Machine
end

