-- ==== Sys2Proof/Machine/Unpacker.lean ====
section
/-! DEFINITION. C9: GETBITS, the four UNPACK operations, EMIT (spec/45_unpacker.md). No field is validated
(R140). -/

namespace Sys2Proof.Machine

/-- The result of GETBITS (log 4). -/
def State.setGbV (s : State) (v : Nat) : State :=
  { s with gbV := v }

/-- GETBITS on its operand latches (R135; log 4). A bit beyond `BUF[255]` is the model's fault of U2. -/
def execGetbits (s : State) : StepOutcome :=
  if s.gbW = 0 ∨ hdr + (s.gbO + s.gbW - 1) / 8 < frameBytes then
    .next ((s.setGbV (s.bits s.gbO s.gbW)).ret .plain)
  else .fault .bufRange

/-- The `Pos` record of `BUF` (R61, R143). -/
def State.posRecord (s : State) : Record :=
  .pos s.mid.toNat (s.bits 8 30) (s.bits 50 10) (s.signedBits 61 28) (s.signedBits 89 27) (s.bits 116 12)

/-- The `Base` record of `BUF` (R62, R145). -/
def State.baseRecord (s : State) : Record :=
  .base 4 (s.bits 8 30) (s.bits 38 14) (s.bits 52 4) (s.bits 56 5) (s.bits 61 5) (s.bits 66 6) (s.bits 72 6)
    (s.signedBits 79 28) (s.signedBits 107 27)

/-- The `Static` record of `BUF` (R63, R147). -/
def State.staticRecord (s : State) : Record :=
  .static 5 (s.bits 8 30) (s.text 70 7) (s.text 112 20) (s.text 302 20)

/-- The `Unknown` record of `BUF` (R60, R149). -/
def State.unknownRecord (s : State) : Record :=
  .unknown s.mid.toNat (s.bits 8 30)

/-- `REC <- r`. -/
def State.setRecord (s : State) (r : Record) : State := { s with record := r }

/-- The unpacking of a position report, shared by UNPACK.POS and the classes MSG.POS.1 to 3. -/
def unpackPosition (s : State) : State := (s.setRecord s.posRecord).ret .plain

/-- The unpacking of a base-station report. -/
def unpackBaseStation (s : State) : State := (s.setRecord s.baseRecord).ret .plain

/-- The unpacking of static and voyage data. -/
def unpackStaticData (s : State) : State := (s.setRecord s.staticRecord).ret .plain

/-- The unpacking of any other message, which reports UnknownMessageId and goes on (R149, R176). -/
def unpackUnknownId (s : State) : State := (s.setRecord s.unknownRecord).raise .unknownMessageId none

/-- UNPACK.POS (R143). -/
def execUnpackPos (s : State) : StepOutcome := .next (unpackPosition s)

/-- UNPACK.BASE (R145). -/
def execUnpackBase (s : State) : StepOutcome := .next (unpackBaseStation s)

/-- UNPACK.STATIC (R147). -/
def execUnpackStatic (s : State) : StepOutcome := .next (unpackStaticData s)

/-- UNPACK.UNKNOWN (R149). -/
def execUnpackUnknown (s : State) : StepOutcome := .next (unpackUnknownId s)

/-- EMIT (R150): the sink always accepts (D23). -/
def execEmit (s : State) : StepOutcome :=
  .next ((s.appendSink (.item s.record)).ret .plain)

end Sys2Proof.Machine
end

