-- ==== Sys2Proof/Machine/Messages.lean ====
section
/-! DEFINITION. The message-ID classes of spec/30_encoding.md R66: the first body octet selects the message
ID, the body length and the unpacker, which builds the record (R139; log 3). -/

namespace Sys2Proof.Machine

/-- The first two columns R66 gives for an octet: `mid` and `blen`. -/
def State.selectMessage (s : State) (octet : Byte) (blen : BodyLen) : State :=
  { s with mid := messageId octet, blen := blen }

/-- MSG.POS.1 (R66, R143). -/
def execMsgPos1 (octet : Byte) (s : State) : StepOutcome :=
  .next (unpackPosition (s.selectMessage octet .octets21))

/-- MSG.POS.2 (R66, R143). -/
def execMsgPos2 (octet : Byte) (s : State) : StepOutcome :=
  .next (unpackPosition (s.selectMessage octet .octets21))

/-- MSG.POS.3 (R66, R143). -/
def execMsgPos3 (octet : Byte) (s : State) : StepOutcome :=
  .next (unpackPosition (s.selectMessage octet .octets21))

/-- MSG.BASE (R66, R145). -/
def execMsgBase (octet : Byte) (s : State) : StepOutcome :=
  .next (unpackBaseStation (s.selectMessage octet .octets21))

/-- MSG.STATIC (R66, R147). -/
def execMsgStatic (octet : Byte) (s : State) : StepOutcome :=
  .next (unpackStaticData (s.selectMessage octet .octets53))

/-- MSG.UNKNOWN.0 (R66, R67, R149). -/
def execMsgUnknown0 (octet : Byte) (s : State) : StepOutcome :=
  .next (unpackUnknownId (s.selectMessage octet .octets21))

/-- MSG.UNKNOWN.6_7 (R66, R67, R149). -/
def execMsgUnknown6to7 (octet : Byte) (s : State) : StepOutcome :=
  .next (unpackUnknownId (s.selectMessage octet .octets21))

/-- MSG.UNKNOWN.8_15 (R66, R67, R149). -/
def execMsgUnknown8to15 (octet : Byte) (s : State) : StepOutcome :=
  .next (unpackUnknownId (s.selectMessage octet .octets21))

/-- MSG.UNKNOWN.16_31 (R66, R67, R149). -/
def execMsgUnknown16to31 (octet : Byte) (s : State) : StepOutcome :=
  .next (unpackUnknownId (s.selectMessage octet .octets21))

/-- MSG.UNKNOWN.32_63 (R66, R67, R149). -/
def execMsgUnknown32to63 (octet : Byte) (s : State) : StepOutcome :=
  .next (unpackUnknownId (s.selectMessage octet .octets21))

end Sys2Proof.Machine
end

