-- ==== Sys2Proof/Syntax.lean ====
section
/-! DEFINITION. The instructions: one constructor per row of spec/opcode_table.json, the 29 operations
of spec/30_encoding.md R69 and the ten message-ID classes of R66. No operation has operand bits; a message
class carries the whole first body octet `BUF[4]` it was decoded from. -/

namespace Sys2Proof

/-- The two formats of the opcode table (its "format" column). -/
inductive Format where
  /-- `OP`: an operation index of R69. -/
  | op
  /-- `MSGID`: the first body octet, decoded by the message-ID map of R66. -/
  | msgId
  deriving DecidableEq, Repr

/-- One constructor per row of the opcode table, in the table's order. -/
inductive Instr where
  /-- RUN, index 0x00 (R162). -/
  | runOp
  /-- READ, index 0x01 (R161). -/
  | readOp
  /-- SWEEP, index 0x02 (R157). -/
  | sweepOp
  /-- SCAN, index 0x03 (R158). -/
  | scanOp
  /-- AISDEC, index 0x04 (R155). -/
  | aisdec
  /-- SDEC, index 0x10 (R70). -/
  | sdec
  /-- FIR, index 0x11 (R72). -/
  | fir
  /-- DEC3, index 0x12 (R75). -/
  | dec3
  /-- SPLIT, index 0x13 (R80). -/
  | splitOp
  /-- DEC2, index 0x14 (R84). -/
  | dec2
  /-- FMDEM, index 0x15 (R90). -/
  | fmdem
  /-- AMENV, index 0x16 (R91). -/
  | amenv
  /-- GATE, index 0x20 (R96). -/
  | gate
  /-- CORR, index 0x21 (R100). -/
  | corr
  /-- SYNC, index 0x22 (R104). -/
  | syncOp
  /-- CLEAR, index 0x30 (R111). -/
  | clearOp
  /-- SLICE, index 0x31 (R112). -/
  | slice
  /-- NRZI, index 0x32 (R114). -/
  | nrzi
  /-- DESTUFF, index 0x33 (R116). -/
  | destuff
  /-- PACK, index 0x34 (R118). -/
  | pack
  /-- LENSEL, index 0x40 (R125). -/
  | lensel
  /-- CRC16, index 0x41 (R127). -/
  | crc16
  /-- CRCCHK, index 0x42 (R130). -/
  | crcchk
  /-- GETBITS, index 0x50 (R135). -/
  | getbits
  /-- UNPACK.POS, index 0x51 (R143). -/
  | unpackPos
  /-- UNPACK.BASE, index 0x52 (R145). -/
  | unpackBase
  /-- UNPACK.STATIC, index 0x53 (R147). -/
  | unpackStatic
  /-- UNPACK.UNKNOWN, index 0x54 (R149). -/
  | unpackUnknown
  /-- EMIT, index 0x55 (R150). -/
  | emitOp
  /-- MSG.POS.1, first body octet `000001xx` (R66). -/
  | msgPos1 (octet : Byte)
  /-- MSG.POS.2, first body octet `000010xx` (R66). -/
  | msgPos2 (octet : Byte)
  /-- MSG.POS.3, first body octet `000011xx` (R66). -/
  | msgPos3 (octet : Byte)
  /-- MSG.BASE, first body octet `000100xx` (R66). -/
  | msgBase (octet : Byte)
  /-- MSG.STATIC, first body octet `000101xx` (R66). -/
  | msgStatic (octet : Byte)
  /-- MSG.UNKNOWN.0, first body octet `000000xx` (R66, R67). -/
  | msgUnknown0 (octet : Byte)
  /-- MSG.UNKNOWN.6_7, first body octet `00011xxx` (R66, R67). -/
  | msgUnknown6to7 (octet : Byte)
  /-- MSG.UNKNOWN.8_15, first body octet `001xxxxx` (R66, R67). -/
  | msgUnknown8to15 (octet : Byte)
  /-- MSG.UNKNOWN.16_31, first body octet `01xxxxxx` (R66, R67). -/
  | msgUnknown16to31 (octet : Byte)
  /-- MSG.UNKNOWN.32_63, first body octet `1xxxxxxx` (R66, R67). -/
  | msgUnknown32to63 (octet : Byte)
  deriving DecidableEq, Repr

end Sys2Proof
end

