-- ==== Sys2Proof/WellFormed.lean ====
section
/-! DEFINITION. Which terms of `Instr` an encoding can give: an operation always, a message class
when its octet has the fixed bits of its row (spec/30_encoding.md R66, spec/opcode_table.json). -/

namespace Sys2Proof

/-- The octet has the fixed bits of a row: `octet & mask = match` (the table's own test). -/
def hasPattern (mask pattern octet : Byte) : Bool :=
  octet &&& mask == pattern

/-- The instruction is one some octet encodes. -/
def Instr.wellFormed : Instr → Bool
  | .runOp | .readOp | .sweepOp | .scanOp | .aisdec => true
  | .sdec | .fir | .dec3 | .splitOp | .dec2 | .fmdem | .amenv => true
  | .gate | .corr | .syncOp => true
  | .clearOp | .slice | .nrzi | .destuff | .pack => true
  | .lensel | .crc16 | .crcchk => true
  | .getbits | .unpackPos | .unpackBase | .unpackStatic | .unpackUnknown | .emitOp => true
  | .msgPos1 o => hasPattern 0xFC 0x04 o
  | .msgPos2 o => hasPattern 0xFC 0x08 o
  | .msgPos3 o => hasPattern 0xFC 0x0C o
  | .msgBase o => hasPattern 0xFC 0x10 o
  | .msgStatic o => hasPattern 0xFC 0x14 o
  | .msgUnknown0 o => hasPattern 0xFC 0x00 o
  | .msgUnknown6to7 o => hasPattern 0xF8 0x18 o
  | .msgUnknown8to15 o => hasPattern 0xE0 0x20 o
  | .msgUnknown16to31 o => hasPattern 0xC0 0x40 o
  | .msgUnknown32to63 o => hasPattern 0x80 0x80 o

end Sys2Proof
end

