-- ==== Sys2Proof/Decode.lean ====
section
/-! DEFINITION. The decoder and the encoder, both written from the rows of spec/opcode_table.json
(spec/30_encoding.md R66, R69). The table has two formats whose octets overlap, so a decoder is told
the format; `decodeTableWord`, which is told none, tries the operation indices first (log 2). -/

namespace Sys2Proof

/-- Why an octet sequence is no instruction. -/
inductive DecodeError where
  /-- There is no octet to decode. -/
  | noOctet
  /-- The octet is not an operation index of R69. -/
  | noSuchOperation (tag : Byte)
  deriving DecidableEq, Repr

/-- A row of the opcode table: its mnemonic, its format, its mask and match, and the instruction an octet
that matches it stands for. -/
structure Row where
  mnemonic : String
  format : Format
  mask : Byte
  pattern : Byte
  build : Byte → Instr

/-- An `OP` row: the index is the whole octet. -/
def opRow (mnemonic : String) (index : Byte) (i : Instr) : Row :=
  ⟨mnemonic, .op, 0xFF, index, fun _ => i⟩

/-- The operation rows (R69). -/
def opTable : List Row :=
  [ opRow "RUN" 0x00 .runOp, opRow "READ" 0x01 .readOp, opRow "SWEEP" 0x02 .sweepOp,
    opRow "SCAN" 0x03 .scanOp, opRow "AISDEC" 0x04 .aisdec,
    opRow "SDEC" 0x10 .sdec, opRow "FIR" 0x11 .fir, opRow "DEC3" 0x12 .dec3,
    opRow "SPLIT" 0x13 .splitOp, opRow "DEC2" 0x14 .dec2, opRow "FMDEM" 0x15 .fmdem,
    opRow "AMENV" 0x16 .amenv,
    opRow "GATE" 0x20 .gate, opRow "CORR" 0x21 .corr, opRow "SYNC" 0x22 .syncOp,
    opRow "CLEAR" 0x30 .clearOp, opRow "SLICE" 0x31 .slice, opRow "NRZI" 0x32 .nrzi,
    opRow "DESTUFF" 0x33 .destuff, opRow "PACK" 0x34 .pack,
    opRow "LENSEL" 0x40 .lensel, opRow "CRC16" 0x41 .crc16, opRow "CRCCHK" 0x42 .crcchk,
    opRow "GETBITS" 0x50 .getbits, opRow "UNPACK.POS" 0x51 .unpackPos,
    opRow "UNPACK.BASE" 0x52 .unpackBase, opRow "UNPACK.STATIC" 0x53 .unpackStatic,
    opRow "UNPACK.UNKNOWN" 0x54 .unpackUnknown, opRow "EMIT" 0x55 .emitOp ]

/-- The message-ID rows (R66). -/
def msgTable : List Row :=
  [ ⟨"MSG.POS.1", .msgId, 0xFC, 0x04, .msgPos1⟩,
    ⟨"MSG.POS.2", .msgId, 0xFC, 0x08, .msgPos2⟩,
    ⟨"MSG.POS.3", .msgId, 0xFC, 0x0C, .msgPos3⟩,
    ⟨"MSG.BASE", .msgId, 0xFC, 0x10, .msgBase⟩,
    ⟨"MSG.STATIC", .msgId, 0xFC, 0x14, .msgStatic⟩,
    ⟨"MSG.UNKNOWN.0", .msgId, 0xFC, 0x00, .msgUnknown0⟩,
    ⟨"MSG.UNKNOWN.6_7", .msgId, 0xF8, 0x18, .msgUnknown6to7⟩,
    ⟨"MSG.UNKNOWN.8_15", .msgId, 0xE0, 0x20, .msgUnknown8to15⟩,
    ⟨"MSG.UNKNOWN.16_31", .msgId, 0xC0, 0x40, .msgUnknown16to31⟩,
    ⟨"MSG.UNKNOWN.32_63", .msgId, 0x80, 0x80, .msgUnknown32to63⟩ ]

/-- The instruction the first matching row of a table gives. -/
def lookupRow (rows : List Row) (octet : Byte) : Option Instr :=
  (rows.find? fun r => hasPattern r.mask r.pattern octet).map fun r => r.build octet

/-- The decoder. An operation index that R69 does not list is rejected by name. No message ID is illegal
(R67), so every octet has a message class; the error of that branch is never given. -/
def decode : Format → Byte → Except DecodeError Instr
  | .op, octet => (lookupRow opTable octet).elim (.error (.noSuchOperation octet)) .ok
  | .msgId, octet => (lookupRow msgTable octet).elim (.error (.noSuchOperation octet)) .ok

/-- Decoding from a stream of octets: the instruction and the octets after it. -/
def decodeBytes (f : Format) : List Byte → Except DecodeError (Instr × List Byte)
  | [] => .error .noOctet
  | b :: rest =>
    match decode f b with
    | .ok i => .ok (i, rest)
    | .error e => .error e

/-- The format and the octet of an instruction: the index of R69, or the first body octet of R66. -/
def encode : Instr → Format × Byte
  | .runOp => (.op, 0x00)
  | .readOp => (.op, 0x01)
  | .sweepOp => (.op, 0x02)
  | .scanOp => (.op, 0x03)
  | .aisdec => (.op, 0x04)
  | .sdec => (.op, 0x10)
  | .fir => (.op, 0x11)
  | .dec3 => (.op, 0x12)
  | .splitOp => (.op, 0x13)
  | .dec2 => (.op, 0x14)
  | .fmdem => (.op, 0x15)
  | .amenv => (.op, 0x16)
  | .gate => (.op, 0x20)
  | .corr => (.op, 0x21)
  | .syncOp => (.op, 0x22)
  | .clearOp => (.op, 0x30)
  | .slice => (.op, 0x31)
  | .nrzi => (.op, 0x32)
  | .destuff => (.op, 0x33)
  | .pack => (.op, 0x34)
  | .lensel => (.op, 0x40)
  | .crc16 => (.op, 0x41)
  | .crcchk => (.op, 0x42)
  | .getbits => (.op, 0x50)
  | .unpackPos => (.op, 0x51)
  | .unpackBase => (.op, 0x52)
  | .unpackStatic => (.op, 0x53)
  | .unpackUnknown => (.op, 0x54)
  | .emitOp => (.op, 0x55)
  | .msgPos1 o => (.msgId, o)
  | .msgPos2 o => (.msgId, o)
  | .msgPos3 o => (.msgId, o)
  | .msgBase o => (.msgId, o)
  | .msgStatic o => (.msgId, o)
  | .msgUnknown0 o => (.msgId, o)
  | .msgUnknown6to7 o => (.msgId, o)
  | .msgUnknown8to15 o => (.msgId, o)
  | .msgUnknown16to31 o => (.msgId, o)
  | .msgUnknown32to63 o => (.msgId, o)

/-- The octets of an instruction: one. -/
def encodeBytes (i : Instr) : List Byte := [(encode i).2]

/-- Decoding an octet of which the format is not known: an operation index if it is one, otherwise a message
class (log 2). -/
def decodeOctet (octet : Byte) : Option Instr :=
  match decode .op octet with
  | .ok i => some i
  | .error _ =>
    match decode .msgId octet with
    | .ok i => some i
    | .error _ => none

/-- The instruction the decoder reads from a word of the opcode table: every row has 8 bits. -/
def decodeTableWord (nbits w : Nat) : Option Instr :=
  if nbits = 8 ∧ w < 256 then decodeOctet (BitVec.ofNat 8 w) else none

end Sys2Proof
end

