-- ==== Sys2Proof/Machine/Crc.lean ====
section
/-! DEFINITION. C8: LENSEL, CRC16, CRCCHK (spec/44_crc.md). -/

namespace Sys2Proof.Machine

/-- One shift step of R127. -/
def crcShift (c : Word16) : Word16 :=
  if c &&& 1 = 1 then (c >>> 1) ^^^ crcPolyReversed else c >>> 1

/-- `n` shift steps. -/
def crcShifts : Nat → Word16 → Word16
  | 0, c => c
  | n + 1, c => crcShifts n (crcShift c)

/-- One octet enters at the low end and is shifted through (R127). -/
def crcOctet (c : Word16) (d : Byte) : Word16 := crcShifts 8 (c ^^^ d.setWidth 16)

/-- `CRC16(d)` (R127). -/
def crc16Of (d : List Byte) : Word16 := d.foldl crcOctet crcInit ^^^ crcXorOut

/-- `mid, blen, short <- …` (R125). -/
def State.setLength (s : State) (mid : BitVec 6) (blen : BodyLen) (short : Bool) : State :=
  { s with mid := mid, blen := blen, short := short }

/-- `crc <- c`. -/
def State.setCrc (s : State) (c : Word16) : State :=
  { s with crc := c }

/-- `crc, fcs, crc_ok <- …` (R130). -/
def State.setCheck (s : State) (crc fcs : Word16) (ok : Bool) : State :=
  { s with crc := crc, fcs := fcs, crcOk := ok }

/-- LENSEL (R125) with the short-frame test (R126). -/
def execLensel (s : State) : StepOutcome :=
  let mid := messageId (s.bufRead hdr)
  let blen := bodyLenOf mid
  let short := shortFlag s.nbits blen
  let t := s.setLength mid blen short
  .next (if short then t.raise .midFrameFade (some s.idx) else t.ret .plain)

/-- CRC16 on its operand latch (R127; log 4). -/
def execCrc16 (s : State) : StepOutcome :=
  .next ((s.setCrc (crc16Of s.crcD)).ret .plain)

/-- The received FCS: two octets after the body, low octet first (R41, R130). -/
def State.receivedFcs (s : State) : Word16 :=
  (s.bufRead (hdr + s.blen.octets)).setWidth 16 |||
    ((s.bufRead (hdr + 1 + s.blen.octets)).setWidth 16 <<< 8)

/-- CRCCHK (R130). -/
def execCrcchk (s : State) : StepOutcome :=
  let crc := crc16Of (s.bufOctets hdr s.blen.octets)
  let fcs := s.receivedFcs
  let ok := crcOkFlag crc fcs
  let t := s.setCheck crc fcs ok
  .next (if ok then t.ret .plain else t.raise .crcMismatch (some s.idx))

end Sys2Proof.Machine
end

