-- ==== Sys2Proof/Machine/Deframer.lean ====
section
/-! DEFINITION. C7: CLEAR, SLICE, NRZI, DESTUFF, PACK (spec/43_deframer.md). -/

namespace Sys2Proof.Machine

/-- 256 octets of 0. -/
def clearedBuf : Memory := Memory.ofBytes 0 (List.replicate frameBytes 0)

/-- The start values of `BUF` and the deframer registers (R111). -/
def State.clearFrame (s : State) : State :=
  { s with buf := clearedBuf, m := 0, prev := none, hist := 0, wp := hdr, bp := 0, nbits := 0 }

/-- CLEAR (R111). -/
def execClear (s : State) : StepOutcome :=
  .next (s.clearFrame.ret .plain)

/-- The sample of payload symbol `m`: `p0 + off(32 + m)`, on the grid anchored at `p0` (R105, R112). -/
def State.symbolIdx (s : State) : Nat := s.p0 + off (patLen + s.m)

/-- `idx <- a`. -/
def State.setIdx (s : State) (a : Nat) : State :=
  { s with idx := a }

/-- The symbol is decided and counted: `sym <- b ; m <- m + 1` (R112). -/
def State.takeSymbol (s : State) (b : Bool) : State :=
  { s with sym := b, m := s.m + 1 }

/-- SLICE (R112): the range test, then the power gate, then the decision. -/
def execSlice (s : State) : StepOutcome :=
  let idx := s.symbolIdx
  let t := s.setIdx idx
  .next (
    if s.n ≤ idx then t.ret (.stop .exhausted)
    else if s.aAt idx < gateOff then t.ret (.stop .fade)
    else (t.takeSymbol (!decide (0 < s.fAt idx))).ret .plain)

/-- NRZI (R114): equal symbols give 1; the sentinel gives 0. -/
def nrziBit (prev : Option Bool) (sym : Bool) : Bool :=
  match prev with
  | none => false
  | some p => p == sym

/-- The decoded bit, and `prev <- sym` (R114). -/
def State.setOut (s : State) (b : Bool) : State :=
  { s with out := b, prev := some s.sym }

/-- NRZI (R114). -/
def execNrzi (s : State) : StepOutcome :=
  .next ((s.setOut (nrziBit s.prev s.sym)).ret .plain)

/-- The history with a kept bit shifted in, the newest in bit 0 (R116). -/
def histShift (hist : BitVec 5) (out : Bool) : BitVec 5 :=
  (hist <<< 1) ||| (BitVec.ofBool out).setWidth 5

/-- `hist <- h`. -/
def State.setHist (s : State) (h : BitVec 5) : State :=
  { s with hist := h }

/-- DESTUFF (R116). -/
def execDestuff (s : State) : StepOutcome :=
  .next (
    if s.hist = 0b11111 ∧ s.out = false then (s.setHist 0).ret .drop
    else (s.setHist (histShift s.hist s.out)).ret .keep)

/-- An octet with one more bit ORed in at position `bp` (R118). -/
def packBit (octet : Byte) (bp : Nat) (out : Bool) : Byte :=
  octet ||| ((BitVec.ofBool out).setWidth 8 <<< bp)

/-- One more bit counted, and the position of the next one (R118). -/
def State.countBit (s : State) : State :=
  { s with
    nbits := s.nbits + 1
    bp := if s.bp + 1 = 8 then 0 else s.bp + 1
    wp := if s.bp + 1 = 8 then s.wp + 1 else s.wp }

/-- PACK (R118). A write pointer beyond the array is the model's fault of U2. -/
def execPack (s : State) : StepOutcome :=
  if s.wp < frameBytes then
    .next ((s.bufWrite s.wp (packBit (s.bufRead s.wp) s.bp s.out)).countBit.ret .plain)
  else .fault .bufRange

end Sys2Proof.Machine
end

