-- ==== Sys2Proof/Machine/Demod.lean ====
section
/-! DEFINITION. C5: FMDEM and AMENV (spec/41_demod.md). Each writes its own output stream; R92's replacement
of `I` and `Q` is `State.commitDemod`, made when both have run (log 12), so the hazard of R198 does not
arise. -/

namespace Sys2Proof.Machine

/-- `F[i] = Q[i+1]·I[i] − Q[i]·I[i+1]` (R90). -/
def State.fmSample (s : State) (c : Channel) (i : Nat) : Int :=
  s.elem c.qStream (i + 1) * s.elem c.iStream i - s.elem c.qStream i * s.elem c.iStream (i + 1)

/-- `A[i] = I[i+1]² + Q[i+1]²`, the power of sample `i + 1` (R91). -/
def State.amSample (s : State) (c : Channel) (i : Nat) : Int :=
  s.elem c.iStream (i + 1) * s.elem c.iStream (i + 1) + s.elem c.qStream (i + 1) * s.elem c.qStream (i + 1)

/-- The stream FMDEM produces (log 12). -/
def State.setFOut (s : State) (y : List Int) : State :=
  { s with fOut := y }

/-- The stream AMENV produces (log 12). -/
def State.setAOut (s : State) (y : List Int) : State :=
  { s with aOut := y }

/-- FMDEM on the channel `argCh` (R90). -/
def execFmdem (s : State) : StepOutcome :=
  .next ((s.setFOut ((List.range (s.len s.argCh - 1)).map (s.fmSample s.argCh))).ret .plain)

/-- AMENV on the channel `argCh` (R91). -/
def execAmenv (s : State) : StepOutcome :=
  .next ((s.setAOut ((List.range (s.len s.argCh - 1)).map (s.amSample s.argCh))).ret .plain)

end Sys2Proof.Machine
end

