-- ==== Sys2Proof/Machine/Frontend.lean ====
section
/-! DEFINITION. C1 to C4: SDEC, FIR, DEC3, SPLIT, DEC2 (spec/40_frontend.md). Arithmetic is exact over the
integers (R88, R89); every stage is a function of its input as it stood (R76), so the in-place hazards of
R196 and R197 do not arise. -/

namespace Sys2Proof.Machine

/-! ### C1 -/

/-- Offset binary to signed: `b − 128` (R51, R70). -/
def signedSample (b : Byte) : Int := (b.toNat : Int) - 128

/-- SDEC (R70). -/
def execSdec (s : State) : StepOutcome :=
  let yI := (List.range s.cfg.n).map fun i => signedSample (s.rawRead (2 * i))
  let yQ := (List.range s.cfg.n).map fun i => signedSample (s.rawRead (2 * i + 1))
  .next ((s.storePair .one yI yQ s.cfg.n).ret .plain)

/-! ### The FIR primitive -/

/-- The exact accumulator of R72: the centre product and thirty symmetric pairs. -/
def firAcc (tap : Nat → Int) (x : Int → Int) (n : Int) : Int :=
  (List.range 30).foldl
    (fun acc t => acc + tap (t + 1) * (x (n - (t + 1 : Nat)) + x (n + (t + 1 : Nat))))
    (tap 0 * x n)

/-- `FIR(x, h, n)`: the accumulator shifted right by 19 arithmetically, that is rounded down (R72, R202). -/
def State.firValue (s : State) (x : StreamId) (h : Kernel) (n : Nat) : Int :=
  firAcc (s.cfg.tap h) (s.tapIn x) n >>> firShift

/-- The result of FIR (log 4). -/
def State.setFirY (s : State) (y : Int) : State :=
  { s with firY := y }

/-- FIR on its operand latches (R72; log 4). -/
def execFir (s : State) : StepOutcome :=
  .next ((s.setFirY (s.firValue s.firX s.firH s.firN)).ret .plain)

/-! ### C2 -/

/-- The outputs of a decimator: output `j` centred on input `ratio·j` (R75, R84). -/
def State.decimated (s : State) (x : StreamId) (h : Kernel) (ratio count : Nat) : List Int :=
  (List.range count).map fun j => s.firValue x h (ratio * j)

/-- The length after C2, `max(0, n0//3 − 10)` (R32, R75). -/
def dec3Len (n0 : Nat) : Nat := n0 / dcm3 - trim3

/-- DEC3 (R75, R76). -/
def execDec3 (s : State) : StepOutcome :=
  let n2 := dec3Len s.len1
  .next ((s.storePair .one (s.decimated .i1 .h3 dcm3 n2) (s.decimated .q1 .h3 dcm3 n2) n2).ret .plain)

/-! ### C3 -/

/-- The four rotations `rot_r`, by their component assignments (R78). -/
def rot (r : Nat) (a b : Int) : Int × Int :=
  match r with
  | 0 => (a, b)
  | 1 => (b, -a)
  | 2 => (-a, -b)
  | _ => (-b, a)

/-- Channel 2 at index `i`: the DEC3 output rotated by `i mod 4` (R80). -/
def splitTwo (i : Nat) (a b : Int) : Int × Int := rot (i % 4) a b

/-- Channel 1 at index `i`: the rotated sample, negated at odd `i` (R80). -/
def splitOne (i : Nat) (a b : Int) : Int × Int :=
  if i % 2 = 1 then (-(splitTwo i a b).1, -(splitTwo i a b).2) else splitTwo i a b

/-- SPLIT (R80): both channels are computed from the DEC3 output before anything is written (R197). -/
def execSplit (s : State) : StepOutcome :=
  let n2 := s.len1
  let at1 := fun i => splitOne i (s.elem .i1 i) (s.elem .q1 i)
  let at2 := fun i => splitTwo i (s.elem .i1 i) (s.elem .q1 i)
  let s1 := s.storePair .one ((List.range n2).map fun i => (at1 i).1) ((List.range n2).map fun i => (at1 i).2) n2
  let s2 := s1.storePair .two ((List.range n2).map fun i => (at2 i).1) ((List.range n2).map fun i => (at2 i).2) n2
  .next (s2.ret .plain)

/-! ### C4 -/

/-- The length after C4, `max(0, n2//2 − 15)` (R32, R84). -/
def dec2Len (n2 : Nat) : Nat := n2 / dcm - trim2

/-- DEC2 (R84): the four streams, each filtered from its own input; the count is taken from `len1` (log 16). -/
def execDec2 (s : State) : StepOutcome :=
  let n4 := dec2Len s.len1
  let s1 := s.storePair .one (s.decimated .i1 .h8 dcm n4) (s.decimated .q1 .h8 dcm n4) n4
  let s2 := s1.storePair .two (s.decimated .i2 .h8 dcm n4) (s.decimated .q2 .h8 dcm n4) n4
  .next (s2.ret .plain)

end Sys2Proof.Machine
end

