-- ==== Sys2Proof/Machine/Locator.lean ====
section
/-! DEFINITION. C6: GATE, CORR, SYNC (spec/42_locator.md), on the streams `A`, `F` of the selected
channel. -/

namespace Sys2Proof.Machine

/-! ### Burst gate -/

/-- The loop of R96 over the `left` samples from `t` on, with `run` so far: the final `run`, and the start of
the first run of 100 if there is one. -/
def gateLoop (a : Nat → Int) : (left t run : Nat) → Nat × Option Nat
  | 0, _, run => (run, none)
  | left + 1, t, run =>
    let run' := if gateOn ≤ a t then run + 1 else 0
    if run' = gateRun then (run', some (t + 1 - gateRun)) else gateLoop a left (t + 1) run'

/-- `i, run <- …` (R96). -/
def State.setGate (s : State) (i run : Nat) : State :=
  { s with i := i, run := run }

/-- GATE from the offset in `i` (R96), with the tail test that ends the attempt (R97), which the
signature of R69 puts here (`i | end-of-buffer`; log 26). -/
def execGate (s : State) : StepOutcome :=
  let g := gateLoop s.aAt (s.n - s.i) s.i 0
  let i := g.2.getD s.n
  let t := s.setGate i g.1
  .next (if tailTooShort s.n i then t.raise .bufferExhaustion (some i) else t.ret .plain)

/-! ### Correlator -/

/-- What one candidate shift leaves: the pattern index reached, the score so far, and whether all 32 terms
passed (R100, R101). -/
structure ShiftRun where
  j : Nat
  s : Int
  ok : Bool
  deriving DecidableEq, Repr

/-- The inner loop of R100 and R102: the terms `PAT[j]·F[base + off(j)]` from `j` on, left at the first term
that `bad` rejects; none when an index leaves the stream (U2). -/
def corrTerms (f : Nat → Option Int) (bad : Int → Bool) (base : Nat) : List Int → Nat → Int → Option ShiftRun
  | [], j, s => some ⟨j, s, true⟩
  | p :: ps, j, s =>
    match f (base + off j) with
    | none => none
    | some v => if bad (p * v) then some ⟨j, s, false⟩ else corrTerms f bad base ps (j + 1) (s + p * v)

/-- The correlator's registers. -/
structure CorrRegs where
  k : Nat
  j : Nat
  s : Int
  smax : Int
  imax : Nat
  deriving DecidableEq, Repr

/-- One pass over the shifts `0 .. 104` (R100, R102): `bad` rejects a term, `better` compares a score with the
best so far; the comparison is strict, so the lowest shift wins a tie (R101). -/
def corrPass (f : Nat → Option Int) (bad : Int → Bool) (better : Int → Int → Bool) (i : Nat) :
    List Nat → CorrRegs → Option CorrRegs
  | [], r => some r
  | k :: ks, r =>
    match corrTerms f bad (i + k) pat 0 0 with
    | none => none
    | some t =>
      let r' : CorrRegs :=
        if t.ok && better t.s r.smax then ⟨k, t.j, t.s, t.s, k⟩ else ⟨k, t.j, t.s, r.smax, r.imax⟩
      corrPass f bad better i ks r'

/-- The positive pass (R100). -/
def corrPositive (f : Nat → Option Int) (i : Nat) (r : CorrRegs) : Option CorrRegs :=
  corrPass f (fun t => decide (t < 0)) (fun s best => decide (best < s)) i (List.range kSpan)
    { r with smax := 0, imax := 0 }

/-- The negative pass (R102). -/
def corrNegative (f : Nat → Option Int) (i : Nat) (r : CorrRegs) : Option CorrRegs :=
  corrPass f (fun t => decide (0 < t)) (fun s best => decide (s < best)) i (List.range kSpan) r

/-- Both passes: the negative one only when the positive one left `smax = 0` (R102). -/
def correlate (f : Nat → Option Int) (i : Nat) (r : CorrRegs) : Option CorrRegs :=
  match corrPositive f i r with
  | none => none
  | some p => if p.smax = 0 then corrNegative f i p else some p

/-- The correlator's registers and the flags `sync`, `pol` (R100, R103). -/
def State.setCorr (s : State) (r : CorrRegs) : State :=
  { s with
    k := r.k, j := r.j, score := r.s, smax := r.smax, imax := r.imax
    sync := syncFlag r.smax, pol := polFlag s.pol r.smax }

/-- `p0 <- a` (R104). -/
def State.setP0 (s : State) (a : Nat) : State :=
  { s with p0 := a }

/-- CORR (R100 to R103). -/
def execCorr (s : State) : StepOutcome :=
  match correlate s.fAt? s.i ⟨s.k, s.j, s.score, s.smax, s.imax⟩ with
  | none => .fault .streamRange
  | some r => .next ((s.setCorr r).ret .plain)

/-! ### Outcome -/

/-- SYNC (R104): the bit centre of pattern symbol 0, or NoSync with the skip-ahead (R171). -/
def execSync (s : State) : StepOutcome :=
  .next (if s.sync then (s.setP0 (s.i + s.imax)).ret .plain
    else s.raise .noSync (some (s.i + skipAhead)))

end Sys2Proof.Machine
end

