-- ==== Sys2Proof/Machine/Sequencer.lean ====
section
/-! DEFINITION. The sequencer (spec/46_sequencer.md): the composite operations AISDEC, SCAN, SWEEP, READ and
RUN, each with its whole effect, and the transitions of R167 that a step makes after one operation (log 1). -/

namespace Sys2Proof.Machine

/-! ### One decode attempt -/

/-- The deframer loop of R120. `left` bounds the symbols; `symbolIdx` grows with each, so the range test of
SLICE ends the loop before the bound does. -/
def deframeLoop : Nat → State → StepOutcome
  | 0, s => .next s
  | left + 1, s =>
    seqOp (execSlice s) fun a =>
      match a.res with
      | .stop _ => .next a
      | _ =>
        seqOp (execNrzi a) fun b =>
          seqOp (execDestuff b) fun c =>
            match c.res with
            | .drop => deframeLoop left c
            | _ =>
              seqOp (execPack c) fun d =>
                if d.wp = frameBytes then .next d else deframeLoop left d

/-- `resume <- idx`, the end of DEFRAME (R120). -/
def State.endDeframe (s : State) : State := { s with resume := s.idx }

/-- DEFRAME (R120). -/
def deframe (s : State) : StepOutcome :=
  seqOp (execClear s) fun a => seqOp (deframeLoop (a.n + 1) a) fun b => .next b.endDeframe

/-- The one UNPACK operation that `mid` chooses (R139). -/
def unpackByMid (s : State) : StepOutcome :=
  if s.mid = 1 ∨ s.mid = 2 ∨ s.mid = 3 then execUnpackPos s
  else if s.mid = 4 then execUnpackBase s
  else if s.mid = 5 then execUnpackStatic s
  else execUnpackUnknown s

/-- `phase` at a sub-phase of the attempt on the selected channel (R24). -/
def State.enter (s : State) (sub : SubPhase) : State := s.setPhase (.scan s.ch sub)

/-- The sub-phases UNPACK and EMIT of R155. -/
def unpackAndEmit (s : State) : StepOutcome :=
  seqOp (unpackByMid (s.enter .unpack)) fun a =>
    seqOp (execEmit (a.enter .emit)) fun b => .next (b.finish .record)

/-- The sub-phase CHECK of R155 and what follows it. -/
def checkFrame (s : State) : StepOutcome :=
  seqOp (execLensel (s.enter .check)) fun a =>
    if a.hasRaised .midFrameFade then .next (a.finish .short)
    else seqOp (execCrcchk a) fun b =>
      if b.hasRaised .crcMismatch then .next (b.finish .crcfail) else unpackAndEmit b

/-- The sub-phase CORR of R155 and what follows it. -/
def locateFrame (s : State) : StepOutcome :=
  seqOp (execCorr (s.enter .corr)) fun a =>
    seqOp (execSync a) fun b =>
      if b.hasRaised .noSync then .next (b.finish .nosync)
      else seqOp (deframe (b.enter .deframe)) checkFrame

/-- AISDEC from the offset in `i` (R155). The resume index is left in `resume`, the outcome in `res`. -/
def execAisdec (s : State) : StepOutcome :=
  seqOp (execGate (s.enter .gate)) fun a =>
    if a.hasRaised .bufferExhaustion then .next (a.finish .eob) else locateFrame a

/-! ### Scanning one channel -/

/-- The loop of R158. Each attempt but the last advances `i` (R163), so `left = n + 1` attempts are enough. -/
def scanLoop : Nat → State → StepOutcome
  | 0, s => .next s
  | left + 1, s =>
    if scanContinues s.n s.i then seqOp (execAisdec s) fun t => scanLoop left (t.setI t.resume)
    else .next s

/-- The start of a scan (R158): `ch <- c ; i <- 0`. R24 and R157 name no sub-phase outside a decode attempt: that the scan
stands in the sub-phase GATE from its entry on, also when it makes no attempt, is the model's choice (log 27). -/
def State.beginScan (s : State) (c : Channel) : State :=
  { (s.setPhase (.scan c .gate)) with ch := c, i := 0 }

/-- SCAN of the channel `argCh` (R158). -/
def execScan (s : State) : StepOutcome :=
  let t := s.beginScan s.argCh
  seqOp (scanLoop (t.n + 1) t) fun u => .next (u.ret .plain)

/-! ### One sweep -/

/-- DEMOD on one channel (R92): both operations on the same input, then the replacement. -/
def demodChannel (s : State) (c : Channel) : StepOutcome :=
  seqOp (execFmdem (s.setArgCh c)) fun a => seqOp (execAmenv a) fun b => .next b.commitDemod

/-- SWEEP (R157). -/
def execSweep (s : State) : StepOutcome :=
  seqOp (execSdec (s.setPhase .sdec)) fun s =>
  seqOp (execDec3 (s.setPhase .dec3)) fun s =>
  seqOp (execSplit (s.setPhase .split)) fun s =>
  seqOp (execDec2 (s.setPhase .dec2)) fun s =>
  seqOp (demodChannel (s.setPhase .demod) .one) fun s =>
  seqOp (demodChannel s .two) fun s =>
  seqOp (execScan (s.setArgCh .one)) fun s =>
  seqOp (execScan (s.setArgCh .two)) fun s =>
  .next (s.ret .plain)

/-! ### The run -/

/-- One block delivered: `RAW` holds its bytes, which the source no longer has (R161). -/
def State.takeBlock (s : State) : State :=
  { s with raw := Memory.ofBytes 0 (s.src.take (2 * s.cfg.n)), src := s.src.drop (2 * s.cfg.n) }

/-- No block: the partial bytes are gone and nothing in `RAW` may be used (R161, U5). -/
def State.dropPartial (s : State) : State :=
  { s with raw := [], rawEpoch := s.rawEpoch + 1, src := [] }

/-- READ (R161). A source that has neither a whole block nor closed keeps the core waiting in `phase = READ`
(U12); after a failed READ `RAW` holds nothing that may be used (U5) and the partial bytes are gone. -/
def execRead (s : State) : StepOutcome :=
  let t := s.setPhase .read
  .next (
    if 2 * s.cfg.n ≤ s.src.length then t.takeBlock.ret .block
    else if s.srcClosed then t.dropPartial.raise .sourceClosed none
    else t.ret .waiting)

/-- The loop of R162, for at most `left` blocks: it ends in `DONE` when the source is closed, and stands in
`phase = READ` while the source keeps the core waiting. -/
def runLoop : Nat → State → StepOutcome
  | 0, s => .next (s.setPhase .read)
  | left + 1, s =>
    seqOp (execRead s) fun t =>
      match t.res with
      | .block => seqOp (execSweep t) (runLoop left)
      | .raised .sourceClosed => .next (t.setPhase .done)
      | _ => .next t

/-- The stream start of R160: `started <- 1` and the event, once. -/
def State.streamStart (s : State) : State :=
  { s with started := true, sink := s.sink ++ [SinkItem.streamStart] }

/-- Whether a run is in progress: RUN is entered only from `IDLE` or `DONE` (U13). -/
def State.running (s : State) : Bool :=
  !(s.phase == .idle || s.phase == .done)

/-- RUN (R162): reset, stream start, then blocks until the source closes or keeps the core waiting. Every block
the source has ready is swept; for `2N = 0` one is (log 10). -/
def execRun (s : State) : StepOutcome :=
  if s.running then .refused .runInProgress
  else if s.cfg.ok then runLoop (s.src.length / (2 * s.cfg.n) + 1) s.runReset.streamStart
  else .refused .kernelConstraint

/-! ### The transitions of R167 -/

/-- The next operation with the index of an instruction. -/
def fetchOf (i : Instr) : Fetch := .tag (encode i).2

/-- The first operation of a phase. -/
def phaseFetch : Phase → Fetch
  | .idle => fetchOf .runOp
  | .read => fetchOf .readOp
  | .sdec => fetchOf .sdec
  | .dec3 => fetchOf .dec3
  | .split => fetchOf .splitOp
  | .dec2 => fetchOf .dec2
  | .demod => fetchOf .fmdem
  | .scan _ .gate => fetchOf .gate
  | .scan _ .corr => fetchOf .corr
  | .scan _ .deframe => fetchOf .slice
  | .scan _ .check => fetchOf .lensel
  | .scan _ .unpack => .body
  | .scan _ .emit => fetchOf .emitOp
  | .done => .halt

/-- `READ` is next (`SCAN(2) → READ`). -/
def State.toRead (s : State) : State := s.goto .read (fetchOf .readOp)

/-- An attempt on the selected channel is next (`→ GATE`). -/
def State.toGate (s : State) : State := s.goto (.scan s.ch .gate) (fetchOf .gate)

/-- The scan of channel 2 is next: its first attempt, or, when its streams are too short for one, the end of
the sweep, so that no step stands in a scan without an attempt (log 27). -/
def State.toScanTwo (s : State) : State :=
  let t := s.beginScan .two
  if scanContinues t.n t.i then t.toGate else t.toRead

/-- The loop test of R158 on the selected channel, and what follows its scan. -/
def State.scanNext (s : State) : State :=
  if scanContinues s.n s.i then s.toGate
  else match s.ch with
    | .one => s.toScanTwo
    | .two => s.toRead

/-- After an attempt: `(i, outcome) <- AISDEC(i)`, then the loop test (R158, R180). -/
def State.afterAttempt (s : State) : State := (s.setI s.resume).scanNext

/-- After DEMOD: the scan of channel 1 (`DEMOD → SCAN(1)`); a scan too short for an attempt is passed over (log 27). -/
def State.toScanOne (s : State) : State := (s.beginScan .one).scanNext

/-- The deframer has stopped (`DEFRAME → CHECK`). -/
def State.toCheck (s : State) : State := s.endDeframe.goto (.scan s.ch .check) (fetchOf .lensel)

/-- The next operation of the deframer. -/
def State.inDeframe (s : State) (i : Instr) : State := s.goto (.scan s.ch .deframe) (fetchOf i)

/-- The sequencer after the operation `i` has completed in state `s` (R167). FIR, CRC16 and GETBITS are parts
of other operations: after one of them the operation of the current phase is next (log 1). The streams of a channel are
replaced after AMENV, with what the latches `fOut` and `aOut` hold; the spec does not say what AMENV without FMDEM before
it on that channel leaves (log 12). -/
def advance (i : Instr) (s : State) : State :=
  match i with
  | .runOp => if s.phase = .done then s.goto .done .halt else s.toRead
  | .readOp =>
    match s.res with
    | .block => s.goto .sdec (fetchOf .sdec)
    | .raised .sourceClosed => s.goto .done .halt
    | _ => s.toRead
  | .sweepOp => s.toRead
  | .scanOp =>
    match s.ch with
    | .one => s.toScanTwo
    | .two => s.toRead
  | .aisdec => s.afterAttempt
  | .sdec => s.goto .dec3 (fetchOf .dec3)
  | .dec3 => s.goto .split (fetchOf .splitOp)
  | .splitOp => s.goto .dec2 (fetchOf .dec2)
  | .dec2 => (s.setArgCh .one).goto .demod (fetchOf .fmdem)
  | .fmdem => s.goto .demod (fetchOf .amenv)
  | .amenv =>
    match s.argCh with
    | .one => (s.commitDemod.setArgCh .two).goto .demod (fetchOf .fmdem)
    | .two => s.commitDemod.toScanOne
  | .gate =>
    if s.hasRaised .bufferExhaustion then (s.finish .eob).afterAttempt
    else s.goto (.scan s.ch .corr) (fetchOf .corr)
  | .corr => s.goto (.scan s.ch .corr) (fetchOf .syncOp)
  | .syncOp =>
    if s.hasRaised .noSync then (s.finish .nosync).afterAttempt else s.inDeframe .clearOp
  | .clearOp => s.inDeframe .slice
  | .slice =>
    match s.res with
    | .stop _ => s.toCheck
    | _ => s.inDeframe .nrzi
  | .nrzi => s.inDeframe .destuff
  | .destuff => if s.res = .drop then s.inDeframe .slice else s.inDeframe .pack
  | .pack => if s.wp = frameBytes then s.toCheck else s.inDeframe .slice
  | .lensel =>
    if s.hasRaised .midFrameFade then (s.finish .short).afterAttempt
    else s.goto (.scan s.ch .check) (fetchOf .crcchk)
  | .crcchk =>
    if s.hasRaised .crcMismatch then (s.finish .crcfail).afterAttempt
    else s.goto (.scan s.ch .unpack) .body
  | .emitOp => (s.finish .record).afterAttempt
  | .unpackPos | .unpackBase | .unpackStatic | .unpackUnknown
  | .msgPos1 _ | .msgPos2 _ | .msgPos3 _ | .msgBase _ | .msgStatic _ | .msgUnknown0 _
  | .msgUnknown6to7 _ | .msgUnknown8to15 _ | .msgUnknown16to31 _ | .msgUnknown32to63 _ =>
    s.goto (.scan s.ch .emit) (fetchOf .emitOp)
  | .fir | .crc16 | .getbits => s.setFetch (phaseFetch s.phase)

/-! ### Selecting the operation -/

/-- The instruction that `fetch` selects, or why there is none. -/
def State.selected (s : State) : Except DecodeError (Option Instr) :=
  match s.fetch with
  | .halt => .ok none
  | .tag w => (decode .op w).map some
  | .body => (decode .msgId (s.bufRead hdr)).map some

/-- An octet placed where the sequencer takes its next operation from: an operation index in the latch; any
other octet in `BUF[4]`, with the latch on the body octet (log 2, log 17). -/
def State.placeOctet (s : State) (octet : Byte) : State :=
  match decode .op octet with
  | .ok _ => s.setFetch (.tag octet)
  | .error _ => (s.bufWrite hdr octet).setFetch .body

end Sys2Proof.Machine
end

