-- ==== Sys2Proof/Machine/Dispatch.lean ====
section
/-! DEFINITION. `exec`: one arm per constructor of `Instr`, each one call of that instruction's meaning. -/

namespace Sys2Proof.Machine

def exec (i : Instr) (s : State) : Host.Outcome State Fault Refusal :=
  match i with
  | .runOp => Sys2Proof.Machine.execRun s
  | .readOp => Sys2Proof.Machine.execRead s
  | .sweepOp => Sys2Proof.Machine.execSweep s
  | .scanOp => Sys2Proof.Machine.execScan s
  | .aisdec => Sys2Proof.Machine.execAisdec s
  | .sdec => Sys2Proof.Machine.execSdec s
  | .fir => Sys2Proof.Machine.execFir s
  | .dec3 => Sys2Proof.Machine.execDec3 s
  | .splitOp => Sys2Proof.Machine.execSplit s
  | .dec2 => Sys2Proof.Machine.execDec2 s
  | .fmdem => Sys2Proof.Machine.execFmdem s
  | .amenv => Sys2Proof.Machine.execAmenv s
  | .gate => Sys2Proof.Machine.execGate s
  | .corr => Sys2Proof.Machine.execCorr s
  | .syncOp => Sys2Proof.Machine.execSync s
  | .clearOp => Sys2Proof.Machine.execClear s
  | .slice => Sys2Proof.Machine.execSlice s
  | .nrzi => Sys2Proof.Machine.execNrzi s
  | .destuff => Sys2Proof.Machine.execDestuff s
  | .pack => Sys2Proof.Machine.execPack s
  | .lensel => Sys2Proof.Machine.execLensel s
  | .crc16 => Sys2Proof.Machine.execCrc16 s
  | .crcchk => Sys2Proof.Machine.execCrcchk s
  | .getbits => Sys2Proof.Machine.execGetbits s
  | .unpackPos => Sys2Proof.Machine.execUnpackPos s
  | .unpackBase => Sys2Proof.Machine.execUnpackBase s
  | .unpackStatic => Sys2Proof.Machine.execUnpackStatic s
  | .unpackUnknown => Sys2Proof.Machine.execUnpackUnknown s
  | .emitOp => Sys2Proof.Machine.execEmit s
  | .msgPos1 octet => Sys2Proof.Machine.execMsgPos1 octet s
  | .msgPos2 octet => Sys2Proof.Machine.execMsgPos2 octet s
  | .msgPos3 octet => Sys2Proof.Machine.execMsgPos3 octet s
  | .msgBase octet => Sys2Proof.Machine.execMsgBase octet s
  | .msgStatic octet => Sys2Proof.Machine.execMsgStatic octet s
  | .msgUnknown0 octet => Sys2Proof.Machine.execMsgUnknown0 octet s
  | .msgUnknown6to7 octet => Sys2Proof.Machine.execMsgUnknown6to7 octet s
  | .msgUnknown8to15 octet => Sys2Proof.Machine.execMsgUnknown8to15 octet s
  | .msgUnknown16to31 octet => Sys2Proof.Machine.execMsgUnknown16to31 octet s
  | .msgUnknown32to63 octet => Sys2Proof.Machine.execMsgUnknown32to63 octet s

end Sys2Proof.Machine
end

