-- ==== Sys2Proof/Machine/Step.lean ====
section
/-! DEFINITION. One step: the operation the sequencer selects, then the transition of R167. `DONE` is final: the
machine stays as it is. -/

namespace Sys2Proof.Machine

/-- One step of the machine (R8, R167). -/
def step (s : State) : Host.Outcome State Fault Refusal :=
  match s.selected with
  | .ok none => .next s
  | .ok (some i) => seqOp (exec i s) fun t => .next (advance i t)
  | .error (.noSuchOperation w) => .refused (.noSuchOperation w)
  | .error .noOctet => .refused (.noSuchOperation 0)

/-- `s` with the instruction of a table word placed where `step` takes its next one. Every row has 8 bits, so
only the low octet of `w` counts. -/
def State.withFetchWord (s : State) (_nbits w : Nat) : State := s.placeOctet (BitVec.ofNat 8 w)

end Sys2Proof.Machine
end

