-- ==== Sys2Proof/Safety.lean ====
section
/-! DEFINITION. The terms statements are written in: what a state looks like in every run (its data and its
sequencing), the transitions R167 allows, and when two states hold the same bytes. -/

namespace Sys2Proof.Machine

/-- Every octet of `RAW` and of `BUF` reads the same in both states. -/
def SameBytes (s t : State) : Prop :=
  ∀ a, t.rawRead a = s.rawRead a ∧ t.bufRead a = s.bufRead a

/-- The data of a state is in the ranges the spec gives (spec/10_state.md R10 to R18): the byte buffers are
canonical and inside their index ranges, every active element has been written, no stream exceeds its
capacity, and the registers with a stated range are inside it. -/
def State.dataOk (s : State) : Prop :=
  (s.buf.wf = true ∧ ∀ c ∈ s.buf, c.1 < frameBytes) ∧
  (s.raw.wf = true ∧ ∀ c ∈ s.raw, c.1 < 2 * s.cfg.n) ∧
  (∀ x, s.streamLen x ≤ (s.stream x).length ∧ (s.stream x).length ≤ s.cfg.n) ∧
  s.fOut.length ≤ s.cfg.n ∧ s.aOut.length ≤ s.cfg.n ∧
  (s.run ≤ gateRun ∧ s.k < kSpan ∧ s.j ≤ patLen ∧ s.imax < kSpan) ∧
  (hdr ≤ s.wp ∧ s.wp ≤ frameBytes ∧ s.bp < 8 ∧ (s.wp = frameBytes → s.bp = 0)) ∧
  s.nbits = 8 * (s.wp - hdr) + s.bp

/-- The operations that R167 issues in a phase. -/
def phaseOps : Phase → List Fetch
  | .idle => [fetchOf .runOp]
  | .read => [fetchOf .readOp]
  | .sdec => [fetchOf .sdec]
  | .dec3 => [fetchOf .dec3]
  | .split => [fetchOf .splitOp]
  | .dec2 => [fetchOf .dec2]
  | .demod => [fetchOf .fmdem, fetchOf .amenv]
  | .scan _ .gate => [fetchOf .gate]
  | .scan _ .corr => [fetchOf .corr, fetchOf .syncOp]
  | .scan _ .deframe => [fetchOf .clearOp, fetchOf .slice, fetchOf .nrzi, fetchOf .destuff, fetchOf .pack]
  | .scan _ .check => [fetchOf .lensel, fetchOf .crcchk]
  | .scan _ .unpack => [.body]
  | .scan _ .emit => [fetchOf .emitOp]
  | .done => [.halt]

/-- The sequencer stands where R167 can put it: the next operation belongs to the phase, the phase names the
selected channel, and what the tests passed so far ensure still holds (R97, R119, R126, R130). -/
def State.sequenced (s : State) : Prop :=
  s.cfg.ok = true ∧
  s.fetch ∈ phaseOps s.phase ∧
  (∀ c sub, s.phase = .scan c sub → s.ch = c) ∧
  (s.fetch = fetchOf .corr → s.i + tailGuard ≤ s.n) ∧
  (∀ c, s.phase = .scan c .deframe → s.fetch ≠ fetchOf .clearOp → s.wp < frameBytes) ∧
  (s.fetch = fetchOf .crcchk → s.short = false) ∧
  (s.fetch = .body ∨ s.fetch = fetchOf .emitOp → s.short = false ∧ s.crcOk = true ∧ s.crc = s.fcs)

/-- A step that answers a next state. -/
def Safe (s : State) : Prop := ∃ t, step s = .next t

/-- The phase after the scan of channel `c`: the scan of channel 2 follows that of channel 1, which makes an attempt
only when the channel has 500 samples (R158); otherwise READ. -/
def phaseAfterScan (s : State) (c : Channel) : Phase :=
  if c = .one ∧ tailGuard ≤ s.len2 then .scan .two .gate else .read

/-- The phase after an attempt on channel `c` that returned the index `resume`: another attempt while `resume ≤ n − 500`,
otherwise the scan of the channel has ended (R158). -/
def phaseAfterAttempt (s : State) (c : Channel) (resume : Nat) : Phase :=
  if resume + tailGuard ≤ s.len c then .scan c .gate else phaseAfterScan s c

/-- The phase after DEMOD: the scan of channel 1, which makes an attempt only when the channel has 500 samples. -/
def phaseAfterDemod (s : State) : Phase :=
  if tailGuard ≤ s.len1 then .scan .one .gate else phaseAfterScan s .one

/-- The transitions of R167, each with its guard, from the state `s` before a step to the state `t` after it. Three of
them are the model's: `IDLE → DONE`, because RUN is one step with its whole effect (log 1, log 10); `READ → READ`, the
wait for the source (log 9, log 18); and `DONE → DONE` (log 18). That a scan is entered in the sub-phase GATE, and passed
over when it makes no attempt, is the model's too (log 27). -/
def phaseFollows (s t : State) : Prop :=
  match s.phase with
  | .idle => t.phase = if s.srcClosed = true ∧ 0 < s.cfg.n then .done else .read
  | .read =>
    t.phase = if 2 * s.cfg.n ≤ s.src.length then .sdec else if s.srcClosed = true then .done else .read
  | .sdec => t.phase = .dec3
  | .dec3 => t.phase = .split
  | .split => t.phase = .dec2
  | .dec2 => t.phase = .demod
  | .demod => t.phase = if s.fetch = fetchOf .amenv ∧ s.argCh = .two then phaseAfterDemod t else .demod
  | .scan c .gate =>
    (t.i + tailGuard ≤ s.len c ∧ t.res = .plain ∧ t.phase = .scan c .corr) ∨
    (s.len c < t.resume + tailGuard ∧ t.res = .attempt .eob ∧ t.phase = phaseAfterScan s c)
  | .scan c .corr =>
    if s.fetch = fetchOf .corr then t.phase = .scan c .corr
    else if s.sync = true then t.phase = .scan c .deframe
    else t.res = .attempt .nosync ∧ t.resume = s.i + skipAhead ∧ t.phase = phaseAfterAttempt s c t.resume
  | .scan c .deframe =>
    t.phase = if t.res = .stop .exhausted ∨ t.res = .stop .fade ∨ t.wp = frameBytes then .scan c .check
      else .scan c .deframe
  | .scan c .check =>
    if s.fetch = fetchOf .lensel then
      if t.short = true then
        t.res = .attempt .short ∧ t.resume = s.idx ∧ t.phase = phaseAfterAttempt s c t.resume
      else t.phase = .scan c .check
    else if t.crcOk = true then t.phase = .scan c .unpack
    else t.res = .attempt .crcfail ∧ t.resume = s.idx ∧ t.phase = phaseAfterAttempt s c t.resume
  | .scan c .unpack => t.phase = .scan c .emit
  | .scan c .emit =>
    t.res = .attempt .record ∧ t.resume = s.resume ∧ t.phase = phaseAfterAttempt s c t.resume
  | .done => t.phase = .done

end Sys2Proof.Machine
end

