-- ==== Sys2Proof/Certificates/Slice0/Obligations.lean ====
section
/-! DEFINITION. The statements for the provers, and the few notions of the spec they are written in
(namespace `Sys2Proof.Stated`). Where a statement says what `res` is, that is the model's field for the outcome an
operation returns to its caller (R170; log 11). -/

open Sys2Proof Sys2Proof.Machine

namespace Sys2Proof.Stated

/-- Message bit `b`, counted from the first bit of octet 4, most significant bit first (R40). -/
def bitAt (s : State) (b : Nat) : Nat := (s.bufRead (4 + b / 8)).toNat / 2 ^ (7 - b % 8) % 2

/-- The field `(o, w)` as the sum of R64. -/
def field (s : State) (o w : Nat) : Nat := ∑ t ∈ Finset.range w, bitAt s (o + t) * 2 ^ (w - 1 - t)

/-- The two's complement reading of a field (R137). -/
def signedField (s : State) (o w : Nat) : Int :=
  if field s o w < 2 ^ (w - 1) then (field s o w : Int) else (field s o w : Int) - 2 ^ w

/-- The text field of `c` characters (R138). -/
def textField (s : State) (o c : Nat) : List Nat :=
  (List.range c).map fun q => if field s (o + 6 * q) 6 < 32 then field s (o + 6 * q) 6 + 64 else field s (o + 6 * q) 6

/-- The exact sum of R72 with centre `n`, over the taps of kernel `h` and the stream `x`, 0 outside it. -/
def firSum (s : State) (x : StreamId) (h : Kernel) (n : Nat) : Int :=
  s.cfg.tap h 0 * s.tapIn x n +
    ∑ i ∈ Finset.Icc 1 30, s.cfg.tap h i * (s.tapIn x ((n : Int) - (i : Int)) + s.tapIn x ((n : Int) + (i : Int)))

/-- One FIR output: the sum divided by 2¹⁹ and rounded down (R72). -/
def firOutput (s : State) (x : StreamId) (h : Kernel) (n : Nat) : Int := ⌊(firSum s x h n : ℚ) / 524288⌋

/-- `term(k, j)` of R99 at burst start `i`. -/
def term (s : State) (k j : Nat) : Int := pat.getD j 0 * s.fAt (s.i + k + off j)

/-- `s(k)` of R99. -/
def shiftScore (s : State) (k : Nat) : Int := ∑ j ∈ Finset.range 32, term s k j

/-- Shift `k` qualifies in the positive pass: no term is negative (R100, R101). -/
def agrees (s : State) (k : Nat) : Prop := ∀ j < 32, 0 ≤ term s k j

/-- Shift `k` qualifies in the negative pass: no term is positive (R102). -/
def opposes (s : State) (k : Nat) : Prop := ∀ j < 32, term s k j ≤ 0

/-- Some shift qualifies positively with a non-zero score. -/
def foundPlus (s : State) : Prop := ∃ k < 105, agrees s k ∧ 0 < shiftScore s k

/-- Some shift qualifies negatively with a non-zero score. -/
def foundMinus (s : State) : Prop := ∃ k < 105, opposes s k ∧ shiftScore s k < 0

/-- A run of 100 samples of power 16 or more starts at `i`, all at or after `from0` and before the end. -/
def burstAt (s : State) (from0 i : Nat) : Prop :=
  from0 ≤ i ∧ i + 100 ≤ s.n ∧ ∀ d < 100, 16 ≤ s.aAt (i + d)

/-- The bit-serial register of R128: one data bit `d` against the most significant bit. -/
def serialBit (r : Word16) (d : Bool) : Word16 :=
  if r.getLsbD 15 != d then (r <<< 1) ^^^ 0x1021 else r <<< 1

/-- The eight bits of an octet, bit 0 first, through the register. -/
def serialOctet (r : Word16) (b : Byte) : Word16 :=
  (List.range 8).foldl (fun r t => serialBit r (b.getLsbD t)) r

/-- The bit-serial CRC of R128: start 0xFFFF, final XOR 0xFFFF, the 16 bits reversed. -/
def serialCrc (d : List Byte) : Word16 := (d.foldl serialOctet 0xFFFF ^^^ 0xFFFF).reverse

/-- The body octets of the frame in `BUF`, of the length `blen` names. -/
def body (s : State) : List Byte := s.bufOctets 4 s.blen.octets

/-- Kept bits stored one after another: each is put in `out` and packed (R118). -/
def packAll : List Bool → State → StepOutcome
  | [], s => .next s
  | b :: bs, s => seqOp (exec .pack { s with out := b }) (packAll bs)

/-- The variant of the record that R66 gives a message ID. -/
def recordFor (s : State) (mid : Nat) : Record :=
  if mid = 1 ∨ mid = 2 ∨ mid = 3 then
    .pos mid (field s 8 30) (field s 50 10) (signedField s 61 28) (signedField s 89 27) (field s 116 12)
  else if mid = 4 then
    .base 4 (field s 8 30) (field s 38 14) (field s 52 4) (field s 56 5) (field s 61 5) (field s 66 6)
      (field s 72 6) (signedField s 79 28) (signedField s 107 27)
  else if mid = 5 then .static 5 (field s 8 30) (textField s 70 7) (textField s 112 20) (textField s 302 20)
  else .unknown mid (field s 8 30)

/-- Block `q` of what the source has ready: its bytes from `2N·q` on, `2N` of them (R161). -/
def blockAt (s : State) (q : Nat) : List Byte := (s.src.drop (2 * s.cfg.n * q)).take (2 * s.cfg.n)

/-- What SWEEP appends to the sink when `RAW` holds a block. -/
def sweptFrom (s : State) (block : List Byte) : List SinkItem :=
  match exec .sweepOp { s with raw := Memory.ofBytes 0 block, sink := [] } with
  | .next t => t.sink
  | _ => []

/-- What the sweeps of all whole blocks the source has ready append, block by block in arrival order (R159). -/
def sweptFromSource (s : State) : List SinkItem :=
  (List.range (s.src.length / (2 * s.cfg.n))).flatMap fun q => sweptFrom s (blockAt s q)

/-- The fields that a decode attempt never writes are the same in both states: the parameters, the source, the
streams and their lengths, `RAW`, the output latches of C5 and the operand latches. -/
def sameOutsideAttempt (s t : State) : Prop :=
  t = { t with
    cfg := s.cfg, src := s.src, srcClosed := s.srcClosed, started := s.started, fetch := s.fetch
    raw := s.raw, rawEpoch := s.rawEpoch, epoch := s.epoch
    i1 := s.i1, q1 := s.q1, i2 := s.i2, q2 := s.q2, len1 := s.len1, len2 := s.len2
    fOut := s.fOut, aOut := s.aOut
    argCh := s.argCh, firX := s.firX, firH := s.firH, firN := s.firN, firY := s.firY
    crcD := s.crcD, gbO := s.gbO, gbW := s.gbW, gbV := s.gbV }

end Sys2Proof.Stated

open Sys2Proof.Stated

/-! ### Encoding -/

/-- Decoding the encoding of any well-formed instruction gives it back, in its own format. -/
def Obligations.DecodeEncodeRoundTrip : Prop :=
  ∀ i : Instr, i.wellFormed = true → decode (encode i).1 (encode i).2 = .ok i

/-- Every octet that decodes is the encoding of what it decodes to, and that is well-formed. -/
def Obligations.EncodeDecodeRoundTrip : Prop :=
  ∀ (f : Format) (b : Byte) (i : Instr), decode f b = .ok i → i.wellFormed = true ∧ encode i = (f, b)

/-- An octet that is no operation index is rejected by name, by the decoder and by a step that would perform it. -/
def Obligations.UnlistedIndexRejected : Prop :=
  ∀ b : Byte, (∀ i : Instr, encode i ≠ (.op, b)) →
    decode .op b = .error (.noSuchOperation b) ∧
    ∀ s : State, s.fetch = .tag b → step s = .refused (.noSuchOperation b)

/-- Every operation index of the table, and a few first body octets, decode to the instruction they stand for. -/
def Obligations.ListedOctetsDecode : Prop :=
  decode .op 0x00 = .ok .runOp ∧ decode .op 0x01 = .ok .readOp ∧ decode .op 0x02 = .ok .sweepOp ∧
  decode .op 0x03 = .ok .scanOp ∧ decode .op 0x04 = .ok .aisdec ∧ decode .op 0x10 = .ok .sdec ∧
  decode .op 0x11 = .ok .fir ∧ decode .op 0x12 = .ok .dec3 ∧ decode .op 0x13 = .ok .splitOp ∧
  decode .op 0x14 = .ok .dec2 ∧ decode .op 0x15 = .ok .fmdem ∧ decode .op 0x16 = .ok .amenv ∧
  decode .op 0x20 = .ok .gate ∧ decode .op 0x21 = .ok .corr ∧ decode .op 0x22 = .ok .syncOp ∧
  decode .op 0x30 = .ok .clearOp ∧ decode .op 0x31 = .ok .slice ∧ decode .op 0x32 = .ok .nrzi ∧
  decode .op 0x33 = .ok .destuff ∧ decode .op 0x34 = .ok .pack ∧ decode .op 0x40 = .ok .lensel ∧
  decode .op 0x41 = .ok .crc16 ∧ decode .op 0x42 = .ok .crcchk ∧ decode .op 0x50 = .ok .getbits ∧
  decode .op 0x51 = .ok .unpackPos ∧ decode .op 0x52 = .ok .unpackBase ∧ decode .op 0x53 = .ok .unpackStatic ∧
  decode .op 0x54 = .ok .unpackUnknown ∧ decode .op 0x55 = .ok .emitOp ∧
  decode .msgId 0b00000101 = .ok (.msgPos1 0b00000101) ∧ decode .msgId 0b00001010 = .ok (.msgPos2 0b00001010) ∧
  decode .msgId 0b00010111 = .ok (.msgStatic 0b00010111) ∧
  decode .msgId 0b00011100 = .ok (.msgUnknown6to7 0b00011100)

/-! ### The step -/

/-- A step performs the operation the sequencer selects (the index in the latch, or the class of `BUF[4]`) and then
makes the sequencer's transition; a fault or a refusal of the operation is the step's. -/
def Obligations.StepRunsDecodedInstruction : Prop :=
  ∀ (s : State) (i : Instr),
    ((∃ w, s.fetch = .tag w ∧ decode .op w = .ok i) ∨ (s.fetch = .body ∧ decode .msgId (s.bufRead 4) = .ok i)) →
    (∀ t, exec i s = .next t → step s = .next (advance i t)) ∧
    (∀ r, exec i s = .fault r → step s = .fault r) ∧
    (∀ r, exec i s = .refused r → step s = .refused r)

/-- `DONE` is final: a sequenced machine in `DONE` stays as it is. -/
def Obligations.DoneIsFinal : Prop :=
  ∀ s : State, s.sequenced → s.phase = .done → step s = .next s

/-! ### Reset -/

/-- After reset `phase = IDLE`, `started = 0`, both lengths are 0, and RUN is the next operation (the latch is the
model's, log 1). -/
def Obligations.ResetState : Prop :=
  State.reset.phase = .idle ∧ State.reset.started = false ∧ State.reset.len1 = 0 ∧ State.reset.len2 = 0 ∧
  State.reset.fetch = .tag 0x00 ∧ State.reset.sink = []

/-! ### C1 to C4 -/

/-- SDEC removes the bias of every sample, sets the length, and changes nothing else. -/
def Obligations.SdecRemovesBias : Prop :=
  ∀ s : State, ∃ t, exec .sdec s = .next t ∧
    (∀ i < s.cfg.n,
      t.i1[i]? = some (((s.rawRead (2 * i)).toNat : Int) - 128) ∧
      t.q1[i]? = some (((s.rawRead (2 * i + 1)).toNat : Int) - 128)) ∧
    (∀ i, s.cfg.n ≤ i → t.i1[i]? = s.i1[i]? ∧ t.q1[i]? = s.q1[i]?) ∧
    t.len1 = s.cfg.n ∧ SameBytes s t ∧
    t = { s with i1 := t.i1, q1 := t.q1, len1 := t.len1, res := .plain }

/-- FIR gives the exact sum over 61 inputs, divided by 2¹⁹ and rounded down; inputs outside the stream are 0. Its
operands and its result stand in latches of the model (log 4); that taps outside the stream read 0 is the spec's
decision D5. The kernels are those of R15 and R73: the fixed centre taps, the taps the parameters list (log 7), and no
tap above the centre tap in magnitude. -/
def Obligations.FirRoundsExactSumDown : Prop :=
  ∀ s : State, ∃ t, exec .fir s = .next t ∧
    t.firY = firOutput s s.firX s.firH s.firN ∧
    (∀ k : Int, k < 0 ∨ (s.streamLen s.firX : Int) ≤ k → s.tapIn s.firX k = 0) ∧
    (∀ k < s.streamLen s.firX, s.tapIn s.firX (k : Int) = s.elem s.firX k) ∧
    s.cfg.tap .h3 0 = 349525 ∧ s.cfg.tap .h8 0 = 131072 ∧
    (∀ (i : Nat) (v : Int), (s.cfg.h3[i]? = some v → s.cfg.tap .h3 (i + 1) = v) ∧
      (s.cfg.h8[i]? = some v → s.cfg.tap .h8 (i + 1) = v)) ∧
    (s.cfg.ok = true → ∀ i : Nat, |s.cfg.tap .h3 i| ≤ 349525 ∧ |s.cfg.tap .h8 i| ≤ 131072) ∧
    SameBytes s t ∧ t = { s with firY := t.firY, res := .plain }

/-- DEC3: output `j` is the FIR output centred on input `3j` of the stage's own input, for `max(0, n0//3 − 10)`
outputs; elements beyond them and everything else keep their values. -/
def Obligations.Dec3FiltersAndDecimates : Prop :=
  ∀ s : State, ∃ t, exec .dec3 s = .next t ∧
    (t.len1 : Int) = max 0 ((s.len1 : Int) / 3 - 10) ∧
    (∀ j < t.len1, t.i1[j]? = some (firOutput s .i1 .h3 (3 * j)) ∧ t.q1[j]? = some (firOutput s .q1 .h3 (3 * j))) ∧
    (∀ j, t.len1 ≤ j → t.i1[j]? = s.i1[j]? ∧ t.q1[j]? = s.q1[j]?) ∧
    SameBytes s t ∧ t = { s with i1 := t.i1, q1 := t.q1, len1 := t.len1, res := .plain }

/-- SPLIT: the eight assignments of R80 per residue of the index, both channels from the stage's input. -/
def Obligations.SplitAssignsByResidue : Prop :=
  ∀ s : State, ∃ t, exec .splitOp s = .next t ∧ t.len1 = s.len1 ∧ t.len2 = s.len1 ∧
    (∀ i < s.len1,
      (i % 4 = 0 → t.i2[i]? = some (s.elem .i1 i) ∧ t.q2[i]? = some (s.elem .q1 i) ∧
        t.i1[i]? = some (s.elem .i1 i) ∧ t.q1[i]? = some (s.elem .q1 i)) ∧
      (i % 4 = 1 → t.i2[i]? = some (s.elem .q1 i) ∧ t.q2[i]? = some (-s.elem .i1 i) ∧
        t.i1[i]? = some (-s.elem .q1 i) ∧ t.q1[i]? = some (s.elem .i1 i)) ∧
      (i % 4 = 2 → t.i2[i]? = some (-s.elem .i1 i) ∧ t.q2[i]? = some (-s.elem .q1 i) ∧
        t.i1[i]? = some (-s.elem .i1 i) ∧ t.q1[i]? = some (-s.elem .q1 i)) ∧
      (i % 4 = 3 → t.i2[i]? = some (-s.elem .q1 i) ∧ t.q2[i]? = some (s.elem .i1 i) ∧
        t.i1[i]? = some (s.elem .q1 i) ∧ t.q1[i]? = some (-s.elem .i1 i))) ∧
    (∀ i, s.len1 ≤ i → t.i1[i]? = s.i1[i]? ∧ t.q1[i]? = s.q1[i]? ∧ t.i2[i]? = s.i2[i]? ∧ t.q2[i]? = s.q2[i]?) ∧
    SameBytes s t ∧
    t = { s with i1 := t.i1, q1 := t.q1, i2 := t.i2, q2 := t.q2, len2 := t.len2, res := .plain }

/-- SPLIT changes no magnitude. -/
def Obligations.SplitKeepsMagnitude : Prop :=
  ∀ s t : State, exec .splitOp s = .next t → ∀ i < s.len1,
    t.elem .i1 i ^ 2 + t.elem .q1 i ^ 2 = s.elem .i1 i ^ 2 + s.elem .q1 i ^ 2 ∧
    t.elem .i2 i ^ 2 + t.elem .q2 i ^ 2 = s.elem .i1 i ^ 2 + s.elem .q1 i ^ 2

/-- DEC2: on each of the four streams, output `j` is the FIR output centred on input `2j` of that stream, for
`max(0, n2//2 − 15)` outputs. That the count comes from `len1` where the two lengths differ is the model's reading
(log 16). -/
def Obligations.Dec2FiltersAndDecimates : Prop :=
  ∀ s : State, ∃ t, exec .dec2 s = .next t ∧
    (t.len1 : Int) = max 0 ((s.len1 : Int) / 2 - 15) ∧ t.len2 = t.len1 ∧
    (∀ (x : StreamId), ∀ j < t.len1, (t.stream x)[j]? = some (firOutput s x .h8 (2 * j))) ∧
    (∀ (x : StreamId) (j : Nat), t.len1 ≤ j → (t.stream x)[j]? = (s.stream x)[j]?) ∧
    SameBytes s t ∧
    t = { s with
      i1 := t.i1, q1 := t.q1, i2 := t.i2, q2 := t.q2, len1 := t.len1, len2 := t.len2, res := .plain }

/-- Under the constraint on the kernels, whatever `RAW` holds, the DEC3 outputs of SDEC's samples are at most 5206
in magnitude and the DEC2 outputs at most 79392. -/
def Obligations.FrontEndFitsItsBounds : Prop :=
  ∀ s a b c d : State, s.cfg.ok = true → exec .sdec s = .next a → exec .dec3 a = .next b →
    exec .splitOp b = .next c → exec .dec2 c = .next d →
    (∀ i < b.len1, |b.elem .i1 i| ≤ 5206 ∧ |b.elem .q1 i| ≤ 5206) ∧
    (∀ x, ∀ i < d.len1, |d.elem x i| ≤ 79392)

/-! ### C5 -/

/-- FMDEM produces `F[i] = Q[i+1]·I[i] − Q[i]·I[i+1]` of the operand channel, one element fewer than its input.
Its operand and its output stream stand in latches of the model (log 4, log 12). -/
def Obligations.FmdemProducesF : Prop :=
  ∀ s : State, ∃ t, exec .fmdem s = .next t ∧ t.fOut.length = s.len s.argCh - 1 ∧
    (∀ i < s.len s.argCh - 1, t.fOut[i]? = some (
      s.elem s.argCh.qStream (i + 1) * s.elem s.argCh.iStream i -
      s.elem s.argCh.qStream i * s.elem s.argCh.iStream (i + 1))) ∧
    SameBytes s t ∧ t = { s with fOut := t.fOut, res := .plain }

/-- AMENV produces `A[i] = I[i+1]² + Q[i+1]²` of the operand channel, never negative. Its operand
and its output stream stand in latches of the model (log 4, log 12). -/
def Obligations.AmenvProducesPower : Prop :=
  ∀ s : State, ∃ t, exec .amenv s = .next t ∧ t.aOut.length = s.len s.argCh - 1 ∧
    (∀ i < s.len s.argCh - 1, t.aOut[i]? = some (
      s.elem s.argCh.iStream (i + 1) ^ 2 + s.elem s.argCh.qStream (i + 1) ^ 2)) ∧
    (∀ a ∈ t.aOut, 0 ≤ a) ∧
    SameBytes s t ∧ t = { s with aOut := t.aOut, res := .plain }

/-- DEMOD on a channel: `F` replaces `I` and `A` replaces `Q`, both from the streams as they stood; the length falls
by one; elements beyond the new length and the other channel keep their values. -/
def Obligations.DemodReplacesStreams : Prop :=
  ∀ (s : State) (c : Channel), ∃ t, demodChannel s c = .next t ∧
    (t.len c : Int) = max 0 ((s.len c : Int) - 1) ∧
    (∀ i < t.len c,
      (t.stream c.iStream)[i]? = some (s.elem c.qStream (i + 1) * s.elem c.iStream i -
        s.elem c.qStream i * s.elem c.iStream (i + 1)) ∧
      (t.stream c.qStream)[i]? = some (s.elem c.iStream (i + 1) * s.elem c.iStream (i + 1) +
        s.elem c.qStream (i + 1) * s.elem c.qStream (i + 1))) ∧
    (∀ i, t.len c ≤ i → (t.stream c.iStream)[i]? = (s.stream c.iStream)[i]? ∧
      (t.stream c.qStream)[i]? = (s.stream c.qStream)[i]?) ∧
    (∀ d, d ≠ c → t.len d = s.len d ∧ t.stream d.iStream = s.stream d.iStream ∧
      t.stream d.qStream = s.stream d.qStream) ∧
    SameBytes s t

/-! ### C6 -/

/-- GATE finds the least index at or after `i` where 100 samples of power 16 or more begin, or the end of the
buffer when there is none; then fewer than 500 samples left raise BufferExhaustion with resume index `i`, and
otherwise nothing is raised. It writes only the locator's `i` and `run` and what it returns. The two clauses on the
500 samples are the tail test of R97; that the test is part of the operation GATE is the model's arrangement, after
the signature of R69 (log 26). -/
def Obligations.GateFindsFirstBurst : Prop :=
  ∀ s : State, ∃ t, exec .gate s = .next t ∧
    (∀ i, burstAt s s.i i → (∀ i', burstAt s s.i i' → i ≤ i') → t.i = i ∧ t.run = 100) ∧
    ((∀ i, ¬ burstAt s s.i i) → t.i = s.n ∧ t.run < 100) ∧
    ((s.n : Int) - t.i < 500 → t.res = .raised .bufferExhaustion ∧ t.resume = t.i) ∧
    (500 ≤ (s.n : Int) - t.i → t.res = .plain ∧ t.resume = s.resume) ∧
    SameBytes s t ∧ t = { s with i := t.i, run := t.run, res := t.res, resume := t.resume }

/-- `off(q)` is `⌊q·T + ½⌋` with `T = 125/24`, and successive offsets differ by 5 or 6. -/
def Obligations.SymbolGridIsExact : Prop :=
  ∀ q : Nat, (off q : Int) = ⌊(q : ℚ) * (125 / 24) + 1 / 2⌋ ∧ (off (q + 1) = off q + 5 ∨ off (q + 1) = off q + 6)

/-- CORR inside the tail guard completes: the best positive shift if one qualifies with a non-zero score (the lowest
on a tie), else the best negative one, else no synchronisation. It writes only the correlator's registers and the
flags `sync` and `pol`. That `pol` keeps its value when there is no synchronisation is the model's choice (log 22). -/
def Obligations.CorrFindsBestShift : Prop :=
  ∀ s : State, s.i + 500 ≤ s.n → ∃ t, exec .corr s = .next t ∧
    (foundPlus s → t.sync = true ∧ t.pol = .plus ∧ 0 < t.smax ∧ t.imax < 105 ∧ agrees s t.imax ∧
      t.smax = shiftScore s t.imax ∧
      ∀ k < 105, agrees s k → shiftScore s k ≤ t.smax ∧ (k < t.imax → shiftScore s k < t.smax)) ∧
    (¬ foundPlus s → foundMinus s → t.sync = true ∧ t.pol = .minus ∧ t.smax < 0 ∧ t.imax < 105 ∧ opposes s t.imax ∧
      t.smax = shiftScore s t.imax ∧
      ∀ k < 105, opposes s k → t.smax ≤ shiftScore s k ∧ (k < t.imax → t.smax < shiftScore s k)) ∧
    (¬ foundPlus s → ¬ foundMinus s → t.sync = false ∧ t.pol = s.pol ∧ t.smax = 0 ∧ t.imax = 0) ∧
    SameBytes s t ∧
    t = { s with
      k := t.k, j := t.j, score := t.score, smax := t.smax, imax := t.imax, sync := t.sync, pol := t.pol
      res := .plain }

/-- SYNC: `p0 = i + imax` when synchronised, otherwise NoSync with resume index `i + 1145`. -/
def Obligations.SyncSetsFirstBitCentre : Prop :=
  ∀ s : State, ∃ t, exec .syncOp s = .next t ∧
    (s.sync = true → t = { s with p0 := s.i + s.imax, res := .plain }) ∧
    (s.sync = false → t = { s with res := .raised .noSync, resume := s.i + 1145 }) ∧ SameBytes s t

/-! ### C7 -/

/-- CLEAR: every octet of `BUF` reads 0 and the deframer's registers have their start values. -/
def Obligations.ClearEmptiesFrame : Prop :=
  ∀ s : State, ∃ t, exec .clearOp s = .next t ∧ (∀ a < 256, t.bufRead a = 0) ∧
    (∀ a, t.rawRead a = s.rawRead a) ∧
    t = { s with
      buf := t.buf, m := 0, prev := none, hist := 0b00000, wp := 4, bp := 0, nbits := 0, res := .plain }

/-- SLICE: the range test, then the power gate, then the symbol, at the sample `p0 + off(32 + m)`. -/
def Obligations.SliceDecidesSymbol : Prop :=
  ∀ s : State, ∃ t, exec .slice s = .next t ∧ t.idx = s.p0 + (125 * (32 + s.m) + 12) / 24 ∧
    (s.n ≤ t.idx → t = { s with idx := t.idx, res := .stop .exhausted }) ∧
    (t.idx < s.n → s.aAt t.idx < 4 → t = { s with idx := t.idx, res := .stop .fade }) ∧
    (t.idx < s.n → 4 ≤ s.aAt t.idx →
      t = { s with idx := t.idx, sym := t.sym, m := s.m + 1, res := .plain } ∧
      (t.sym = false ↔ 0 < s.fAt t.idx)) ∧
    SameBytes s t

/-- NRZI: after the sentinel the bit is 0; otherwise it is 1 exactly when the symbol equals the previous one.
Inverting the symbol and the previous symbol changes no bit: the deframer is blind to polarity. -/
def Obligations.NrziComparesSymbols : Prop :=
  ∀ s : State, ∃ t, exec .nrzi s = .next t ∧
    (s.prev = none → t.out = false) ∧ (∀ p, s.prev = some p → (t.out = true ↔ s.sym = p)) ∧
    (∃ u, exec .nrzi { s with sym := !s.sym, prev := s.prev.map (!·) } = .next u ∧ u.out = t.out) ∧
    SameBytes s t ∧ t = { s with out := t.out, prev := some s.sym, res := .plain }

/-- DESTUFF: a 0 after five kept 1s is dropped and clears the history; any other bit is kept and shifted in. -/
def Obligations.DestuffDropsStuffBit : Prop :=
  ∀ s : State, ∃ t, exec .destuff s = .next t ∧
    (s.hist = 0b11111 ∧ s.out = false → t = { s with hist := 0b00000, res := .drop }) ∧
    (¬ (s.hist = 0b11111 ∧ s.out = false) → t = { s with hist := t.hist, res := .keep } ∧
      t.hist.toNat = (2 * s.hist.toNat + s.out.toNat) % 32) ∧
    SameBytes s t

/-- PACK with room in the frame: the bit is ORed into the octet at `wp`, bit `bp`; every other octet keeps its value;
the count rises by one and the position moves to the next bit. -/
def Obligations.PackStoresBit : Prop :=
  ∀ s : State, s.wp < 256 → ∃ t, exec .pack s = .next t ∧
    (∀ p < 8, (t.bufRead s.wp).getLsbD p = ((s.bufRead s.wp).getLsbD p || (decide (p = s.bp) && s.out))) ∧
    (∀ a, a ≠ s.wp → t.bufRead a = s.bufRead a) ∧ (∀ a, t.rawRead a = s.rawRead a) ∧
    (s.bp + 1 = 8 → t.wp = s.wp + 1 ∧ t.bp = 0) ∧ (s.bp + 1 ≠ 8 → t.wp = s.wp ∧ t.bp = s.bp + 1) ∧
    t = { s with buf := t.buf, wp := t.wp, bp := t.bp, nbits := s.nbits + 1, res := .plain }

/-- CORR from a burst start beyond the stream, PACK with the write pointer beyond the frame and GETBITS with a bit
beyond it form an index the spec gives no value: the model's fault (U2; log 14). -/
def Obligations.IndexOutsideBufferFaults : Prop :=
  (∀ s : State, s.n ≤ s.i → exec .corr s = .fault .streamRange) ∧
  (∀ s : State, 256 ≤ s.wp → exec .pack s = .fault .bufRange) ∧
  (∀ s : State, 0 < s.gbW → 8 * 252 < s.gbO + s.gbW → exec .getbits s = .fault .bufRange)

/-- After CLEAR, up to 2016 kept bits land least significant bit first: bit `t` is bit `t mod 8` of octet
`4 + t//8`. -/
def Obligations.PackedBitsLandInOrder : Prop :=
  ∀ (s a : State) (bits : List Bool), bits.length ≤ 2016 → exec .clearOp s = .next a →
    ∃ t, packAll bits a = .next t ∧ t.nbits = bits.length ∧
      ∀ q < bits.length, some ((t.bufRead (4 + q / 8)).getLsbD (q % 8)) = bits[q]?

/-! ### C8 -/

/-- LENSEL: the message ID is the six high bits of octet 4; ID 5 selects 53 body octets, every other ID 21; fewer
than `8·(blen + 2)` bits raise MidFrameFade with the deframer's last index. -/
def Obligations.LenselSelectsLength : Prop :=
  ∀ s : State, ∃ t, exec .lensel s = .next t ∧
    t.mid.toNat = (s.bufRead 4).toNat / 4 ∧
    (t.mid = 5 → t.blen = .octets53) ∧ (t.mid ≠ 5 → t.blen = .octets21) ∧
    (t.short = true ↔ s.nbits < 8 * (t.blen.octets + 2)) ∧
    (t.short = true → t.res = .raised .midFrameFade ∧ t.resume = s.idx) ∧
    (t.short = false → t.res = .plain ∧ t.resume = s.resume) ∧
    SameBytes s t ∧
    t = { s with mid := t.mid, blen := t.blen, short := t.short, res := t.res, resume := t.resume }

/-- CRC16 equals the bit-serial definition of R128 on every octet sequence. Its operand stands in a latch of the
model (log 4). -/
def Obligations.Crc16IsBitSerialCrc : Prop :=
  ∀ s : State, ∃ t, exec .crc16 s = .next t ∧ t.crc = serialCrc s.crcD ∧
    SameBytes s t ∧ t = { s with crc := t.crc, res := .plain }

/-- CRCCHK: the CRC of the body against the two octets after it, low octet first; inequality raises CrcMismatch. -/
def Obligations.CrcchkComparesFcs : Prop :=
  ∀ s : State, ∃ t, exec .crcchk s = .next t ∧
    t.crc = serialCrc (body s) ∧
    t.fcs.toNat = (s.bufRead (4 + s.blen.octets)).toNat + 256 * (s.bufRead (5 + s.blen.octets)).toNat ∧
    (t.crcOk = true ↔ t.crc = t.fcs) ∧
    (t.crcOk = true → t.res = .plain ∧ t.resume = s.resume) ∧
    (t.crcOk = false → t.res = .raised .crcMismatch ∧ t.resume = s.idx) ∧
    SameBytes s t ∧
    t = { s with crc := t.crc, fcs := t.fcs, crcOk := t.crcOk, res := t.res, resume := t.resume }

/-- Two octet sequences that differ in one octet have different CRCs: a body with one octet (so with one bit)
changed fails the check. -/
def Obligations.OneChangedOctetFails : Prop :=
  ∀ (front back : List Byte) (a b : Byte), a ≠ b → crc16Of (front ++ a :: back) ≠ crc16Of (front ++ b :: back)

/-! ### C9 -/

/-- GETBITS inside the frame: the sum of the bits from offset `o`, most significant first, below `2^w`. Its operands
and its result stand in latches of the model (log 4, log 21). -/
def Obligations.GetbitsReadsField : Prop :=
  ∀ s : State, 1 ≤ s.gbW → s.gbO + s.gbW ≤ 8 * 252 → ∃ t, exec .getbits s = .next t ∧
    t.gbV = field s s.gbO s.gbW ∧ t.gbV < 2 ^ s.gbW ∧
    SameBytes s t ∧ t = { s with gbV := t.gbV, res := .plain }

/-- UNPACK.POS builds the position record of R143 from `BUF` and `mid`, each field inside its width. -/
def Obligations.UnpackPosBuildsRecord : Prop :=
  ∀ s : State, ∃ t mmsi sog lon lat cog, exec .unpackPos s = .next t ∧
    t.record = .pos s.mid.toNat mmsi sog lon lat cog ∧
    mmsi = field s 8 30 ∧ sog = field s 50 10 ∧ lon = signedField s 61 28 ∧ lat = signedField s 89 27 ∧
    cog = field s 116 12 ∧
    mmsi < 2 ^ 30 ∧ sog < 2 ^ 10 ∧ -2 ^ 27 ≤ lon ∧ lon < 2 ^ 27 ∧ -2 ^ 26 ≤ lat ∧ lat < 2 ^ 26 ∧ cog < 2 ^ 12 ∧
    SameBytes s t ∧ t = { s with record := t.record, res := .plain }

/-- UNPACK.BASE builds the base-station record of R145. -/
def Obligations.UnpackBaseBuildsRecord : Prop :=
  ∀ s : State, ∃ t, exec .unpackBase s = .next t ∧
    t.record = .base 4 (field s 8 30) (field s 38 14) (field s 52 4) (field s 56 5) (field s 61 5) (field s 66 6)
      (field s 72 6) (signedField s 79 28) (signedField s 107 27) ∧
    SameBytes s t ∧ t = { s with record := t.record, res := .plain }

/-- The date and time fields of the base-station record in terms of the octets of `BUF` (R146). -/
def Obligations.BaseDateByteView : Prop :=
  ∀ (s t : State) (id mmsi year month day hour minute second : Nat) (lon lat : Int),
    exec .unpackBase s = .next t → t.record = .base id mmsi year month day hour minute second lon lat →
    year = (((s.bufRead 8).toNat &&& 0x03) <<< 12) ||| ((s.bufRead 9).toNat <<< 4) ||| ((s.bufRead 10).toNat >>> 4) ∧
    month = (s.bufRead 10).toNat &&& 0x0F ∧ day = (s.bufRead 11).toNat >>> 3 ∧
    hour = (((s.bufRead 11).toNat &&& 0x07) <<< 2) ||| ((s.bufRead 12).toNat >>> 6) ∧
    minute = (s.bufRead 12).toNat &&& 0x3F ∧ second = (s.bufRead 13).toNat >>> 2

/-- UNPACK.STATIC builds the static record of R147: three untrimmed texts of ASCII codes from 32 to 95. -/
def Obligations.UnpackStaticBuildsRecord : Prop :=
  ∀ s : State, ∃ t callsign name dest, exec .unpackStatic s = .next t ∧
    t.record = .static 5 (field s 8 30) callsign name dest ∧
    callsign = textField s 70 7 ∧ name = textField s 112 20 ∧ dest = textField s 302 20 ∧
    callsign.length = 7 ∧ name.length = 20 ∧ dest.length = 20 ∧
    (∀ c ∈ callsign ++ name ++ dest, 32 ≤ c ∧ c ≤ 95) ∧
    SameBytes s t ∧ t = { s with record := t.record, res := .plain }

/-- UNPACK.UNKNOWN builds the unknown record of R149 and reports UnknownMessageId, which stops nothing. -/
def Obligations.UnpackUnknownBuildsRecord : Prop :=
  ∀ s : State, ∃ t, exec .unpackUnknown s = .next t ∧
    t.record = .unknown s.mid.toNat (field s 8 30) ∧
    SameBytes s t ∧ t = { s with record := t.record, res := .raised .unknownMessageId }

/-- Every first body octet has a message class, and the class selects by `mid = octet >> 2` the body length and the
record of R66; only IDs outside 1 to 5 raise a condition. That a class is an instruction of its own is the model's
reading of the table (log 3). -/
def Obligations.MessageClassSelectsRecord : Prop :=
  ∀ (s : State) (octet : Byte), ∃ i t, decode .msgId octet = .ok i ∧ exec i s = .next t ∧
    t.mid.toNat = octet.toNat / 4 ∧
    (octet.toNat / 4 = 5 → t.blen = .octets53) ∧ (octet.toNat / 4 ≠ 5 → t.blen = .octets21) ∧
    t.record = recordFor s (octet.toNat / 4) ∧
    (1 ≤ octet.toNat / 4 ∧ octet.toNat / 4 ≤ 5 → t.res = .plain) ∧
    (octet.toNat / 4 = 0 ∨ 6 ≤ octet.toNat / 4 → t.res = .raised .unknownMessageId) ∧
    SameBytes s t ∧ t = { s with mid := t.mid, blen := t.blen, record := t.record, res := t.res }

/-- Each of the ten message classes, as an instruction in its well-formed form, completes with the record its octet
selects. -/
def Obligations.MessageInstructionsComplete : Prop :=
  ∀ (s : State) (octet : Byte) (i : Instr),
    (i = .msgPos1 octet ∨ i = .msgPos2 octet ∨ i = .msgPos3 octet ∨ i = .msgBase octet ∨ i = .msgStatic octet ∨
      i = .msgUnknown0 octet ∨ i = .msgUnknown6to7 octet ∨ i = .msgUnknown8to15 octet ∨
      i = .msgUnknown16to31 octet ∨ i = .msgUnknown32to63 octet) →
    i.wellFormed = true →
    ∃ t, exec i s = .next t ∧ t.record = recordFor s (octet.toNat / 4) ∧ SameBytes s t ∧
      t = { s with mid := t.mid, blen := t.blen, record := t.record, res := t.res }

/-- EMIT appends the record to the sink and changes nothing else. -/
def Obligations.EmitAppendsRecord : Prop :=
  ∀ s : State, ∃ t, exec .emitOp s = .next t ∧ SameBytes s t ∧
    t = { s with sink := s.sink ++ [.item s.record], res := .plain }

/-! ### The sequencer's composite operations -/

/-- READ: a whole block when the source has one; SourceClosed when it has closed without one, the partial bytes
gone; otherwise the core waits in `phase = READ`. What the source holds
and whether it has closed are data of the model (log 9). -/
def Obligations.ReadTakesWholeBlocks : Prop :=
  ∀ s : State, ∃ t, exec .readOp s = .next t ∧ t.phase = .read ∧
    (2 * s.cfg.n ≤ s.src.length → t.res = .block ∧ t.src = s.src.drop (2 * s.cfg.n) ∧
      (∀ a < 2 * s.cfg.n, some (t.rawRead a) = s.src[a]?) ∧
      t = { s with phase := .read, raw := t.raw, src := t.src, res := .block }) ∧
    (s.src.length < 2 * s.cfg.n → s.srcClosed = true → t.res = .raised .sourceClosed ∧ t.src = [] ∧
      t = { s with phase := .read, raw := t.raw, rawEpoch := t.rawEpoch, src := [], res := t.res }) ∧
    (s.src.length < 2 * s.cfg.n → s.srcClosed = false → t = { s with phase := .read, res := .waiting }) ∧
    (∀ a, t.bufRead a = s.bufRead a)

/-- AISDEC completes from every state, with exactly one of the five outcomes; a record is appended by the outcome
RECORD and by no other, and it is the one in `REC`. -/
def Obligations.AttemptHasOneOutcome : Prop :=
  ∀ s : State, ∃ t o, exec .aisdec s = .next t ∧ t.res = .attempt o ∧
    (o = .record → t.sink = s.sink ++ [.item t.record]) ∧ (o ≠ .record → t.sink = s.sink ∧ t.record = s.record) ∧
    (o = .eob ∨ o = .nosync → ∀ a, t.bufRead a = s.bufRead a) ∧
    (o = .nosync → t.smax = 0 ∧ t.sync = false ∧ t.resume = t.i + 1145) ∧ (o = .eob → t.resume = t.i) ∧
    (o = .short ∨ o = .crcfail ∨ o = .record → t.resume = t.idx) ∧
    sameOutsideAttempt s t ∧ t.ch = s.ch

/-- A record is emitted only when enough bits were stored and the CRC of the stored body equals the stored FCS. -/
def Obligations.RecordMeansValidFrame : Prop :=
  ∀ s t : State, exec .aisdec s = .next t → t.res = .attempt .record →
    8 * (t.blen.octets + 2) ≤ t.nbits ∧ t.crc = t.fcs ∧ t.crc = serialCrc (body t) ∧
    t.fcs.toNat = (t.bufRead (4 + t.blen.octets)).toNat + 256 * (t.bufRead (5 + t.blen.octets)).toNat ∧
    t.mid.toNat = (t.bufRead 4).toNat / 4 ∧ t.record = recordFor t t.mid.toNat

/-- Progress: the resume index is beyond the caller's offset, by at least 167, except at end of buffer, where it is
beyond `n − 500`. -/
def Obligations.AttemptMakesProgress : Prop :=
  ∀ (s t : State) (o : AttemptOutcome), exec .aisdec s = .next t → t.res = .attempt o →
    (o ≠ .eob → s.i + 167 ≤ t.resume) ∧ (o = .eob → (s.n : Int) - 500 < t.resume)

/-- SCAN completes from every state: it scans the operand channel until the index is beyond `n − 500`, appends only
records, and only reads the streams. -/
def Obligations.ScanCompletes : Prop :=
  ∀ s : State, ∃ t, exec .scanOp s = .next t ∧ t.ch = s.argCh ∧ (s.len s.argCh : Int) - 500 < t.i ∧
    (∃ rs : List Record, t.sink = s.sink ++ rs.map .item) ∧ sameOutsideAttempt s t ∧
    (s.len s.argCh < 500 → t = { s with ch := s.argCh, i := 0, phase := t.phase, res := t.res })

/-- The stream lengths through a sweep (R32). -/
def Obligations.StreamLengthsThroughSweep : Prop :=
  ∀ s a b c d e f : State, exec .sdec s = .next a → exec .dec3 a = .next b → exec .splitOp b = .next c →
    exec .dec2 c = .next d → demodChannel d .one = .next e → demodChannel e .two = .next f →
    (a.len1 = s.cfg.n) ∧
    ((b.len1 : Int) = max 0 ((s.cfg.n : Int) / 3 - 10)) ∧
    (c.len1 = b.len1 ∧ c.len2 = b.len1) ∧
    ((d.len1 : Int) = max 0 ((b.len1 : Int) / 2 - 15) ∧ d.len2 = d.len1) ∧
    ((f.len1 : Int) = max 0 ((d.len1 : Int) - 1) ∧ f.len2 = f.len1) ∧
    (s.cfg.n = 300000 → a.len1 = 300000 ∧ b.len1 = 99990 ∧ d.len1 = 49980 ∧ f.len1 = 49979)

/-- SWEEP completes from every state: it appends only records, leaves both channels at the demodulated length, and
touches neither the source nor the parameters nor `RAW`. -/
def Obligations.SweepCompletes : Prop :=
  ∀ s : State, ∃ t, exec .sweepOp s = .next t ∧
    t.len1 = ((s.cfg.n / 3 - 10) / 2 - 15) - 1 ∧ t.len2 = t.len1 ∧
    (∃ rs : List Record, t.sink = s.sink ++ rs.map .item) ∧
    t.cfg = s.cfg ∧ t.src = s.src ∧ t.srcClosed = s.srcClosed ∧ t.started = s.started ∧
    (∀ a, t.rawRead a = s.rawRead a) ∧ (t.len1 < 500 → t.sink = s.sink ∧ t.buf = s.buf ∧ t.record = s.record)

/-- Zero signal: a block in which every byte is 128 emits no record, whatever the kernels. -/
def Obligations.ZeroSignalEmitsNothing : Prop :=
  ∀ s : State, (∀ a < 2 * s.cfg.n, s.rawRead a = 128) →
    ∃ t, exec .sweepOp s = .next t ∧ t.sink = s.sink

/-- A sweep's records are a function of the block alone: nothing an earlier block left has any influence. -/
def Obligations.SweepDependsOnBlockAlone : Prop :=
  ∀ s u : State, s.cfg = u.cfg → (∀ a < 2 * s.cfg.n, s.rawRead a = u.rawRead a) →
    ∃ t v, ∃ rs : List SinkItem, exec .sweepOp s = .next t ∧ exec .sweepOp u = .next v ∧
      t.sink = s.sink ++ rs ∧ v.sink = u.sink ++ rs

/-- RUN from IDLE or DONE: it completes with the stream-start event first and, after it, block by block, what SWEEP
appends when `RAW` holds that block, all of it records. On a source that has closed it ends in `DONE` with every byte
used or discarded; on a source that has not closed it stands in `phase = READ` with every whole block taken and less
than a block left. With empty blocks it stands in `phase = READ`, nothing used and nothing appended but the event. While
a run is in progress, or with kernels that break the constraint, RUN is refused (the model's treatment by U13 and U6).
What the source has ready and the one step are the model's (log 9, log 10). -/
def Obligations.RunProcessesEveryBlock : Prop :=
  ∀ s : State,
    (s.phase = .idle ∨ s.phase = .done → s.cfg.ok = true → ∃ t, exec .runOp s = .next t ∧ t.started = true ∧
      t.sink = s.sink ++ .streamStart :: sweptFromSource s ∧
      (∃ rs : List Record, sweptFromSource s = rs.map .item) ∧
      (0 < s.cfg.n → s.srcClosed = true → t.phase = .done ∧ t.src = []) ∧
      (0 < s.cfg.n → s.srcClosed = false → t.phase = .read ∧ t.src.length < 2 * s.cfg.n ∧
        t.src = s.src.drop (2 * s.cfg.n * (s.src.length / (2 * s.cfg.n)))) ∧
      (s.cfg.n = 0 → t.phase = .read ∧ t.src = s.src) ∧
      t.cfg = s.cfg ∧ t.srcClosed = s.srcClosed) ∧
    (s.phase ≠ .idle → s.phase ≠ .done → exec .runOp s = .refused .runInProgress) ∧
    (s.phase = .idle ∨ s.phase = .done → s.cfg.ok = false → exec .runOp s = .refused .kernelConstraint)

/-- The composite AISDEC equals its operations performed one by one under R167: from the same state, some number of
steps reaches the state that AISDEC and the loop test after it give. That a step is one operation, composite or not, is
the model's choice (log 1). -/
def Obligations.AttemptIsItsOperations : Prop :=
  ∀ s : State, s.fetch = fetchOf .gate → ∃ k t, exec .aisdec s = .next t ∧
    Host.Core.run Sys2Proof.core k s = .next t.afterAttempt

/-- The composite SWEEP equals its operations performed one by one under R167, up to the returned value that SWEEP
itself overwrites (log 1, log 11). -/
def Obligations.SweepIsItsOperations : Prop :=
  ∀ s : State, ∃ k t u, exec .sweepOp s = .next t ∧
    Host.Core.run Sys2Proof.core k (s.goto .sdec (fetchOf .sdec)) = .next u ∧ u.ret .plain = t.toRead

/-! ### Invariants of every step -/

/-- The state after reset has its data in range and stands where the sequencer can stand. R28 leaves `run`, `k`, `j`,
`imax`, `wp`, `bp` and `nbits` unspecified: that they are in range rests on the values the model names (log 5), and the
latch on RUN is the model's too (log 1). -/
def Obligations.ResetIsSequenced : Prop := State.reset.dataOk ∧ State.reset.sequenced

/-- Every step, of every instruction, keeps the data in the ranges the spec gives. -/
def Obligations.StepKeepsDataInRange : Prop :=
  ∀ s t : State, s.dataOk → step s = .next t → t.dataOk

/-- A sequenced machine never stops with a fault or a refusal: its step answers a next state, which is sequenced
again. No rule forms an index out of range. -/
def Obligations.SequencedStepsNeverStop : Prop :=
  ∀ s : State, s.sequenced → ∃ t, step s = .next t ∧ t.sequenced

/-- No step of any instruction writes the parameters of the run: the kernels are immutable. -/
def Obligations.StepKeepsParameters : Prop :=
  ∀ s t : State, step s = .next t → t.cfg = s.cfg

/-- The sink is append only under every step. -/
def Obligations.SinkIsAppendOnly : Prop :=
  ∀ s t : State, step s = .next t → s.sink <+: t.sink

/-- In a sequenced machine whose phase is not IDLE only EMIT reaches the sink: it appends the record of a frame that
was long enough and whose CRC equalled its FCS. -/
def Obligations.SequencedRecordsAreValid : Prop :=
  ∀ s t : State, s.sequenced → s.phase ≠ .idle → step s = .next t → t.sink ≠ s.sink →
    s.fetch = .tag 0x55 ∧ t.sink = s.sink ++ [.item s.record] ∧ s.short = false ∧ s.crcOk = true ∧ s.crc = s.fcs

/-- In a sequenced machine every step makes the transition of R167 whose guard holds: READ goes by what the source has,
a scan is entered or left by the lengths and the returned index, and the tests of an attempt decide its sub-phases. The
transitions IDLE to DONE (log 1, log 10), READ to READ (log 9, log 18) and DONE to DONE (log 18) are the model's, and so
is passing over a scan that makes no attempt (log 27). -/
def Obligations.PhaseTransitions : Prop :=
  ∀ s t : State, s.sequenced → step s = .next t → phaseFollows s t
end

