-- ==== Sys2Proof/Laws/Memory.lean ====
section
/-! SUPPORT. The byte buffers: a read after a write, and that every operation keeps the canonical form. -/

namespace Sys2Proof.Machine

/-! ### Reading -/

@[simp] theorem Memory.get?_nil (a : Nat) : Memory.get? [] a = none := rfl

theorem Memory.get?_cons (b : Nat) (w : Byte) (rest : Memory) (a : Nat) :
    Memory.get? ((b, w) :: rest) a = if a = b then some w else Memory.get? rest a := by
  by_cases h : a = b
  · simp [Memory.get?, h]
  · simp [Memory.get?, List.lookup_cons, h, beq_eq_false_iff_ne.mpr h]

theorem Memory.get?_set_same (mem : Memory) (a : Nat) (v : Byte) : (mem.set a v).get? a = some v := by
  fun_induction Memory.set mem a v with
  | case1 => simp [Memory.get?_cons]
  | case2 => simp [Memory.get?_cons]
  | case3 => simp [Memory.get?_cons]
  | case4 b w rest a v h1 h2 ih => simp [Memory.get?_cons, h2, ih]

theorem Memory.get?_set_ne (mem : Memory) {a b : Nat} (v : Byte) (h : b ≠ a) :
    (mem.set a v).get? b = mem.get? b := by
  fun_induction Memory.set mem a v with
  | case1 => simp [Memory.get?_cons, h]
  | case2 => rw [Memory.get?_cons, if_neg h]
  | case3 => simp [Memory.get?_cons, h]
  | case4 c w rest a v h1 h2 ih => simp [Memory.get?_cons, ih h]

theorem Memory.get?_set (mem : Memory) (a b : Nat) (v : Byte) :
    (mem.set a v).get? b = if b = a then some v else mem.get? b := by
  split
  · next h => rw [h, Memory.get?_set_same]
  · next h => exact Memory.get?_set_ne mem v h

/-- Octets stored in order from `base` read back at their own indices, and nothing else is there. -/
theorem Memory.get?_ofBytes (bs : List Byte) (base a : Nat) :
    (Memory.ofBytes base bs).get? a = if base ≤ a then bs[a - base]? else none := by
  induction bs generalizing base with
  | nil => simp [Memory.ofBytes]
  | cons b bs ih =>
    rw [Memory.ofBytes, Memory.get?_cons, ih]
    by_cases h : a = base
    · simp [h]
    · by_cases h' : base ≤ a
      · obtain ⟨d, rfl⟩ : ∃ d, a = base + 1 + d := ⟨a - base - 1, by omega⟩
        have e1 : base + 1 + d - (base + 1) = d := by omega
        have e2 : base + 1 + d - base = d + 1 := by omega
        simp [h, e1, e2]
        omega
      · simp [h, h', show ¬ base + 1 ≤ a by omega]

/-! ### The canonical form -/

/-- The canonical form says that indices rise strictly. -/
theorem Memory.wf_iff (mem : Memory) : mem.wf = true ↔ mem.Pairwise (fun x y => x.1 < y.1) := by
  rw [← List.isChain_iff_pairwise]
  fun_induction Memory.wf mem with
  | case1 => simp
  | case2 => simp
  | case3 a v b w rest ih => simp [List.isChain_cons_cons, ih]

theorem Memory.mem_set {mem : Memory} {a : Nat} {v : Byte} {c : Host.Cell} (h : c ∈ mem.set a v) :
    c = (a, v) ∨ c ∈ mem := by
  fun_induction Memory.set mem a v with
  | case1 => simpa using h
  | case2 => simpa using h
  | case3 => simp only [List.mem_cons] at h ⊢; tauto
  | case4 b w rest a v h1 h2 ih =>
    simp only [List.mem_cons] at h ⊢
    rcases h with h | h
    · exact .inr (.inl h)
    · rcases ih h with h | h
      · exact .inl h
      · exact .inr (.inr h)

/-- Writing an octet keeps the canonical form. -/
theorem Memory.wf_set {mem : Memory} (a : Nat) (v : Byte) (h : mem.wf = true) : (mem.set a v).wf = true := by
  rw [Memory.wf_iff] at h ⊢
  fun_induction Memory.set mem a v with
  | case1 => simp
  | case2 b w rest a v hab =>
    rw [List.pairwise_cons] at h ⊢
    refine ⟨fun c hc => ?_, List.pairwise_cons.mpr h⟩
    rcases List.mem_cons.mp hc with rfl | hc
    · exact hab
    · exact Nat.lt_trans hab (h.1 c hc)
  | case3 w rest a v _ =>
    rw [List.pairwise_cons] at h ⊢
    exact h
  | case4 b w rest a v h1 h2 ih =>
    rw [List.pairwise_cons] at h ⊢
    refine ⟨fun c hc => ?_, ih h.2⟩
    rcases Memory.mem_set hc with rfl | hc
    · simp only; omega
    · exact h.1 c hc

theorem Memory.mem_ofBytes {bs : List Byte} {base : Nat} {c : Host.Cell} (h : c ∈ Memory.ofBytes base bs) :
    base ≤ c.1 ∧ c.1 < base + bs.length := by
  induction bs generalizing base with
  | nil => simp [Memory.ofBytes] at h
  | cons b bs ih =>
    rcases List.mem_cons.mp h with rfl | h
    · simp
    · have := ih h
      simp only [List.length_cons]
      omega

/-- Octets stored in order are in canonical form. -/
theorem Memory.wf_ofBytes (bs : List Byte) (base : Nat) : (Memory.ofBytes base bs).wf = true := by
  rw [Memory.wf_iff]
  induction bs generalizing base with
  | nil => simp [Memory.ofBytes]
  | cons b bs ih =>
    refine List.pairwise_cons.mpr ⟨fun c hc => ?_, ih (base + 1)⟩
    have := (Memory.mem_ofBytes hc).1
    simp only
    omega

theorem clearedBuf_wf : clearedBuf.wf = true := Memory.wf_ofBytes _ _

theorem reset_memory_wf : State.reset.buf.wf = true ∧ State.reset.raw.wf = true := ⟨rfl, rfl⟩

/-! ### `BUF` -/

theorem State.bufRead_bufWrite (s : State) (a b : Nat) (v : Byte) :
    (s.bufWrite a v).bufRead b = if b = a then v else s.bufRead b := by
  simp only [State.bufRead, State.bufWrite, Memory.get?_set]
  split <;> simp

theorem State.rawRead_bufWrite (s : State) (a b : Nat) (v : Byte) :
    (s.bufWrite a v).rawRead b = s.rawRead b := rfl

theorem clearedBuf_get? (a : Nat) : clearedBuf.get? a = if a < frameBytes then some 0 else none := by
  rw [clearedBuf, Memory.get?_ofBytes]
  by_cases h : a < frameBytes <;> simp [h]

end Sys2Proof.Machine
end

