-- ==== Sys2Proof/Laws/State.lean ====
section
/-! SUPPORT. One lemma per field per named update of the state, each true by definition, so that no proof
unfolds a record update. Generated from the field list of Sys2Proof/Machine/State.lean. -/

namespace Sys2Proof.Machine

variable (s : State)


/-! ### `goto` -/

@[simp] theorem State.goto_cfg (p : Phase) (f : Fetch) : (s.goto p f).cfg = s.cfg := rfl
@[simp] theorem State.goto_src (p : Phase) (f : Fetch) : (s.goto p f).src = s.src := rfl
@[simp] theorem State.goto_srcClosed (p : Phase) (f : Fetch) : (s.goto p f).srcClosed = s.srcClosed := rfl
@[simp] theorem State.goto_sink (p : Phase) (f : Fetch) : (s.goto p f).sink = s.sink := rfl
@[simp] theorem State.goto_phase (p : Phase) (f : Fetch) : (s.goto p f).phase = p := rfl
@[simp] theorem State.goto_started (p : Phase) (f : Fetch) : (s.goto p f).started = s.started := rfl
@[simp] theorem State.goto_fetch (p : Phase) (f : Fetch) : (s.goto p f).fetch = f := rfl
@[simp] theorem State.goto_res (p : Phase) (f : Fetch) : (s.goto p f).res = s.res := rfl
@[simp] theorem State.goto_resume (p : Phase) (f : Fetch) : (s.goto p f).resume = s.resume := rfl
@[simp] theorem State.goto_raw (p : Phase) (f : Fetch) : (s.goto p f).raw = s.raw := rfl
@[simp] theorem State.goto_rawEpoch (p : Phase) (f : Fetch) : (s.goto p f).rawEpoch = s.rawEpoch := rfl
@[simp] theorem State.goto_buf (p : Phase) (f : Fetch) : (s.goto p f).buf = s.buf := rfl
@[simp] theorem State.goto_epoch (p : Phase) (f : Fetch) : (s.goto p f).epoch = s.epoch := rfl
@[simp] theorem State.goto_i1 (p : Phase) (f : Fetch) : (s.goto p f).i1 = s.i1 := rfl
@[simp] theorem State.goto_q1 (p : Phase) (f : Fetch) : (s.goto p f).q1 = s.q1 := rfl
@[simp] theorem State.goto_i2 (p : Phase) (f : Fetch) : (s.goto p f).i2 = s.i2 := rfl
@[simp] theorem State.goto_q2 (p : Phase) (f : Fetch) : (s.goto p f).q2 = s.q2 := rfl
@[simp] theorem State.goto_len1 (p : Phase) (f : Fetch) : (s.goto p f).len1 = s.len1 := rfl
@[simp] theorem State.goto_len2 (p : Phase) (f : Fetch) : (s.goto p f).len2 = s.len2 := rfl
@[simp] theorem State.goto_fOut (p : Phase) (f : Fetch) : (s.goto p f).fOut = s.fOut := rfl
@[simp] theorem State.goto_aOut (p : Phase) (f : Fetch) : (s.goto p f).aOut = s.aOut := rfl
@[simp] theorem State.goto_ch (p : Phase) (f : Fetch) : (s.goto p f).ch = s.ch := rfl
@[simp] theorem State.goto_i (p : Phase) (f : Fetch) : (s.goto p f).i = s.i := rfl
@[simp] theorem State.goto_run (p : Phase) (f : Fetch) : (s.goto p f).run = s.run := rfl
@[simp] theorem State.goto_k (p : Phase) (f : Fetch) : (s.goto p f).k = s.k := rfl
@[simp] theorem State.goto_j (p : Phase) (f : Fetch) : (s.goto p f).j = s.j := rfl
@[simp] theorem State.goto_score (p : Phase) (f : Fetch) : (s.goto p f).score = s.score := rfl
@[simp] theorem State.goto_smax (p : Phase) (f : Fetch) : (s.goto p f).smax = s.smax := rfl
@[simp] theorem State.goto_imax (p : Phase) (f : Fetch) : (s.goto p f).imax = s.imax := rfl
@[simp] theorem State.goto_p0 (p : Phase) (f : Fetch) : (s.goto p f).p0 = s.p0 := rfl
@[simp] theorem State.goto_m (p : Phase) (f : Fetch) : (s.goto p f).m = s.m := rfl
@[simp] theorem State.goto_idx (p : Phase) (f : Fetch) : (s.goto p f).idx = s.idx := rfl
@[simp] theorem State.goto_prev (p : Phase) (f : Fetch) : (s.goto p f).prev = s.prev := rfl
@[simp] theorem State.goto_hist (p : Phase) (f : Fetch) : (s.goto p f).hist = s.hist := rfl
@[simp] theorem State.goto_wp (p : Phase) (f : Fetch) : (s.goto p f).wp = s.wp := rfl
@[simp] theorem State.goto_bp (p : Phase) (f : Fetch) : (s.goto p f).bp = s.bp := rfl
@[simp] theorem State.goto_nbits (p : Phase) (f : Fetch) : (s.goto p f).nbits = s.nbits := rfl
@[simp] theorem State.goto_sym (p : Phase) (f : Fetch) : (s.goto p f).sym = s.sym := rfl
@[simp] theorem State.goto_out (p : Phase) (f : Fetch) : (s.goto p f).out = s.out := rfl
@[simp] theorem State.goto_mid (p : Phase) (f : Fetch) : (s.goto p f).mid = s.mid := rfl
@[simp] theorem State.goto_blen (p : Phase) (f : Fetch) : (s.goto p f).blen = s.blen := rfl
@[simp] theorem State.goto_crc (p : Phase) (f : Fetch) : (s.goto p f).crc = s.crc := rfl
@[simp] theorem State.goto_fcs (p : Phase) (f : Fetch) : (s.goto p f).fcs = s.fcs := rfl
@[simp] theorem State.goto_record (p : Phase) (f : Fetch) : (s.goto p f).record = s.record := rfl
@[simp] theorem State.goto_sync (p : Phase) (f : Fetch) : (s.goto p f).sync = s.sync := rfl
@[simp] theorem State.goto_pol (p : Phase) (f : Fetch) : (s.goto p f).pol = s.pol := rfl
@[simp] theorem State.goto_short (p : Phase) (f : Fetch) : (s.goto p f).short = s.short := rfl
@[simp] theorem State.goto_crcOk (p : Phase) (f : Fetch) : (s.goto p f).crcOk = s.crcOk := rfl
@[simp] theorem State.goto_argCh (p : Phase) (f : Fetch) : (s.goto p f).argCh = s.argCh := rfl
@[simp] theorem State.goto_firX (p : Phase) (f : Fetch) : (s.goto p f).firX = s.firX := rfl
@[simp] theorem State.goto_firH (p : Phase) (f : Fetch) : (s.goto p f).firH = s.firH := rfl
@[simp] theorem State.goto_firN (p : Phase) (f : Fetch) : (s.goto p f).firN = s.firN := rfl
@[simp] theorem State.goto_firY (p : Phase) (f : Fetch) : (s.goto p f).firY = s.firY := rfl
@[simp] theorem State.goto_crcD (p : Phase) (f : Fetch) : (s.goto p f).crcD = s.crcD := rfl
@[simp] theorem State.goto_gbO (p : Phase) (f : Fetch) : (s.goto p f).gbO = s.gbO := rfl
@[simp] theorem State.goto_gbW (p : Phase) (f : Fetch) : (s.goto p f).gbW = s.gbW := rfl
@[simp] theorem State.goto_gbV (p : Phase) (f : Fetch) : (s.goto p f).gbV = s.gbV := rfl

/-! ### `setPhase` -/

@[simp] theorem State.setPhase_cfg (p : Phase) : (s.setPhase p).cfg = s.cfg := rfl
@[simp] theorem State.setPhase_src (p : Phase) : (s.setPhase p).src = s.src := rfl
@[simp] theorem State.setPhase_srcClosed (p : Phase) : (s.setPhase p).srcClosed = s.srcClosed := rfl
@[simp] theorem State.setPhase_sink (p : Phase) : (s.setPhase p).sink = s.sink := rfl
@[simp] theorem State.setPhase_phase (p : Phase) : (s.setPhase p).phase = p := rfl
@[simp] theorem State.setPhase_started (p : Phase) : (s.setPhase p).started = s.started := rfl
@[simp] theorem State.setPhase_fetch (p : Phase) : (s.setPhase p).fetch = s.fetch := rfl
@[simp] theorem State.setPhase_res (p : Phase) : (s.setPhase p).res = s.res := rfl
@[simp] theorem State.setPhase_resume (p : Phase) : (s.setPhase p).resume = s.resume := rfl
@[simp] theorem State.setPhase_raw (p : Phase) : (s.setPhase p).raw = s.raw := rfl
@[simp] theorem State.setPhase_rawEpoch (p : Phase) : (s.setPhase p).rawEpoch = s.rawEpoch := rfl
@[simp] theorem State.setPhase_buf (p : Phase) : (s.setPhase p).buf = s.buf := rfl
@[simp] theorem State.setPhase_epoch (p : Phase) : (s.setPhase p).epoch = s.epoch := rfl
@[simp] theorem State.setPhase_i1 (p : Phase) : (s.setPhase p).i1 = s.i1 := rfl
@[simp] theorem State.setPhase_q1 (p : Phase) : (s.setPhase p).q1 = s.q1 := rfl
@[simp] theorem State.setPhase_i2 (p : Phase) : (s.setPhase p).i2 = s.i2 := rfl
@[simp] theorem State.setPhase_q2 (p : Phase) : (s.setPhase p).q2 = s.q2 := rfl
@[simp] theorem State.setPhase_len1 (p : Phase) : (s.setPhase p).len1 = s.len1 := rfl
@[simp] theorem State.setPhase_len2 (p : Phase) : (s.setPhase p).len2 = s.len2 := rfl
@[simp] theorem State.setPhase_fOut (p : Phase) : (s.setPhase p).fOut = s.fOut := rfl
@[simp] theorem State.setPhase_aOut (p : Phase) : (s.setPhase p).aOut = s.aOut := rfl
@[simp] theorem State.setPhase_ch (p : Phase) : (s.setPhase p).ch = s.ch := rfl
@[simp] theorem State.setPhase_i (p : Phase) : (s.setPhase p).i = s.i := rfl
@[simp] theorem State.setPhase_run (p : Phase) : (s.setPhase p).run = s.run := rfl
@[simp] theorem State.setPhase_k (p : Phase) : (s.setPhase p).k = s.k := rfl
@[simp] theorem State.setPhase_j (p : Phase) : (s.setPhase p).j = s.j := rfl
@[simp] theorem State.setPhase_score (p : Phase) : (s.setPhase p).score = s.score := rfl
@[simp] theorem State.setPhase_smax (p : Phase) : (s.setPhase p).smax = s.smax := rfl
@[simp] theorem State.setPhase_imax (p : Phase) : (s.setPhase p).imax = s.imax := rfl
@[simp] theorem State.setPhase_p0 (p : Phase) : (s.setPhase p).p0 = s.p0 := rfl
@[simp] theorem State.setPhase_m (p : Phase) : (s.setPhase p).m = s.m := rfl
@[simp] theorem State.setPhase_idx (p : Phase) : (s.setPhase p).idx = s.idx := rfl
@[simp] theorem State.setPhase_prev (p : Phase) : (s.setPhase p).prev = s.prev := rfl
@[simp] theorem State.setPhase_hist (p : Phase) : (s.setPhase p).hist = s.hist := rfl
@[simp] theorem State.setPhase_wp (p : Phase) : (s.setPhase p).wp = s.wp := rfl
@[simp] theorem State.setPhase_bp (p : Phase) : (s.setPhase p).bp = s.bp := rfl
@[simp] theorem State.setPhase_nbits (p : Phase) : (s.setPhase p).nbits = s.nbits := rfl
@[simp] theorem State.setPhase_sym (p : Phase) : (s.setPhase p).sym = s.sym := rfl
@[simp] theorem State.setPhase_out (p : Phase) : (s.setPhase p).out = s.out := rfl
@[simp] theorem State.setPhase_mid (p : Phase) : (s.setPhase p).mid = s.mid := rfl
@[simp] theorem State.setPhase_blen (p : Phase) : (s.setPhase p).blen = s.blen := rfl
@[simp] theorem State.setPhase_crc (p : Phase) : (s.setPhase p).crc = s.crc := rfl
@[simp] theorem State.setPhase_fcs (p : Phase) : (s.setPhase p).fcs = s.fcs := rfl
@[simp] theorem State.setPhase_record (p : Phase) : (s.setPhase p).record = s.record := rfl
@[simp] theorem State.setPhase_sync (p : Phase) : (s.setPhase p).sync = s.sync := rfl
@[simp] theorem State.setPhase_pol (p : Phase) : (s.setPhase p).pol = s.pol := rfl
@[simp] theorem State.setPhase_short (p : Phase) : (s.setPhase p).short = s.short := rfl
@[simp] theorem State.setPhase_crcOk (p : Phase) : (s.setPhase p).crcOk = s.crcOk := rfl
@[simp] theorem State.setPhase_argCh (p : Phase) : (s.setPhase p).argCh = s.argCh := rfl
@[simp] theorem State.setPhase_firX (p : Phase) : (s.setPhase p).firX = s.firX := rfl
@[simp] theorem State.setPhase_firH (p : Phase) : (s.setPhase p).firH = s.firH := rfl
@[simp] theorem State.setPhase_firN (p : Phase) : (s.setPhase p).firN = s.firN := rfl
@[simp] theorem State.setPhase_firY (p : Phase) : (s.setPhase p).firY = s.firY := rfl
@[simp] theorem State.setPhase_crcD (p : Phase) : (s.setPhase p).crcD = s.crcD := rfl
@[simp] theorem State.setPhase_gbO (p : Phase) : (s.setPhase p).gbO = s.gbO := rfl
@[simp] theorem State.setPhase_gbW (p : Phase) : (s.setPhase p).gbW = s.gbW := rfl
@[simp] theorem State.setPhase_gbV (p : Phase) : (s.setPhase p).gbV = s.gbV := rfl

/-! ### `raise` -/

@[simp] theorem State.raise_cfg (c : Condition) (info : Option Nat) : (s.raise c info).cfg = s.cfg := rfl
@[simp] theorem State.raise_src (c : Condition) (info : Option Nat) : (s.raise c info).src = s.src := rfl
@[simp] theorem State.raise_srcClosed (c : Condition) (info : Option Nat) : (s.raise c info).srcClosed = s.srcClosed := rfl
@[simp] theorem State.raise_sink (c : Condition) (info : Option Nat) : (s.raise c info).sink = s.sink := rfl
@[simp] theorem State.raise_phase (c : Condition) (info : Option Nat) : (s.raise c info).phase = s.phase := rfl
@[simp] theorem State.raise_started (c : Condition) (info : Option Nat) : (s.raise c info).started = s.started := rfl
@[simp] theorem State.raise_fetch (c : Condition) (info : Option Nat) : (s.raise c info).fetch = s.fetch := rfl
@[simp] theorem State.raise_res (c : Condition) (info : Option Nat) : (s.raise c info).res = .raised c := rfl
@[simp] theorem State.raise_resume (c : Condition) (info : Option Nat) : (s.raise c info).resume = info.getD s.resume := rfl
@[simp] theorem State.raise_raw (c : Condition) (info : Option Nat) : (s.raise c info).raw = s.raw := rfl
@[simp] theorem State.raise_rawEpoch (c : Condition) (info : Option Nat) : (s.raise c info).rawEpoch = s.rawEpoch := rfl
@[simp] theorem State.raise_buf (c : Condition) (info : Option Nat) : (s.raise c info).buf = s.buf := rfl
@[simp] theorem State.raise_epoch (c : Condition) (info : Option Nat) : (s.raise c info).epoch = s.epoch := rfl
@[simp] theorem State.raise_i1 (c : Condition) (info : Option Nat) : (s.raise c info).i1 = s.i1 := rfl
@[simp] theorem State.raise_q1 (c : Condition) (info : Option Nat) : (s.raise c info).q1 = s.q1 := rfl
@[simp] theorem State.raise_i2 (c : Condition) (info : Option Nat) : (s.raise c info).i2 = s.i2 := rfl
@[simp] theorem State.raise_q2 (c : Condition) (info : Option Nat) : (s.raise c info).q2 = s.q2 := rfl
@[simp] theorem State.raise_len1 (c : Condition) (info : Option Nat) : (s.raise c info).len1 = s.len1 := rfl
@[simp] theorem State.raise_len2 (c : Condition) (info : Option Nat) : (s.raise c info).len2 = s.len2 := rfl
@[simp] theorem State.raise_fOut (c : Condition) (info : Option Nat) : (s.raise c info).fOut = s.fOut := rfl
@[simp] theorem State.raise_aOut (c : Condition) (info : Option Nat) : (s.raise c info).aOut = s.aOut := rfl
@[simp] theorem State.raise_ch (c : Condition) (info : Option Nat) : (s.raise c info).ch = s.ch := rfl
@[simp] theorem State.raise_i (c : Condition) (info : Option Nat) : (s.raise c info).i = s.i := rfl
@[simp] theorem State.raise_run (c : Condition) (info : Option Nat) : (s.raise c info).run = s.run := rfl
@[simp] theorem State.raise_k (c : Condition) (info : Option Nat) : (s.raise c info).k = s.k := rfl
@[simp] theorem State.raise_j (c : Condition) (info : Option Nat) : (s.raise c info).j = s.j := rfl
@[simp] theorem State.raise_score (c : Condition) (info : Option Nat) : (s.raise c info).score = s.score := rfl
@[simp] theorem State.raise_smax (c : Condition) (info : Option Nat) : (s.raise c info).smax = s.smax := rfl
@[simp] theorem State.raise_imax (c : Condition) (info : Option Nat) : (s.raise c info).imax = s.imax := rfl
@[simp] theorem State.raise_p0 (c : Condition) (info : Option Nat) : (s.raise c info).p0 = s.p0 := rfl
@[simp] theorem State.raise_m (c : Condition) (info : Option Nat) : (s.raise c info).m = s.m := rfl
@[simp] theorem State.raise_idx (c : Condition) (info : Option Nat) : (s.raise c info).idx = s.idx := rfl
@[simp] theorem State.raise_prev (c : Condition) (info : Option Nat) : (s.raise c info).prev = s.prev := rfl
@[simp] theorem State.raise_hist (c : Condition) (info : Option Nat) : (s.raise c info).hist = s.hist := rfl
@[simp] theorem State.raise_wp (c : Condition) (info : Option Nat) : (s.raise c info).wp = s.wp := rfl
@[simp] theorem State.raise_bp (c : Condition) (info : Option Nat) : (s.raise c info).bp = s.bp := rfl
@[simp] theorem State.raise_nbits (c : Condition) (info : Option Nat) : (s.raise c info).nbits = s.nbits := rfl
@[simp] theorem State.raise_sym (c : Condition) (info : Option Nat) : (s.raise c info).sym = s.sym := rfl
@[simp] theorem State.raise_out (c : Condition) (info : Option Nat) : (s.raise c info).out = s.out := rfl
@[simp] theorem State.raise_mid (c : Condition) (info : Option Nat) : (s.raise c info).mid = s.mid := rfl
@[simp] theorem State.raise_blen (c : Condition) (info : Option Nat) : (s.raise c info).blen = s.blen := rfl
@[simp] theorem State.raise_crc (c : Condition) (info : Option Nat) : (s.raise c info).crc = s.crc := rfl
@[simp] theorem State.raise_fcs (c : Condition) (info : Option Nat) : (s.raise c info).fcs = s.fcs := rfl
@[simp] theorem State.raise_record (c : Condition) (info : Option Nat) : (s.raise c info).record = s.record := rfl
@[simp] theorem State.raise_sync (c : Condition) (info : Option Nat) : (s.raise c info).sync = s.sync := rfl
@[simp] theorem State.raise_pol (c : Condition) (info : Option Nat) : (s.raise c info).pol = s.pol := rfl
@[simp] theorem State.raise_short (c : Condition) (info : Option Nat) : (s.raise c info).short = s.short := rfl
@[simp] theorem State.raise_crcOk (c : Condition) (info : Option Nat) : (s.raise c info).crcOk = s.crcOk := rfl
@[simp] theorem State.raise_argCh (c : Condition) (info : Option Nat) : (s.raise c info).argCh = s.argCh := rfl
@[simp] theorem State.raise_firX (c : Condition) (info : Option Nat) : (s.raise c info).firX = s.firX := rfl
@[simp] theorem State.raise_firH (c : Condition) (info : Option Nat) : (s.raise c info).firH = s.firH := rfl
@[simp] theorem State.raise_firN (c : Condition) (info : Option Nat) : (s.raise c info).firN = s.firN := rfl
@[simp] theorem State.raise_firY (c : Condition) (info : Option Nat) : (s.raise c info).firY = s.firY := rfl
@[simp] theorem State.raise_crcD (c : Condition) (info : Option Nat) : (s.raise c info).crcD = s.crcD := rfl
@[simp] theorem State.raise_gbO (c : Condition) (info : Option Nat) : (s.raise c info).gbO = s.gbO := rfl
@[simp] theorem State.raise_gbW (c : Condition) (info : Option Nat) : (s.raise c info).gbW = s.gbW := rfl
@[simp] theorem State.raise_gbV (c : Condition) (info : Option Nat) : (s.raise c info).gbV = s.gbV := rfl

/-! ### `ret` -/

@[simp] theorem State.ret_cfg (r : Result) : (s.ret r).cfg = s.cfg := rfl
@[simp] theorem State.ret_src (r : Result) : (s.ret r).src = s.src := rfl
@[simp] theorem State.ret_srcClosed (r : Result) : (s.ret r).srcClosed = s.srcClosed := rfl
@[simp] theorem State.ret_sink (r : Result) : (s.ret r).sink = s.sink := rfl
@[simp] theorem State.ret_phase (r : Result) : (s.ret r).phase = s.phase := rfl
@[simp] theorem State.ret_started (r : Result) : (s.ret r).started = s.started := rfl
@[simp] theorem State.ret_fetch (r : Result) : (s.ret r).fetch = s.fetch := rfl
@[simp] theorem State.ret_res (r : Result) : (s.ret r).res = r := rfl
@[simp] theorem State.ret_resume (r : Result) : (s.ret r).resume = s.resume := rfl
@[simp] theorem State.ret_raw (r : Result) : (s.ret r).raw = s.raw := rfl
@[simp] theorem State.ret_rawEpoch (r : Result) : (s.ret r).rawEpoch = s.rawEpoch := rfl
@[simp] theorem State.ret_buf (r : Result) : (s.ret r).buf = s.buf := rfl
@[simp] theorem State.ret_epoch (r : Result) : (s.ret r).epoch = s.epoch := rfl
@[simp] theorem State.ret_i1 (r : Result) : (s.ret r).i1 = s.i1 := rfl
@[simp] theorem State.ret_q1 (r : Result) : (s.ret r).q1 = s.q1 := rfl
@[simp] theorem State.ret_i2 (r : Result) : (s.ret r).i2 = s.i2 := rfl
@[simp] theorem State.ret_q2 (r : Result) : (s.ret r).q2 = s.q2 := rfl
@[simp] theorem State.ret_len1 (r : Result) : (s.ret r).len1 = s.len1 := rfl
@[simp] theorem State.ret_len2 (r : Result) : (s.ret r).len2 = s.len2 := rfl
@[simp] theorem State.ret_fOut (r : Result) : (s.ret r).fOut = s.fOut := rfl
@[simp] theorem State.ret_aOut (r : Result) : (s.ret r).aOut = s.aOut := rfl
@[simp] theorem State.ret_ch (r : Result) : (s.ret r).ch = s.ch := rfl
@[simp] theorem State.ret_i (r : Result) : (s.ret r).i = s.i := rfl
@[simp] theorem State.ret_run (r : Result) : (s.ret r).run = s.run := rfl
@[simp] theorem State.ret_k (r : Result) : (s.ret r).k = s.k := rfl
@[simp] theorem State.ret_j (r : Result) : (s.ret r).j = s.j := rfl
@[simp] theorem State.ret_score (r : Result) : (s.ret r).score = s.score := rfl
@[simp] theorem State.ret_smax (r : Result) : (s.ret r).smax = s.smax := rfl
@[simp] theorem State.ret_imax (r : Result) : (s.ret r).imax = s.imax := rfl
@[simp] theorem State.ret_p0 (r : Result) : (s.ret r).p0 = s.p0 := rfl
@[simp] theorem State.ret_m (r : Result) : (s.ret r).m = s.m := rfl
@[simp] theorem State.ret_idx (r : Result) : (s.ret r).idx = s.idx := rfl
@[simp] theorem State.ret_prev (r : Result) : (s.ret r).prev = s.prev := rfl
@[simp] theorem State.ret_hist (r : Result) : (s.ret r).hist = s.hist := rfl
@[simp] theorem State.ret_wp (r : Result) : (s.ret r).wp = s.wp := rfl
@[simp] theorem State.ret_bp (r : Result) : (s.ret r).bp = s.bp := rfl
@[simp] theorem State.ret_nbits (r : Result) : (s.ret r).nbits = s.nbits := rfl
@[simp] theorem State.ret_sym (r : Result) : (s.ret r).sym = s.sym := rfl
@[simp] theorem State.ret_out (r : Result) : (s.ret r).out = s.out := rfl
@[simp] theorem State.ret_mid (r : Result) : (s.ret r).mid = s.mid := rfl
@[simp] theorem State.ret_blen (r : Result) : (s.ret r).blen = s.blen := rfl
@[simp] theorem State.ret_crc (r : Result) : (s.ret r).crc = s.crc := rfl
@[simp] theorem State.ret_fcs (r : Result) : (s.ret r).fcs = s.fcs := rfl
@[simp] theorem State.ret_record (r : Result) : (s.ret r).record = s.record := rfl
@[simp] theorem State.ret_sync (r : Result) : (s.ret r).sync = s.sync := rfl
@[simp] theorem State.ret_pol (r : Result) : (s.ret r).pol = s.pol := rfl
@[simp] theorem State.ret_short (r : Result) : (s.ret r).short = s.short := rfl
@[simp] theorem State.ret_crcOk (r : Result) : (s.ret r).crcOk = s.crcOk := rfl
@[simp] theorem State.ret_argCh (r : Result) : (s.ret r).argCh = s.argCh := rfl
@[simp] theorem State.ret_firX (r : Result) : (s.ret r).firX = s.firX := rfl
@[simp] theorem State.ret_firH (r : Result) : (s.ret r).firH = s.firH := rfl
@[simp] theorem State.ret_firN (r : Result) : (s.ret r).firN = s.firN := rfl
@[simp] theorem State.ret_firY (r : Result) : (s.ret r).firY = s.firY := rfl
@[simp] theorem State.ret_crcD (r : Result) : (s.ret r).crcD = s.crcD := rfl
@[simp] theorem State.ret_gbO (r : Result) : (s.ret r).gbO = s.gbO := rfl
@[simp] theorem State.ret_gbW (r : Result) : (s.ret r).gbW = s.gbW := rfl
@[simp] theorem State.ret_gbV (r : Result) : (s.ret r).gbV = s.gbV := rfl

/-! ### `finish` -/

@[simp] theorem State.finish_cfg (o : AttemptOutcome) : (s.finish o).cfg = s.cfg := rfl
@[simp] theorem State.finish_src (o : AttemptOutcome) : (s.finish o).src = s.src := rfl
@[simp] theorem State.finish_srcClosed (o : AttemptOutcome) : (s.finish o).srcClosed = s.srcClosed := rfl
@[simp] theorem State.finish_sink (o : AttemptOutcome) : (s.finish o).sink = s.sink := rfl
@[simp] theorem State.finish_phase (o : AttemptOutcome) : (s.finish o).phase = s.phase := rfl
@[simp] theorem State.finish_started (o : AttemptOutcome) : (s.finish o).started = s.started := rfl
@[simp] theorem State.finish_fetch (o : AttemptOutcome) : (s.finish o).fetch = s.fetch := rfl
@[simp] theorem State.finish_res (o : AttemptOutcome) : (s.finish o).res = .attempt o := rfl
@[simp] theorem State.finish_resume (o : AttemptOutcome) : (s.finish o).resume = s.resume := rfl
@[simp] theorem State.finish_raw (o : AttemptOutcome) : (s.finish o).raw = s.raw := rfl
@[simp] theorem State.finish_rawEpoch (o : AttemptOutcome) : (s.finish o).rawEpoch = s.rawEpoch := rfl
@[simp] theorem State.finish_buf (o : AttemptOutcome) : (s.finish o).buf = s.buf := rfl
@[simp] theorem State.finish_epoch (o : AttemptOutcome) : (s.finish o).epoch = s.epoch := rfl
@[simp] theorem State.finish_i1 (o : AttemptOutcome) : (s.finish o).i1 = s.i1 := rfl
@[simp] theorem State.finish_q1 (o : AttemptOutcome) : (s.finish o).q1 = s.q1 := rfl
@[simp] theorem State.finish_i2 (o : AttemptOutcome) : (s.finish o).i2 = s.i2 := rfl
@[simp] theorem State.finish_q2 (o : AttemptOutcome) : (s.finish o).q2 = s.q2 := rfl
@[simp] theorem State.finish_len1 (o : AttemptOutcome) : (s.finish o).len1 = s.len1 := rfl
@[simp] theorem State.finish_len2 (o : AttemptOutcome) : (s.finish o).len2 = s.len2 := rfl
@[simp] theorem State.finish_fOut (o : AttemptOutcome) : (s.finish o).fOut = s.fOut := rfl
@[simp] theorem State.finish_aOut (o : AttemptOutcome) : (s.finish o).aOut = s.aOut := rfl
@[simp] theorem State.finish_ch (o : AttemptOutcome) : (s.finish o).ch = s.ch := rfl
@[simp] theorem State.finish_i (o : AttemptOutcome) : (s.finish o).i = s.i := rfl
@[simp] theorem State.finish_run (o : AttemptOutcome) : (s.finish o).run = s.run := rfl
@[simp] theorem State.finish_k (o : AttemptOutcome) : (s.finish o).k = s.k := rfl
@[simp] theorem State.finish_j (o : AttemptOutcome) : (s.finish o).j = s.j := rfl
@[simp] theorem State.finish_score (o : AttemptOutcome) : (s.finish o).score = s.score := rfl
@[simp] theorem State.finish_smax (o : AttemptOutcome) : (s.finish o).smax = s.smax := rfl
@[simp] theorem State.finish_imax (o : AttemptOutcome) : (s.finish o).imax = s.imax := rfl
@[simp] theorem State.finish_p0 (o : AttemptOutcome) : (s.finish o).p0 = s.p0 := rfl
@[simp] theorem State.finish_m (o : AttemptOutcome) : (s.finish o).m = s.m := rfl
@[simp] theorem State.finish_idx (o : AttemptOutcome) : (s.finish o).idx = s.idx := rfl
@[simp] theorem State.finish_prev (o : AttemptOutcome) : (s.finish o).prev = s.prev := rfl
@[simp] theorem State.finish_hist (o : AttemptOutcome) : (s.finish o).hist = s.hist := rfl
@[simp] theorem State.finish_wp (o : AttemptOutcome) : (s.finish o).wp = s.wp := rfl
@[simp] theorem State.finish_bp (o : AttemptOutcome) : (s.finish o).bp = s.bp := rfl
@[simp] theorem State.finish_nbits (o : AttemptOutcome) : (s.finish o).nbits = s.nbits := rfl
@[simp] theorem State.finish_sym (o : AttemptOutcome) : (s.finish o).sym = s.sym := rfl
@[simp] theorem State.finish_out (o : AttemptOutcome) : (s.finish o).out = s.out := rfl
@[simp] theorem State.finish_mid (o : AttemptOutcome) : (s.finish o).mid = s.mid := rfl
@[simp] theorem State.finish_blen (o : AttemptOutcome) : (s.finish o).blen = s.blen := rfl
@[simp] theorem State.finish_crc (o : AttemptOutcome) : (s.finish o).crc = s.crc := rfl
@[simp] theorem State.finish_fcs (o : AttemptOutcome) : (s.finish o).fcs = s.fcs := rfl
@[simp] theorem State.finish_record (o : AttemptOutcome) : (s.finish o).record = s.record := rfl
@[simp] theorem State.finish_sync (o : AttemptOutcome) : (s.finish o).sync = s.sync := rfl
@[simp] theorem State.finish_pol (o : AttemptOutcome) : (s.finish o).pol = s.pol := rfl
@[simp] theorem State.finish_short (o : AttemptOutcome) : (s.finish o).short = s.short := rfl
@[simp] theorem State.finish_crcOk (o : AttemptOutcome) : (s.finish o).crcOk = s.crcOk := rfl
@[simp] theorem State.finish_argCh (o : AttemptOutcome) : (s.finish o).argCh = s.argCh := rfl
@[simp] theorem State.finish_firX (o : AttemptOutcome) : (s.finish o).firX = s.firX := rfl
@[simp] theorem State.finish_firH (o : AttemptOutcome) : (s.finish o).firH = s.firH := rfl
@[simp] theorem State.finish_firN (o : AttemptOutcome) : (s.finish o).firN = s.firN := rfl
@[simp] theorem State.finish_firY (o : AttemptOutcome) : (s.finish o).firY = s.firY := rfl
@[simp] theorem State.finish_crcD (o : AttemptOutcome) : (s.finish o).crcD = s.crcD := rfl
@[simp] theorem State.finish_gbO (o : AttemptOutcome) : (s.finish o).gbO = s.gbO := rfl
@[simp] theorem State.finish_gbW (o : AttemptOutcome) : (s.finish o).gbW = s.gbW := rfl
@[simp] theorem State.finish_gbV (o : AttemptOutcome) : (s.finish o).gbV = s.gbV := rfl

/-! ### `bufWrite` -/

@[simp] theorem State.bufWrite_cfg (a : Nat) (v : Byte) : (s.bufWrite a v).cfg = s.cfg := rfl
@[simp] theorem State.bufWrite_src (a : Nat) (v : Byte) : (s.bufWrite a v).src = s.src := rfl
@[simp] theorem State.bufWrite_srcClosed (a : Nat) (v : Byte) : (s.bufWrite a v).srcClosed = s.srcClosed := rfl
@[simp] theorem State.bufWrite_sink (a : Nat) (v : Byte) : (s.bufWrite a v).sink = s.sink := rfl
@[simp] theorem State.bufWrite_phase (a : Nat) (v : Byte) : (s.bufWrite a v).phase = s.phase := rfl
@[simp] theorem State.bufWrite_started (a : Nat) (v : Byte) : (s.bufWrite a v).started = s.started := rfl
@[simp] theorem State.bufWrite_fetch (a : Nat) (v : Byte) : (s.bufWrite a v).fetch = s.fetch := rfl
@[simp] theorem State.bufWrite_res (a : Nat) (v : Byte) : (s.bufWrite a v).res = s.res := rfl
@[simp] theorem State.bufWrite_resume (a : Nat) (v : Byte) : (s.bufWrite a v).resume = s.resume := rfl
@[simp] theorem State.bufWrite_raw (a : Nat) (v : Byte) : (s.bufWrite a v).raw = s.raw := rfl
@[simp] theorem State.bufWrite_rawEpoch (a : Nat) (v : Byte) : (s.bufWrite a v).rawEpoch = s.rawEpoch := rfl
@[simp] theorem State.bufWrite_buf (a : Nat) (v : Byte) : (s.bufWrite a v).buf = s.buf.set a v := rfl
@[simp] theorem State.bufWrite_epoch (a : Nat) (v : Byte) : (s.bufWrite a v).epoch = s.epoch := rfl
@[simp] theorem State.bufWrite_i1 (a : Nat) (v : Byte) : (s.bufWrite a v).i1 = s.i1 := rfl
@[simp] theorem State.bufWrite_q1 (a : Nat) (v : Byte) : (s.bufWrite a v).q1 = s.q1 := rfl
@[simp] theorem State.bufWrite_i2 (a : Nat) (v : Byte) : (s.bufWrite a v).i2 = s.i2 := rfl
@[simp] theorem State.bufWrite_q2 (a : Nat) (v : Byte) : (s.bufWrite a v).q2 = s.q2 := rfl
@[simp] theorem State.bufWrite_len1 (a : Nat) (v : Byte) : (s.bufWrite a v).len1 = s.len1 := rfl
@[simp] theorem State.bufWrite_len2 (a : Nat) (v : Byte) : (s.bufWrite a v).len2 = s.len2 := rfl
@[simp] theorem State.bufWrite_fOut (a : Nat) (v : Byte) : (s.bufWrite a v).fOut = s.fOut := rfl
@[simp] theorem State.bufWrite_aOut (a : Nat) (v : Byte) : (s.bufWrite a v).aOut = s.aOut := rfl
@[simp] theorem State.bufWrite_ch (a : Nat) (v : Byte) : (s.bufWrite a v).ch = s.ch := rfl
@[simp] theorem State.bufWrite_i (a : Nat) (v : Byte) : (s.bufWrite a v).i = s.i := rfl
@[simp] theorem State.bufWrite_run (a : Nat) (v : Byte) : (s.bufWrite a v).run = s.run := rfl
@[simp] theorem State.bufWrite_k (a : Nat) (v : Byte) : (s.bufWrite a v).k = s.k := rfl
@[simp] theorem State.bufWrite_j (a : Nat) (v : Byte) : (s.bufWrite a v).j = s.j := rfl
@[simp] theorem State.bufWrite_score (a : Nat) (v : Byte) : (s.bufWrite a v).score = s.score := rfl
@[simp] theorem State.bufWrite_smax (a : Nat) (v : Byte) : (s.bufWrite a v).smax = s.smax := rfl
@[simp] theorem State.bufWrite_imax (a : Nat) (v : Byte) : (s.bufWrite a v).imax = s.imax := rfl
@[simp] theorem State.bufWrite_p0 (a : Nat) (v : Byte) : (s.bufWrite a v).p0 = s.p0 := rfl
@[simp] theorem State.bufWrite_m (a : Nat) (v : Byte) : (s.bufWrite a v).m = s.m := rfl
@[simp] theorem State.bufWrite_idx (a : Nat) (v : Byte) : (s.bufWrite a v).idx = s.idx := rfl
@[simp] theorem State.bufWrite_prev (a : Nat) (v : Byte) : (s.bufWrite a v).prev = s.prev := rfl
@[simp] theorem State.bufWrite_hist (a : Nat) (v : Byte) : (s.bufWrite a v).hist = s.hist := rfl
@[simp] theorem State.bufWrite_wp (a : Nat) (v : Byte) : (s.bufWrite a v).wp = s.wp := rfl
@[simp] theorem State.bufWrite_bp (a : Nat) (v : Byte) : (s.bufWrite a v).bp = s.bp := rfl
@[simp] theorem State.bufWrite_nbits (a : Nat) (v : Byte) : (s.bufWrite a v).nbits = s.nbits := rfl
@[simp] theorem State.bufWrite_sym (a : Nat) (v : Byte) : (s.bufWrite a v).sym = s.sym := rfl
@[simp] theorem State.bufWrite_out (a : Nat) (v : Byte) : (s.bufWrite a v).out = s.out := rfl
@[simp] theorem State.bufWrite_mid (a : Nat) (v : Byte) : (s.bufWrite a v).mid = s.mid := rfl
@[simp] theorem State.bufWrite_blen (a : Nat) (v : Byte) : (s.bufWrite a v).blen = s.blen := rfl
@[simp] theorem State.bufWrite_crc (a : Nat) (v : Byte) : (s.bufWrite a v).crc = s.crc := rfl
@[simp] theorem State.bufWrite_fcs (a : Nat) (v : Byte) : (s.bufWrite a v).fcs = s.fcs := rfl
@[simp] theorem State.bufWrite_record (a : Nat) (v : Byte) : (s.bufWrite a v).record = s.record := rfl
@[simp] theorem State.bufWrite_sync (a : Nat) (v : Byte) : (s.bufWrite a v).sync = s.sync := rfl
@[simp] theorem State.bufWrite_pol (a : Nat) (v : Byte) : (s.bufWrite a v).pol = s.pol := rfl
@[simp] theorem State.bufWrite_short (a : Nat) (v : Byte) : (s.bufWrite a v).short = s.short := rfl
@[simp] theorem State.bufWrite_crcOk (a : Nat) (v : Byte) : (s.bufWrite a v).crcOk = s.crcOk := rfl
@[simp] theorem State.bufWrite_argCh (a : Nat) (v : Byte) : (s.bufWrite a v).argCh = s.argCh := rfl
@[simp] theorem State.bufWrite_firX (a : Nat) (v : Byte) : (s.bufWrite a v).firX = s.firX := rfl
@[simp] theorem State.bufWrite_firH (a : Nat) (v : Byte) : (s.bufWrite a v).firH = s.firH := rfl
@[simp] theorem State.bufWrite_firN (a : Nat) (v : Byte) : (s.bufWrite a v).firN = s.firN := rfl
@[simp] theorem State.bufWrite_firY (a : Nat) (v : Byte) : (s.bufWrite a v).firY = s.firY := rfl
@[simp] theorem State.bufWrite_crcD (a : Nat) (v : Byte) : (s.bufWrite a v).crcD = s.crcD := rfl
@[simp] theorem State.bufWrite_gbO (a : Nat) (v : Byte) : (s.bufWrite a v).gbO = s.gbO := rfl
@[simp] theorem State.bufWrite_gbW (a : Nat) (v : Byte) : (s.bufWrite a v).gbW = s.gbW := rfl
@[simp] theorem State.bufWrite_gbV (a : Nat) (v : Byte) : (s.bufWrite a v).gbV = s.gbV := rfl

/-! ### `setRecord` -/

@[simp] theorem State.setRecord_cfg (r : Record) : (s.setRecord r).cfg = s.cfg := rfl
@[simp] theorem State.setRecord_src (r : Record) : (s.setRecord r).src = s.src := rfl
@[simp] theorem State.setRecord_srcClosed (r : Record) : (s.setRecord r).srcClosed = s.srcClosed := rfl
@[simp] theorem State.setRecord_sink (r : Record) : (s.setRecord r).sink = s.sink := rfl
@[simp] theorem State.setRecord_phase (r : Record) : (s.setRecord r).phase = s.phase := rfl
@[simp] theorem State.setRecord_started (r : Record) : (s.setRecord r).started = s.started := rfl
@[simp] theorem State.setRecord_fetch (r : Record) : (s.setRecord r).fetch = s.fetch := rfl
@[simp] theorem State.setRecord_res (r : Record) : (s.setRecord r).res = s.res := rfl
@[simp] theorem State.setRecord_resume (r : Record) : (s.setRecord r).resume = s.resume := rfl
@[simp] theorem State.setRecord_raw (r : Record) : (s.setRecord r).raw = s.raw := rfl
@[simp] theorem State.setRecord_rawEpoch (r : Record) : (s.setRecord r).rawEpoch = s.rawEpoch := rfl
@[simp] theorem State.setRecord_buf (r : Record) : (s.setRecord r).buf = s.buf := rfl
@[simp] theorem State.setRecord_epoch (r : Record) : (s.setRecord r).epoch = s.epoch := rfl
@[simp] theorem State.setRecord_i1 (r : Record) : (s.setRecord r).i1 = s.i1 := rfl
@[simp] theorem State.setRecord_q1 (r : Record) : (s.setRecord r).q1 = s.q1 := rfl
@[simp] theorem State.setRecord_i2 (r : Record) : (s.setRecord r).i2 = s.i2 := rfl
@[simp] theorem State.setRecord_q2 (r : Record) : (s.setRecord r).q2 = s.q2 := rfl
@[simp] theorem State.setRecord_len1 (r : Record) : (s.setRecord r).len1 = s.len1 := rfl
@[simp] theorem State.setRecord_len2 (r : Record) : (s.setRecord r).len2 = s.len2 := rfl
@[simp] theorem State.setRecord_fOut (r : Record) : (s.setRecord r).fOut = s.fOut := rfl
@[simp] theorem State.setRecord_aOut (r : Record) : (s.setRecord r).aOut = s.aOut := rfl
@[simp] theorem State.setRecord_ch (r : Record) : (s.setRecord r).ch = s.ch := rfl
@[simp] theorem State.setRecord_i (r : Record) : (s.setRecord r).i = s.i := rfl
@[simp] theorem State.setRecord_run (r : Record) : (s.setRecord r).run = s.run := rfl
@[simp] theorem State.setRecord_k (r : Record) : (s.setRecord r).k = s.k := rfl
@[simp] theorem State.setRecord_j (r : Record) : (s.setRecord r).j = s.j := rfl
@[simp] theorem State.setRecord_score (r : Record) : (s.setRecord r).score = s.score := rfl
@[simp] theorem State.setRecord_smax (r : Record) : (s.setRecord r).smax = s.smax := rfl
@[simp] theorem State.setRecord_imax (r : Record) : (s.setRecord r).imax = s.imax := rfl
@[simp] theorem State.setRecord_p0 (r : Record) : (s.setRecord r).p0 = s.p0 := rfl
@[simp] theorem State.setRecord_m (r : Record) : (s.setRecord r).m = s.m := rfl
@[simp] theorem State.setRecord_idx (r : Record) : (s.setRecord r).idx = s.idx := rfl
@[simp] theorem State.setRecord_prev (r : Record) : (s.setRecord r).prev = s.prev := rfl
@[simp] theorem State.setRecord_hist (r : Record) : (s.setRecord r).hist = s.hist := rfl
@[simp] theorem State.setRecord_wp (r : Record) : (s.setRecord r).wp = s.wp := rfl
@[simp] theorem State.setRecord_bp (r : Record) : (s.setRecord r).bp = s.bp := rfl
@[simp] theorem State.setRecord_nbits (r : Record) : (s.setRecord r).nbits = s.nbits := rfl
@[simp] theorem State.setRecord_sym (r : Record) : (s.setRecord r).sym = s.sym := rfl
@[simp] theorem State.setRecord_out (r : Record) : (s.setRecord r).out = s.out := rfl
@[simp] theorem State.setRecord_mid (r : Record) : (s.setRecord r).mid = s.mid := rfl
@[simp] theorem State.setRecord_blen (r : Record) : (s.setRecord r).blen = s.blen := rfl
@[simp] theorem State.setRecord_crc (r : Record) : (s.setRecord r).crc = s.crc := rfl
@[simp] theorem State.setRecord_fcs (r : Record) : (s.setRecord r).fcs = s.fcs := rfl
@[simp] theorem State.setRecord_record (r : Record) : (s.setRecord r).record = r := rfl
@[simp] theorem State.setRecord_sync (r : Record) : (s.setRecord r).sync = s.sync := rfl
@[simp] theorem State.setRecord_pol (r : Record) : (s.setRecord r).pol = s.pol := rfl
@[simp] theorem State.setRecord_short (r : Record) : (s.setRecord r).short = s.short := rfl
@[simp] theorem State.setRecord_crcOk (r : Record) : (s.setRecord r).crcOk = s.crcOk := rfl
@[simp] theorem State.setRecord_argCh (r : Record) : (s.setRecord r).argCh = s.argCh := rfl
@[simp] theorem State.setRecord_firX (r : Record) : (s.setRecord r).firX = s.firX := rfl
@[simp] theorem State.setRecord_firH (r : Record) : (s.setRecord r).firH = s.firH := rfl
@[simp] theorem State.setRecord_firN (r : Record) : (s.setRecord r).firN = s.firN := rfl
@[simp] theorem State.setRecord_firY (r : Record) : (s.setRecord r).firY = s.firY := rfl
@[simp] theorem State.setRecord_crcD (r : Record) : (s.setRecord r).crcD = s.crcD := rfl
@[simp] theorem State.setRecord_gbO (r : Record) : (s.setRecord r).gbO = s.gbO := rfl
@[simp] theorem State.setRecord_gbW (r : Record) : (s.setRecord r).gbW = s.gbW := rfl
@[simp] theorem State.setRecord_gbV (r : Record) : (s.setRecord r).gbV = s.gbV := rfl

/-! ### `selectMessage` -/

@[simp] theorem State.selectMessage_cfg (o : Byte) (b : BodyLen) : (s.selectMessage o b).cfg = s.cfg := rfl
@[simp] theorem State.selectMessage_src (o : Byte) (b : BodyLen) : (s.selectMessage o b).src = s.src := rfl
@[simp] theorem State.selectMessage_srcClosed (o : Byte) (b : BodyLen) : (s.selectMessage o b).srcClosed = s.srcClosed := rfl
@[simp] theorem State.selectMessage_sink (o : Byte) (b : BodyLen) : (s.selectMessage o b).sink = s.sink := rfl
@[simp] theorem State.selectMessage_phase (o : Byte) (b : BodyLen) : (s.selectMessage o b).phase = s.phase := rfl
@[simp] theorem State.selectMessage_started (o : Byte) (b : BodyLen) : (s.selectMessage o b).started = s.started := rfl
@[simp] theorem State.selectMessage_fetch (o : Byte) (b : BodyLen) : (s.selectMessage o b).fetch = s.fetch := rfl
@[simp] theorem State.selectMessage_res (o : Byte) (b : BodyLen) : (s.selectMessage o b).res = s.res := rfl
@[simp] theorem State.selectMessage_resume (o : Byte) (b : BodyLen) : (s.selectMessage o b).resume = s.resume := rfl
@[simp] theorem State.selectMessage_raw (o : Byte) (b : BodyLen) : (s.selectMessage o b).raw = s.raw := rfl
@[simp] theorem State.selectMessage_rawEpoch (o : Byte) (b : BodyLen) : (s.selectMessage o b).rawEpoch = s.rawEpoch := rfl
@[simp] theorem State.selectMessage_buf (o : Byte) (b : BodyLen) : (s.selectMessage o b).buf = s.buf := rfl
@[simp] theorem State.selectMessage_epoch (o : Byte) (b : BodyLen) : (s.selectMessage o b).epoch = s.epoch := rfl
@[simp] theorem State.selectMessage_i1 (o : Byte) (b : BodyLen) : (s.selectMessage o b).i1 = s.i1 := rfl
@[simp] theorem State.selectMessage_q1 (o : Byte) (b : BodyLen) : (s.selectMessage o b).q1 = s.q1 := rfl
@[simp] theorem State.selectMessage_i2 (o : Byte) (b : BodyLen) : (s.selectMessage o b).i2 = s.i2 := rfl
@[simp] theorem State.selectMessage_q2 (o : Byte) (b : BodyLen) : (s.selectMessage o b).q2 = s.q2 := rfl
@[simp] theorem State.selectMessage_len1 (o : Byte) (b : BodyLen) : (s.selectMessage o b).len1 = s.len1 := rfl
@[simp] theorem State.selectMessage_len2 (o : Byte) (b : BodyLen) : (s.selectMessage o b).len2 = s.len2 := rfl
@[simp] theorem State.selectMessage_fOut (o : Byte) (b : BodyLen) : (s.selectMessage o b).fOut = s.fOut := rfl
@[simp] theorem State.selectMessage_aOut (o : Byte) (b : BodyLen) : (s.selectMessage o b).aOut = s.aOut := rfl
@[simp] theorem State.selectMessage_ch (o : Byte) (b : BodyLen) : (s.selectMessage o b).ch = s.ch := rfl
@[simp] theorem State.selectMessage_i (o : Byte) (b : BodyLen) : (s.selectMessage o b).i = s.i := rfl
@[simp] theorem State.selectMessage_run (o : Byte) (b : BodyLen) : (s.selectMessage o b).run = s.run := rfl
@[simp] theorem State.selectMessage_k (o : Byte) (b : BodyLen) : (s.selectMessage o b).k = s.k := rfl
@[simp] theorem State.selectMessage_j (o : Byte) (b : BodyLen) : (s.selectMessage o b).j = s.j := rfl
@[simp] theorem State.selectMessage_score (o : Byte) (b : BodyLen) : (s.selectMessage o b).score = s.score := rfl
@[simp] theorem State.selectMessage_smax (o : Byte) (b : BodyLen) : (s.selectMessage o b).smax = s.smax := rfl
@[simp] theorem State.selectMessage_imax (o : Byte) (b : BodyLen) : (s.selectMessage o b).imax = s.imax := rfl
@[simp] theorem State.selectMessage_p0 (o : Byte) (b : BodyLen) : (s.selectMessage o b).p0 = s.p0 := rfl
@[simp] theorem State.selectMessage_m (o : Byte) (b : BodyLen) : (s.selectMessage o b).m = s.m := rfl
@[simp] theorem State.selectMessage_idx (o : Byte) (b : BodyLen) : (s.selectMessage o b).idx = s.idx := rfl
@[simp] theorem State.selectMessage_prev (o : Byte) (b : BodyLen) : (s.selectMessage o b).prev = s.prev := rfl
@[simp] theorem State.selectMessage_hist (o : Byte) (b : BodyLen) : (s.selectMessage o b).hist = s.hist := rfl
@[simp] theorem State.selectMessage_wp (o : Byte) (b : BodyLen) : (s.selectMessage o b).wp = s.wp := rfl
@[simp] theorem State.selectMessage_bp (o : Byte) (b : BodyLen) : (s.selectMessage o b).bp = s.bp := rfl
@[simp] theorem State.selectMessage_nbits (o : Byte) (b : BodyLen) : (s.selectMessage o b).nbits = s.nbits := rfl
@[simp] theorem State.selectMessage_sym (o : Byte) (b : BodyLen) : (s.selectMessage o b).sym = s.sym := rfl
@[simp] theorem State.selectMessage_out (o : Byte) (b : BodyLen) : (s.selectMessage o b).out = s.out := rfl
@[simp] theorem State.selectMessage_mid (o : Byte) (b : BodyLen) : (s.selectMessage o b).mid = messageId o := rfl
@[simp] theorem State.selectMessage_blen (o : Byte) (b : BodyLen) : (s.selectMessage o b).blen = b := rfl
@[simp] theorem State.selectMessage_crc (o : Byte) (b : BodyLen) : (s.selectMessage o b).crc = s.crc := rfl
@[simp] theorem State.selectMessage_fcs (o : Byte) (b : BodyLen) : (s.selectMessage o b).fcs = s.fcs := rfl
@[simp] theorem State.selectMessage_record (o : Byte) (b : BodyLen) : (s.selectMessage o b).record = s.record := rfl
@[simp] theorem State.selectMessage_sync (o : Byte) (b : BodyLen) : (s.selectMessage o b).sync = s.sync := rfl
@[simp] theorem State.selectMessage_pol (o : Byte) (b : BodyLen) : (s.selectMessage o b).pol = s.pol := rfl
@[simp] theorem State.selectMessage_short (o : Byte) (b : BodyLen) : (s.selectMessage o b).short = s.short := rfl
@[simp] theorem State.selectMessage_crcOk (o : Byte) (b : BodyLen) : (s.selectMessage o b).crcOk = s.crcOk := rfl
@[simp] theorem State.selectMessage_argCh (o : Byte) (b : BodyLen) : (s.selectMessage o b).argCh = s.argCh := rfl
@[simp] theorem State.selectMessage_firX (o : Byte) (b : BodyLen) : (s.selectMessage o b).firX = s.firX := rfl
@[simp] theorem State.selectMessage_firH (o : Byte) (b : BodyLen) : (s.selectMessage o b).firH = s.firH := rfl
@[simp] theorem State.selectMessage_firN (o : Byte) (b : BodyLen) : (s.selectMessage o b).firN = s.firN := rfl
@[simp] theorem State.selectMessage_firY (o : Byte) (b : BodyLen) : (s.selectMessage o b).firY = s.firY := rfl
@[simp] theorem State.selectMessage_crcD (o : Byte) (b : BodyLen) : (s.selectMessage o b).crcD = s.crcD := rfl
@[simp] theorem State.selectMessage_gbO (o : Byte) (b : BodyLen) : (s.selectMessage o b).gbO = s.gbO := rfl
@[simp] theorem State.selectMessage_gbW (o : Byte) (b : BodyLen) : (s.selectMessage o b).gbW = s.gbW := rfl
@[simp] theorem State.selectMessage_gbV (o : Byte) (b : BodyLen) : (s.selectMessage o b).gbV = s.gbV := rfl

/-! ### `endDeframe` -/

@[simp] theorem State.endDeframe_cfg : s.endDeframe.cfg = s.cfg := rfl
@[simp] theorem State.endDeframe_src : s.endDeframe.src = s.src := rfl
@[simp] theorem State.endDeframe_srcClosed : s.endDeframe.srcClosed = s.srcClosed := rfl
@[simp] theorem State.endDeframe_sink : s.endDeframe.sink = s.sink := rfl
@[simp] theorem State.endDeframe_phase : s.endDeframe.phase = s.phase := rfl
@[simp] theorem State.endDeframe_started : s.endDeframe.started = s.started := rfl
@[simp] theorem State.endDeframe_fetch : s.endDeframe.fetch = s.fetch := rfl
@[simp] theorem State.endDeframe_res : s.endDeframe.res = s.res := rfl
@[simp] theorem State.endDeframe_resume : s.endDeframe.resume = s.idx := rfl
@[simp] theorem State.endDeframe_raw : s.endDeframe.raw = s.raw := rfl
@[simp] theorem State.endDeframe_rawEpoch : s.endDeframe.rawEpoch = s.rawEpoch := rfl
@[simp] theorem State.endDeframe_buf : s.endDeframe.buf = s.buf := rfl
@[simp] theorem State.endDeframe_epoch : s.endDeframe.epoch = s.epoch := rfl
@[simp] theorem State.endDeframe_i1 : s.endDeframe.i1 = s.i1 := rfl
@[simp] theorem State.endDeframe_q1 : s.endDeframe.q1 = s.q1 := rfl
@[simp] theorem State.endDeframe_i2 : s.endDeframe.i2 = s.i2 := rfl
@[simp] theorem State.endDeframe_q2 : s.endDeframe.q2 = s.q2 := rfl
@[simp] theorem State.endDeframe_len1 : s.endDeframe.len1 = s.len1 := rfl
@[simp] theorem State.endDeframe_len2 : s.endDeframe.len2 = s.len2 := rfl
@[simp] theorem State.endDeframe_fOut : s.endDeframe.fOut = s.fOut := rfl
@[simp] theorem State.endDeframe_aOut : s.endDeframe.aOut = s.aOut := rfl
@[simp] theorem State.endDeframe_ch : s.endDeframe.ch = s.ch := rfl
@[simp] theorem State.endDeframe_i : s.endDeframe.i = s.i := rfl
@[simp] theorem State.endDeframe_run : s.endDeframe.run = s.run := rfl
@[simp] theorem State.endDeframe_k : s.endDeframe.k = s.k := rfl
@[simp] theorem State.endDeframe_j : s.endDeframe.j = s.j := rfl
@[simp] theorem State.endDeframe_score : s.endDeframe.score = s.score := rfl
@[simp] theorem State.endDeframe_smax : s.endDeframe.smax = s.smax := rfl
@[simp] theorem State.endDeframe_imax : s.endDeframe.imax = s.imax := rfl
@[simp] theorem State.endDeframe_p0 : s.endDeframe.p0 = s.p0 := rfl
@[simp] theorem State.endDeframe_m : s.endDeframe.m = s.m := rfl
@[simp] theorem State.endDeframe_idx : s.endDeframe.idx = s.idx := rfl
@[simp] theorem State.endDeframe_prev : s.endDeframe.prev = s.prev := rfl
@[simp] theorem State.endDeframe_hist : s.endDeframe.hist = s.hist := rfl
@[simp] theorem State.endDeframe_wp : s.endDeframe.wp = s.wp := rfl
@[simp] theorem State.endDeframe_bp : s.endDeframe.bp = s.bp := rfl
@[simp] theorem State.endDeframe_nbits : s.endDeframe.nbits = s.nbits := rfl
@[simp] theorem State.endDeframe_sym : s.endDeframe.sym = s.sym := rfl
@[simp] theorem State.endDeframe_out : s.endDeframe.out = s.out := rfl
@[simp] theorem State.endDeframe_mid : s.endDeframe.mid = s.mid := rfl
@[simp] theorem State.endDeframe_blen : s.endDeframe.blen = s.blen := rfl
@[simp] theorem State.endDeframe_crc : s.endDeframe.crc = s.crc := rfl
@[simp] theorem State.endDeframe_fcs : s.endDeframe.fcs = s.fcs := rfl
@[simp] theorem State.endDeframe_record : s.endDeframe.record = s.record := rfl
@[simp] theorem State.endDeframe_sync : s.endDeframe.sync = s.sync := rfl
@[simp] theorem State.endDeframe_pol : s.endDeframe.pol = s.pol := rfl
@[simp] theorem State.endDeframe_short : s.endDeframe.short = s.short := rfl
@[simp] theorem State.endDeframe_crcOk : s.endDeframe.crcOk = s.crcOk := rfl
@[simp] theorem State.endDeframe_argCh : s.endDeframe.argCh = s.argCh := rfl
@[simp] theorem State.endDeframe_firX : s.endDeframe.firX = s.firX := rfl
@[simp] theorem State.endDeframe_firH : s.endDeframe.firH = s.firH := rfl
@[simp] theorem State.endDeframe_firN : s.endDeframe.firN = s.firN := rfl
@[simp] theorem State.endDeframe_firY : s.endDeframe.firY = s.firY := rfl
@[simp] theorem State.endDeframe_crcD : s.endDeframe.crcD = s.crcD := rfl
@[simp] theorem State.endDeframe_gbO : s.endDeframe.gbO = s.gbO := rfl
@[simp] theorem State.endDeframe_gbW : s.endDeframe.gbW = s.gbW := rfl
@[simp] theorem State.endDeframe_gbV : s.endDeframe.gbV = s.gbV := rfl

/-! ### `streamStart` -/

@[simp] theorem State.streamStart_cfg : s.streamStart.cfg = s.cfg := rfl
@[simp] theorem State.streamStart_src : s.streamStart.src = s.src := rfl
@[simp] theorem State.streamStart_srcClosed : s.streamStart.srcClosed = s.srcClosed := rfl
@[simp] theorem State.streamStart_sink : s.streamStart.sink = s.sink ++ [SinkItem.streamStart] := rfl
@[simp] theorem State.streamStart_phase : s.streamStart.phase = s.phase := rfl
@[simp] theorem State.streamStart_started : s.streamStart.started = true := rfl
@[simp] theorem State.streamStart_fetch : s.streamStart.fetch = s.fetch := rfl
@[simp] theorem State.streamStart_res : s.streamStart.res = s.res := rfl
@[simp] theorem State.streamStart_resume : s.streamStart.resume = s.resume := rfl
@[simp] theorem State.streamStart_raw : s.streamStart.raw = s.raw := rfl
@[simp] theorem State.streamStart_rawEpoch : s.streamStart.rawEpoch = s.rawEpoch := rfl
@[simp] theorem State.streamStart_buf : s.streamStart.buf = s.buf := rfl
@[simp] theorem State.streamStart_epoch : s.streamStart.epoch = s.epoch := rfl
@[simp] theorem State.streamStart_i1 : s.streamStart.i1 = s.i1 := rfl
@[simp] theorem State.streamStart_q1 : s.streamStart.q1 = s.q1 := rfl
@[simp] theorem State.streamStart_i2 : s.streamStart.i2 = s.i2 := rfl
@[simp] theorem State.streamStart_q2 : s.streamStart.q2 = s.q2 := rfl
@[simp] theorem State.streamStart_len1 : s.streamStart.len1 = s.len1 := rfl
@[simp] theorem State.streamStart_len2 : s.streamStart.len2 = s.len2 := rfl
@[simp] theorem State.streamStart_fOut : s.streamStart.fOut = s.fOut := rfl
@[simp] theorem State.streamStart_aOut : s.streamStart.aOut = s.aOut := rfl
@[simp] theorem State.streamStart_ch : s.streamStart.ch = s.ch := rfl
@[simp] theorem State.streamStart_i : s.streamStart.i = s.i := rfl
@[simp] theorem State.streamStart_run : s.streamStart.run = s.run := rfl
@[simp] theorem State.streamStart_k : s.streamStart.k = s.k := rfl
@[simp] theorem State.streamStart_j : s.streamStart.j = s.j := rfl
@[simp] theorem State.streamStart_score : s.streamStart.score = s.score := rfl
@[simp] theorem State.streamStart_smax : s.streamStart.smax = s.smax := rfl
@[simp] theorem State.streamStart_imax : s.streamStart.imax = s.imax := rfl
@[simp] theorem State.streamStart_p0 : s.streamStart.p0 = s.p0 := rfl
@[simp] theorem State.streamStart_m : s.streamStart.m = s.m := rfl
@[simp] theorem State.streamStart_idx : s.streamStart.idx = s.idx := rfl
@[simp] theorem State.streamStart_prev : s.streamStart.prev = s.prev := rfl
@[simp] theorem State.streamStart_hist : s.streamStart.hist = s.hist := rfl
@[simp] theorem State.streamStart_wp : s.streamStart.wp = s.wp := rfl
@[simp] theorem State.streamStart_bp : s.streamStart.bp = s.bp := rfl
@[simp] theorem State.streamStart_nbits : s.streamStart.nbits = s.nbits := rfl
@[simp] theorem State.streamStart_sym : s.streamStart.sym = s.sym := rfl
@[simp] theorem State.streamStart_out : s.streamStart.out = s.out := rfl
@[simp] theorem State.streamStart_mid : s.streamStart.mid = s.mid := rfl
@[simp] theorem State.streamStart_blen : s.streamStart.blen = s.blen := rfl
@[simp] theorem State.streamStart_crc : s.streamStart.crc = s.crc := rfl
@[simp] theorem State.streamStart_fcs : s.streamStart.fcs = s.fcs := rfl
@[simp] theorem State.streamStart_record : s.streamStart.record = s.record := rfl
@[simp] theorem State.streamStart_sync : s.streamStart.sync = s.sync := rfl
@[simp] theorem State.streamStart_pol : s.streamStart.pol = s.pol := rfl
@[simp] theorem State.streamStart_short : s.streamStart.short = s.short := rfl
@[simp] theorem State.streamStart_crcOk : s.streamStart.crcOk = s.crcOk := rfl
@[simp] theorem State.streamStart_argCh : s.streamStart.argCh = s.argCh := rfl
@[simp] theorem State.streamStart_firX : s.streamStart.firX = s.firX := rfl
@[simp] theorem State.streamStart_firH : s.streamStart.firH = s.firH := rfl
@[simp] theorem State.streamStart_firN : s.streamStart.firN = s.firN := rfl
@[simp] theorem State.streamStart_firY : s.streamStart.firY = s.firY := rfl
@[simp] theorem State.streamStart_crcD : s.streamStart.crcD = s.crcD := rfl
@[simp] theorem State.streamStart_gbO : s.streamStart.gbO = s.gbO := rfl
@[simp] theorem State.streamStart_gbW : s.streamStart.gbW = s.gbW := rfl
@[simp] theorem State.streamStart_gbV : s.streamStart.gbV = s.gbV := rfl

/-! ### `setI` -/

@[simp] theorem State.setI_cfg (a : Nat) : (s.setI a).cfg = s.cfg := rfl
@[simp] theorem State.setI_src (a : Nat) : (s.setI a).src = s.src := rfl
@[simp] theorem State.setI_srcClosed (a : Nat) : (s.setI a).srcClosed = s.srcClosed := rfl
@[simp] theorem State.setI_sink (a : Nat) : (s.setI a).sink = s.sink := rfl
@[simp] theorem State.setI_phase (a : Nat) : (s.setI a).phase = s.phase := rfl
@[simp] theorem State.setI_started (a : Nat) : (s.setI a).started = s.started := rfl
@[simp] theorem State.setI_fetch (a : Nat) : (s.setI a).fetch = s.fetch := rfl
@[simp] theorem State.setI_res (a : Nat) : (s.setI a).res = s.res := rfl
@[simp] theorem State.setI_resume (a : Nat) : (s.setI a).resume = s.resume := rfl
@[simp] theorem State.setI_raw (a : Nat) : (s.setI a).raw = s.raw := rfl
@[simp] theorem State.setI_rawEpoch (a : Nat) : (s.setI a).rawEpoch = s.rawEpoch := rfl
@[simp] theorem State.setI_buf (a : Nat) : (s.setI a).buf = s.buf := rfl
@[simp] theorem State.setI_epoch (a : Nat) : (s.setI a).epoch = s.epoch := rfl
@[simp] theorem State.setI_i1 (a : Nat) : (s.setI a).i1 = s.i1 := rfl
@[simp] theorem State.setI_q1 (a : Nat) : (s.setI a).q1 = s.q1 := rfl
@[simp] theorem State.setI_i2 (a : Nat) : (s.setI a).i2 = s.i2 := rfl
@[simp] theorem State.setI_q2 (a : Nat) : (s.setI a).q2 = s.q2 := rfl
@[simp] theorem State.setI_len1 (a : Nat) : (s.setI a).len1 = s.len1 := rfl
@[simp] theorem State.setI_len2 (a : Nat) : (s.setI a).len2 = s.len2 := rfl
@[simp] theorem State.setI_fOut (a : Nat) : (s.setI a).fOut = s.fOut := rfl
@[simp] theorem State.setI_aOut (a : Nat) : (s.setI a).aOut = s.aOut := rfl
@[simp] theorem State.setI_ch (a : Nat) : (s.setI a).ch = s.ch := rfl
@[simp] theorem State.setI_i (a : Nat) : (s.setI a).i = a := rfl
@[simp] theorem State.setI_run (a : Nat) : (s.setI a).run = s.run := rfl
@[simp] theorem State.setI_k (a : Nat) : (s.setI a).k = s.k := rfl
@[simp] theorem State.setI_j (a : Nat) : (s.setI a).j = s.j := rfl
@[simp] theorem State.setI_score (a : Nat) : (s.setI a).score = s.score := rfl
@[simp] theorem State.setI_smax (a : Nat) : (s.setI a).smax = s.smax := rfl
@[simp] theorem State.setI_imax (a : Nat) : (s.setI a).imax = s.imax := rfl
@[simp] theorem State.setI_p0 (a : Nat) : (s.setI a).p0 = s.p0 := rfl
@[simp] theorem State.setI_m (a : Nat) : (s.setI a).m = s.m := rfl
@[simp] theorem State.setI_idx (a : Nat) : (s.setI a).idx = s.idx := rfl
@[simp] theorem State.setI_prev (a : Nat) : (s.setI a).prev = s.prev := rfl
@[simp] theorem State.setI_hist (a : Nat) : (s.setI a).hist = s.hist := rfl
@[simp] theorem State.setI_wp (a : Nat) : (s.setI a).wp = s.wp := rfl
@[simp] theorem State.setI_bp (a : Nat) : (s.setI a).bp = s.bp := rfl
@[simp] theorem State.setI_nbits (a : Nat) : (s.setI a).nbits = s.nbits := rfl
@[simp] theorem State.setI_sym (a : Nat) : (s.setI a).sym = s.sym := rfl
@[simp] theorem State.setI_out (a : Nat) : (s.setI a).out = s.out := rfl
@[simp] theorem State.setI_mid (a : Nat) : (s.setI a).mid = s.mid := rfl
@[simp] theorem State.setI_blen (a : Nat) : (s.setI a).blen = s.blen := rfl
@[simp] theorem State.setI_crc (a : Nat) : (s.setI a).crc = s.crc := rfl
@[simp] theorem State.setI_fcs (a : Nat) : (s.setI a).fcs = s.fcs := rfl
@[simp] theorem State.setI_record (a : Nat) : (s.setI a).record = s.record := rfl
@[simp] theorem State.setI_sync (a : Nat) : (s.setI a).sync = s.sync := rfl
@[simp] theorem State.setI_pol (a : Nat) : (s.setI a).pol = s.pol := rfl
@[simp] theorem State.setI_short (a : Nat) : (s.setI a).short = s.short := rfl
@[simp] theorem State.setI_crcOk (a : Nat) : (s.setI a).crcOk = s.crcOk := rfl
@[simp] theorem State.setI_argCh (a : Nat) : (s.setI a).argCh = s.argCh := rfl
@[simp] theorem State.setI_firX (a : Nat) : (s.setI a).firX = s.firX := rfl
@[simp] theorem State.setI_firH (a : Nat) : (s.setI a).firH = s.firH := rfl
@[simp] theorem State.setI_firN (a : Nat) : (s.setI a).firN = s.firN := rfl
@[simp] theorem State.setI_firY (a : Nat) : (s.setI a).firY = s.firY := rfl
@[simp] theorem State.setI_crcD (a : Nat) : (s.setI a).crcD = s.crcD := rfl
@[simp] theorem State.setI_gbO (a : Nat) : (s.setI a).gbO = s.gbO := rfl
@[simp] theorem State.setI_gbW (a : Nat) : (s.setI a).gbW = s.gbW := rfl
@[simp] theorem State.setI_gbV (a : Nat) : (s.setI a).gbV = s.gbV := rfl

/-! ### `setFetch` -/

@[simp] theorem State.setFetch_cfg (f : Fetch) : (s.setFetch f).cfg = s.cfg := rfl
@[simp] theorem State.setFetch_src (f : Fetch) : (s.setFetch f).src = s.src := rfl
@[simp] theorem State.setFetch_srcClosed (f : Fetch) : (s.setFetch f).srcClosed = s.srcClosed := rfl
@[simp] theorem State.setFetch_sink (f : Fetch) : (s.setFetch f).sink = s.sink := rfl
@[simp] theorem State.setFetch_phase (f : Fetch) : (s.setFetch f).phase = s.phase := rfl
@[simp] theorem State.setFetch_started (f : Fetch) : (s.setFetch f).started = s.started := rfl
@[simp] theorem State.setFetch_fetch (f : Fetch) : (s.setFetch f).fetch = f := rfl
@[simp] theorem State.setFetch_res (f : Fetch) : (s.setFetch f).res = s.res := rfl
@[simp] theorem State.setFetch_resume (f : Fetch) : (s.setFetch f).resume = s.resume := rfl
@[simp] theorem State.setFetch_raw (f : Fetch) : (s.setFetch f).raw = s.raw := rfl
@[simp] theorem State.setFetch_rawEpoch (f : Fetch) : (s.setFetch f).rawEpoch = s.rawEpoch := rfl
@[simp] theorem State.setFetch_buf (f : Fetch) : (s.setFetch f).buf = s.buf := rfl
@[simp] theorem State.setFetch_epoch (f : Fetch) : (s.setFetch f).epoch = s.epoch := rfl
@[simp] theorem State.setFetch_i1 (f : Fetch) : (s.setFetch f).i1 = s.i1 := rfl
@[simp] theorem State.setFetch_q1 (f : Fetch) : (s.setFetch f).q1 = s.q1 := rfl
@[simp] theorem State.setFetch_i2 (f : Fetch) : (s.setFetch f).i2 = s.i2 := rfl
@[simp] theorem State.setFetch_q2 (f : Fetch) : (s.setFetch f).q2 = s.q2 := rfl
@[simp] theorem State.setFetch_len1 (f : Fetch) : (s.setFetch f).len1 = s.len1 := rfl
@[simp] theorem State.setFetch_len2 (f : Fetch) : (s.setFetch f).len2 = s.len2 := rfl
@[simp] theorem State.setFetch_fOut (f : Fetch) : (s.setFetch f).fOut = s.fOut := rfl
@[simp] theorem State.setFetch_aOut (f : Fetch) : (s.setFetch f).aOut = s.aOut := rfl
@[simp] theorem State.setFetch_ch (f : Fetch) : (s.setFetch f).ch = s.ch := rfl
@[simp] theorem State.setFetch_i (f : Fetch) : (s.setFetch f).i = s.i := rfl
@[simp] theorem State.setFetch_run (f : Fetch) : (s.setFetch f).run = s.run := rfl
@[simp] theorem State.setFetch_k (f : Fetch) : (s.setFetch f).k = s.k := rfl
@[simp] theorem State.setFetch_j (f : Fetch) : (s.setFetch f).j = s.j := rfl
@[simp] theorem State.setFetch_score (f : Fetch) : (s.setFetch f).score = s.score := rfl
@[simp] theorem State.setFetch_smax (f : Fetch) : (s.setFetch f).smax = s.smax := rfl
@[simp] theorem State.setFetch_imax (f : Fetch) : (s.setFetch f).imax = s.imax := rfl
@[simp] theorem State.setFetch_p0 (f : Fetch) : (s.setFetch f).p0 = s.p0 := rfl
@[simp] theorem State.setFetch_m (f : Fetch) : (s.setFetch f).m = s.m := rfl
@[simp] theorem State.setFetch_idx (f : Fetch) : (s.setFetch f).idx = s.idx := rfl
@[simp] theorem State.setFetch_prev (f : Fetch) : (s.setFetch f).prev = s.prev := rfl
@[simp] theorem State.setFetch_hist (f : Fetch) : (s.setFetch f).hist = s.hist := rfl
@[simp] theorem State.setFetch_wp (f : Fetch) : (s.setFetch f).wp = s.wp := rfl
@[simp] theorem State.setFetch_bp (f : Fetch) : (s.setFetch f).bp = s.bp := rfl
@[simp] theorem State.setFetch_nbits (f : Fetch) : (s.setFetch f).nbits = s.nbits := rfl
@[simp] theorem State.setFetch_sym (f : Fetch) : (s.setFetch f).sym = s.sym := rfl
@[simp] theorem State.setFetch_out (f : Fetch) : (s.setFetch f).out = s.out := rfl
@[simp] theorem State.setFetch_mid (f : Fetch) : (s.setFetch f).mid = s.mid := rfl
@[simp] theorem State.setFetch_blen (f : Fetch) : (s.setFetch f).blen = s.blen := rfl
@[simp] theorem State.setFetch_crc (f : Fetch) : (s.setFetch f).crc = s.crc := rfl
@[simp] theorem State.setFetch_fcs (f : Fetch) : (s.setFetch f).fcs = s.fcs := rfl
@[simp] theorem State.setFetch_record (f : Fetch) : (s.setFetch f).record = s.record := rfl
@[simp] theorem State.setFetch_sync (f : Fetch) : (s.setFetch f).sync = s.sync := rfl
@[simp] theorem State.setFetch_pol (f : Fetch) : (s.setFetch f).pol = s.pol := rfl
@[simp] theorem State.setFetch_short (f : Fetch) : (s.setFetch f).short = s.short := rfl
@[simp] theorem State.setFetch_crcOk (f : Fetch) : (s.setFetch f).crcOk = s.crcOk := rfl
@[simp] theorem State.setFetch_argCh (f : Fetch) : (s.setFetch f).argCh = s.argCh := rfl
@[simp] theorem State.setFetch_firX (f : Fetch) : (s.setFetch f).firX = s.firX := rfl
@[simp] theorem State.setFetch_firH (f : Fetch) : (s.setFetch f).firH = s.firH := rfl
@[simp] theorem State.setFetch_firN (f : Fetch) : (s.setFetch f).firN = s.firN := rfl
@[simp] theorem State.setFetch_firY (f : Fetch) : (s.setFetch f).firY = s.firY := rfl
@[simp] theorem State.setFetch_crcD (f : Fetch) : (s.setFetch f).crcD = s.crcD := rfl
@[simp] theorem State.setFetch_gbO (f : Fetch) : (s.setFetch f).gbO = s.gbO := rfl
@[simp] theorem State.setFetch_gbW (f : Fetch) : (s.setFetch f).gbW = s.gbW := rfl
@[simp] theorem State.setFetch_gbV (f : Fetch) : (s.setFetch f).gbV = s.gbV := rfl

/-! ### `setArgCh` -/

@[simp] theorem State.setArgCh_cfg (c : Channel) : (s.setArgCh c).cfg = s.cfg := rfl
@[simp] theorem State.setArgCh_src (c : Channel) : (s.setArgCh c).src = s.src := rfl
@[simp] theorem State.setArgCh_srcClosed (c : Channel) : (s.setArgCh c).srcClosed = s.srcClosed := rfl
@[simp] theorem State.setArgCh_sink (c : Channel) : (s.setArgCh c).sink = s.sink := rfl
@[simp] theorem State.setArgCh_phase (c : Channel) : (s.setArgCh c).phase = s.phase := rfl
@[simp] theorem State.setArgCh_started (c : Channel) : (s.setArgCh c).started = s.started := rfl
@[simp] theorem State.setArgCh_fetch (c : Channel) : (s.setArgCh c).fetch = s.fetch := rfl
@[simp] theorem State.setArgCh_res (c : Channel) : (s.setArgCh c).res = s.res := rfl
@[simp] theorem State.setArgCh_resume (c : Channel) : (s.setArgCh c).resume = s.resume := rfl
@[simp] theorem State.setArgCh_raw (c : Channel) : (s.setArgCh c).raw = s.raw := rfl
@[simp] theorem State.setArgCh_rawEpoch (c : Channel) : (s.setArgCh c).rawEpoch = s.rawEpoch := rfl
@[simp] theorem State.setArgCh_buf (c : Channel) : (s.setArgCh c).buf = s.buf := rfl
@[simp] theorem State.setArgCh_epoch (c : Channel) : (s.setArgCh c).epoch = s.epoch := rfl
@[simp] theorem State.setArgCh_i1 (c : Channel) : (s.setArgCh c).i1 = s.i1 := rfl
@[simp] theorem State.setArgCh_q1 (c : Channel) : (s.setArgCh c).q1 = s.q1 := rfl
@[simp] theorem State.setArgCh_i2 (c : Channel) : (s.setArgCh c).i2 = s.i2 := rfl
@[simp] theorem State.setArgCh_q2 (c : Channel) : (s.setArgCh c).q2 = s.q2 := rfl
@[simp] theorem State.setArgCh_len1 (c : Channel) : (s.setArgCh c).len1 = s.len1 := rfl
@[simp] theorem State.setArgCh_len2 (c : Channel) : (s.setArgCh c).len2 = s.len2 := rfl
@[simp] theorem State.setArgCh_fOut (c : Channel) : (s.setArgCh c).fOut = s.fOut := rfl
@[simp] theorem State.setArgCh_aOut (c : Channel) : (s.setArgCh c).aOut = s.aOut := rfl
@[simp] theorem State.setArgCh_ch (c : Channel) : (s.setArgCh c).ch = s.ch := rfl
@[simp] theorem State.setArgCh_i (c : Channel) : (s.setArgCh c).i = s.i := rfl
@[simp] theorem State.setArgCh_run (c : Channel) : (s.setArgCh c).run = s.run := rfl
@[simp] theorem State.setArgCh_k (c : Channel) : (s.setArgCh c).k = s.k := rfl
@[simp] theorem State.setArgCh_j (c : Channel) : (s.setArgCh c).j = s.j := rfl
@[simp] theorem State.setArgCh_score (c : Channel) : (s.setArgCh c).score = s.score := rfl
@[simp] theorem State.setArgCh_smax (c : Channel) : (s.setArgCh c).smax = s.smax := rfl
@[simp] theorem State.setArgCh_imax (c : Channel) : (s.setArgCh c).imax = s.imax := rfl
@[simp] theorem State.setArgCh_p0 (c : Channel) : (s.setArgCh c).p0 = s.p0 := rfl
@[simp] theorem State.setArgCh_m (c : Channel) : (s.setArgCh c).m = s.m := rfl
@[simp] theorem State.setArgCh_idx (c : Channel) : (s.setArgCh c).idx = s.idx := rfl
@[simp] theorem State.setArgCh_prev (c : Channel) : (s.setArgCh c).prev = s.prev := rfl
@[simp] theorem State.setArgCh_hist (c : Channel) : (s.setArgCh c).hist = s.hist := rfl
@[simp] theorem State.setArgCh_wp (c : Channel) : (s.setArgCh c).wp = s.wp := rfl
@[simp] theorem State.setArgCh_bp (c : Channel) : (s.setArgCh c).bp = s.bp := rfl
@[simp] theorem State.setArgCh_nbits (c : Channel) : (s.setArgCh c).nbits = s.nbits := rfl
@[simp] theorem State.setArgCh_sym (c : Channel) : (s.setArgCh c).sym = s.sym := rfl
@[simp] theorem State.setArgCh_out (c : Channel) : (s.setArgCh c).out = s.out := rfl
@[simp] theorem State.setArgCh_mid (c : Channel) : (s.setArgCh c).mid = s.mid := rfl
@[simp] theorem State.setArgCh_blen (c : Channel) : (s.setArgCh c).blen = s.blen := rfl
@[simp] theorem State.setArgCh_crc (c : Channel) : (s.setArgCh c).crc = s.crc := rfl
@[simp] theorem State.setArgCh_fcs (c : Channel) : (s.setArgCh c).fcs = s.fcs := rfl
@[simp] theorem State.setArgCh_record (c : Channel) : (s.setArgCh c).record = s.record := rfl
@[simp] theorem State.setArgCh_sync (c : Channel) : (s.setArgCh c).sync = s.sync := rfl
@[simp] theorem State.setArgCh_pol (c : Channel) : (s.setArgCh c).pol = s.pol := rfl
@[simp] theorem State.setArgCh_short (c : Channel) : (s.setArgCh c).short = s.short := rfl
@[simp] theorem State.setArgCh_crcOk (c : Channel) : (s.setArgCh c).crcOk = s.crcOk := rfl
@[simp] theorem State.setArgCh_argCh (c : Channel) : (s.setArgCh c).argCh = c := rfl
@[simp] theorem State.setArgCh_firX (c : Channel) : (s.setArgCh c).firX = s.firX := rfl
@[simp] theorem State.setArgCh_firH (c : Channel) : (s.setArgCh c).firH = s.firH := rfl
@[simp] theorem State.setArgCh_firN (c : Channel) : (s.setArgCh c).firN = s.firN := rfl
@[simp] theorem State.setArgCh_firY (c : Channel) : (s.setArgCh c).firY = s.firY := rfl
@[simp] theorem State.setArgCh_crcD (c : Channel) : (s.setArgCh c).crcD = s.crcD := rfl
@[simp] theorem State.setArgCh_gbO (c : Channel) : (s.setArgCh c).gbO = s.gbO := rfl
@[simp] theorem State.setArgCh_gbW (c : Channel) : (s.setArgCh c).gbW = s.gbW := rfl
@[simp] theorem State.setArgCh_gbV (c : Channel) : (s.setArgCh c).gbV = s.gbV := rfl

/-! ### `appendSink` -/

@[simp] theorem State.appendSink_cfg (x : SinkItem) : (s.appendSink x).cfg = s.cfg := rfl
@[simp] theorem State.appendSink_src (x : SinkItem) : (s.appendSink x).src = s.src := rfl
@[simp] theorem State.appendSink_srcClosed (x : SinkItem) : (s.appendSink x).srcClosed = s.srcClosed := rfl
@[simp] theorem State.appendSink_sink (x : SinkItem) : (s.appendSink x).sink = s.sink ++ [x] := rfl
@[simp] theorem State.appendSink_phase (x : SinkItem) : (s.appendSink x).phase = s.phase := rfl
@[simp] theorem State.appendSink_started (x : SinkItem) : (s.appendSink x).started = s.started := rfl
@[simp] theorem State.appendSink_fetch (x : SinkItem) : (s.appendSink x).fetch = s.fetch := rfl
@[simp] theorem State.appendSink_res (x : SinkItem) : (s.appendSink x).res = s.res := rfl
@[simp] theorem State.appendSink_resume (x : SinkItem) : (s.appendSink x).resume = s.resume := rfl
@[simp] theorem State.appendSink_raw (x : SinkItem) : (s.appendSink x).raw = s.raw := rfl
@[simp] theorem State.appendSink_rawEpoch (x : SinkItem) : (s.appendSink x).rawEpoch = s.rawEpoch := rfl
@[simp] theorem State.appendSink_buf (x : SinkItem) : (s.appendSink x).buf = s.buf := rfl
@[simp] theorem State.appendSink_epoch (x : SinkItem) : (s.appendSink x).epoch = s.epoch := rfl
@[simp] theorem State.appendSink_i1 (x : SinkItem) : (s.appendSink x).i1 = s.i1 := rfl
@[simp] theorem State.appendSink_q1 (x : SinkItem) : (s.appendSink x).q1 = s.q1 := rfl
@[simp] theorem State.appendSink_i2 (x : SinkItem) : (s.appendSink x).i2 = s.i2 := rfl
@[simp] theorem State.appendSink_q2 (x : SinkItem) : (s.appendSink x).q2 = s.q2 := rfl
@[simp] theorem State.appendSink_len1 (x : SinkItem) : (s.appendSink x).len1 = s.len1 := rfl
@[simp] theorem State.appendSink_len2 (x : SinkItem) : (s.appendSink x).len2 = s.len2 := rfl
@[simp] theorem State.appendSink_fOut (x : SinkItem) : (s.appendSink x).fOut = s.fOut := rfl
@[simp] theorem State.appendSink_aOut (x : SinkItem) : (s.appendSink x).aOut = s.aOut := rfl
@[simp] theorem State.appendSink_ch (x : SinkItem) : (s.appendSink x).ch = s.ch := rfl
@[simp] theorem State.appendSink_i (x : SinkItem) : (s.appendSink x).i = s.i := rfl
@[simp] theorem State.appendSink_run (x : SinkItem) : (s.appendSink x).run = s.run := rfl
@[simp] theorem State.appendSink_k (x : SinkItem) : (s.appendSink x).k = s.k := rfl
@[simp] theorem State.appendSink_j (x : SinkItem) : (s.appendSink x).j = s.j := rfl
@[simp] theorem State.appendSink_score (x : SinkItem) : (s.appendSink x).score = s.score := rfl
@[simp] theorem State.appendSink_smax (x : SinkItem) : (s.appendSink x).smax = s.smax := rfl
@[simp] theorem State.appendSink_imax (x : SinkItem) : (s.appendSink x).imax = s.imax := rfl
@[simp] theorem State.appendSink_p0 (x : SinkItem) : (s.appendSink x).p0 = s.p0 := rfl
@[simp] theorem State.appendSink_m (x : SinkItem) : (s.appendSink x).m = s.m := rfl
@[simp] theorem State.appendSink_idx (x : SinkItem) : (s.appendSink x).idx = s.idx := rfl
@[simp] theorem State.appendSink_prev (x : SinkItem) : (s.appendSink x).prev = s.prev := rfl
@[simp] theorem State.appendSink_hist (x : SinkItem) : (s.appendSink x).hist = s.hist := rfl
@[simp] theorem State.appendSink_wp (x : SinkItem) : (s.appendSink x).wp = s.wp := rfl
@[simp] theorem State.appendSink_bp (x : SinkItem) : (s.appendSink x).bp = s.bp := rfl
@[simp] theorem State.appendSink_nbits (x : SinkItem) : (s.appendSink x).nbits = s.nbits := rfl
@[simp] theorem State.appendSink_sym (x : SinkItem) : (s.appendSink x).sym = s.sym := rfl
@[simp] theorem State.appendSink_out (x : SinkItem) : (s.appendSink x).out = s.out := rfl
@[simp] theorem State.appendSink_mid (x : SinkItem) : (s.appendSink x).mid = s.mid := rfl
@[simp] theorem State.appendSink_blen (x : SinkItem) : (s.appendSink x).blen = s.blen := rfl
@[simp] theorem State.appendSink_crc (x : SinkItem) : (s.appendSink x).crc = s.crc := rfl
@[simp] theorem State.appendSink_fcs (x : SinkItem) : (s.appendSink x).fcs = s.fcs := rfl
@[simp] theorem State.appendSink_record (x : SinkItem) : (s.appendSink x).record = s.record := rfl
@[simp] theorem State.appendSink_sync (x : SinkItem) : (s.appendSink x).sync = s.sync := rfl
@[simp] theorem State.appendSink_pol (x : SinkItem) : (s.appendSink x).pol = s.pol := rfl
@[simp] theorem State.appendSink_short (x : SinkItem) : (s.appendSink x).short = s.short := rfl
@[simp] theorem State.appendSink_crcOk (x : SinkItem) : (s.appendSink x).crcOk = s.crcOk := rfl
@[simp] theorem State.appendSink_argCh (x : SinkItem) : (s.appendSink x).argCh = s.argCh := rfl
@[simp] theorem State.appendSink_firX (x : SinkItem) : (s.appendSink x).firX = s.firX := rfl
@[simp] theorem State.appendSink_firH (x : SinkItem) : (s.appendSink x).firH = s.firH := rfl
@[simp] theorem State.appendSink_firN (x : SinkItem) : (s.appendSink x).firN = s.firN := rfl
@[simp] theorem State.appendSink_firY (x : SinkItem) : (s.appendSink x).firY = s.firY := rfl
@[simp] theorem State.appendSink_crcD (x : SinkItem) : (s.appendSink x).crcD = s.crcD := rfl
@[simp] theorem State.appendSink_gbO (x : SinkItem) : (s.appendSink x).gbO = s.gbO := rfl
@[simp] theorem State.appendSink_gbW (x : SinkItem) : (s.appendSink x).gbW = s.gbW := rfl
@[simp] theorem State.appendSink_gbV (x : SinkItem) : (s.appendSink x).gbV = s.gbV := rfl

/-! ### `setLength` -/

@[simp] theorem State.setLength_cfg (mid : BitVec 6) (blen : BodyLen) (short : Bool) : (s.setLength mid blen short).cfg = s.cfg := rfl
@[simp] theorem State.setLength_src (mid : BitVec 6) (blen : BodyLen) (short : Bool) : (s.setLength mid blen short).src = s.src := rfl
@[simp] theorem State.setLength_srcClosed (mid : BitVec 6) (blen : BodyLen) (short : Bool) : (s.setLength mid blen short).srcClosed = s.srcClosed := rfl
@[simp] theorem State.setLength_sink (mid : BitVec 6) (blen : BodyLen) (short : Bool) : (s.setLength mid blen short).sink = s.sink := rfl
@[simp] theorem State.setLength_phase (mid : BitVec 6) (blen : BodyLen) (short : Bool) : (s.setLength mid blen short).phase = s.phase := rfl
@[simp] theorem State.setLength_started (mid : BitVec 6) (blen : BodyLen) (short : Bool) : (s.setLength mid blen short).started = s.started := rfl
@[simp] theorem State.setLength_fetch (mid : BitVec 6) (blen : BodyLen) (short : Bool) : (s.setLength mid blen short).fetch = s.fetch := rfl
@[simp] theorem State.setLength_res (mid : BitVec 6) (blen : BodyLen) (short : Bool) : (s.setLength mid blen short).res = s.res := rfl
@[simp] theorem State.setLength_resume (mid : BitVec 6) (blen : BodyLen) (short : Bool) : (s.setLength mid blen short).resume = s.resume := rfl
@[simp] theorem State.setLength_raw (mid : BitVec 6) (blen : BodyLen) (short : Bool) : (s.setLength mid blen short).raw = s.raw := rfl
@[simp] theorem State.setLength_rawEpoch (mid : BitVec 6) (blen : BodyLen) (short : Bool) : (s.setLength mid blen short).rawEpoch = s.rawEpoch := rfl
@[simp] theorem State.setLength_buf (mid : BitVec 6) (blen : BodyLen) (short : Bool) : (s.setLength mid blen short).buf = s.buf := rfl
@[simp] theorem State.setLength_epoch (mid : BitVec 6) (blen : BodyLen) (short : Bool) : (s.setLength mid blen short).epoch = s.epoch := rfl
@[simp] theorem State.setLength_i1 (mid : BitVec 6) (blen : BodyLen) (short : Bool) : (s.setLength mid blen short).i1 = s.i1 := rfl
@[simp] theorem State.setLength_q1 (mid : BitVec 6) (blen : BodyLen) (short : Bool) : (s.setLength mid blen short).q1 = s.q1 := rfl
@[simp] theorem State.setLength_i2 (mid : BitVec 6) (blen : BodyLen) (short : Bool) : (s.setLength mid blen short).i2 = s.i2 := rfl
@[simp] theorem State.setLength_q2 (mid : BitVec 6) (blen : BodyLen) (short : Bool) : (s.setLength mid blen short).q2 = s.q2 := rfl
@[simp] theorem State.setLength_len1 (mid : BitVec 6) (blen : BodyLen) (short : Bool) : (s.setLength mid blen short).len1 = s.len1 := rfl
@[simp] theorem State.setLength_len2 (mid : BitVec 6) (blen : BodyLen) (short : Bool) : (s.setLength mid blen short).len2 = s.len2 := rfl
@[simp] theorem State.setLength_fOut (mid : BitVec 6) (blen : BodyLen) (short : Bool) : (s.setLength mid blen short).fOut = s.fOut := rfl
@[simp] theorem State.setLength_aOut (mid : BitVec 6) (blen : BodyLen) (short : Bool) : (s.setLength mid blen short).aOut = s.aOut := rfl
@[simp] theorem State.setLength_ch (mid : BitVec 6) (blen : BodyLen) (short : Bool) : (s.setLength mid blen short).ch = s.ch := rfl
@[simp] theorem State.setLength_i (mid : BitVec 6) (blen : BodyLen) (short : Bool) : (s.setLength mid blen short).i = s.i := rfl
@[simp] theorem State.setLength_run (mid : BitVec 6) (blen : BodyLen) (short : Bool) : (s.setLength mid blen short).run = s.run := rfl
@[simp] theorem State.setLength_k (mid : BitVec 6) (blen : BodyLen) (short : Bool) : (s.setLength mid blen short).k = s.k := rfl
@[simp] theorem State.setLength_j (mid : BitVec 6) (blen : BodyLen) (short : Bool) : (s.setLength mid blen short).j = s.j := rfl
@[simp] theorem State.setLength_score (mid : BitVec 6) (blen : BodyLen) (short : Bool) : (s.setLength mid blen short).score = s.score := rfl
@[simp] theorem State.setLength_smax (mid : BitVec 6) (blen : BodyLen) (short : Bool) : (s.setLength mid blen short).smax = s.smax := rfl
@[simp] theorem State.setLength_imax (mid : BitVec 6) (blen : BodyLen) (short : Bool) : (s.setLength mid blen short).imax = s.imax := rfl
@[simp] theorem State.setLength_p0 (mid : BitVec 6) (blen : BodyLen) (short : Bool) : (s.setLength mid blen short).p0 = s.p0 := rfl
@[simp] theorem State.setLength_m (mid : BitVec 6) (blen : BodyLen) (short : Bool) : (s.setLength mid blen short).m = s.m := rfl
@[simp] theorem State.setLength_idx (mid : BitVec 6) (blen : BodyLen) (short : Bool) : (s.setLength mid blen short).idx = s.idx := rfl
@[simp] theorem State.setLength_prev (mid : BitVec 6) (blen : BodyLen) (short : Bool) : (s.setLength mid blen short).prev = s.prev := rfl
@[simp] theorem State.setLength_hist (mid : BitVec 6) (blen : BodyLen) (short : Bool) : (s.setLength mid blen short).hist = s.hist := rfl
@[simp] theorem State.setLength_wp (mid : BitVec 6) (blen : BodyLen) (short : Bool) : (s.setLength mid blen short).wp = s.wp := rfl
@[simp] theorem State.setLength_bp (mid : BitVec 6) (blen : BodyLen) (short : Bool) : (s.setLength mid blen short).bp = s.bp := rfl
@[simp] theorem State.setLength_nbits (mid : BitVec 6) (blen : BodyLen) (short : Bool) : (s.setLength mid blen short).nbits = s.nbits := rfl
@[simp] theorem State.setLength_sym (mid : BitVec 6) (blen : BodyLen) (short : Bool) : (s.setLength mid blen short).sym = s.sym := rfl
@[simp] theorem State.setLength_out (mid : BitVec 6) (blen : BodyLen) (short : Bool) : (s.setLength mid blen short).out = s.out := rfl
@[simp] theorem State.setLength_mid (mid : BitVec 6) (blen : BodyLen) (short : Bool) : (s.setLength mid blen short).mid = mid := rfl
@[simp] theorem State.setLength_blen (mid : BitVec 6) (blen : BodyLen) (short : Bool) : (s.setLength mid blen short).blen = blen := rfl
@[simp] theorem State.setLength_crc (mid : BitVec 6) (blen : BodyLen) (short : Bool) : (s.setLength mid blen short).crc = s.crc := rfl
@[simp] theorem State.setLength_fcs (mid : BitVec 6) (blen : BodyLen) (short : Bool) : (s.setLength mid blen short).fcs = s.fcs := rfl
@[simp] theorem State.setLength_record (mid : BitVec 6) (blen : BodyLen) (short : Bool) : (s.setLength mid blen short).record = s.record := rfl
@[simp] theorem State.setLength_sync (mid : BitVec 6) (blen : BodyLen) (short : Bool) : (s.setLength mid blen short).sync = s.sync := rfl
@[simp] theorem State.setLength_pol (mid : BitVec 6) (blen : BodyLen) (short : Bool) : (s.setLength mid blen short).pol = s.pol := rfl
@[simp] theorem State.setLength_short (mid : BitVec 6) (blen : BodyLen) (short : Bool) : (s.setLength mid blen short).short = short := rfl
@[simp] theorem State.setLength_crcOk (mid : BitVec 6) (blen : BodyLen) (short : Bool) : (s.setLength mid blen short).crcOk = s.crcOk := rfl
@[simp] theorem State.setLength_argCh (mid : BitVec 6) (blen : BodyLen) (short : Bool) : (s.setLength mid blen short).argCh = s.argCh := rfl
@[simp] theorem State.setLength_firX (mid : BitVec 6) (blen : BodyLen) (short : Bool) : (s.setLength mid blen short).firX = s.firX := rfl
@[simp] theorem State.setLength_firH (mid : BitVec 6) (blen : BodyLen) (short : Bool) : (s.setLength mid blen short).firH = s.firH := rfl
@[simp] theorem State.setLength_firN (mid : BitVec 6) (blen : BodyLen) (short : Bool) : (s.setLength mid blen short).firN = s.firN := rfl
@[simp] theorem State.setLength_firY (mid : BitVec 6) (blen : BodyLen) (short : Bool) : (s.setLength mid blen short).firY = s.firY := rfl
@[simp] theorem State.setLength_crcD (mid : BitVec 6) (blen : BodyLen) (short : Bool) : (s.setLength mid blen short).crcD = s.crcD := rfl
@[simp] theorem State.setLength_gbO (mid : BitVec 6) (blen : BodyLen) (short : Bool) : (s.setLength mid blen short).gbO = s.gbO := rfl
@[simp] theorem State.setLength_gbW (mid : BitVec 6) (blen : BodyLen) (short : Bool) : (s.setLength mid blen short).gbW = s.gbW := rfl
@[simp] theorem State.setLength_gbV (mid : BitVec 6) (blen : BodyLen) (short : Bool) : (s.setLength mid blen short).gbV = s.gbV := rfl

/-! ### `setCrc` -/

@[simp] theorem State.setCrc_cfg (c : Word16) : (s.setCrc c).cfg = s.cfg := rfl
@[simp] theorem State.setCrc_src (c : Word16) : (s.setCrc c).src = s.src := rfl
@[simp] theorem State.setCrc_srcClosed (c : Word16) : (s.setCrc c).srcClosed = s.srcClosed := rfl
@[simp] theorem State.setCrc_sink (c : Word16) : (s.setCrc c).sink = s.sink := rfl
@[simp] theorem State.setCrc_phase (c : Word16) : (s.setCrc c).phase = s.phase := rfl
@[simp] theorem State.setCrc_started (c : Word16) : (s.setCrc c).started = s.started := rfl
@[simp] theorem State.setCrc_fetch (c : Word16) : (s.setCrc c).fetch = s.fetch := rfl
@[simp] theorem State.setCrc_res (c : Word16) : (s.setCrc c).res = s.res := rfl
@[simp] theorem State.setCrc_resume (c : Word16) : (s.setCrc c).resume = s.resume := rfl
@[simp] theorem State.setCrc_raw (c : Word16) : (s.setCrc c).raw = s.raw := rfl
@[simp] theorem State.setCrc_rawEpoch (c : Word16) : (s.setCrc c).rawEpoch = s.rawEpoch := rfl
@[simp] theorem State.setCrc_buf (c : Word16) : (s.setCrc c).buf = s.buf := rfl
@[simp] theorem State.setCrc_epoch (c : Word16) : (s.setCrc c).epoch = s.epoch := rfl
@[simp] theorem State.setCrc_i1 (c : Word16) : (s.setCrc c).i1 = s.i1 := rfl
@[simp] theorem State.setCrc_q1 (c : Word16) : (s.setCrc c).q1 = s.q1 := rfl
@[simp] theorem State.setCrc_i2 (c : Word16) : (s.setCrc c).i2 = s.i2 := rfl
@[simp] theorem State.setCrc_q2 (c : Word16) : (s.setCrc c).q2 = s.q2 := rfl
@[simp] theorem State.setCrc_len1 (c : Word16) : (s.setCrc c).len1 = s.len1 := rfl
@[simp] theorem State.setCrc_len2 (c : Word16) : (s.setCrc c).len2 = s.len2 := rfl
@[simp] theorem State.setCrc_fOut (c : Word16) : (s.setCrc c).fOut = s.fOut := rfl
@[simp] theorem State.setCrc_aOut (c : Word16) : (s.setCrc c).aOut = s.aOut := rfl
@[simp] theorem State.setCrc_ch (c : Word16) : (s.setCrc c).ch = s.ch := rfl
@[simp] theorem State.setCrc_i (c : Word16) : (s.setCrc c).i = s.i := rfl
@[simp] theorem State.setCrc_run (c : Word16) : (s.setCrc c).run = s.run := rfl
@[simp] theorem State.setCrc_k (c : Word16) : (s.setCrc c).k = s.k := rfl
@[simp] theorem State.setCrc_j (c : Word16) : (s.setCrc c).j = s.j := rfl
@[simp] theorem State.setCrc_score (c : Word16) : (s.setCrc c).score = s.score := rfl
@[simp] theorem State.setCrc_smax (c : Word16) : (s.setCrc c).smax = s.smax := rfl
@[simp] theorem State.setCrc_imax (c : Word16) : (s.setCrc c).imax = s.imax := rfl
@[simp] theorem State.setCrc_p0 (c : Word16) : (s.setCrc c).p0 = s.p0 := rfl
@[simp] theorem State.setCrc_m (c : Word16) : (s.setCrc c).m = s.m := rfl
@[simp] theorem State.setCrc_idx (c : Word16) : (s.setCrc c).idx = s.idx := rfl
@[simp] theorem State.setCrc_prev (c : Word16) : (s.setCrc c).prev = s.prev := rfl
@[simp] theorem State.setCrc_hist (c : Word16) : (s.setCrc c).hist = s.hist := rfl
@[simp] theorem State.setCrc_wp (c : Word16) : (s.setCrc c).wp = s.wp := rfl
@[simp] theorem State.setCrc_bp (c : Word16) : (s.setCrc c).bp = s.bp := rfl
@[simp] theorem State.setCrc_nbits (c : Word16) : (s.setCrc c).nbits = s.nbits := rfl
@[simp] theorem State.setCrc_sym (c : Word16) : (s.setCrc c).sym = s.sym := rfl
@[simp] theorem State.setCrc_out (c : Word16) : (s.setCrc c).out = s.out := rfl
@[simp] theorem State.setCrc_mid (c : Word16) : (s.setCrc c).mid = s.mid := rfl
@[simp] theorem State.setCrc_blen (c : Word16) : (s.setCrc c).blen = s.blen := rfl
@[simp] theorem State.setCrc_crc (c : Word16) : (s.setCrc c).crc = c := rfl
@[simp] theorem State.setCrc_fcs (c : Word16) : (s.setCrc c).fcs = s.fcs := rfl
@[simp] theorem State.setCrc_record (c : Word16) : (s.setCrc c).record = s.record := rfl
@[simp] theorem State.setCrc_sync (c : Word16) : (s.setCrc c).sync = s.sync := rfl
@[simp] theorem State.setCrc_pol (c : Word16) : (s.setCrc c).pol = s.pol := rfl
@[simp] theorem State.setCrc_short (c : Word16) : (s.setCrc c).short = s.short := rfl
@[simp] theorem State.setCrc_crcOk (c : Word16) : (s.setCrc c).crcOk = s.crcOk := rfl
@[simp] theorem State.setCrc_argCh (c : Word16) : (s.setCrc c).argCh = s.argCh := rfl
@[simp] theorem State.setCrc_firX (c : Word16) : (s.setCrc c).firX = s.firX := rfl
@[simp] theorem State.setCrc_firH (c : Word16) : (s.setCrc c).firH = s.firH := rfl
@[simp] theorem State.setCrc_firN (c : Word16) : (s.setCrc c).firN = s.firN := rfl
@[simp] theorem State.setCrc_firY (c : Word16) : (s.setCrc c).firY = s.firY := rfl
@[simp] theorem State.setCrc_crcD (c : Word16) : (s.setCrc c).crcD = s.crcD := rfl
@[simp] theorem State.setCrc_gbO (c : Word16) : (s.setCrc c).gbO = s.gbO := rfl
@[simp] theorem State.setCrc_gbW (c : Word16) : (s.setCrc c).gbW = s.gbW := rfl
@[simp] theorem State.setCrc_gbV (c : Word16) : (s.setCrc c).gbV = s.gbV := rfl

/-! ### `setCheck` -/

@[simp] theorem State.setCheck_cfg (crc fcs : Word16) (ok : Bool) : (s.setCheck crc fcs ok).cfg = s.cfg := rfl
@[simp] theorem State.setCheck_src (crc fcs : Word16) (ok : Bool) : (s.setCheck crc fcs ok).src = s.src := rfl
@[simp] theorem State.setCheck_srcClosed (crc fcs : Word16) (ok : Bool) : (s.setCheck crc fcs ok).srcClosed = s.srcClosed := rfl
@[simp] theorem State.setCheck_sink (crc fcs : Word16) (ok : Bool) : (s.setCheck crc fcs ok).sink = s.sink := rfl
@[simp] theorem State.setCheck_phase (crc fcs : Word16) (ok : Bool) : (s.setCheck crc fcs ok).phase = s.phase := rfl
@[simp] theorem State.setCheck_started (crc fcs : Word16) (ok : Bool) : (s.setCheck crc fcs ok).started = s.started := rfl
@[simp] theorem State.setCheck_fetch (crc fcs : Word16) (ok : Bool) : (s.setCheck crc fcs ok).fetch = s.fetch := rfl
@[simp] theorem State.setCheck_res (crc fcs : Word16) (ok : Bool) : (s.setCheck crc fcs ok).res = s.res := rfl
@[simp] theorem State.setCheck_resume (crc fcs : Word16) (ok : Bool) : (s.setCheck crc fcs ok).resume = s.resume := rfl
@[simp] theorem State.setCheck_raw (crc fcs : Word16) (ok : Bool) : (s.setCheck crc fcs ok).raw = s.raw := rfl
@[simp] theorem State.setCheck_rawEpoch (crc fcs : Word16) (ok : Bool) : (s.setCheck crc fcs ok).rawEpoch = s.rawEpoch := rfl
@[simp] theorem State.setCheck_buf (crc fcs : Word16) (ok : Bool) : (s.setCheck crc fcs ok).buf = s.buf := rfl
@[simp] theorem State.setCheck_epoch (crc fcs : Word16) (ok : Bool) : (s.setCheck crc fcs ok).epoch = s.epoch := rfl
@[simp] theorem State.setCheck_i1 (crc fcs : Word16) (ok : Bool) : (s.setCheck crc fcs ok).i1 = s.i1 := rfl
@[simp] theorem State.setCheck_q1 (crc fcs : Word16) (ok : Bool) : (s.setCheck crc fcs ok).q1 = s.q1 := rfl
@[simp] theorem State.setCheck_i2 (crc fcs : Word16) (ok : Bool) : (s.setCheck crc fcs ok).i2 = s.i2 := rfl
@[simp] theorem State.setCheck_q2 (crc fcs : Word16) (ok : Bool) : (s.setCheck crc fcs ok).q2 = s.q2 := rfl
@[simp] theorem State.setCheck_len1 (crc fcs : Word16) (ok : Bool) : (s.setCheck crc fcs ok).len1 = s.len1 := rfl
@[simp] theorem State.setCheck_len2 (crc fcs : Word16) (ok : Bool) : (s.setCheck crc fcs ok).len2 = s.len2 := rfl
@[simp] theorem State.setCheck_fOut (crc fcs : Word16) (ok : Bool) : (s.setCheck crc fcs ok).fOut = s.fOut := rfl
@[simp] theorem State.setCheck_aOut (crc fcs : Word16) (ok : Bool) : (s.setCheck crc fcs ok).aOut = s.aOut := rfl
@[simp] theorem State.setCheck_ch (crc fcs : Word16) (ok : Bool) : (s.setCheck crc fcs ok).ch = s.ch := rfl
@[simp] theorem State.setCheck_i (crc fcs : Word16) (ok : Bool) : (s.setCheck crc fcs ok).i = s.i := rfl
@[simp] theorem State.setCheck_run (crc fcs : Word16) (ok : Bool) : (s.setCheck crc fcs ok).run = s.run := rfl
@[simp] theorem State.setCheck_k (crc fcs : Word16) (ok : Bool) : (s.setCheck crc fcs ok).k = s.k := rfl
@[simp] theorem State.setCheck_j (crc fcs : Word16) (ok : Bool) : (s.setCheck crc fcs ok).j = s.j := rfl
@[simp] theorem State.setCheck_score (crc fcs : Word16) (ok : Bool) : (s.setCheck crc fcs ok).score = s.score := rfl
@[simp] theorem State.setCheck_smax (crc fcs : Word16) (ok : Bool) : (s.setCheck crc fcs ok).smax = s.smax := rfl
@[simp] theorem State.setCheck_imax (crc fcs : Word16) (ok : Bool) : (s.setCheck crc fcs ok).imax = s.imax := rfl
@[simp] theorem State.setCheck_p0 (crc fcs : Word16) (ok : Bool) : (s.setCheck crc fcs ok).p0 = s.p0 := rfl
@[simp] theorem State.setCheck_m (crc fcs : Word16) (ok : Bool) : (s.setCheck crc fcs ok).m = s.m := rfl
@[simp] theorem State.setCheck_idx (crc fcs : Word16) (ok : Bool) : (s.setCheck crc fcs ok).idx = s.idx := rfl
@[simp] theorem State.setCheck_prev (crc fcs : Word16) (ok : Bool) : (s.setCheck crc fcs ok).prev = s.prev := rfl
@[simp] theorem State.setCheck_hist (crc fcs : Word16) (ok : Bool) : (s.setCheck crc fcs ok).hist = s.hist := rfl
@[simp] theorem State.setCheck_wp (crc fcs : Word16) (ok : Bool) : (s.setCheck crc fcs ok).wp = s.wp := rfl
@[simp] theorem State.setCheck_bp (crc fcs : Word16) (ok : Bool) : (s.setCheck crc fcs ok).bp = s.bp := rfl
@[simp] theorem State.setCheck_nbits (crc fcs : Word16) (ok : Bool) : (s.setCheck crc fcs ok).nbits = s.nbits := rfl
@[simp] theorem State.setCheck_sym (crc fcs : Word16) (ok : Bool) : (s.setCheck crc fcs ok).sym = s.sym := rfl
@[simp] theorem State.setCheck_out (crc fcs : Word16) (ok : Bool) : (s.setCheck crc fcs ok).out = s.out := rfl
@[simp] theorem State.setCheck_mid (crc fcs : Word16) (ok : Bool) : (s.setCheck crc fcs ok).mid = s.mid := rfl
@[simp] theorem State.setCheck_blen (crc fcs : Word16) (ok : Bool) : (s.setCheck crc fcs ok).blen = s.blen := rfl
@[simp] theorem State.setCheck_crc (crc fcs : Word16) (ok : Bool) : (s.setCheck crc fcs ok).crc = crc := rfl
@[simp] theorem State.setCheck_fcs (crc fcs : Word16) (ok : Bool) : (s.setCheck crc fcs ok).fcs = fcs := rfl
@[simp] theorem State.setCheck_record (crc fcs : Word16) (ok : Bool) : (s.setCheck crc fcs ok).record = s.record := rfl
@[simp] theorem State.setCheck_sync (crc fcs : Word16) (ok : Bool) : (s.setCheck crc fcs ok).sync = s.sync := rfl
@[simp] theorem State.setCheck_pol (crc fcs : Word16) (ok : Bool) : (s.setCheck crc fcs ok).pol = s.pol := rfl
@[simp] theorem State.setCheck_short (crc fcs : Word16) (ok : Bool) : (s.setCheck crc fcs ok).short = s.short := rfl
@[simp] theorem State.setCheck_crcOk (crc fcs : Word16) (ok : Bool) : (s.setCheck crc fcs ok).crcOk = ok := rfl
@[simp] theorem State.setCheck_argCh (crc fcs : Word16) (ok : Bool) : (s.setCheck crc fcs ok).argCh = s.argCh := rfl
@[simp] theorem State.setCheck_firX (crc fcs : Word16) (ok : Bool) : (s.setCheck crc fcs ok).firX = s.firX := rfl
@[simp] theorem State.setCheck_firH (crc fcs : Word16) (ok : Bool) : (s.setCheck crc fcs ok).firH = s.firH := rfl
@[simp] theorem State.setCheck_firN (crc fcs : Word16) (ok : Bool) : (s.setCheck crc fcs ok).firN = s.firN := rfl
@[simp] theorem State.setCheck_firY (crc fcs : Word16) (ok : Bool) : (s.setCheck crc fcs ok).firY = s.firY := rfl
@[simp] theorem State.setCheck_crcD (crc fcs : Word16) (ok : Bool) : (s.setCheck crc fcs ok).crcD = s.crcD := rfl
@[simp] theorem State.setCheck_gbO (crc fcs : Word16) (ok : Bool) : (s.setCheck crc fcs ok).gbO = s.gbO := rfl
@[simp] theorem State.setCheck_gbW (crc fcs : Word16) (ok : Bool) : (s.setCheck crc fcs ok).gbW = s.gbW := rfl
@[simp] theorem State.setCheck_gbV (crc fcs : Word16) (ok : Bool) : (s.setCheck crc fcs ok).gbV = s.gbV := rfl

/-! ### `clearFrame` -/

@[simp] theorem State.clearFrame_cfg : s.clearFrame.cfg = s.cfg := rfl
@[simp] theorem State.clearFrame_src : s.clearFrame.src = s.src := rfl
@[simp] theorem State.clearFrame_srcClosed : s.clearFrame.srcClosed = s.srcClosed := rfl
@[simp] theorem State.clearFrame_sink : s.clearFrame.sink = s.sink := rfl
@[simp] theorem State.clearFrame_phase : s.clearFrame.phase = s.phase := rfl
@[simp] theorem State.clearFrame_started : s.clearFrame.started = s.started := rfl
@[simp] theorem State.clearFrame_fetch : s.clearFrame.fetch = s.fetch := rfl
@[simp] theorem State.clearFrame_res : s.clearFrame.res = s.res := rfl
@[simp] theorem State.clearFrame_resume : s.clearFrame.resume = s.resume := rfl
@[simp] theorem State.clearFrame_raw : s.clearFrame.raw = s.raw := rfl
@[simp] theorem State.clearFrame_rawEpoch : s.clearFrame.rawEpoch = s.rawEpoch := rfl
@[simp] theorem State.clearFrame_buf : s.clearFrame.buf = clearedBuf := rfl
@[simp] theorem State.clearFrame_epoch : s.clearFrame.epoch = s.epoch := rfl
@[simp] theorem State.clearFrame_i1 : s.clearFrame.i1 = s.i1 := rfl
@[simp] theorem State.clearFrame_q1 : s.clearFrame.q1 = s.q1 := rfl
@[simp] theorem State.clearFrame_i2 : s.clearFrame.i2 = s.i2 := rfl
@[simp] theorem State.clearFrame_q2 : s.clearFrame.q2 = s.q2 := rfl
@[simp] theorem State.clearFrame_len1 : s.clearFrame.len1 = s.len1 := rfl
@[simp] theorem State.clearFrame_len2 : s.clearFrame.len2 = s.len2 := rfl
@[simp] theorem State.clearFrame_fOut : s.clearFrame.fOut = s.fOut := rfl
@[simp] theorem State.clearFrame_aOut : s.clearFrame.aOut = s.aOut := rfl
@[simp] theorem State.clearFrame_ch : s.clearFrame.ch = s.ch := rfl
@[simp] theorem State.clearFrame_i : s.clearFrame.i = s.i := rfl
@[simp] theorem State.clearFrame_run : s.clearFrame.run = s.run := rfl
@[simp] theorem State.clearFrame_k : s.clearFrame.k = s.k := rfl
@[simp] theorem State.clearFrame_j : s.clearFrame.j = s.j := rfl
@[simp] theorem State.clearFrame_score : s.clearFrame.score = s.score := rfl
@[simp] theorem State.clearFrame_smax : s.clearFrame.smax = s.smax := rfl
@[simp] theorem State.clearFrame_imax : s.clearFrame.imax = s.imax := rfl
@[simp] theorem State.clearFrame_p0 : s.clearFrame.p0 = s.p0 := rfl
@[simp] theorem State.clearFrame_m : s.clearFrame.m = 0 := rfl
@[simp] theorem State.clearFrame_idx : s.clearFrame.idx = s.idx := rfl
@[simp] theorem State.clearFrame_prev : s.clearFrame.prev = none := rfl
@[simp] theorem State.clearFrame_hist : s.clearFrame.hist = 0 := rfl
@[simp] theorem State.clearFrame_wp : s.clearFrame.wp = hdr := rfl
@[simp] theorem State.clearFrame_bp : s.clearFrame.bp = 0 := rfl
@[simp] theorem State.clearFrame_nbits : s.clearFrame.nbits = 0 := rfl
@[simp] theorem State.clearFrame_sym : s.clearFrame.sym = s.sym := rfl
@[simp] theorem State.clearFrame_out : s.clearFrame.out = s.out := rfl
@[simp] theorem State.clearFrame_mid : s.clearFrame.mid = s.mid := rfl
@[simp] theorem State.clearFrame_blen : s.clearFrame.blen = s.blen := rfl
@[simp] theorem State.clearFrame_crc : s.clearFrame.crc = s.crc := rfl
@[simp] theorem State.clearFrame_fcs : s.clearFrame.fcs = s.fcs := rfl
@[simp] theorem State.clearFrame_record : s.clearFrame.record = s.record := rfl
@[simp] theorem State.clearFrame_sync : s.clearFrame.sync = s.sync := rfl
@[simp] theorem State.clearFrame_pol : s.clearFrame.pol = s.pol := rfl
@[simp] theorem State.clearFrame_short : s.clearFrame.short = s.short := rfl
@[simp] theorem State.clearFrame_crcOk : s.clearFrame.crcOk = s.crcOk := rfl
@[simp] theorem State.clearFrame_argCh : s.clearFrame.argCh = s.argCh := rfl
@[simp] theorem State.clearFrame_firX : s.clearFrame.firX = s.firX := rfl
@[simp] theorem State.clearFrame_firH : s.clearFrame.firH = s.firH := rfl
@[simp] theorem State.clearFrame_firN : s.clearFrame.firN = s.firN := rfl
@[simp] theorem State.clearFrame_firY : s.clearFrame.firY = s.firY := rfl
@[simp] theorem State.clearFrame_crcD : s.clearFrame.crcD = s.crcD := rfl
@[simp] theorem State.clearFrame_gbO : s.clearFrame.gbO = s.gbO := rfl
@[simp] theorem State.clearFrame_gbW : s.clearFrame.gbW = s.gbW := rfl
@[simp] theorem State.clearFrame_gbV : s.clearFrame.gbV = s.gbV := rfl

/-! ### `setIdx` -/

@[simp] theorem State.setIdx_cfg (a : Nat) : (s.setIdx a).cfg = s.cfg := rfl
@[simp] theorem State.setIdx_src (a : Nat) : (s.setIdx a).src = s.src := rfl
@[simp] theorem State.setIdx_srcClosed (a : Nat) : (s.setIdx a).srcClosed = s.srcClosed := rfl
@[simp] theorem State.setIdx_sink (a : Nat) : (s.setIdx a).sink = s.sink := rfl
@[simp] theorem State.setIdx_phase (a : Nat) : (s.setIdx a).phase = s.phase := rfl
@[simp] theorem State.setIdx_started (a : Nat) : (s.setIdx a).started = s.started := rfl
@[simp] theorem State.setIdx_fetch (a : Nat) : (s.setIdx a).fetch = s.fetch := rfl
@[simp] theorem State.setIdx_res (a : Nat) : (s.setIdx a).res = s.res := rfl
@[simp] theorem State.setIdx_resume (a : Nat) : (s.setIdx a).resume = s.resume := rfl
@[simp] theorem State.setIdx_raw (a : Nat) : (s.setIdx a).raw = s.raw := rfl
@[simp] theorem State.setIdx_rawEpoch (a : Nat) : (s.setIdx a).rawEpoch = s.rawEpoch := rfl
@[simp] theorem State.setIdx_buf (a : Nat) : (s.setIdx a).buf = s.buf := rfl
@[simp] theorem State.setIdx_epoch (a : Nat) : (s.setIdx a).epoch = s.epoch := rfl
@[simp] theorem State.setIdx_i1 (a : Nat) : (s.setIdx a).i1 = s.i1 := rfl
@[simp] theorem State.setIdx_q1 (a : Nat) : (s.setIdx a).q1 = s.q1 := rfl
@[simp] theorem State.setIdx_i2 (a : Nat) : (s.setIdx a).i2 = s.i2 := rfl
@[simp] theorem State.setIdx_q2 (a : Nat) : (s.setIdx a).q2 = s.q2 := rfl
@[simp] theorem State.setIdx_len1 (a : Nat) : (s.setIdx a).len1 = s.len1 := rfl
@[simp] theorem State.setIdx_len2 (a : Nat) : (s.setIdx a).len2 = s.len2 := rfl
@[simp] theorem State.setIdx_fOut (a : Nat) : (s.setIdx a).fOut = s.fOut := rfl
@[simp] theorem State.setIdx_aOut (a : Nat) : (s.setIdx a).aOut = s.aOut := rfl
@[simp] theorem State.setIdx_ch (a : Nat) : (s.setIdx a).ch = s.ch := rfl
@[simp] theorem State.setIdx_i (a : Nat) : (s.setIdx a).i = s.i := rfl
@[simp] theorem State.setIdx_run (a : Nat) : (s.setIdx a).run = s.run := rfl
@[simp] theorem State.setIdx_k (a : Nat) : (s.setIdx a).k = s.k := rfl
@[simp] theorem State.setIdx_j (a : Nat) : (s.setIdx a).j = s.j := rfl
@[simp] theorem State.setIdx_score (a : Nat) : (s.setIdx a).score = s.score := rfl
@[simp] theorem State.setIdx_smax (a : Nat) : (s.setIdx a).smax = s.smax := rfl
@[simp] theorem State.setIdx_imax (a : Nat) : (s.setIdx a).imax = s.imax := rfl
@[simp] theorem State.setIdx_p0 (a : Nat) : (s.setIdx a).p0 = s.p0 := rfl
@[simp] theorem State.setIdx_m (a : Nat) : (s.setIdx a).m = s.m := rfl
@[simp] theorem State.setIdx_idx (a : Nat) : (s.setIdx a).idx = a := rfl
@[simp] theorem State.setIdx_prev (a : Nat) : (s.setIdx a).prev = s.prev := rfl
@[simp] theorem State.setIdx_hist (a : Nat) : (s.setIdx a).hist = s.hist := rfl
@[simp] theorem State.setIdx_wp (a : Nat) : (s.setIdx a).wp = s.wp := rfl
@[simp] theorem State.setIdx_bp (a : Nat) : (s.setIdx a).bp = s.bp := rfl
@[simp] theorem State.setIdx_nbits (a : Nat) : (s.setIdx a).nbits = s.nbits := rfl
@[simp] theorem State.setIdx_sym (a : Nat) : (s.setIdx a).sym = s.sym := rfl
@[simp] theorem State.setIdx_out (a : Nat) : (s.setIdx a).out = s.out := rfl
@[simp] theorem State.setIdx_mid (a : Nat) : (s.setIdx a).mid = s.mid := rfl
@[simp] theorem State.setIdx_blen (a : Nat) : (s.setIdx a).blen = s.blen := rfl
@[simp] theorem State.setIdx_crc (a : Nat) : (s.setIdx a).crc = s.crc := rfl
@[simp] theorem State.setIdx_fcs (a : Nat) : (s.setIdx a).fcs = s.fcs := rfl
@[simp] theorem State.setIdx_record (a : Nat) : (s.setIdx a).record = s.record := rfl
@[simp] theorem State.setIdx_sync (a : Nat) : (s.setIdx a).sync = s.sync := rfl
@[simp] theorem State.setIdx_pol (a : Nat) : (s.setIdx a).pol = s.pol := rfl
@[simp] theorem State.setIdx_short (a : Nat) : (s.setIdx a).short = s.short := rfl
@[simp] theorem State.setIdx_crcOk (a : Nat) : (s.setIdx a).crcOk = s.crcOk := rfl
@[simp] theorem State.setIdx_argCh (a : Nat) : (s.setIdx a).argCh = s.argCh := rfl
@[simp] theorem State.setIdx_firX (a : Nat) : (s.setIdx a).firX = s.firX := rfl
@[simp] theorem State.setIdx_firH (a : Nat) : (s.setIdx a).firH = s.firH := rfl
@[simp] theorem State.setIdx_firN (a : Nat) : (s.setIdx a).firN = s.firN := rfl
@[simp] theorem State.setIdx_firY (a : Nat) : (s.setIdx a).firY = s.firY := rfl
@[simp] theorem State.setIdx_crcD (a : Nat) : (s.setIdx a).crcD = s.crcD := rfl
@[simp] theorem State.setIdx_gbO (a : Nat) : (s.setIdx a).gbO = s.gbO := rfl
@[simp] theorem State.setIdx_gbW (a : Nat) : (s.setIdx a).gbW = s.gbW := rfl
@[simp] theorem State.setIdx_gbV (a : Nat) : (s.setIdx a).gbV = s.gbV := rfl

/-! ### `takeSymbol` -/

@[simp] theorem State.takeSymbol_cfg (b : Bool) : (s.takeSymbol b).cfg = s.cfg := rfl
@[simp] theorem State.takeSymbol_src (b : Bool) : (s.takeSymbol b).src = s.src := rfl
@[simp] theorem State.takeSymbol_srcClosed (b : Bool) : (s.takeSymbol b).srcClosed = s.srcClosed := rfl
@[simp] theorem State.takeSymbol_sink (b : Bool) : (s.takeSymbol b).sink = s.sink := rfl
@[simp] theorem State.takeSymbol_phase (b : Bool) : (s.takeSymbol b).phase = s.phase := rfl
@[simp] theorem State.takeSymbol_started (b : Bool) : (s.takeSymbol b).started = s.started := rfl
@[simp] theorem State.takeSymbol_fetch (b : Bool) : (s.takeSymbol b).fetch = s.fetch := rfl
@[simp] theorem State.takeSymbol_res (b : Bool) : (s.takeSymbol b).res = s.res := rfl
@[simp] theorem State.takeSymbol_resume (b : Bool) : (s.takeSymbol b).resume = s.resume := rfl
@[simp] theorem State.takeSymbol_raw (b : Bool) : (s.takeSymbol b).raw = s.raw := rfl
@[simp] theorem State.takeSymbol_rawEpoch (b : Bool) : (s.takeSymbol b).rawEpoch = s.rawEpoch := rfl
@[simp] theorem State.takeSymbol_buf (b : Bool) : (s.takeSymbol b).buf = s.buf := rfl
@[simp] theorem State.takeSymbol_epoch (b : Bool) : (s.takeSymbol b).epoch = s.epoch := rfl
@[simp] theorem State.takeSymbol_i1 (b : Bool) : (s.takeSymbol b).i1 = s.i1 := rfl
@[simp] theorem State.takeSymbol_q1 (b : Bool) : (s.takeSymbol b).q1 = s.q1 := rfl
@[simp] theorem State.takeSymbol_i2 (b : Bool) : (s.takeSymbol b).i2 = s.i2 := rfl
@[simp] theorem State.takeSymbol_q2 (b : Bool) : (s.takeSymbol b).q2 = s.q2 := rfl
@[simp] theorem State.takeSymbol_len1 (b : Bool) : (s.takeSymbol b).len1 = s.len1 := rfl
@[simp] theorem State.takeSymbol_len2 (b : Bool) : (s.takeSymbol b).len2 = s.len2 := rfl
@[simp] theorem State.takeSymbol_fOut (b : Bool) : (s.takeSymbol b).fOut = s.fOut := rfl
@[simp] theorem State.takeSymbol_aOut (b : Bool) : (s.takeSymbol b).aOut = s.aOut := rfl
@[simp] theorem State.takeSymbol_ch (b : Bool) : (s.takeSymbol b).ch = s.ch := rfl
@[simp] theorem State.takeSymbol_i (b : Bool) : (s.takeSymbol b).i = s.i := rfl
@[simp] theorem State.takeSymbol_run (b : Bool) : (s.takeSymbol b).run = s.run := rfl
@[simp] theorem State.takeSymbol_k (b : Bool) : (s.takeSymbol b).k = s.k := rfl
@[simp] theorem State.takeSymbol_j (b : Bool) : (s.takeSymbol b).j = s.j := rfl
@[simp] theorem State.takeSymbol_score (b : Bool) : (s.takeSymbol b).score = s.score := rfl
@[simp] theorem State.takeSymbol_smax (b : Bool) : (s.takeSymbol b).smax = s.smax := rfl
@[simp] theorem State.takeSymbol_imax (b : Bool) : (s.takeSymbol b).imax = s.imax := rfl
@[simp] theorem State.takeSymbol_p0 (b : Bool) : (s.takeSymbol b).p0 = s.p0 := rfl
@[simp] theorem State.takeSymbol_m (b : Bool) : (s.takeSymbol b).m = s.m + 1 := rfl
@[simp] theorem State.takeSymbol_idx (b : Bool) : (s.takeSymbol b).idx = s.idx := rfl
@[simp] theorem State.takeSymbol_prev (b : Bool) : (s.takeSymbol b).prev = s.prev := rfl
@[simp] theorem State.takeSymbol_hist (b : Bool) : (s.takeSymbol b).hist = s.hist := rfl
@[simp] theorem State.takeSymbol_wp (b : Bool) : (s.takeSymbol b).wp = s.wp := rfl
@[simp] theorem State.takeSymbol_bp (b : Bool) : (s.takeSymbol b).bp = s.bp := rfl
@[simp] theorem State.takeSymbol_nbits (b : Bool) : (s.takeSymbol b).nbits = s.nbits := rfl
@[simp] theorem State.takeSymbol_sym (b : Bool) : (s.takeSymbol b).sym = b := rfl
@[simp] theorem State.takeSymbol_out (b : Bool) : (s.takeSymbol b).out = s.out := rfl
@[simp] theorem State.takeSymbol_mid (b : Bool) : (s.takeSymbol b).mid = s.mid := rfl
@[simp] theorem State.takeSymbol_blen (b : Bool) : (s.takeSymbol b).blen = s.blen := rfl
@[simp] theorem State.takeSymbol_crc (b : Bool) : (s.takeSymbol b).crc = s.crc := rfl
@[simp] theorem State.takeSymbol_fcs (b : Bool) : (s.takeSymbol b).fcs = s.fcs := rfl
@[simp] theorem State.takeSymbol_record (b : Bool) : (s.takeSymbol b).record = s.record := rfl
@[simp] theorem State.takeSymbol_sync (b : Bool) : (s.takeSymbol b).sync = s.sync := rfl
@[simp] theorem State.takeSymbol_pol (b : Bool) : (s.takeSymbol b).pol = s.pol := rfl
@[simp] theorem State.takeSymbol_short (b : Bool) : (s.takeSymbol b).short = s.short := rfl
@[simp] theorem State.takeSymbol_crcOk (b : Bool) : (s.takeSymbol b).crcOk = s.crcOk := rfl
@[simp] theorem State.takeSymbol_argCh (b : Bool) : (s.takeSymbol b).argCh = s.argCh := rfl
@[simp] theorem State.takeSymbol_firX (b : Bool) : (s.takeSymbol b).firX = s.firX := rfl
@[simp] theorem State.takeSymbol_firH (b : Bool) : (s.takeSymbol b).firH = s.firH := rfl
@[simp] theorem State.takeSymbol_firN (b : Bool) : (s.takeSymbol b).firN = s.firN := rfl
@[simp] theorem State.takeSymbol_firY (b : Bool) : (s.takeSymbol b).firY = s.firY := rfl
@[simp] theorem State.takeSymbol_crcD (b : Bool) : (s.takeSymbol b).crcD = s.crcD := rfl
@[simp] theorem State.takeSymbol_gbO (b : Bool) : (s.takeSymbol b).gbO = s.gbO := rfl
@[simp] theorem State.takeSymbol_gbW (b : Bool) : (s.takeSymbol b).gbW = s.gbW := rfl
@[simp] theorem State.takeSymbol_gbV (b : Bool) : (s.takeSymbol b).gbV = s.gbV := rfl

/-! ### `setOut` -/

@[simp] theorem State.setOut_cfg (b : Bool) : (s.setOut b).cfg = s.cfg := rfl
@[simp] theorem State.setOut_src (b : Bool) : (s.setOut b).src = s.src := rfl
@[simp] theorem State.setOut_srcClosed (b : Bool) : (s.setOut b).srcClosed = s.srcClosed := rfl
@[simp] theorem State.setOut_sink (b : Bool) : (s.setOut b).sink = s.sink := rfl
@[simp] theorem State.setOut_phase (b : Bool) : (s.setOut b).phase = s.phase := rfl
@[simp] theorem State.setOut_started (b : Bool) : (s.setOut b).started = s.started := rfl
@[simp] theorem State.setOut_fetch (b : Bool) : (s.setOut b).fetch = s.fetch := rfl
@[simp] theorem State.setOut_res (b : Bool) : (s.setOut b).res = s.res := rfl
@[simp] theorem State.setOut_resume (b : Bool) : (s.setOut b).resume = s.resume := rfl
@[simp] theorem State.setOut_raw (b : Bool) : (s.setOut b).raw = s.raw := rfl
@[simp] theorem State.setOut_rawEpoch (b : Bool) : (s.setOut b).rawEpoch = s.rawEpoch := rfl
@[simp] theorem State.setOut_buf (b : Bool) : (s.setOut b).buf = s.buf := rfl
@[simp] theorem State.setOut_epoch (b : Bool) : (s.setOut b).epoch = s.epoch := rfl
@[simp] theorem State.setOut_i1 (b : Bool) : (s.setOut b).i1 = s.i1 := rfl
@[simp] theorem State.setOut_q1 (b : Bool) : (s.setOut b).q1 = s.q1 := rfl
@[simp] theorem State.setOut_i2 (b : Bool) : (s.setOut b).i2 = s.i2 := rfl
@[simp] theorem State.setOut_q2 (b : Bool) : (s.setOut b).q2 = s.q2 := rfl
@[simp] theorem State.setOut_len1 (b : Bool) : (s.setOut b).len1 = s.len1 := rfl
@[simp] theorem State.setOut_len2 (b : Bool) : (s.setOut b).len2 = s.len2 := rfl
@[simp] theorem State.setOut_fOut (b : Bool) : (s.setOut b).fOut = s.fOut := rfl
@[simp] theorem State.setOut_aOut (b : Bool) : (s.setOut b).aOut = s.aOut := rfl
@[simp] theorem State.setOut_ch (b : Bool) : (s.setOut b).ch = s.ch := rfl
@[simp] theorem State.setOut_i (b : Bool) : (s.setOut b).i = s.i := rfl
@[simp] theorem State.setOut_run (b : Bool) : (s.setOut b).run = s.run := rfl
@[simp] theorem State.setOut_k (b : Bool) : (s.setOut b).k = s.k := rfl
@[simp] theorem State.setOut_j (b : Bool) : (s.setOut b).j = s.j := rfl
@[simp] theorem State.setOut_score (b : Bool) : (s.setOut b).score = s.score := rfl
@[simp] theorem State.setOut_smax (b : Bool) : (s.setOut b).smax = s.smax := rfl
@[simp] theorem State.setOut_imax (b : Bool) : (s.setOut b).imax = s.imax := rfl
@[simp] theorem State.setOut_p0 (b : Bool) : (s.setOut b).p0 = s.p0 := rfl
@[simp] theorem State.setOut_m (b : Bool) : (s.setOut b).m = s.m := rfl
@[simp] theorem State.setOut_idx (b : Bool) : (s.setOut b).idx = s.idx := rfl
@[simp] theorem State.setOut_prev (b : Bool) : (s.setOut b).prev = some s.sym := rfl
@[simp] theorem State.setOut_hist (b : Bool) : (s.setOut b).hist = s.hist := rfl
@[simp] theorem State.setOut_wp (b : Bool) : (s.setOut b).wp = s.wp := rfl
@[simp] theorem State.setOut_bp (b : Bool) : (s.setOut b).bp = s.bp := rfl
@[simp] theorem State.setOut_nbits (b : Bool) : (s.setOut b).nbits = s.nbits := rfl
@[simp] theorem State.setOut_sym (b : Bool) : (s.setOut b).sym = s.sym := rfl
@[simp] theorem State.setOut_out (b : Bool) : (s.setOut b).out = b := rfl
@[simp] theorem State.setOut_mid (b : Bool) : (s.setOut b).mid = s.mid := rfl
@[simp] theorem State.setOut_blen (b : Bool) : (s.setOut b).blen = s.blen := rfl
@[simp] theorem State.setOut_crc (b : Bool) : (s.setOut b).crc = s.crc := rfl
@[simp] theorem State.setOut_fcs (b : Bool) : (s.setOut b).fcs = s.fcs := rfl
@[simp] theorem State.setOut_record (b : Bool) : (s.setOut b).record = s.record := rfl
@[simp] theorem State.setOut_sync (b : Bool) : (s.setOut b).sync = s.sync := rfl
@[simp] theorem State.setOut_pol (b : Bool) : (s.setOut b).pol = s.pol := rfl
@[simp] theorem State.setOut_short (b : Bool) : (s.setOut b).short = s.short := rfl
@[simp] theorem State.setOut_crcOk (b : Bool) : (s.setOut b).crcOk = s.crcOk := rfl
@[simp] theorem State.setOut_argCh (b : Bool) : (s.setOut b).argCh = s.argCh := rfl
@[simp] theorem State.setOut_firX (b : Bool) : (s.setOut b).firX = s.firX := rfl
@[simp] theorem State.setOut_firH (b : Bool) : (s.setOut b).firH = s.firH := rfl
@[simp] theorem State.setOut_firN (b : Bool) : (s.setOut b).firN = s.firN := rfl
@[simp] theorem State.setOut_firY (b : Bool) : (s.setOut b).firY = s.firY := rfl
@[simp] theorem State.setOut_crcD (b : Bool) : (s.setOut b).crcD = s.crcD := rfl
@[simp] theorem State.setOut_gbO (b : Bool) : (s.setOut b).gbO = s.gbO := rfl
@[simp] theorem State.setOut_gbW (b : Bool) : (s.setOut b).gbW = s.gbW := rfl
@[simp] theorem State.setOut_gbV (b : Bool) : (s.setOut b).gbV = s.gbV := rfl

/-! ### `setHist` -/

@[simp] theorem State.setHist_cfg (h : BitVec 5) : (s.setHist h).cfg = s.cfg := rfl
@[simp] theorem State.setHist_src (h : BitVec 5) : (s.setHist h).src = s.src := rfl
@[simp] theorem State.setHist_srcClosed (h : BitVec 5) : (s.setHist h).srcClosed = s.srcClosed := rfl
@[simp] theorem State.setHist_sink (h : BitVec 5) : (s.setHist h).sink = s.sink := rfl
@[simp] theorem State.setHist_phase (h : BitVec 5) : (s.setHist h).phase = s.phase := rfl
@[simp] theorem State.setHist_started (h : BitVec 5) : (s.setHist h).started = s.started := rfl
@[simp] theorem State.setHist_fetch (h : BitVec 5) : (s.setHist h).fetch = s.fetch := rfl
@[simp] theorem State.setHist_res (h : BitVec 5) : (s.setHist h).res = s.res := rfl
@[simp] theorem State.setHist_resume (h : BitVec 5) : (s.setHist h).resume = s.resume := rfl
@[simp] theorem State.setHist_raw (h : BitVec 5) : (s.setHist h).raw = s.raw := rfl
@[simp] theorem State.setHist_rawEpoch (h : BitVec 5) : (s.setHist h).rawEpoch = s.rawEpoch := rfl
@[simp] theorem State.setHist_buf (h : BitVec 5) : (s.setHist h).buf = s.buf := rfl
@[simp] theorem State.setHist_epoch (h : BitVec 5) : (s.setHist h).epoch = s.epoch := rfl
@[simp] theorem State.setHist_i1 (h : BitVec 5) : (s.setHist h).i1 = s.i1 := rfl
@[simp] theorem State.setHist_q1 (h : BitVec 5) : (s.setHist h).q1 = s.q1 := rfl
@[simp] theorem State.setHist_i2 (h : BitVec 5) : (s.setHist h).i2 = s.i2 := rfl
@[simp] theorem State.setHist_q2 (h : BitVec 5) : (s.setHist h).q2 = s.q2 := rfl
@[simp] theorem State.setHist_len1 (h : BitVec 5) : (s.setHist h).len1 = s.len1 := rfl
@[simp] theorem State.setHist_len2 (h : BitVec 5) : (s.setHist h).len2 = s.len2 := rfl
@[simp] theorem State.setHist_fOut (h : BitVec 5) : (s.setHist h).fOut = s.fOut := rfl
@[simp] theorem State.setHist_aOut (h : BitVec 5) : (s.setHist h).aOut = s.aOut := rfl
@[simp] theorem State.setHist_ch (h : BitVec 5) : (s.setHist h).ch = s.ch := rfl
@[simp] theorem State.setHist_i (h : BitVec 5) : (s.setHist h).i = s.i := rfl
@[simp] theorem State.setHist_run (h : BitVec 5) : (s.setHist h).run = s.run := rfl
@[simp] theorem State.setHist_k (h : BitVec 5) : (s.setHist h).k = s.k := rfl
@[simp] theorem State.setHist_j (h : BitVec 5) : (s.setHist h).j = s.j := rfl
@[simp] theorem State.setHist_score (h : BitVec 5) : (s.setHist h).score = s.score := rfl
@[simp] theorem State.setHist_smax (h : BitVec 5) : (s.setHist h).smax = s.smax := rfl
@[simp] theorem State.setHist_imax (h : BitVec 5) : (s.setHist h).imax = s.imax := rfl
@[simp] theorem State.setHist_p0 (h : BitVec 5) : (s.setHist h).p0 = s.p0 := rfl
@[simp] theorem State.setHist_m (h : BitVec 5) : (s.setHist h).m = s.m := rfl
@[simp] theorem State.setHist_idx (h : BitVec 5) : (s.setHist h).idx = s.idx := rfl
@[simp] theorem State.setHist_prev (h : BitVec 5) : (s.setHist h).prev = s.prev := rfl
@[simp] theorem State.setHist_hist (h : BitVec 5) : (s.setHist h).hist = h := rfl
@[simp] theorem State.setHist_wp (h : BitVec 5) : (s.setHist h).wp = s.wp := rfl
@[simp] theorem State.setHist_bp (h : BitVec 5) : (s.setHist h).bp = s.bp := rfl
@[simp] theorem State.setHist_nbits (h : BitVec 5) : (s.setHist h).nbits = s.nbits := rfl
@[simp] theorem State.setHist_sym (h : BitVec 5) : (s.setHist h).sym = s.sym := rfl
@[simp] theorem State.setHist_out (h : BitVec 5) : (s.setHist h).out = s.out := rfl
@[simp] theorem State.setHist_mid (h : BitVec 5) : (s.setHist h).mid = s.mid := rfl
@[simp] theorem State.setHist_blen (h : BitVec 5) : (s.setHist h).blen = s.blen := rfl
@[simp] theorem State.setHist_crc (h : BitVec 5) : (s.setHist h).crc = s.crc := rfl
@[simp] theorem State.setHist_fcs (h : BitVec 5) : (s.setHist h).fcs = s.fcs := rfl
@[simp] theorem State.setHist_record (h : BitVec 5) : (s.setHist h).record = s.record := rfl
@[simp] theorem State.setHist_sync (h : BitVec 5) : (s.setHist h).sync = s.sync := rfl
@[simp] theorem State.setHist_pol (h : BitVec 5) : (s.setHist h).pol = s.pol := rfl
@[simp] theorem State.setHist_short (h : BitVec 5) : (s.setHist h).short = s.short := rfl
@[simp] theorem State.setHist_crcOk (h : BitVec 5) : (s.setHist h).crcOk = s.crcOk := rfl
@[simp] theorem State.setHist_argCh (h : BitVec 5) : (s.setHist h).argCh = s.argCh := rfl
@[simp] theorem State.setHist_firX (h : BitVec 5) : (s.setHist h).firX = s.firX := rfl
@[simp] theorem State.setHist_firH (h : BitVec 5) : (s.setHist h).firH = s.firH := rfl
@[simp] theorem State.setHist_firN (h : BitVec 5) : (s.setHist h).firN = s.firN := rfl
@[simp] theorem State.setHist_firY (h : BitVec 5) : (s.setHist h).firY = s.firY := rfl
@[simp] theorem State.setHist_crcD (h : BitVec 5) : (s.setHist h).crcD = s.crcD := rfl
@[simp] theorem State.setHist_gbO (h : BitVec 5) : (s.setHist h).gbO = s.gbO := rfl
@[simp] theorem State.setHist_gbW (h : BitVec 5) : (s.setHist h).gbW = s.gbW := rfl
@[simp] theorem State.setHist_gbV (h : BitVec 5) : (s.setHist h).gbV = s.gbV := rfl

/-! ### `countBit` -/

@[simp] theorem State.countBit_cfg : s.countBit.cfg = s.cfg := rfl
@[simp] theorem State.countBit_src : s.countBit.src = s.src := rfl
@[simp] theorem State.countBit_srcClosed : s.countBit.srcClosed = s.srcClosed := rfl
@[simp] theorem State.countBit_sink : s.countBit.sink = s.sink := rfl
@[simp] theorem State.countBit_phase : s.countBit.phase = s.phase := rfl
@[simp] theorem State.countBit_started : s.countBit.started = s.started := rfl
@[simp] theorem State.countBit_fetch : s.countBit.fetch = s.fetch := rfl
@[simp] theorem State.countBit_res : s.countBit.res = s.res := rfl
@[simp] theorem State.countBit_resume : s.countBit.resume = s.resume := rfl
@[simp] theorem State.countBit_raw : s.countBit.raw = s.raw := rfl
@[simp] theorem State.countBit_rawEpoch : s.countBit.rawEpoch = s.rawEpoch := rfl
@[simp] theorem State.countBit_buf : s.countBit.buf = s.buf := rfl
@[simp] theorem State.countBit_epoch : s.countBit.epoch = s.epoch := rfl
@[simp] theorem State.countBit_i1 : s.countBit.i1 = s.i1 := rfl
@[simp] theorem State.countBit_q1 : s.countBit.q1 = s.q1 := rfl
@[simp] theorem State.countBit_i2 : s.countBit.i2 = s.i2 := rfl
@[simp] theorem State.countBit_q2 : s.countBit.q2 = s.q2 := rfl
@[simp] theorem State.countBit_len1 : s.countBit.len1 = s.len1 := rfl
@[simp] theorem State.countBit_len2 : s.countBit.len2 = s.len2 := rfl
@[simp] theorem State.countBit_fOut : s.countBit.fOut = s.fOut := rfl
@[simp] theorem State.countBit_aOut : s.countBit.aOut = s.aOut := rfl
@[simp] theorem State.countBit_ch : s.countBit.ch = s.ch := rfl
@[simp] theorem State.countBit_i : s.countBit.i = s.i := rfl
@[simp] theorem State.countBit_run : s.countBit.run = s.run := rfl
@[simp] theorem State.countBit_k : s.countBit.k = s.k := rfl
@[simp] theorem State.countBit_j : s.countBit.j = s.j := rfl
@[simp] theorem State.countBit_score : s.countBit.score = s.score := rfl
@[simp] theorem State.countBit_smax : s.countBit.smax = s.smax := rfl
@[simp] theorem State.countBit_imax : s.countBit.imax = s.imax := rfl
@[simp] theorem State.countBit_p0 : s.countBit.p0 = s.p0 := rfl
@[simp] theorem State.countBit_m : s.countBit.m = s.m := rfl
@[simp] theorem State.countBit_idx : s.countBit.idx = s.idx := rfl
@[simp] theorem State.countBit_prev : s.countBit.prev = s.prev := rfl
@[simp] theorem State.countBit_hist : s.countBit.hist = s.hist := rfl
@[simp] theorem State.countBit_wp : s.countBit.wp = if s.bp + 1 = 8 then s.wp + 1 else s.wp := rfl
@[simp] theorem State.countBit_bp : s.countBit.bp = if s.bp + 1 = 8 then 0 else s.bp + 1 := rfl
@[simp] theorem State.countBit_nbits : s.countBit.nbits = s.nbits + 1 := rfl
@[simp] theorem State.countBit_sym : s.countBit.sym = s.sym := rfl
@[simp] theorem State.countBit_out : s.countBit.out = s.out := rfl
@[simp] theorem State.countBit_mid : s.countBit.mid = s.mid := rfl
@[simp] theorem State.countBit_blen : s.countBit.blen = s.blen := rfl
@[simp] theorem State.countBit_crc : s.countBit.crc = s.crc := rfl
@[simp] theorem State.countBit_fcs : s.countBit.fcs = s.fcs := rfl
@[simp] theorem State.countBit_record : s.countBit.record = s.record := rfl
@[simp] theorem State.countBit_sync : s.countBit.sync = s.sync := rfl
@[simp] theorem State.countBit_pol : s.countBit.pol = s.pol := rfl
@[simp] theorem State.countBit_short : s.countBit.short = s.short := rfl
@[simp] theorem State.countBit_crcOk : s.countBit.crcOk = s.crcOk := rfl
@[simp] theorem State.countBit_argCh : s.countBit.argCh = s.argCh := rfl
@[simp] theorem State.countBit_firX : s.countBit.firX = s.firX := rfl
@[simp] theorem State.countBit_firH : s.countBit.firH = s.firH := rfl
@[simp] theorem State.countBit_firN : s.countBit.firN = s.firN := rfl
@[simp] theorem State.countBit_firY : s.countBit.firY = s.firY := rfl
@[simp] theorem State.countBit_crcD : s.countBit.crcD = s.crcD := rfl
@[simp] theorem State.countBit_gbO : s.countBit.gbO = s.gbO := rfl
@[simp] theorem State.countBit_gbW : s.countBit.gbW = s.gbW := rfl
@[simp] theorem State.countBit_gbV : s.countBit.gbV = s.gbV := rfl

/-! ### `setFOut` -/

@[simp] theorem State.setFOut_cfg (y : List Int) : (s.setFOut y).cfg = s.cfg := rfl
@[simp] theorem State.setFOut_src (y : List Int) : (s.setFOut y).src = s.src := rfl
@[simp] theorem State.setFOut_srcClosed (y : List Int) : (s.setFOut y).srcClosed = s.srcClosed := rfl
@[simp] theorem State.setFOut_sink (y : List Int) : (s.setFOut y).sink = s.sink := rfl
@[simp] theorem State.setFOut_phase (y : List Int) : (s.setFOut y).phase = s.phase := rfl
@[simp] theorem State.setFOut_started (y : List Int) : (s.setFOut y).started = s.started := rfl
@[simp] theorem State.setFOut_fetch (y : List Int) : (s.setFOut y).fetch = s.fetch := rfl
@[simp] theorem State.setFOut_res (y : List Int) : (s.setFOut y).res = s.res := rfl
@[simp] theorem State.setFOut_resume (y : List Int) : (s.setFOut y).resume = s.resume := rfl
@[simp] theorem State.setFOut_raw (y : List Int) : (s.setFOut y).raw = s.raw := rfl
@[simp] theorem State.setFOut_rawEpoch (y : List Int) : (s.setFOut y).rawEpoch = s.rawEpoch := rfl
@[simp] theorem State.setFOut_buf (y : List Int) : (s.setFOut y).buf = s.buf := rfl
@[simp] theorem State.setFOut_epoch (y : List Int) : (s.setFOut y).epoch = s.epoch := rfl
@[simp] theorem State.setFOut_i1 (y : List Int) : (s.setFOut y).i1 = s.i1 := rfl
@[simp] theorem State.setFOut_q1 (y : List Int) : (s.setFOut y).q1 = s.q1 := rfl
@[simp] theorem State.setFOut_i2 (y : List Int) : (s.setFOut y).i2 = s.i2 := rfl
@[simp] theorem State.setFOut_q2 (y : List Int) : (s.setFOut y).q2 = s.q2 := rfl
@[simp] theorem State.setFOut_len1 (y : List Int) : (s.setFOut y).len1 = s.len1 := rfl
@[simp] theorem State.setFOut_len2 (y : List Int) : (s.setFOut y).len2 = s.len2 := rfl
@[simp] theorem State.setFOut_fOut (y : List Int) : (s.setFOut y).fOut = y := rfl
@[simp] theorem State.setFOut_aOut (y : List Int) : (s.setFOut y).aOut = s.aOut := rfl
@[simp] theorem State.setFOut_ch (y : List Int) : (s.setFOut y).ch = s.ch := rfl
@[simp] theorem State.setFOut_i (y : List Int) : (s.setFOut y).i = s.i := rfl
@[simp] theorem State.setFOut_run (y : List Int) : (s.setFOut y).run = s.run := rfl
@[simp] theorem State.setFOut_k (y : List Int) : (s.setFOut y).k = s.k := rfl
@[simp] theorem State.setFOut_j (y : List Int) : (s.setFOut y).j = s.j := rfl
@[simp] theorem State.setFOut_score (y : List Int) : (s.setFOut y).score = s.score := rfl
@[simp] theorem State.setFOut_smax (y : List Int) : (s.setFOut y).smax = s.smax := rfl
@[simp] theorem State.setFOut_imax (y : List Int) : (s.setFOut y).imax = s.imax := rfl
@[simp] theorem State.setFOut_p0 (y : List Int) : (s.setFOut y).p0 = s.p0 := rfl
@[simp] theorem State.setFOut_m (y : List Int) : (s.setFOut y).m = s.m := rfl
@[simp] theorem State.setFOut_idx (y : List Int) : (s.setFOut y).idx = s.idx := rfl
@[simp] theorem State.setFOut_prev (y : List Int) : (s.setFOut y).prev = s.prev := rfl
@[simp] theorem State.setFOut_hist (y : List Int) : (s.setFOut y).hist = s.hist := rfl
@[simp] theorem State.setFOut_wp (y : List Int) : (s.setFOut y).wp = s.wp := rfl
@[simp] theorem State.setFOut_bp (y : List Int) : (s.setFOut y).bp = s.bp := rfl
@[simp] theorem State.setFOut_nbits (y : List Int) : (s.setFOut y).nbits = s.nbits := rfl
@[simp] theorem State.setFOut_sym (y : List Int) : (s.setFOut y).sym = s.sym := rfl
@[simp] theorem State.setFOut_out (y : List Int) : (s.setFOut y).out = s.out := rfl
@[simp] theorem State.setFOut_mid (y : List Int) : (s.setFOut y).mid = s.mid := rfl
@[simp] theorem State.setFOut_blen (y : List Int) : (s.setFOut y).blen = s.blen := rfl
@[simp] theorem State.setFOut_crc (y : List Int) : (s.setFOut y).crc = s.crc := rfl
@[simp] theorem State.setFOut_fcs (y : List Int) : (s.setFOut y).fcs = s.fcs := rfl
@[simp] theorem State.setFOut_record (y : List Int) : (s.setFOut y).record = s.record := rfl
@[simp] theorem State.setFOut_sync (y : List Int) : (s.setFOut y).sync = s.sync := rfl
@[simp] theorem State.setFOut_pol (y : List Int) : (s.setFOut y).pol = s.pol := rfl
@[simp] theorem State.setFOut_short (y : List Int) : (s.setFOut y).short = s.short := rfl
@[simp] theorem State.setFOut_crcOk (y : List Int) : (s.setFOut y).crcOk = s.crcOk := rfl
@[simp] theorem State.setFOut_argCh (y : List Int) : (s.setFOut y).argCh = s.argCh := rfl
@[simp] theorem State.setFOut_firX (y : List Int) : (s.setFOut y).firX = s.firX := rfl
@[simp] theorem State.setFOut_firH (y : List Int) : (s.setFOut y).firH = s.firH := rfl
@[simp] theorem State.setFOut_firN (y : List Int) : (s.setFOut y).firN = s.firN := rfl
@[simp] theorem State.setFOut_firY (y : List Int) : (s.setFOut y).firY = s.firY := rfl
@[simp] theorem State.setFOut_crcD (y : List Int) : (s.setFOut y).crcD = s.crcD := rfl
@[simp] theorem State.setFOut_gbO (y : List Int) : (s.setFOut y).gbO = s.gbO := rfl
@[simp] theorem State.setFOut_gbW (y : List Int) : (s.setFOut y).gbW = s.gbW := rfl
@[simp] theorem State.setFOut_gbV (y : List Int) : (s.setFOut y).gbV = s.gbV := rfl

/-! ### `setAOut` -/

@[simp] theorem State.setAOut_cfg (y : List Int) : (s.setAOut y).cfg = s.cfg := rfl
@[simp] theorem State.setAOut_src (y : List Int) : (s.setAOut y).src = s.src := rfl
@[simp] theorem State.setAOut_srcClosed (y : List Int) : (s.setAOut y).srcClosed = s.srcClosed := rfl
@[simp] theorem State.setAOut_sink (y : List Int) : (s.setAOut y).sink = s.sink := rfl
@[simp] theorem State.setAOut_phase (y : List Int) : (s.setAOut y).phase = s.phase := rfl
@[simp] theorem State.setAOut_started (y : List Int) : (s.setAOut y).started = s.started := rfl
@[simp] theorem State.setAOut_fetch (y : List Int) : (s.setAOut y).fetch = s.fetch := rfl
@[simp] theorem State.setAOut_res (y : List Int) : (s.setAOut y).res = s.res := rfl
@[simp] theorem State.setAOut_resume (y : List Int) : (s.setAOut y).resume = s.resume := rfl
@[simp] theorem State.setAOut_raw (y : List Int) : (s.setAOut y).raw = s.raw := rfl
@[simp] theorem State.setAOut_rawEpoch (y : List Int) : (s.setAOut y).rawEpoch = s.rawEpoch := rfl
@[simp] theorem State.setAOut_buf (y : List Int) : (s.setAOut y).buf = s.buf := rfl
@[simp] theorem State.setAOut_epoch (y : List Int) : (s.setAOut y).epoch = s.epoch := rfl
@[simp] theorem State.setAOut_i1 (y : List Int) : (s.setAOut y).i1 = s.i1 := rfl
@[simp] theorem State.setAOut_q1 (y : List Int) : (s.setAOut y).q1 = s.q1 := rfl
@[simp] theorem State.setAOut_i2 (y : List Int) : (s.setAOut y).i2 = s.i2 := rfl
@[simp] theorem State.setAOut_q2 (y : List Int) : (s.setAOut y).q2 = s.q2 := rfl
@[simp] theorem State.setAOut_len1 (y : List Int) : (s.setAOut y).len1 = s.len1 := rfl
@[simp] theorem State.setAOut_len2 (y : List Int) : (s.setAOut y).len2 = s.len2 := rfl
@[simp] theorem State.setAOut_fOut (y : List Int) : (s.setAOut y).fOut = s.fOut := rfl
@[simp] theorem State.setAOut_aOut (y : List Int) : (s.setAOut y).aOut = y := rfl
@[simp] theorem State.setAOut_ch (y : List Int) : (s.setAOut y).ch = s.ch := rfl
@[simp] theorem State.setAOut_i (y : List Int) : (s.setAOut y).i = s.i := rfl
@[simp] theorem State.setAOut_run (y : List Int) : (s.setAOut y).run = s.run := rfl
@[simp] theorem State.setAOut_k (y : List Int) : (s.setAOut y).k = s.k := rfl
@[simp] theorem State.setAOut_j (y : List Int) : (s.setAOut y).j = s.j := rfl
@[simp] theorem State.setAOut_score (y : List Int) : (s.setAOut y).score = s.score := rfl
@[simp] theorem State.setAOut_smax (y : List Int) : (s.setAOut y).smax = s.smax := rfl
@[simp] theorem State.setAOut_imax (y : List Int) : (s.setAOut y).imax = s.imax := rfl
@[simp] theorem State.setAOut_p0 (y : List Int) : (s.setAOut y).p0 = s.p0 := rfl
@[simp] theorem State.setAOut_m (y : List Int) : (s.setAOut y).m = s.m := rfl
@[simp] theorem State.setAOut_idx (y : List Int) : (s.setAOut y).idx = s.idx := rfl
@[simp] theorem State.setAOut_prev (y : List Int) : (s.setAOut y).prev = s.prev := rfl
@[simp] theorem State.setAOut_hist (y : List Int) : (s.setAOut y).hist = s.hist := rfl
@[simp] theorem State.setAOut_wp (y : List Int) : (s.setAOut y).wp = s.wp := rfl
@[simp] theorem State.setAOut_bp (y : List Int) : (s.setAOut y).bp = s.bp := rfl
@[simp] theorem State.setAOut_nbits (y : List Int) : (s.setAOut y).nbits = s.nbits := rfl
@[simp] theorem State.setAOut_sym (y : List Int) : (s.setAOut y).sym = s.sym := rfl
@[simp] theorem State.setAOut_out (y : List Int) : (s.setAOut y).out = s.out := rfl
@[simp] theorem State.setAOut_mid (y : List Int) : (s.setAOut y).mid = s.mid := rfl
@[simp] theorem State.setAOut_blen (y : List Int) : (s.setAOut y).blen = s.blen := rfl
@[simp] theorem State.setAOut_crc (y : List Int) : (s.setAOut y).crc = s.crc := rfl
@[simp] theorem State.setAOut_fcs (y : List Int) : (s.setAOut y).fcs = s.fcs := rfl
@[simp] theorem State.setAOut_record (y : List Int) : (s.setAOut y).record = s.record := rfl
@[simp] theorem State.setAOut_sync (y : List Int) : (s.setAOut y).sync = s.sync := rfl
@[simp] theorem State.setAOut_pol (y : List Int) : (s.setAOut y).pol = s.pol := rfl
@[simp] theorem State.setAOut_short (y : List Int) : (s.setAOut y).short = s.short := rfl
@[simp] theorem State.setAOut_crcOk (y : List Int) : (s.setAOut y).crcOk = s.crcOk := rfl
@[simp] theorem State.setAOut_argCh (y : List Int) : (s.setAOut y).argCh = s.argCh := rfl
@[simp] theorem State.setAOut_firX (y : List Int) : (s.setAOut y).firX = s.firX := rfl
@[simp] theorem State.setAOut_firH (y : List Int) : (s.setAOut y).firH = s.firH := rfl
@[simp] theorem State.setAOut_firN (y : List Int) : (s.setAOut y).firN = s.firN := rfl
@[simp] theorem State.setAOut_firY (y : List Int) : (s.setAOut y).firY = s.firY := rfl
@[simp] theorem State.setAOut_crcD (y : List Int) : (s.setAOut y).crcD = s.crcD := rfl
@[simp] theorem State.setAOut_gbO (y : List Int) : (s.setAOut y).gbO = s.gbO := rfl
@[simp] theorem State.setAOut_gbW (y : List Int) : (s.setAOut y).gbW = s.gbW := rfl
@[simp] theorem State.setAOut_gbV (y : List Int) : (s.setAOut y).gbV = s.gbV := rfl

/-! ### `setFirY` -/

@[simp] theorem State.setFirY_cfg (y : Int) : (s.setFirY y).cfg = s.cfg := rfl
@[simp] theorem State.setFirY_src (y : Int) : (s.setFirY y).src = s.src := rfl
@[simp] theorem State.setFirY_srcClosed (y : Int) : (s.setFirY y).srcClosed = s.srcClosed := rfl
@[simp] theorem State.setFirY_sink (y : Int) : (s.setFirY y).sink = s.sink := rfl
@[simp] theorem State.setFirY_phase (y : Int) : (s.setFirY y).phase = s.phase := rfl
@[simp] theorem State.setFirY_started (y : Int) : (s.setFirY y).started = s.started := rfl
@[simp] theorem State.setFirY_fetch (y : Int) : (s.setFirY y).fetch = s.fetch := rfl
@[simp] theorem State.setFirY_res (y : Int) : (s.setFirY y).res = s.res := rfl
@[simp] theorem State.setFirY_resume (y : Int) : (s.setFirY y).resume = s.resume := rfl
@[simp] theorem State.setFirY_raw (y : Int) : (s.setFirY y).raw = s.raw := rfl
@[simp] theorem State.setFirY_rawEpoch (y : Int) : (s.setFirY y).rawEpoch = s.rawEpoch := rfl
@[simp] theorem State.setFirY_buf (y : Int) : (s.setFirY y).buf = s.buf := rfl
@[simp] theorem State.setFirY_epoch (y : Int) : (s.setFirY y).epoch = s.epoch := rfl
@[simp] theorem State.setFirY_i1 (y : Int) : (s.setFirY y).i1 = s.i1 := rfl
@[simp] theorem State.setFirY_q1 (y : Int) : (s.setFirY y).q1 = s.q1 := rfl
@[simp] theorem State.setFirY_i2 (y : Int) : (s.setFirY y).i2 = s.i2 := rfl
@[simp] theorem State.setFirY_q2 (y : Int) : (s.setFirY y).q2 = s.q2 := rfl
@[simp] theorem State.setFirY_len1 (y : Int) : (s.setFirY y).len1 = s.len1 := rfl
@[simp] theorem State.setFirY_len2 (y : Int) : (s.setFirY y).len2 = s.len2 := rfl
@[simp] theorem State.setFirY_fOut (y : Int) : (s.setFirY y).fOut = s.fOut := rfl
@[simp] theorem State.setFirY_aOut (y : Int) : (s.setFirY y).aOut = s.aOut := rfl
@[simp] theorem State.setFirY_ch (y : Int) : (s.setFirY y).ch = s.ch := rfl
@[simp] theorem State.setFirY_i (y : Int) : (s.setFirY y).i = s.i := rfl
@[simp] theorem State.setFirY_run (y : Int) : (s.setFirY y).run = s.run := rfl
@[simp] theorem State.setFirY_k (y : Int) : (s.setFirY y).k = s.k := rfl
@[simp] theorem State.setFirY_j (y : Int) : (s.setFirY y).j = s.j := rfl
@[simp] theorem State.setFirY_score (y : Int) : (s.setFirY y).score = s.score := rfl
@[simp] theorem State.setFirY_smax (y : Int) : (s.setFirY y).smax = s.smax := rfl
@[simp] theorem State.setFirY_imax (y : Int) : (s.setFirY y).imax = s.imax := rfl
@[simp] theorem State.setFirY_p0 (y : Int) : (s.setFirY y).p0 = s.p0 := rfl
@[simp] theorem State.setFirY_m (y : Int) : (s.setFirY y).m = s.m := rfl
@[simp] theorem State.setFirY_idx (y : Int) : (s.setFirY y).idx = s.idx := rfl
@[simp] theorem State.setFirY_prev (y : Int) : (s.setFirY y).prev = s.prev := rfl
@[simp] theorem State.setFirY_hist (y : Int) : (s.setFirY y).hist = s.hist := rfl
@[simp] theorem State.setFirY_wp (y : Int) : (s.setFirY y).wp = s.wp := rfl
@[simp] theorem State.setFirY_bp (y : Int) : (s.setFirY y).bp = s.bp := rfl
@[simp] theorem State.setFirY_nbits (y : Int) : (s.setFirY y).nbits = s.nbits := rfl
@[simp] theorem State.setFirY_sym (y : Int) : (s.setFirY y).sym = s.sym := rfl
@[simp] theorem State.setFirY_out (y : Int) : (s.setFirY y).out = s.out := rfl
@[simp] theorem State.setFirY_mid (y : Int) : (s.setFirY y).mid = s.mid := rfl
@[simp] theorem State.setFirY_blen (y : Int) : (s.setFirY y).blen = s.blen := rfl
@[simp] theorem State.setFirY_crc (y : Int) : (s.setFirY y).crc = s.crc := rfl
@[simp] theorem State.setFirY_fcs (y : Int) : (s.setFirY y).fcs = s.fcs := rfl
@[simp] theorem State.setFirY_record (y : Int) : (s.setFirY y).record = s.record := rfl
@[simp] theorem State.setFirY_sync (y : Int) : (s.setFirY y).sync = s.sync := rfl
@[simp] theorem State.setFirY_pol (y : Int) : (s.setFirY y).pol = s.pol := rfl
@[simp] theorem State.setFirY_short (y : Int) : (s.setFirY y).short = s.short := rfl
@[simp] theorem State.setFirY_crcOk (y : Int) : (s.setFirY y).crcOk = s.crcOk := rfl
@[simp] theorem State.setFirY_argCh (y : Int) : (s.setFirY y).argCh = s.argCh := rfl
@[simp] theorem State.setFirY_firX (y : Int) : (s.setFirY y).firX = s.firX := rfl
@[simp] theorem State.setFirY_firH (y : Int) : (s.setFirY y).firH = s.firH := rfl
@[simp] theorem State.setFirY_firN (y : Int) : (s.setFirY y).firN = s.firN := rfl
@[simp] theorem State.setFirY_firY (y : Int) : (s.setFirY y).firY = y := rfl
@[simp] theorem State.setFirY_crcD (y : Int) : (s.setFirY y).crcD = s.crcD := rfl
@[simp] theorem State.setFirY_gbO (y : Int) : (s.setFirY y).gbO = s.gbO := rfl
@[simp] theorem State.setFirY_gbW (y : Int) : (s.setFirY y).gbW = s.gbW := rfl
@[simp] theorem State.setFirY_gbV (y : Int) : (s.setFirY y).gbV = s.gbV := rfl

/-! ### `setGate` -/

@[simp] theorem State.setGate_cfg (i run : Nat) : (s.setGate i run).cfg = s.cfg := rfl
@[simp] theorem State.setGate_src (i run : Nat) : (s.setGate i run).src = s.src := rfl
@[simp] theorem State.setGate_srcClosed (i run : Nat) : (s.setGate i run).srcClosed = s.srcClosed := rfl
@[simp] theorem State.setGate_sink (i run : Nat) : (s.setGate i run).sink = s.sink := rfl
@[simp] theorem State.setGate_phase (i run : Nat) : (s.setGate i run).phase = s.phase := rfl
@[simp] theorem State.setGate_started (i run : Nat) : (s.setGate i run).started = s.started := rfl
@[simp] theorem State.setGate_fetch (i run : Nat) : (s.setGate i run).fetch = s.fetch := rfl
@[simp] theorem State.setGate_res (i run : Nat) : (s.setGate i run).res = s.res := rfl
@[simp] theorem State.setGate_resume (i run : Nat) : (s.setGate i run).resume = s.resume := rfl
@[simp] theorem State.setGate_raw (i run : Nat) : (s.setGate i run).raw = s.raw := rfl
@[simp] theorem State.setGate_rawEpoch (i run : Nat) : (s.setGate i run).rawEpoch = s.rawEpoch := rfl
@[simp] theorem State.setGate_buf (i run : Nat) : (s.setGate i run).buf = s.buf := rfl
@[simp] theorem State.setGate_epoch (i run : Nat) : (s.setGate i run).epoch = s.epoch := rfl
@[simp] theorem State.setGate_i1 (i run : Nat) : (s.setGate i run).i1 = s.i1 := rfl
@[simp] theorem State.setGate_q1 (i run : Nat) : (s.setGate i run).q1 = s.q1 := rfl
@[simp] theorem State.setGate_i2 (i run : Nat) : (s.setGate i run).i2 = s.i2 := rfl
@[simp] theorem State.setGate_q2 (i run : Nat) : (s.setGate i run).q2 = s.q2 := rfl
@[simp] theorem State.setGate_len1 (i run : Nat) : (s.setGate i run).len1 = s.len1 := rfl
@[simp] theorem State.setGate_len2 (i run : Nat) : (s.setGate i run).len2 = s.len2 := rfl
@[simp] theorem State.setGate_fOut (i run : Nat) : (s.setGate i run).fOut = s.fOut := rfl
@[simp] theorem State.setGate_aOut (i run : Nat) : (s.setGate i run).aOut = s.aOut := rfl
@[simp] theorem State.setGate_ch (i run : Nat) : (s.setGate i run).ch = s.ch := rfl
@[simp] theorem State.setGate_i (i run : Nat) : (s.setGate i run).i = i := rfl
@[simp] theorem State.setGate_run (i run : Nat) : (s.setGate i run).run = run := rfl
@[simp] theorem State.setGate_k (i run : Nat) : (s.setGate i run).k = s.k := rfl
@[simp] theorem State.setGate_j (i run : Nat) : (s.setGate i run).j = s.j := rfl
@[simp] theorem State.setGate_score (i run : Nat) : (s.setGate i run).score = s.score := rfl
@[simp] theorem State.setGate_smax (i run : Nat) : (s.setGate i run).smax = s.smax := rfl
@[simp] theorem State.setGate_imax (i run : Nat) : (s.setGate i run).imax = s.imax := rfl
@[simp] theorem State.setGate_p0 (i run : Nat) : (s.setGate i run).p0 = s.p0 := rfl
@[simp] theorem State.setGate_m (i run : Nat) : (s.setGate i run).m = s.m := rfl
@[simp] theorem State.setGate_idx (i run : Nat) : (s.setGate i run).idx = s.idx := rfl
@[simp] theorem State.setGate_prev (i run : Nat) : (s.setGate i run).prev = s.prev := rfl
@[simp] theorem State.setGate_hist (i run : Nat) : (s.setGate i run).hist = s.hist := rfl
@[simp] theorem State.setGate_wp (i run : Nat) : (s.setGate i run).wp = s.wp := rfl
@[simp] theorem State.setGate_bp (i run : Nat) : (s.setGate i run).bp = s.bp := rfl
@[simp] theorem State.setGate_nbits (i run : Nat) : (s.setGate i run).nbits = s.nbits := rfl
@[simp] theorem State.setGate_sym (i run : Nat) : (s.setGate i run).sym = s.sym := rfl
@[simp] theorem State.setGate_out (i run : Nat) : (s.setGate i run).out = s.out := rfl
@[simp] theorem State.setGate_mid (i run : Nat) : (s.setGate i run).mid = s.mid := rfl
@[simp] theorem State.setGate_blen (i run : Nat) : (s.setGate i run).blen = s.blen := rfl
@[simp] theorem State.setGate_crc (i run : Nat) : (s.setGate i run).crc = s.crc := rfl
@[simp] theorem State.setGate_fcs (i run : Nat) : (s.setGate i run).fcs = s.fcs := rfl
@[simp] theorem State.setGate_record (i run : Nat) : (s.setGate i run).record = s.record := rfl
@[simp] theorem State.setGate_sync (i run : Nat) : (s.setGate i run).sync = s.sync := rfl
@[simp] theorem State.setGate_pol (i run : Nat) : (s.setGate i run).pol = s.pol := rfl
@[simp] theorem State.setGate_short (i run : Nat) : (s.setGate i run).short = s.short := rfl
@[simp] theorem State.setGate_crcOk (i run : Nat) : (s.setGate i run).crcOk = s.crcOk := rfl
@[simp] theorem State.setGate_argCh (i run : Nat) : (s.setGate i run).argCh = s.argCh := rfl
@[simp] theorem State.setGate_firX (i run : Nat) : (s.setGate i run).firX = s.firX := rfl
@[simp] theorem State.setGate_firH (i run : Nat) : (s.setGate i run).firH = s.firH := rfl
@[simp] theorem State.setGate_firN (i run : Nat) : (s.setGate i run).firN = s.firN := rfl
@[simp] theorem State.setGate_firY (i run : Nat) : (s.setGate i run).firY = s.firY := rfl
@[simp] theorem State.setGate_crcD (i run : Nat) : (s.setGate i run).crcD = s.crcD := rfl
@[simp] theorem State.setGate_gbO (i run : Nat) : (s.setGate i run).gbO = s.gbO := rfl
@[simp] theorem State.setGate_gbW (i run : Nat) : (s.setGate i run).gbW = s.gbW := rfl
@[simp] theorem State.setGate_gbV (i run : Nat) : (s.setGate i run).gbV = s.gbV := rfl

/-! ### `setCorr` -/

@[simp] theorem State.setCorr_cfg (r : CorrRegs) : (s.setCorr r).cfg = s.cfg := rfl
@[simp] theorem State.setCorr_src (r : CorrRegs) : (s.setCorr r).src = s.src := rfl
@[simp] theorem State.setCorr_srcClosed (r : CorrRegs) : (s.setCorr r).srcClosed = s.srcClosed := rfl
@[simp] theorem State.setCorr_sink (r : CorrRegs) : (s.setCorr r).sink = s.sink := rfl
@[simp] theorem State.setCorr_phase (r : CorrRegs) : (s.setCorr r).phase = s.phase := rfl
@[simp] theorem State.setCorr_started (r : CorrRegs) : (s.setCorr r).started = s.started := rfl
@[simp] theorem State.setCorr_fetch (r : CorrRegs) : (s.setCorr r).fetch = s.fetch := rfl
@[simp] theorem State.setCorr_res (r : CorrRegs) : (s.setCorr r).res = s.res := rfl
@[simp] theorem State.setCorr_resume (r : CorrRegs) : (s.setCorr r).resume = s.resume := rfl
@[simp] theorem State.setCorr_raw (r : CorrRegs) : (s.setCorr r).raw = s.raw := rfl
@[simp] theorem State.setCorr_rawEpoch (r : CorrRegs) : (s.setCorr r).rawEpoch = s.rawEpoch := rfl
@[simp] theorem State.setCorr_buf (r : CorrRegs) : (s.setCorr r).buf = s.buf := rfl
@[simp] theorem State.setCorr_epoch (r : CorrRegs) : (s.setCorr r).epoch = s.epoch := rfl
@[simp] theorem State.setCorr_i1 (r : CorrRegs) : (s.setCorr r).i1 = s.i1 := rfl
@[simp] theorem State.setCorr_q1 (r : CorrRegs) : (s.setCorr r).q1 = s.q1 := rfl
@[simp] theorem State.setCorr_i2 (r : CorrRegs) : (s.setCorr r).i2 = s.i2 := rfl
@[simp] theorem State.setCorr_q2 (r : CorrRegs) : (s.setCorr r).q2 = s.q2 := rfl
@[simp] theorem State.setCorr_len1 (r : CorrRegs) : (s.setCorr r).len1 = s.len1 := rfl
@[simp] theorem State.setCorr_len2 (r : CorrRegs) : (s.setCorr r).len2 = s.len2 := rfl
@[simp] theorem State.setCorr_fOut (r : CorrRegs) : (s.setCorr r).fOut = s.fOut := rfl
@[simp] theorem State.setCorr_aOut (r : CorrRegs) : (s.setCorr r).aOut = s.aOut := rfl
@[simp] theorem State.setCorr_ch (r : CorrRegs) : (s.setCorr r).ch = s.ch := rfl
@[simp] theorem State.setCorr_i (r : CorrRegs) : (s.setCorr r).i = s.i := rfl
@[simp] theorem State.setCorr_run (r : CorrRegs) : (s.setCorr r).run = s.run := rfl
@[simp] theorem State.setCorr_k (r : CorrRegs) : (s.setCorr r).k = r.k := rfl
@[simp] theorem State.setCorr_j (r : CorrRegs) : (s.setCorr r).j = r.j := rfl
@[simp] theorem State.setCorr_score (r : CorrRegs) : (s.setCorr r).score = r.s := rfl
@[simp] theorem State.setCorr_smax (r : CorrRegs) : (s.setCorr r).smax = r.smax := rfl
@[simp] theorem State.setCorr_imax (r : CorrRegs) : (s.setCorr r).imax = r.imax := rfl
@[simp] theorem State.setCorr_p0 (r : CorrRegs) : (s.setCorr r).p0 = s.p0 := rfl
@[simp] theorem State.setCorr_m (r : CorrRegs) : (s.setCorr r).m = s.m := rfl
@[simp] theorem State.setCorr_idx (r : CorrRegs) : (s.setCorr r).idx = s.idx := rfl
@[simp] theorem State.setCorr_prev (r : CorrRegs) : (s.setCorr r).prev = s.prev := rfl
@[simp] theorem State.setCorr_hist (r : CorrRegs) : (s.setCorr r).hist = s.hist := rfl
@[simp] theorem State.setCorr_wp (r : CorrRegs) : (s.setCorr r).wp = s.wp := rfl
@[simp] theorem State.setCorr_bp (r : CorrRegs) : (s.setCorr r).bp = s.bp := rfl
@[simp] theorem State.setCorr_nbits (r : CorrRegs) : (s.setCorr r).nbits = s.nbits := rfl
@[simp] theorem State.setCorr_sym (r : CorrRegs) : (s.setCorr r).sym = s.sym := rfl
@[simp] theorem State.setCorr_out (r : CorrRegs) : (s.setCorr r).out = s.out := rfl
@[simp] theorem State.setCorr_mid (r : CorrRegs) : (s.setCorr r).mid = s.mid := rfl
@[simp] theorem State.setCorr_blen (r : CorrRegs) : (s.setCorr r).blen = s.blen := rfl
@[simp] theorem State.setCorr_crc (r : CorrRegs) : (s.setCorr r).crc = s.crc := rfl
@[simp] theorem State.setCorr_fcs (r : CorrRegs) : (s.setCorr r).fcs = s.fcs := rfl
@[simp] theorem State.setCorr_record (r : CorrRegs) : (s.setCorr r).record = s.record := rfl
@[simp] theorem State.setCorr_sync (r : CorrRegs) : (s.setCorr r).sync = syncFlag r.smax := rfl
@[simp] theorem State.setCorr_pol (r : CorrRegs) : (s.setCorr r).pol = polFlag s.pol r.smax := rfl
@[simp] theorem State.setCorr_short (r : CorrRegs) : (s.setCorr r).short = s.short := rfl
@[simp] theorem State.setCorr_crcOk (r : CorrRegs) : (s.setCorr r).crcOk = s.crcOk := rfl
@[simp] theorem State.setCorr_argCh (r : CorrRegs) : (s.setCorr r).argCh = s.argCh := rfl
@[simp] theorem State.setCorr_firX (r : CorrRegs) : (s.setCorr r).firX = s.firX := rfl
@[simp] theorem State.setCorr_firH (r : CorrRegs) : (s.setCorr r).firH = s.firH := rfl
@[simp] theorem State.setCorr_firN (r : CorrRegs) : (s.setCorr r).firN = s.firN := rfl
@[simp] theorem State.setCorr_firY (r : CorrRegs) : (s.setCorr r).firY = s.firY := rfl
@[simp] theorem State.setCorr_crcD (r : CorrRegs) : (s.setCorr r).crcD = s.crcD := rfl
@[simp] theorem State.setCorr_gbO (r : CorrRegs) : (s.setCorr r).gbO = s.gbO := rfl
@[simp] theorem State.setCorr_gbW (r : CorrRegs) : (s.setCorr r).gbW = s.gbW := rfl
@[simp] theorem State.setCorr_gbV (r : CorrRegs) : (s.setCorr r).gbV = s.gbV := rfl

/-! ### `setP0` -/

@[simp] theorem State.setP0_cfg (a : Nat) : (s.setP0 a).cfg = s.cfg := rfl
@[simp] theorem State.setP0_src (a : Nat) : (s.setP0 a).src = s.src := rfl
@[simp] theorem State.setP0_srcClosed (a : Nat) : (s.setP0 a).srcClosed = s.srcClosed := rfl
@[simp] theorem State.setP0_sink (a : Nat) : (s.setP0 a).sink = s.sink := rfl
@[simp] theorem State.setP0_phase (a : Nat) : (s.setP0 a).phase = s.phase := rfl
@[simp] theorem State.setP0_started (a : Nat) : (s.setP0 a).started = s.started := rfl
@[simp] theorem State.setP0_fetch (a : Nat) : (s.setP0 a).fetch = s.fetch := rfl
@[simp] theorem State.setP0_res (a : Nat) : (s.setP0 a).res = s.res := rfl
@[simp] theorem State.setP0_resume (a : Nat) : (s.setP0 a).resume = s.resume := rfl
@[simp] theorem State.setP0_raw (a : Nat) : (s.setP0 a).raw = s.raw := rfl
@[simp] theorem State.setP0_rawEpoch (a : Nat) : (s.setP0 a).rawEpoch = s.rawEpoch := rfl
@[simp] theorem State.setP0_buf (a : Nat) : (s.setP0 a).buf = s.buf := rfl
@[simp] theorem State.setP0_epoch (a : Nat) : (s.setP0 a).epoch = s.epoch := rfl
@[simp] theorem State.setP0_i1 (a : Nat) : (s.setP0 a).i1 = s.i1 := rfl
@[simp] theorem State.setP0_q1 (a : Nat) : (s.setP0 a).q1 = s.q1 := rfl
@[simp] theorem State.setP0_i2 (a : Nat) : (s.setP0 a).i2 = s.i2 := rfl
@[simp] theorem State.setP0_q2 (a : Nat) : (s.setP0 a).q2 = s.q2 := rfl
@[simp] theorem State.setP0_len1 (a : Nat) : (s.setP0 a).len1 = s.len1 := rfl
@[simp] theorem State.setP0_len2 (a : Nat) : (s.setP0 a).len2 = s.len2 := rfl
@[simp] theorem State.setP0_fOut (a : Nat) : (s.setP0 a).fOut = s.fOut := rfl
@[simp] theorem State.setP0_aOut (a : Nat) : (s.setP0 a).aOut = s.aOut := rfl
@[simp] theorem State.setP0_ch (a : Nat) : (s.setP0 a).ch = s.ch := rfl
@[simp] theorem State.setP0_i (a : Nat) : (s.setP0 a).i = s.i := rfl
@[simp] theorem State.setP0_run (a : Nat) : (s.setP0 a).run = s.run := rfl
@[simp] theorem State.setP0_k (a : Nat) : (s.setP0 a).k = s.k := rfl
@[simp] theorem State.setP0_j (a : Nat) : (s.setP0 a).j = s.j := rfl
@[simp] theorem State.setP0_score (a : Nat) : (s.setP0 a).score = s.score := rfl
@[simp] theorem State.setP0_smax (a : Nat) : (s.setP0 a).smax = s.smax := rfl
@[simp] theorem State.setP0_imax (a : Nat) : (s.setP0 a).imax = s.imax := rfl
@[simp] theorem State.setP0_p0 (a : Nat) : (s.setP0 a).p0 = a := rfl
@[simp] theorem State.setP0_m (a : Nat) : (s.setP0 a).m = s.m := rfl
@[simp] theorem State.setP0_idx (a : Nat) : (s.setP0 a).idx = s.idx := rfl
@[simp] theorem State.setP0_prev (a : Nat) : (s.setP0 a).prev = s.prev := rfl
@[simp] theorem State.setP0_hist (a : Nat) : (s.setP0 a).hist = s.hist := rfl
@[simp] theorem State.setP0_wp (a : Nat) : (s.setP0 a).wp = s.wp := rfl
@[simp] theorem State.setP0_bp (a : Nat) : (s.setP0 a).bp = s.bp := rfl
@[simp] theorem State.setP0_nbits (a : Nat) : (s.setP0 a).nbits = s.nbits := rfl
@[simp] theorem State.setP0_sym (a : Nat) : (s.setP0 a).sym = s.sym := rfl
@[simp] theorem State.setP0_out (a : Nat) : (s.setP0 a).out = s.out := rfl
@[simp] theorem State.setP0_mid (a : Nat) : (s.setP0 a).mid = s.mid := rfl
@[simp] theorem State.setP0_blen (a : Nat) : (s.setP0 a).blen = s.blen := rfl
@[simp] theorem State.setP0_crc (a : Nat) : (s.setP0 a).crc = s.crc := rfl
@[simp] theorem State.setP0_fcs (a : Nat) : (s.setP0 a).fcs = s.fcs := rfl
@[simp] theorem State.setP0_record (a : Nat) : (s.setP0 a).record = s.record := rfl
@[simp] theorem State.setP0_sync (a : Nat) : (s.setP0 a).sync = s.sync := rfl
@[simp] theorem State.setP0_pol (a : Nat) : (s.setP0 a).pol = s.pol := rfl
@[simp] theorem State.setP0_short (a : Nat) : (s.setP0 a).short = s.short := rfl
@[simp] theorem State.setP0_crcOk (a : Nat) : (s.setP0 a).crcOk = s.crcOk := rfl
@[simp] theorem State.setP0_argCh (a : Nat) : (s.setP0 a).argCh = s.argCh := rfl
@[simp] theorem State.setP0_firX (a : Nat) : (s.setP0 a).firX = s.firX := rfl
@[simp] theorem State.setP0_firH (a : Nat) : (s.setP0 a).firH = s.firH := rfl
@[simp] theorem State.setP0_firN (a : Nat) : (s.setP0 a).firN = s.firN := rfl
@[simp] theorem State.setP0_firY (a : Nat) : (s.setP0 a).firY = s.firY := rfl
@[simp] theorem State.setP0_crcD (a : Nat) : (s.setP0 a).crcD = s.crcD := rfl
@[simp] theorem State.setP0_gbO (a : Nat) : (s.setP0 a).gbO = s.gbO := rfl
@[simp] theorem State.setP0_gbW (a : Nat) : (s.setP0 a).gbW = s.gbW := rfl
@[simp] theorem State.setP0_gbV (a : Nat) : (s.setP0 a).gbV = s.gbV := rfl

/-! ### `takeBlock` -/

@[simp] theorem State.takeBlock_cfg : s.takeBlock.cfg = s.cfg := rfl
@[simp] theorem State.takeBlock_src : s.takeBlock.src = s.src.drop (2 * s.cfg.n) := rfl
@[simp] theorem State.takeBlock_srcClosed : s.takeBlock.srcClosed = s.srcClosed := rfl
@[simp] theorem State.takeBlock_sink : s.takeBlock.sink = s.sink := rfl
@[simp] theorem State.takeBlock_phase : s.takeBlock.phase = s.phase := rfl
@[simp] theorem State.takeBlock_started : s.takeBlock.started = s.started := rfl
@[simp] theorem State.takeBlock_fetch : s.takeBlock.fetch = s.fetch := rfl
@[simp] theorem State.takeBlock_res : s.takeBlock.res = s.res := rfl
@[simp] theorem State.takeBlock_resume : s.takeBlock.resume = s.resume := rfl
@[simp] theorem State.takeBlock_raw : s.takeBlock.raw = Memory.ofBytes 0 (s.src.take (2 * s.cfg.n)) := rfl
@[simp] theorem State.takeBlock_rawEpoch : s.takeBlock.rawEpoch = s.rawEpoch := rfl
@[simp] theorem State.takeBlock_buf : s.takeBlock.buf = s.buf := rfl
@[simp] theorem State.takeBlock_epoch : s.takeBlock.epoch = s.epoch := rfl
@[simp] theorem State.takeBlock_i1 : s.takeBlock.i1 = s.i1 := rfl
@[simp] theorem State.takeBlock_q1 : s.takeBlock.q1 = s.q1 := rfl
@[simp] theorem State.takeBlock_i2 : s.takeBlock.i2 = s.i2 := rfl
@[simp] theorem State.takeBlock_q2 : s.takeBlock.q2 = s.q2 := rfl
@[simp] theorem State.takeBlock_len1 : s.takeBlock.len1 = s.len1 := rfl
@[simp] theorem State.takeBlock_len2 : s.takeBlock.len2 = s.len2 := rfl
@[simp] theorem State.takeBlock_fOut : s.takeBlock.fOut = s.fOut := rfl
@[simp] theorem State.takeBlock_aOut : s.takeBlock.aOut = s.aOut := rfl
@[simp] theorem State.takeBlock_ch : s.takeBlock.ch = s.ch := rfl
@[simp] theorem State.takeBlock_i : s.takeBlock.i = s.i := rfl
@[simp] theorem State.takeBlock_run : s.takeBlock.run = s.run := rfl
@[simp] theorem State.takeBlock_k : s.takeBlock.k = s.k := rfl
@[simp] theorem State.takeBlock_j : s.takeBlock.j = s.j := rfl
@[simp] theorem State.takeBlock_score : s.takeBlock.score = s.score := rfl
@[simp] theorem State.takeBlock_smax : s.takeBlock.smax = s.smax := rfl
@[simp] theorem State.takeBlock_imax : s.takeBlock.imax = s.imax := rfl
@[simp] theorem State.takeBlock_p0 : s.takeBlock.p0 = s.p0 := rfl
@[simp] theorem State.takeBlock_m : s.takeBlock.m = s.m := rfl
@[simp] theorem State.takeBlock_idx : s.takeBlock.idx = s.idx := rfl
@[simp] theorem State.takeBlock_prev : s.takeBlock.prev = s.prev := rfl
@[simp] theorem State.takeBlock_hist : s.takeBlock.hist = s.hist := rfl
@[simp] theorem State.takeBlock_wp : s.takeBlock.wp = s.wp := rfl
@[simp] theorem State.takeBlock_bp : s.takeBlock.bp = s.bp := rfl
@[simp] theorem State.takeBlock_nbits : s.takeBlock.nbits = s.nbits := rfl
@[simp] theorem State.takeBlock_sym : s.takeBlock.sym = s.sym := rfl
@[simp] theorem State.takeBlock_out : s.takeBlock.out = s.out := rfl
@[simp] theorem State.takeBlock_mid : s.takeBlock.mid = s.mid := rfl
@[simp] theorem State.takeBlock_blen : s.takeBlock.blen = s.blen := rfl
@[simp] theorem State.takeBlock_crc : s.takeBlock.crc = s.crc := rfl
@[simp] theorem State.takeBlock_fcs : s.takeBlock.fcs = s.fcs := rfl
@[simp] theorem State.takeBlock_record : s.takeBlock.record = s.record := rfl
@[simp] theorem State.takeBlock_sync : s.takeBlock.sync = s.sync := rfl
@[simp] theorem State.takeBlock_pol : s.takeBlock.pol = s.pol := rfl
@[simp] theorem State.takeBlock_short : s.takeBlock.short = s.short := rfl
@[simp] theorem State.takeBlock_crcOk : s.takeBlock.crcOk = s.crcOk := rfl
@[simp] theorem State.takeBlock_argCh : s.takeBlock.argCh = s.argCh := rfl
@[simp] theorem State.takeBlock_firX : s.takeBlock.firX = s.firX := rfl
@[simp] theorem State.takeBlock_firH : s.takeBlock.firH = s.firH := rfl
@[simp] theorem State.takeBlock_firN : s.takeBlock.firN = s.firN := rfl
@[simp] theorem State.takeBlock_firY : s.takeBlock.firY = s.firY := rfl
@[simp] theorem State.takeBlock_crcD : s.takeBlock.crcD = s.crcD := rfl
@[simp] theorem State.takeBlock_gbO : s.takeBlock.gbO = s.gbO := rfl
@[simp] theorem State.takeBlock_gbW : s.takeBlock.gbW = s.gbW := rfl
@[simp] theorem State.takeBlock_gbV : s.takeBlock.gbV = s.gbV := rfl

/-! ### `dropPartial` -/

@[simp] theorem State.dropPartial_cfg : s.dropPartial.cfg = s.cfg := rfl
@[simp] theorem State.dropPartial_src : s.dropPartial.src = [] := rfl
@[simp] theorem State.dropPartial_srcClosed : s.dropPartial.srcClosed = s.srcClosed := rfl
@[simp] theorem State.dropPartial_sink : s.dropPartial.sink = s.sink := rfl
@[simp] theorem State.dropPartial_phase : s.dropPartial.phase = s.phase := rfl
@[simp] theorem State.dropPartial_started : s.dropPartial.started = s.started := rfl
@[simp] theorem State.dropPartial_fetch : s.dropPartial.fetch = s.fetch := rfl
@[simp] theorem State.dropPartial_res : s.dropPartial.res = s.res := rfl
@[simp] theorem State.dropPartial_resume : s.dropPartial.resume = s.resume := rfl
@[simp] theorem State.dropPartial_raw : s.dropPartial.raw = [] := rfl
@[simp] theorem State.dropPartial_rawEpoch : s.dropPartial.rawEpoch = s.rawEpoch + 1 := rfl
@[simp] theorem State.dropPartial_buf : s.dropPartial.buf = s.buf := rfl
@[simp] theorem State.dropPartial_epoch : s.dropPartial.epoch = s.epoch := rfl
@[simp] theorem State.dropPartial_i1 : s.dropPartial.i1 = s.i1 := rfl
@[simp] theorem State.dropPartial_q1 : s.dropPartial.q1 = s.q1 := rfl
@[simp] theorem State.dropPartial_i2 : s.dropPartial.i2 = s.i2 := rfl
@[simp] theorem State.dropPartial_q2 : s.dropPartial.q2 = s.q2 := rfl
@[simp] theorem State.dropPartial_len1 : s.dropPartial.len1 = s.len1 := rfl
@[simp] theorem State.dropPartial_len2 : s.dropPartial.len2 = s.len2 := rfl
@[simp] theorem State.dropPartial_fOut : s.dropPartial.fOut = s.fOut := rfl
@[simp] theorem State.dropPartial_aOut : s.dropPartial.aOut = s.aOut := rfl
@[simp] theorem State.dropPartial_ch : s.dropPartial.ch = s.ch := rfl
@[simp] theorem State.dropPartial_i : s.dropPartial.i = s.i := rfl
@[simp] theorem State.dropPartial_run : s.dropPartial.run = s.run := rfl
@[simp] theorem State.dropPartial_k : s.dropPartial.k = s.k := rfl
@[simp] theorem State.dropPartial_j : s.dropPartial.j = s.j := rfl
@[simp] theorem State.dropPartial_score : s.dropPartial.score = s.score := rfl
@[simp] theorem State.dropPartial_smax : s.dropPartial.smax = s.smax := rfl
@[simp] theorem State.dropPartial_imax : s.dropPartial.imax = s.imax := rfl
@[simp] theorem State.dropPartial_p0 : s.dropPartial.p0 = s.p0 := rfl
@[simp] theorem State.dropPartial_m : s.dropPartial.m = s.m := rfl
@[simp] theorem State.dropPartial_idx : s.dropPartial.idx = s.idx := rfl
@[simp] theorem State.dropPartial_prev : s.dropPartial.prev = s.prev := rfl
@[simp] theorem State.dropPartial_hist : s.dropPartial.hist = s.hist := rfl
@[simp] theorem State.dropPartial_wp : s.dropPartial.wp = s.wp := rfl
@[simp] theorem State.dropPartial_bp : s.dropPartial.bp = s.bp := rfl
@[simp] theorem State.dropPartial_nbits : s.dropPartial.nbits = s.nbits := rfl
@[simp] theorem State.dropPartial_sym : s.dropPartial.sym = s.sym := rfl
@[simp] theorem State.dropPartial_out : s.dropPartial.out = s.out := rfl
@[simp] theorem State.dropPartial_mid : s.dropPartial.mid = s.mid := rfl
@[simp] theorem State.dropPartial_blen : s.dropPartial.blen = s.blen := rfl
@[simp] theorem State.dropPartial_crc : s.dropPartial.crc = s.crc := rfl
@[simp] theorem State.dropPartial_fcs : s.dropPartial.fcs = s.fcs := rfl
@[simp] theorem State.dropPartial_record : s.dropPartial.record = s.record := rfl
@[simp] theorem State.dropPartial_sync : s.dropPartial.sync = s.sync := rfl
@[simp] theorem State.dropPartial_pol : s.dropPartial.pol = s.pol := rfl
@[simp] theorem State.dropPartial_short : s.dropPartial.short = s.short := rfl
@[simp] theorem State.dropPartial_crcOk : s.dropPartial.crcOk = s.crcOk := rfl
@[simp] theorem State.dropPartial_argCh : s.dropPartial.argCh = s.argCh := rfl
@[simp] theorem State.dropPartial_firX : s.dropPartial.firX = s.firX := rfl
@[simp] theorem State.dropPartial_firH : s.dropPartial.firH = s.firH := rfl
@[simp] theorem State.dropPartial_firN : s.dropPartial.firN = s.firN := rfl
@[simp] theorem State.dropPartial_firY : s.dropPartial.firY = s.firY := rfl
@[simp] theorem State.dropPartial_crcD : s.dropPartial.crcD = s.crcD := rfl
@[simp] theorem State.dropPartial_gbO : s.dropPartial.gbO = s.gbO := rfl
@[simp] theorem State.dropPartial_gbW : s.dropPartial.gbW = s.gbW := rfl
@[simp] theorem State.dropPartial_gbV : s.dropPartial.gbV = s.gbV := rfl

/-! ### `setGbV` -/

@[simp] theorem State.setGbV_cfg (v : Nat) : (s.setGbV v).cfg = s.cfg := rfl
@[simp] theorem State.setGbV_src (v : Nat) : (s.setGbV v).src = s.src := rfl
@[simp] theorem State.setGbV_srcClosed (v : Nat) : (s.setGbV v).srcClosed = s.srcClosed := rfl
@[simp] theorem State.setGbV_sink (v : Nat) : (s.setGbV v).sink = s.sink := rfl
@[simp] theorem State.setGbV_phase (v : Nat) : (s.setGbV v).phase = s.phase := rfl
@[simp] theorem State.setGbV_started (v : Nat) : (s.setGbV v).started = s.started := rfl
@[simp] theorem State.setGbV_fetch (v : Nat) : (s.setGbV v).fetch = s.fetch := rfl
@[simp] theorem State.setGbV_res (v : Nat) : (s.setGbV v).res = s.res := rfl
@[simp] theorem State.setGbV_resume (v : Nat) : (s.setGbV v).resume = s.resume := rfl
@[simp] theorem State.setGbV_raw (v : Nat) : (s.setGbV v).raw = s.raw := rfl
@[simp] theorem State.setGbV_rawEpoch (v : Nat) : (s.setGbV v).rawEpoch = s.rawEpoch := rfl
@[simp] theorem State.setGbV_buf (v : Nat) : (s.setGbV v).buf = s.buf := rfl
@[simp] theorem State.setGbV_epoch (v : Nat) : (s.setGbV v).epoch = s.epoch := rfl
@[simp] theorem State.setGbV_i1 (v : Nat) : (s.setGbV v).i1 = s.i1 := rfl
@[simp] theorem State.setGbV_q1 (v : Nat) : (s.setGbV v).q1 = s.q1 := rfl
@[simp] theorem State.setGbV_i2 (v : Nat) : (s.setGbV v).i2 = s.i2 := rfl
@[simp] theorem State.setGbV_q2 (v : Nat) : (s.setGbV v).q2 = s.q2 := rfl
@[simp] theorem State.setGbV_len1 (v : Nat) : (s.setGbV v).len1 = s.len1 := rfl
@[simp] theorem State.setGbV_len2 (v : Nat) : (s.setGbV v).len2 = s.len2 := rfl
@[simp] theorem State.setGbV_fOut (v : Nat) : (s.setGbV v).fOut = s.fOut := rfl
@[simp] theorem State.setGbV_aOut (v : Nat) : (s.setGbV v).aOut = s.aOut := rfl
@[simp] theorem State.setGbV_ch (v : Nat) : (s.setGbV v).ch = s.ch := rfl
@[simp] theorem State.setGbV_i (v : Nat) : (s.setGbV v).i = s.i := rfl
@[simp] theorem State.setGbV_run (v : Nat) : (s.setGbV v).run = s.run := rfl
@[simp] theorem State.setGbV_k (v : Nat) : (s.setGbV v).k = s.k := rfl
@[simp] theorem State.setGbV_j (v : Nat) : (s.setGbV v).j = s.j := rfl
@[simp] theorem State.setGbV_score (v : Nat) : (s.setGbV v).score = s.score := rfl
@[simp] theorem State.setGbV_smax (v : Nat) : (s.setGbV v).smax = s.smax := rfl
@[simp] theorem State.setGbV_imax (v : Nat) : (s.setGbV v).imax = s.imax := rfl
@[simp] theorem State.setGbV_p0 (v : Nat) : (s.setGbV v).p0 = s.p0 := rfl
@[simp] theorem State.setGbV_m (v : Nat) : (s.setGbV v).m = s.m := rfl
@[simp] theorem State.setGbV_idx (v : Nat) : (s.setGbV v).idx = s.idx := rfl
@[simp] theorem State.setGbV_prev (v : Nat) : (s.setGbV v).prev = s.prev := rfl
@[simp] theorem State.setGbV_hist (v : Nat) : (s.setGbV v).hist = s.hist := rfl
@[simp] theorem State.setGbV_wp (v : Nat) : (s.setGbV v).wp = s.wp := rfl
@[simp] theorem State.setGbV_bp (v : Nat) : (s.setGbV v).bp = s.bp := rfl
@[simp] theorem State.setGbV_nbits (v : Nat) : (s.setGbV v).nbits = s.nbits := rfl
@[simp] theorem State.setGbV_sym (v : Nat) : (s.setGbV v).sym = s.sym := rfl
@[simp] theorem State.setGbV_out (v : Nat) : (s.setGbV v).out = s.out := rfl
@[simp] theorem State.setGbV_mid (v : Nat) : (s.setGbV v).mid = s.mid := rfl
@[simp] theorem State.setGbV_blen (v : Nat) : (s.setGbV v).blen = s.blen := rfl
@[simp] theorem State.setGbV_crc (v : Nat) : (s.setGbV v).crc = s.crc := rfl
@[simp] theorem State.setGbV_fcs (v : Nat) : (s.setGbV v).fcs = s.fcs := rfl
@[simp] theorem State.setGbV_record (v : Nat) : (s.setGbV v).record = s.record := rfl
@[simp] theorem State.setGbV_sync (v : Nat) : (s.setGbV v).sync = s.sync := rfl
@[simp] theorem State.setGbV_pol (v : Nat) : (s.setGbV v).pol = s.pol := rfl
@[simp] theorem State.setGbV_short (v : Nat) : (s.setGbV v).short = s.short := rfl
@[simp] theorem State.setGbV_crcOk (v : Nat) : (s.setGbV v).crcOk = s.crcOk := rfl
@[simp] theorem State.setGbV_argCh (v : Nat) : (s.setGbV v).argCh = s.argCh := rfl
@[simp] theorem State.setGbV_firX (v : Nat) : (s.setGbV v).firX = s.firX := rfl
@[simp] theorem State.setGbV_firH (v : Nat) : (s.setGbV v).firH = s.firH := rfl
@[simp] theorem State.setGbV_firN (v : Nat) : (s.setGbV v).firN = s.firN := rfl
@[simp] theorem State.setGbV_firY (v : Nat) : (s.setGbV v).firY = s.firY := rfl
@[simp] theorem State.setGbV_crcD (v : Nat) : (s.setGbV v).crcD = s.crcD := rfl
@[simp] theorem State.setGbV_gbO (v : Nat) : (s.setGbV v).gbO = s.gbO := rfl
@[simp] theorem State.setGbV_gbW (v : Nat) : (s.setGbV v).gbW = s.gbW := rfl
@[simp] theorem State.setGbV_gbV (v : Nat) : (s.setGbV v).gbV = v := rfl

/-! ### `enter` -/

@[simp] theorem State.enter_cfg (sub : SubPhase) : (s.enter sub).cfg = s.cfg := rfl
@[simp] theorem State.enter_src (sub : SubPhase) : (s.enter sub).src = s.src := rfl
@[simp] theorem State.enter_srcClosed (sub : SubPhase) : (s.enter sub).srcClosed = s.srcClosed := rfl
@[simp] theorem State.enter_sink (sub : SubPhase) : (s.enter sub).sink = s.sink := rfl
@[simp] theorem State.enter_phase (sub : SubPhase) : (s.enter sub).phase = .scan s.ch sub := rfl
@[simp] theorem State.enter_started (sub : SubPhase) : (s.enter sub).started = s.started := rfl
@[simp] theorem State.enter_fetch (sub : SubPhase) : (s.enter sub).fetch = s.fetch := rfl
@[simp] theorem State.enter_res (sub : SubPhase) : (s.enter sub).res = s.res := rfl
@[simp] theorem State.enter_resume (sub : SubPhase) : (s.enter sub).resume = s.resume := rfl
@[simp] theorem State.enter_raw (sub : SubPhase) : (s.enter sub).raw = s.raw := rfl
@[simp] theorem State.enter_rawEpoch (sub : SubPhase) : (s.enter sub).rawEpoch = s.rawEpoch := rfl
@[simp] theorem State.enter_buf (sub : SubPhase) : (s.enter sub).buf = s.buf := rfl
@[simp] theorem State.enter_epoch (sub : SubPhase) : (s.enter sub).epoch = s.epoch := rfl
@[simp] theorem State.enter_i1 (sub : SubPhase) : (s.enter sub).i1 = s.i1 := rfl
@[simp] theorem State.enter_q1 (sub : SubPhase) : (s.enter sub).q1 = s.q1 := rfl
@[simp] theorem State.enter_i2 (sub : SubPhase) : (s.enter sub).i2 = s.i2 := rfl
@[simp] theorem State.enter_q2 (sub : SubPhase) : (s.enter sub).q2 = s.q2 := rfl
@[simp] theorem State.enter_len1 (sub : SubPhase) : (s.enter sub).len1 = s.len1 := rfl
@[simp] theorem State.enter_len2 (sub : SubPhase) : (s.enter sub).len2 = s.len2 := rfl
@[simp] theorem State.enter_fOut (sub : SubPhase) : (s.enter sub).fOut = s.fOut := rfl
@[simp] theorem State.enter_aOut (sub : SubPhase) : (s.enter sub).aOut = s.aOut := rfl
@[simp] theorem State.enter_ch (sub : SubPhase) : (s.enter sub).ch = s.ch := rfl
@[simp] theorem State.enter_i (sub : SubPhase) : (s.enter sub).i = s.i := rfl
@[simp] theorem State.enter_run (sub : SubPhase) : (s.enter sub).run = s.run := rfl
@[simp] theorem State.enter_k (sub : SubPhase) : (s.enter sub).k = s.k := rfl
@[simp] theorem State.enter_j (sub : SubPhase) : (s.enter sub).j = s.j := rfl
@[simp] theorem State.enter_score (sub : SubPhase) : (s.enter sub).score = s.score := rfl
@[simp] theorem State.enter_smax (sub : SubPhase) : (s.enter sub).smax = s.smax := rfl
@[simp] theorem State.enter_imax (sub : SubPhase) : (s.enter sub).imax = s.imax := rfl
@[simp] theorem State.enter_p0 (sub : SubPhase) : (s.enter sub).p0 = s.p0 := rfl
@[simp] theorem State.enter_m (sub : SubPhase) : (s.enter sub).m = s.m := rfl
@[simp] theorem State.enter_idx (sub : SubPhase) : (s.enter sub).idx = s.idx := rfl
@[simp] theorem State.enter_prev (sub : SubPhase) : (s.enter sub).prev = s.prev := rfl
@[simp] theorem State.enter_hist (sub : SubPhase) : (s.enter sub).hist = s.hist := rfl
@[simp] theorem State.enter_wp (sub : SubPhase) : (s.enter sub).wp = s.wp := rfl
@[simp] theorem State.enter_bp (sub : SubPhase) : (s.enter sub).bp = s.bp := rfl
@[simp] theorem State.enter_nbits (sub : SubPhase) : (s.enter sub).nbits = s.nbits := rfl
@[simp] theorem State.enter_sym (sub : SubPhase) : (s.enter sub).sym = s.sym := rfl
@[simp] theorem State.enter_out (sub : SubPhase) : (s.enter sub).out = s.out := rfl
@[simp] theorem State.enter_mid (sub : SubPhase) : (s.enter sub).mid = s.mid := rfl
@[simp] theorem State.enter_blen (sub : SubPhase) : (s.enter sub).blen = s.blen := rfl
@[simp] theorem State.enter_crc (sub : SubPhase) : (s.enter sub).crc = s.crc := rfl
@[simp] theorem State.enter_fcs (sub : SubPhase) : (s.enter sub).fcs = s.fcs := rfl
@[simp] theorem State.enter_record (sub : SubPhase) : (s.enter sub).record = s.record := rfl
@[simp] theorem State.enter_sync (sub : SubPhase) : (s.enter sub).sync = s.sync := rfl
@[simp] theorem State.enter_pol (sub : SubPhase) : (s.enter sub).pol = s.pol := rfl
@[simp] theorem State.enter_short (sub : SubPhase) : (s.enter sub).short = s.short := rfl
@[simp] theorem State.enter_crcOk (sub : SubPhase) : (s.enter sub).crcOk = s.crcOk := rfl
@[simp] theorem State.enter_argCh (sub : SubPhase) : (s.enter sub).argCh = s.argCh := rfl
@[simp] theorem State.enter_firX (sub : SubPhase) : (s.enter sub).firX = s.firX := rfl
@[simp] theorem State.enter_firH (sub : SubPhase) : (s.enter sub).firH = s.firH := rfl
@[simp] theorem State.enter_firN (sub : SubPhase) : (s.enter sub).firN = s.firN := rfl
@[simp] theorem State.enter_firY (sub : SubPhase) : (s.enter sub).firY = s.firY := rfl
@[simp] theorem State.enter_crcD (sub : SubPhase) : (s.enter sub).crcD = s.crcD := rfl
@[simp] theorem State.enter_gbO (sub : SubPhase) : (s.enter sub).gbO = s.gbO := rfl
@[simp] theorem State.enter_gbW (sub : SubPhase) : (s.enter sub).gbW = s.gbW := rfl
@[simp] theorem State.enter_gbV (sub : SubPhase) : (s.enter sub).gbV = s.gbV := rfl

/-! ### `beginScan` -/

@[simp] theorem State.beginScan_cfg (c : Channel) : (s.beginScan c).cfg = s.cfg := rfl
@[simp] theorem State.beginScan_src (c : Channel) : (s.beginScan c).src = s.src := rfl
@[simp] theorem State.beginScan_srcClosed (c : Channel) : (s.beginScan c).srcClosed = s.srcClosed := rfl
@[simp] theorem State.beginScan_sink (c : Channel) : (s.beginScan c).sink = s.sink := rfl
@[simp] theorem State.beginScan_phase (c : Channel) : (s.beginScan c).phase = .scan c .gate := rfl
@[simp] theorem State.beginScan_started (c : Channel) : (s.beginScan c).started = s.started := rfl
@[simp] theorem State.beginScan_fetch (c : Channel) : (s.beginScan c).fetch = s.fetch := rfl
@[simp] theorem State.beginScan_res (c : Channel) : (s.beginScan c).res = s.res := rfl
@[simp] theorem State.beginScan_resume (c : Channel) : (s.beginScan c).resume = s.resume := rfl
@[simp] theorem State.beginScan_raw (c : Channel) : (s.beginScan c).raw = s.raw := rfl
@[simp] theorem State.beginScan_rawEpoch (c : Channel) : (s.beginScan c).rawEpoch = s.rawEpoch := rfl
@[simp] theorem State.beginScan_buf (c : Channel) : (s.beginScan c).buf = s.buf := rfl
@[simp] theorem State.beginScan_epoch (c : Channel) : (s.beginScan c).epoch = s.epoch := rfl
@[simp] theorem State.beginScan_i1 (c : Channel) : (s.beginScan c).i1 = s.i1 := rfl
@[simp] theorem State.beginScan_q1 (c : Channel) : (s.beginScan c).q1 = s.q1 := rfl
@[simp] theorem State.beginScan_i2 (c : Channel) : (s.beginScan c).i2 = s.i2 := rfl
@[simp] theorem State.beginScan_q2 (c : Channel) : (s.beginScan c).q2 = s.q2 := rfl
@[simp] theorem State.beginScan_len1 (c : Channel) : (s.beginScan c).len1 = s.len1 := rfl
@[simp] theorem State.beginScan_len2 (c : Channel) : (s.beginScan c).len2 = s.len2 := rfl
@[simp] theorem State.beginScan_fOut (c : Channel) : (s.beginScan c).fOut = s.fOut := rfl
@[simp] theorem State.beginScan_aOut (c : Channel) : (s.beginScan c).aOut = s.aOut := rfl
@[simp] theorem State.beginScan_ch (c : Channel) : (s.beginScan c).ch = c := rfl
@[simp] theorem State.beginScan_i (c : Channel) : (s.beginScan c).i = 0 := rfl
@[simp] theorem State.beginScan_run (c : Channel) : (s.beginScan c).run = s.run := rfl
@[simp] theorem State.beginScan_k (c : Channel) : (s.beginScan c).k = s.k := rfl
@[simp] theorem State.beginScan_j (c : Channel) : (s.beginScan c).j = s.j := rfl
@[simp] theorem State.beginScan_score (c : Channel) : (s.beginScan c).score = s.score := rfl
@[simp] theorem State.beginScan_smax (c : Channel) : (s.beginScan c).smax = s.smax := rfl
@[simp] theorem State.beginScan_imax (c : Channel) : (s.beginScan c).imax = s.imax := rfl
@[simp] theorem State.beginScan_p0 (c : Channel) : (s.beginScan c).p0 = s.p0 := rfl
@[simp] theorem State.beginScan_m (c : Channel) : (s.beginScan c).m = s.m := rfl
@[simp] theorem State.beginScan_idx (c : Channel) : (s.beginScan c).idx = s.idx := rfl
@[simp] theorem State.beginScan_prev (c : Channel) : (s.beginScan c).prev = s.prev := rfl
@[simp] theorem State.beginScan_hist (c : Channel) : (s.beginScan c).hist = s.hist := rfl
@[simp] theorem State.beginScan_wp (c : Channel) : (s.beginScan c).wp = s.wp := rfl
@[simp] theorem State.beginScan_bp (c : Channel) : (s.beginScan c).bp = s.bp := rfl
@[simp] theorem State.beginScan_nbits (c : Channel) : (s.beginScan c).nbits = s.nbits := rfl
@[simp] theorem State.beginScan_sym (c : Channel) : (s.beginScan c).sym = s.sym := rfl
@[simp] theorem State.beginScan_out (c : Channel) : (s.beginScan c).out = s.out := rfl
@[simp] theorem State.beginScan_mid (c : Channel) : (s.beginScan c).mid = s.mid := rfl
@[simp] theorem State.beginScan_blen (c : Channel) : (s.beginScan c).blen = s.blen := rfl
@[simp] theorem State.beginScan_crc (c : Channel) : (s.beginScan c).crc = s.crc := rfl
@[simp] theorem State.beginScan_fcs (c : Channel) : (s.beginScan c).fcs = s.fcs := rfl
@[simp] theorem State.beginScan_record (c : Channel) : (s.beginScan c).record = s.record := rfl
@[simp] theorem State.beginScan_sync (c : Channel) : (s.beginScan c).sync = s.sync := rfl
@[simp] theorem State.beginScan_pol (c : Channel) : (s.beginScan c).pol = s.pol := rfl
@[simp] theorem State.beginScan_short (c : Channel) : (s.beginScan c).short = s.short := rfl
@[simp] theorem State.beginScan_crcOk (c : Channel) : (s.beginScan c).crcOk = s.crcOk := rfl
@[simp] theorem State.beginScan_argCh (c : Channel) : (s.beginScan c).argCh = s.argCh := rfl
@[simp] theorem State.beginScan_firX (c : Channel) : (s.beginScan c).firX = s.firX := rfl
@[simp] theorem State.beginScan_firH (c : Channel) : (s.beginScan c).firH = s.firH := rfl
@[simp] theorem State.beginScan_firN (c : Channel) : (s.beginScan c).firN = s.firN := rfl
@[simp] theorem State.beginScan_firY (c : Channel) : (s.beginScan c).firY = s.firY := rfl
@[simp] theorem State.beginScan_crcD (c : Channel) : (s.beginScan c).crcD = s.crcD := rfl
@[simp] theorem State.beginScan_gbO (c : Channel) : (s.beginScan c).gbO = s.gbO := rfl
@[simp] theorem State.beginScan_gbW (c : Channel) : (s.beginScan c).gbW = s.gbW := rfl
@[simp] theorem State.beginScan_gbV (c : Channel) : (s.beginScan c).gbV = s.gbV := rfl

/-! ### What the named readers see of an update that does not concern them -/

@[simp] theorem State.goto_bufRead (p : Phase) (f : Fetch) (a : Nat) : (s.goto p f).bufRead a = s.bufRead a := rfl
@[simp] theorem State.goto_rawRead (p : Phase) (f : Fetch) (a : Nat) : (s.goto p f).rawRead a = s.rawRead a := rfl
@[simp] theorem State.goto_stream (p : Phase) (f : Fetch) (x : StreamId) : (s.goto p f).stream x = s.stream x := rfl
@[simp] theorem State.goto_len (p : Phase) (f : Fetch) (c : Channel) : (s.goto p f).len c = s.len c := rfl
@[simp] theorem State.goto_streamLen (p : Phase) (f : Fetch) (x : StreamId) : (s.goto p f).streamLen x = s.streamLen x := rfl
@[simp] theorem State.goto_n (p : Phase) (f : Fetch) : (s.goto p f).n = s.n := rfl
@[simp] theorem State.goto_elem (p : Phase) (f : Fetch) (x : StreamId) (a : Nat) : (s.goto p f).elem x a = s.elem x a := rfl
@[simp] theorem State.goto_aAt (p : Phase) (f : Fetch) (t : Nat) : (s.goto p f).aAt t = s.aAt t := rfl
@[simp] theorem State.goto_fAt (p : Phase) (f : Fetch) (t : Nat) : (s.goto p f).fAt t = s.fAt t := rfl
@[simp] theorem State.goto_symbolIdx (p : Phase) (f : Fetch) : (s.goto p f).symbolIdx = s.symbolIdx := rfl
@[simp] theorem State.setPhase_bufRead (p : Phase) (a : Nat) : (s.setPhase p).bufRead a = s.bufRead a := rfl
@[simp] theorem State.setPhase_rawRead (p : Phase) (a : Nat) : (s.setPhase p).rawRead a = s.rawRead a := rfl
@[simp] theorem State.setPhase_stream (p : Phase) (x : StreamId) : (s.setPhase p).stream x = s.stream x := rfl
@[simp] theorem State.setPhase_len (p : Phase) (c : Channel) : (s.setPhase p).len c = s.len c := rfl
@[simp] theorem State.setPhase_streamLen (p : Phase) (x : StreamId) : (s.setPhase p).streamLen x = s.streamLen x := rfl
@[simp] theorem State.setPhase_n (p : Phase) : (s.setPhase p).n = s.n := rfl
@[simp] theorem State.setPhase_elem (p : Phase) (x : StreamId) (a : Nat) : (s.setPhase p).elem x a = s.elem x a := rfl
@[simp] theorem State.setPhase_aAt (p : Phase) (t : Nat) : (s.setPhase p).aAt t = s.aAt t := rfl
@[simp] theorem State.setPhase_fAt (p : Phase) (t : Nat) : (s.setPhase p).fAt t = s.fAt t := rfl
@[simp] theorem State.setPhase_symbolIdx (p : Phase) : (s.setPhase p).symbolIdx = s.symbolIdx := rfl
@[simp] theorem State.raise_bufRead (c0 : Condition) (info : Option Nat) (a : Nat) : (s.raise c0 info).bufRead a = s.bufRead a := rfl
@[simp] theorem State.raise_rawRead (c0 : Condition) (info : Option Nat) (a : Nat) : (s.raise c0 info).rawRead a = s.rawRead a := rfl
@[simp] theorem State.raise_stream (c0 : Condition) (info : Option Nat) (x : StreamId) : (s.raise c0 info).stream x = s.stream x := rfl
@[simp] theorem State.raise_len (c0 : Condition) (info : Option Nat) (c : Channel) : (s.raise c0 info).len c = s.len c := rfl
@[simp] theorem State.raise_streamLen (c0 : Condition) (info : Option Nat) (x : StreamId) : (s.raise c0 info).streamLen x = s.streamLen x := rfl
@[simp] theorem State.raise_n (c0 : Condition) (info : Option Nat) : (s.raise c0 info).n = s.n := rfl
@[simp] theorem State.raise_elem (c0 : Condition) (info : Option Nat) (x : StreamId) (a : Nat) : (s.raise c0 info).elem x a = s.elem x a := rfl
@[simp] theorem State.raise_aAt (c0 : Condition) (info : Option Nat) (t : Nat) : (s.raise c0 info).aAt t = s.aAt t := rfl
@[simp] theorem State.raise_fAt (c0 : Condition) (info : Option Nat) (t : Nat) : (s.raise c0 info).fAt t = s.fAt t := rfl
@[simp] theorem State.raise_symbolIdx (c0 : Condition) (info : Option Nat) : (s.raise c0 info).symbolIdx = s.symbolIdx := rfl
@[simp] theorem State.ret_bufRead (r : Result) (a : Nat) : (s.ret r).bufRead a = s.bufRead a := rfl
@[simp] theorem State.ret_rawRead (r : Result) (a : Nat) : (s.ret r).rawRead a = s.rawRead a := rfl
@[simp] theorem State.ret_stream (r : Result) (x : StreamId) : (s.ret r).stream x = s.stream x := rfl
@[simp] theorem State.ret_len (r : Result) (c : Channel) : (s.ret r).len c = s.len c := rfl
@[simp] theorem State.ret_streamLen (r : Result) (x : StreamId) : (s.ret r).streamLen x = s.streamLen x := rfl
@[simp] theorem State.ret_n (r : Result) : (s.ret r).n = s.n := rfl
@[simp] theorem State.ret_elem (r : Result) (x : StreamId) (a : Nat) : (s.ret r).elem x a = s.elem x a := rfl
@[simp] theorem State.ret_aAt (r : Result) (t : Nat) : (s.ret r).aAt t = s.aAt t := rfl
@[simp] theorem State.ret_fAt (r : Result) (t : Nat) : (s.ret r).fAt t = s.fAt t := rfl
@[simp] theorem State.ret_symbolIdx (r : Result) : (s.ret r).symbolIdx = s.symbolIdx := rfl
@[simp] theorem State.finish_bufRead (o : AttemptOutcome) (a : Nat) : (s.finish o).bufRead a = s.bufRead a := rfl
@[simp] theorem State.finish_rawRead (o : AttemptOutcome) (a : Nat) : (s.finish o).rawRead a = s.rawRead a := rfl
@[simp] theorem State.finish_stream (o : AttemptOutcome) (x : StreamId) : (s.finish o).stream x = s.stream x := rfl
@[simp] theorem State.finish_len (o : AttemptOutcome) (c : Channel) : (s.finish o).len c = s.len c := rfl
@[simp] theorem State.finish_streamLen (o : AttemptOutcome) (x : StreamId) : (s.finish o).streamLen x = s.streamLen x := rfl
@[simp] theorem State.finish_n (o : AttemptOutcome) : (s.finish o).n = s.n := rfl
@[simp] theorem State.finish_elem (o : AttemptOutcome) (x : StreamId) (a : Nat) : (s.finish o).elem x a = s.elem x a := rfl
@[simp] theorem State.finish_aAt (o : AttemptOutcome) (t : Nat) : (s.finish o).aAt t = s.aAt t := rfl
@[simp] theorem State.finish_fAt (o : AttemptOutcome) (t : Nat) : (s.finish o).fAt t = s.fAt t := rfl
@[simp] theorem State.finish_symbolIdx (o : AttemptOutcome) : (s.finish o).symbolIdx = s.symbolIdx := rfl
@[simp] theorem State.bufWrite_rawRead (a0 : Nat) (v : Byte) (a' : Nat) : (s.bufWrite a0 v).rawRead a' = s.rawRead a' := rfl
@[simp] theorem State.bufWrite_stream (a0 : Nat) (v : Byte) (x : StreamId) : (s.bufWrite a0 v).stream x = s.stream x := rfl
@[simp] theorem State.bufWrite_len (a0 : Nat) (v : Byte) (c : Channel) : (s.bufWrite a0 v).len c = s.len c := rfl
@[simp] theorem State.bufWrite_streamLen (a0 : Nat) (v : Byte) (x : StreamId) : (s.bufWrite a0 v).streamLen x = s.streamLen x := rfl
@[simp] theorem State.bufWrite_n (a0 : Nat) (v : Byte) : (s.bufWrite a0 v).n = s.n := rfl
@[simp] theorem State.bufWrite_elem (a0 : Nat) (v : Byte) (x : StreamId) (a' : Nat) : (s.bufWrite a0 v).elem x a' = s.elem x a' := rfl
@[simp] theorem State.bufWrite_aAt (a0 : Nat) (v : Byte) (t : Nat) : (s.bufWrite a0 v).aAt t = s.aAt t := rfl
@[simp] theorem State.bufWrite_fAt (a0 : Nat) (v : Byte) (t : Nat) : (s.bufWrite a0 v).fAt t = s.fAt t := rfl
@[simp] theorem State.bufWrite_symbolIdx (a0 : Nat) (v : Byte) : (s.bufWrite a0 v).symbolIdx = s.symbolIdx := rfl
@[simp] theorem State.setRecord_bufRead (r : Record) (a : Nat) : (s.setRecord r).bufRead a = s.bufRead a := rfl
@[simp] theorem State.setRecord_rawRead (r : Record) (a : Nat) : (s.setRecord r).rawRead a = s.rawRead a := rfl
@[simp] theorem State.setRecord_stream (r : Record) (x : StreamId) : (s.setRecord r).stream x = s.stream x := rfl
@[simp] theorem State.setRecord_len (r : Record) (c : Channel) : (s.setRecord r).len c = s.len c := rfl
@[simp] theorem State.setRecord_streamLen (r : Record) (x : StreamId) : (s.setRecord r).streamLen x = s.streamLen x := rfl
@[simp] theorem State.setRecord_n (r : Record) : (s.setRecord r).n = s.n := rfl
@[simp] theorem State.setRecord_elem (r : Record) (x : StreamId) (a : Nat) : (s.setRecord r).elem x a = s.elem x a := rfl
@[simp] theorem State.setRecord_aAt (r : Record) (t : Nat) : (s.setRecord r).aAt t = s.aAt t := rfl
@[simp] theorem State.setRecord_fAt (r : Record) (t : Nat) : (s.setRecord r).fAt t = s.fAt t := rfl
@[simp] theorem State.setRecord_symbolIdx (r : Record) : (s.setRecord r).symbolIdx = s.symbolIdx := rfl
@[simp] theorem State.selectMessage_bufRead (o : Byte) (b0 : BodyLen) (a : Nat) : (s.selectMessage o b0).bufRead a = s.bufRead a := rfl
@[simp] theorem State.selectMessage_rawRead (o : Byte) (b0 : BodyLen) (a : Nat) : (s.selectMessage o b0).rawRead a = s.rawRead a := rfl
@[simp] theorem State.selectMessage_stream (o : Byte) (b0 : BodyLen) (x : StreamId) : (s.selectMessage o b0).stream x = s.stream x := rfl
@[simp] theorem State.selectMessage_len (o : Byte) (b0 : BodyLen) (c : Channel) : (s.selectMessage o b0).len c = s.len c := rfl
@[simp] theorem State.selectMessage_streamLen (o : Byte) (b0 : BodyLen) (x : StreamId) : (s.selectMessage o b0).streamLen x = s.streamLen x := rfl
@[simp] theorem State.selectMessage_n (o : Byte) (b0 : BodyLen) : (s.selectMessage o b0).n = s.n := rfl
@[simp] theorem State.selectMessage_elem (o : Byte) (b0 : BodyLen) (x : StreamId) (a : Nat) : (s.selectMessage o b0).elem x a = s.elem x a := rfl
@[simp] theorem State.selectMessage_aAt (o : Byte) (b0 : BodyLen) (t : Nat) : (s.selectMessage o b0).aAt t = s.aAt t := rfl
@[simp] theorem State.selectMessage_fAt (o : Byte) (b0 : BodyLen) (t : Nat) : (s.selectMessage o b0).fAt t = s.fAt t := rfl
@[simp] theorem State.selectMessage_symbolIdx (o : Byte) (b0 : BodyLen) : (s.selectMessage o b0).symbolIdx = s.symbolIdx := rfl
@[simp] theorem State.endDeframe_bufRead (a : Nat) : s.endDeframe.bufRead a = s.bufRead a := rfl
@[simp] theorem State.endDeframe_rawRead (a : Nat) : s.endDeframe.rawRead a = s.rawRead a := rfl
@[simp] theorem State.endDeframe_stream (x : StreamId) : s.endDeframe.stream x = s.stream x := rfl
@[simp] theorem State.endDeframe_len (c : Channel) : s.endDeframe.len c = s.len c := rfl
@[simp] theorem State.endDeframe_streamLen (x : StreamId) : s.endDeframe.streamLen x = s.streamLen x := rfl
@[simp] theorem State.endDeframe_n : s.endDeframe.n = s.n := rfl
@[simp] theorem State.endDeframe_elem (x : StreamId) (a : Nat) : s.endDeframe.elem x a = s.elem x a := rfl
@[simp] theorem State.endDeframe_aAt (t : Nat) : s.endDeframe.aAt t = s.aAt t := rfl
@[simp] theorem State.endDeframe_fAt (t : Nat) : s.endDeframe.fAt t = s.fAt t := rfl
@[simp] theorem State.endDeframe_symbolIdx : s.endDeframe.symbolIdx = s.symbolIdx := rfl
@[simp] theorem State.streamStart_bufRead (a : Nat) : s.streamStart.bufRead a = s.bufRead a := rfl
@[simp] theorem State.streamStart_rawRead (a : Nat) : s.streamStart.rawRead a = s.rawRead a := rfl
@[simp] theorem State.streamStart_stream (x : StreamId) : s.streamStart.stream x = s.stream x := rfl
@[simp] theorem State.streamStart_len (c : Channel) : s.streamStart.len c = s.len c := rfl
@[simp] theorem State.streamStart_streamLen (x : StreamId) : s.streamStart.streamLen x = s.streamLen x := rfl
@[simp] theorem State.streamStart_n : s.streamStart.n = s.n := rfl
@[simp] theorem State.streamStart_elem (x : StreamId) (a : Nat) : s.streamStart.elem x a = s.elem x a := rfl
@[simp] theorem State.streamStart_aAt (t : Nat) : s.streamStart.aAt t = s.aAt t := rfl
@[simp] theorem State.streamStart_fAt (t : Nat) : s.streamStart.fAt t = s.fAt t := rfl
@[simp] theorem State.streamStart_symbolIdx : s.streamStart.symbolIdx = s.symbolIdx := rfl
@[simp] theorem State.setI_bufRead (a0 : Nat) (a : Nat) : (s.setI a0).bufRead a = s.bufRead a := rfl
@[simp] theorem State.setI_rawRead (a0 : Nat) (a : Nat) : (s.setI a0).rawRead a = s.rawRead a := rfl
@[simp] theorem State.setI_stream (a0 : Nat) (x : StreamId) : (s.setI a0).stream x = s.stream x := rfl
@[simp] theorem State.setI_len (a0 : Nat) (c : Channel) : (s.setI a0).len c = s.len c := rfl
@[simp] theorem State.setI_streamLen (a0 : Nat) (x : StreamId) : (s.setI a0).streamLen x = s.streamLen x := rfl
@[simp] theorem State.setI_n (a0 : Nat) : (s.setI a0).n = s.n := rfl
@[simp] theorem State.setI_elem (a0 : Nat) (x : StreamId) (a : Nat) : (s.setI a0).elem x a = s.elem x a := rfl
@[simp] theorem State.setI_aAt (a0 : Nat) (t : Nat) : (s.setI a0).aAt t = s.aAt t := rfl
@[simp] theorem State.setI_fAt (a0 : Nat) (t : Nat) : (s.setI a0).fAt t = s.fAt t := rfl
@[simp] theorem State.setI_symbolIdx (a0 : Nat) : (s.setI a0).symbolIdx = s.symbolIdx := rfl
@[simp] theorem State.setFetch_bufRead (f : Fetch) (a : Nat) : (s.setFetch f).bufRead a = s.bufRead a := rfl
@[simp] theorem State.setFetch_rawRead (f : Fetch) (a : Nat) : (s.setFetch f).rawRead a = s.rawRead a := rfl
@[simp] theorem State.setFetch_stream (f : Fetch) (x : StreamId) : (s.setFetch f).stream x = s.stream x := rfl
@[simp] theorem State.setFetch_len (f : Fetch) (c : Channel) : (s.setFetch f).len c = s.len c := rfl
@[simp] theorem State.setFetch_streamLen (f : Fetch) (x : StreamId) : (s.setFetch f).streamLen x = s.streamLen x := rfl
@[simp] theorem State.setFetch_n (f : Fetch) : (s.setFetch f).n = s.n := rfl
@[simp] theorem State.setFetch_elem (f : Fetch) (x : StreamId) (a : Nat) : (s.setFetch f).elem x a = s.elem x a := rfl
@[simp] theorem State.setFetch_aAt (f : Fetch) (t : Nat) : (s.setFetch f).aAt t = s.aAt t := rfl
@[simp] theorem State.setFetch_fAt (f : Fetch) (t : Nat) : (s.setFetch f).fAt t = s.fAt t := rfl
@[simp] theorem State.setFetch_symbolIdx (f : Fetch) : (s.setFetch f).symbolIdx = s.symbolIdx := rfl
@[simp] theorem State.setArgCh_bufRead (c0 : Channel) (a : Nat) : (s.setArgCh c0).bufRead a = s.bufRead a := rfl
@[simp] theorem State.setArgCh_rawRead (c0 : Channel) (a : Nat) : (s.setArgCh c0).rawRead a = s.rawRead a := rfl
@[simp] theorem State.setArgCh_stream (c0 : Channel) (x : StreamId) : (s.setArgCh c0).stream x = s.stream x := rfl
@[simp] theorem State.setArgCh_len (c0 : Channel) (c : Channel) : (s.setArgCh c0).len c = s.len c := rfl
@[simp] theorem State.setArgCh_streamLen (c0 : Channel) (x : StreamId) : (s.setArgCh c0).streamLen x = s.streamLen x := rfl
@[simp] theorem State.setArgCh_n (c0 : Channel) : (s.setArgCh c0).n = s.n := rfl
@[simp] theorem State.setArgCh_elem (c0 : Channel) (x : StreamId) (a : Nat) : (s.setArgCh c0).elem x a = s.elem x a := rfl
@[simp] theorem State.setArgCh_aAt (c0 : Channel) (t : Nat) : (s.setArgCh c0).aAt t = s.aAt t := rfl
@[simp] theorem State.setArgCh_fAt (c0 : Channel) (t : Nat) : (s.setArgCh c0).fAt t = s.fAt t := rfl
@[simp] theorem State.setArgCh_symbolIdx (c0 : Channel) : (s.setArgCh c0).symbolIdx = s.symbolIdx := rfl
@[simp] theorem State.appendSink_bufRead (x0 : SinkItem) (a : Nat) : (s.appendSink x0).bufRead a = s.bufRead a := rfl
@[simp] theorem State.appendSink_rawRead (x0 : SinkItem) (a : Nat) : (s.appendSink x0).rawRead a = s.rawRead a := rfl
@[simp] theorem State.appendSink_stream (x0 : SinkItem) (x : StreamId) : (s.appendSink x0).stream x = s.stream x := rfl
@[simp] theorem State.appendSink_len (x0 : SinkItem) (c : Channel) : (s.appendSink x0).len c = s.len c := rfl
@[simp] theorem State.appendSink_streamLen (x0 : SinkItem) (x : StreamId) : (s.appendSink x0).streamLen x = s.streamLen x := rfl
@[simp] theorem State.appendSink_n (x0 : SinkItem) : (s.appendSink x0).n = s.n := rfl
@[simp] theorem State.appendSink_elem (x0 : SinkItem) (x : StreamId) (a : Nat) : (s.appendSink x0).elem x a = s.elem x a := rfl
@[simp] theorem State.appendSink_aAt (x0 : SinkItem) (t : Nat) : (s.appendSink x0).aAt t = s.aAt t := rfl
@[simp] theorem State.appendSink_fAt (x0 : SinkItem) (t : Nat) : (s.appendSink x0).fAt t = s.fAt t := rfl
@[simp] theorem State.appendSink_symbolIdx (x0 : SinkItem) : (s.appendSink x0).symbolIdx = s.symbolIdx := rfl
@[simp] theorem State.setLength_bufRead (mid : BitVec 6) (blen : BodyLen) (short : Bool) (a : Nat) : (s.setLength mid blen short).bufRead a = s.bufRead a := rfl
@[simp] theorem State.setLength_rawRead (mid : BitVec 6) (blen : BodyLen) (short : Bool) (a : Nat) : (s.setLength mid blen short).rawRead a = s.rawRead a := rfl
@[simp] theorem State.setLength_stream (mid : BitVec 6) (blen : BodyLen) (short : Bool) (x : StreamId) : (s.setLength mid blen short).stream x = s.stream x := rfl
@[simp] theorem State.setLength_len (mid : BitVec 6) (blen : BodyLen) (short : Bool) (c : Channel) : (s.setLength mid blen short).len c = s.len c := rfl
@[simp] theorem State.setLength_streamLen (mid : BitVec 6) (blen : BodyLen) (short : Bool) (x : StreamId) : (s.setLength mid blen short).streamLen x = s.streamLen x := rfl
@[simp] theorem State.setLength_n (mid : BitVec 6) (blen : BodyLen) (short : Bool) : (s.setLength mid blen short).n = s.n := rfl
@[simp] theorem State.setLength_elem (mid : BitVec 6) (blen : BodyLen) (short : Bool) (x : StreamId) (a : Nat) : (s.setLength mid blen short).elem x a = s.elem x a := rfl
@[simp] theorem State.setLength_aAt (mid : BitVec 6) (blen : BodyLen) (short : Bool) (t : Nat) : (s.setLength mid blen short).aAt t = s.aAt t := rfl
@[simp] theorem State.setLength_fAt (mid : BitVec 6) (blen : BodyLen) (short : Bool) (t : Nat) : (s.setLength mid blen short).fAt t = s.fAt t := rfl
@[simp] theorem State.setLength_symbolIdx (mid : BitVec 6) (blen : BodyLen) (short : Bool) : (s.setLength mid blen short).symbolIdx = s.symbolIdx := rfl
@[simp] theorem State.setCrc_bufRead (c0 : Word16) (a : Nat) : (s.setCrc c0).bufRead a = s.bufRead a := rfl
@[simp] theorem State.setCrc_rawRead (c0 : Word16) (a : Nat) : (s.setCrc c0).rawRead a = s.rawRead a := rfl
@[simp] theorem State.setCrc_stream (c0 : Word16) (x : StreamId) : (s.setCrc c0).stream x = s.stream x := rfl
@[simp] theorem State.setCrc_len (c0 : Word16) (c : Channel) : (s.setCrc c0).len c = s.len c := rfl
@[simp] theorem State.setCrc_streamLen (c0 : Word16) (x : StreamId) : (s.setCrc c0).streamLen x = s.streamLen x := rfl
@[simp] theorem State.setCrc_n (c0 : Word16) : (s.setCrc c0).n = s.n := rfl
@[simp] theorem State.setCrc_elem (c0 : Word16) (x : StreamId) (a : Nat) : (s.setCrc c0).elem x a = s.elem x a := rfl
@[simp] theorem State.setCrc_aAt (c0 : Word16) (t : Nat) : (s.setCrc c0).aAt t = s.aAt t := rfl
@[simp] theorem State.setCrc_fAt (c0 : Word16) (t : Nat) : (s.setCrc c0).fAt t = s.fAt t := rfl
@[simp] theorem State.setCrc_symbolIdx (c0 : Word16) : (s.setCrc c0).symbolIdx = s.symbolIdx := rfl
@[simp] theorem State.setCheck_bufRead (crc fcs : Word16) (ok : Bool) (a : Nat) : (s.setCheck crc fcs ok).bufRead a = s.bufRead a := rfl
@[simp] theorem State.setCheck_rawRead (crc fcs : Word16) (ok : Bool) (a : Nat) : (s.setCheck crc fcs ok).rawRead a = s.rawRead a := rfl
@[simp] theorem State.setCheck_stream (crc fcs : Word16) (ok : Bool) (x : StreamId) : (s.setCheck crc fcs ok).stream x = s.stream x := rfl
@[simp] theorem State.setCheck_len (crc fcs : Word16) (ok : Bool) (c : Channel) : (s.setCheck crc fcs ok).len c = s.len c := rfl
@[simp] theorem State.setCheck_streamLen (crc fcs : Word16) (ok : Bool) (x : StreamId) : (s.setCheck crc fcs ok).streamLen x = s.streamLen x := rfl
@[simp] theorem State.setCheck_n (crc fcs : Word16) (ok : Bool) : (s.setCheck crc fcs ok).n = s.n := rfl
@[simp] theorem State.setCheck_elem (crc fcs : Word16) (ok : Bool) (x : StreamId) (a : Nat) : (s.setCheck crc fcs ok).elem x a = s.elem x a := rfl
@[simp] theorem State.setCheck_aAt (crc fcs : Word16) (ok : Bool) (t : Nat) : (s.setCheck crc fcs ok).aAt t = s.aAt t := rfl
@[simp] theorem State.setCheck_fAt (crc fcs : Word16) (ok : Bool) (t : Nat) : (s.setCheck crc fcs ok).fAt t = s.fAt t := rfl
@[simp] theorem State.setCheck_symbolIdx (crc fcs : Word16) (ok : Bool) : (s.setCheck crc fcs ok).symbolIdx = s.symbolIdx := rfl
@[simp] theorem State.clearFrame_rawRead (a : Nat) : s.clearFrame.rawRead a = s.rawRead a := rfl
@[simp] theorem State.clearFrame_stream (x : StreamId) : s.clearFrame.stream x = s.stream x := rfl
@[simp] theorem State.clearFrame_len (c : Channel) : s.clearFrame.len c = s.len c := rfl
@[simp] theorem State.clearFrame_streamLen (x : StreamId) : s.clearFrame.streamLen x = s.streamLen x := rfl
@[simp] theorem State.clearFrame_n : s.clearFrame.n = s.n := rfl
@[simp] theorem State.clearFrame_elem (x : StreamId) (a : Nat) : s.clearFrame.elem x a = s.elem x a := rfl
@[simp] theorem State.clearFrame_aAt (t : Nat) : s.clearFrame.aAt t = s.aAt t := rfl
@[simp] theorem State.clearFrame_fAt (t : Nat) : s.clearFrame.fAt t = s.fAt t := rfl
@[simp] theorem State.setIdx_bufRead (a0 : Nat) (a : Nat) : (s.setIdx a0).bufRead a = s.bufRead a := rfl
@[simp] theorem State.setIdx_rawRead (a0 : Nat) (a : Nat) : (s.setIdx a0).rawRead a = s.rawRead a := rfl
@[simp] theorem State.setIdx_stream (a0 : Nat) (x : StreamId) : (s.setIdx a0).stream x = s.stream x := rfl
@[simp] theorem State.setIdx_len (a0 : Nat) (c : Channel) : (s.setIdx a0).len c = s.len c := rfl
@[simp] theorem State.setIdx_streamLen (a0 : Nat) (x : StreamId) : (s.setIdx a0).streamLen x = s.streamLen x := rfl
@[simp] theorem State.setIdx_n (a0 : Nat) : (s.setIdx a0).n = s.n := rfl
@[simp] theorem State.setIdx_elem (a0 : Nat) (x : StreamId) (a : Nat) : (s.setIdx a0).elem x a = s.elem x a := rfl
@[simp] theorem State.setIdx_aAt (a0 : Nat) (t : Nat) : (s.setIdx a0).aAt t = s.aAt t := rfl
@[simp] theorem State.setIdx_fAt (a0 : Nat) (t : Nat) : (s.setIdx a0).fAt t = s.fAt t := rfl
@[simp] theorem State.setIdx_symbolIdx (a0 : Nat) : (s.setIdx a0).symbolIdx = s.symbolIdx := rfl
@[simp] theorem State.takeSymbol_bufRead (b0 : Bool) (a : Nat) : (s.takeSymbol b0).bufRead a = s.bufRead a := rfl
@[simp] theorem State.takeSymbol_rawRead (b0 : Bool) (a : Nat) : (s.takeSymbol b0).rawRead a = s.rawRead a := rfl
@[simp] theorem State.takeSymbol_stream (b0 : Bool) (x : StreamId) : (s.takeSymbol b0).stream x = s.stream x := rfl
@[simp] theorem State.takeSymbol_len (b0 : Bool) (c : Channel) : (s.takeSymbol b0).len c = s.len c := rfl
@[simp] theorem State.takeSymbol_streamLen (b0 : Bool) (x : StreamId) : (s.takeSymbol b0).streamLen x = s.streamLen x := rfl
@[simp] theorem State.takeSymbol_n (b0 : Bool) : (s.takeSymbol b0).n = s.n := rfl
@[simp] theorem State.takeSymbol_elem (b0 : Bool) (x : StreamId) (a : Nat) : (s.takeSymbol b0).elem x a = s.elem x a := rfl
@[simp] theorem State.takeSymbol_aAt (b0 : Bool) (t : Nat) : (s.takeSymbol b0).aAt t = s.aAt t := rfl
@[simp] theorem State.takeSymbol_fAt (b0 : Bool) (t : Nat) : (s.takeSymbol b0).fAt t = s.fAt t := rfl
@[simp] theorem State.setOut_bufRead (b0 : Bool) (a : Nat) : (s.setOut b0).bufRead a = s.bufRead a := rfl
@[simp] theorem State.setOut_rawRead (b0 : Bool) (a : Nat) : (s.setOut b0).rawRead a = s.rawRead a := rfl
@[simp] theorem State.setOut_stream (b0 : Bool) (x : StreamId) : (s.setOut b0).stream x = s.stream x := rfl
@[simp] theorem State.setOut_len (b0 : Bool) (c : Channel) : (s.setOut b0).len c = s.len c := rfl
@[simp] theorem State.setOut_streamLen (b0 : Bool) (x : StreamId) : (s.setOut b0).streamLen x = s.streamLen x := rfl
@[simp] theorem State.setOut_n (b0 : Bool) : (s.setOut b0).n = s.n := rfl
@[simp] theorem State.setOut_elem (b0 : Bool) (x : StreamId) (a : Nat) : (s.setOut b0).elem x a = s.elem x a := rfl
@[simp] theorem State.setOut_aAt (b0 : Bool) (t : Nat) : (s.setOut b0).aAt t = s.aAt t := rfl
@[simp] theorem State.setOut_fAt (b0 : Bool) (t : Nat) : (s.setOut b0).fAt t = s.fAt t := rfl
@[simp] theorem State.setOut_symbolIdx (b0 : Bool) : (s.setOut b0).symbolIdx = s.symbolIdx := rfl
@[simp] theorem State.setHist_bufRead (h : BitVec 5) (a : Nat) : (s.setHist h).bufRead a = s.bufRead a := rfl
@[simp] theorem State.setHist_rawRead (h : BitVec 5) (a : Nat) : (s.setHist h).rawRead a = s.rawRead a := rfl
@[simp] theorem State.setHist_stream (h : BitVec 5) (x : StreamId) : (s.setHist h).stream x = s.stream x := rfl
@[simp] theorem State.setHist_len (h : BitVec 5) (c : Channel) : (s.setHist h).len c = s.len c := rfl
@[simp] theorem State.setHist_streamLen (h : BitVec 5) (x : StreamId) : (s.setHist h).streamLen x = s.streamLen x := rfl
@[simp] theorem State.setHist_n (h : BitVec 5) : (s.setHist h).n = s.n := rfl
@[simp] theorem State.setHist_elem (h : BitVec 5) (x : StreamId) (a : Nat) : (s.setHist h).elem x a = s.elem x a := rfl
@[simp] theorem State.setHist_aAt (h : BitVec 5) (t : Nat) : (s.setHist h).aAt t = s.aAt t := rfl
@[simp] theorem State.setHist_fAt (h : BitVec 5) (t : Nat) : (s.setHist h).fAt t = s.fAt t := rfl
@[simp] theorem State.setHist_symbolIdx (h : BitVec 5) : (s.setHist h).symbolIdx = s.symbolIdx := rfl
@[simp] theorem State.countBit_bufRead (a : Nat) : s.countBit.bufRead a = s.bufRead a := rfl
@[simp] theorem State.countBit_rawRead (a : Nat) : s.countBit.rawRead a = s.rawRead a := rfl
@[simp] theorem State.countBit_stream (x : StreamId) : s.countBit.stream x = s.stream x := rfl
@[simp] theorem State.countBit_len (c : Channel) : s.countBit.len c = s.len c := rfl
@[simp] theorem State.countBit_streamLen (x : StreamId) : s.countBit.streamLen x = s.streamLen x := rfl
@[simp] theorem State.countBit_n : s.countBit.n = s.n := rfl
@[simp] theorem State.countBit_elem (x : StreamId) (a : Nat) : s.countBit.elem x a = s.elem x a := rfl
@[simp] theorem State.countBit_aAt (t : Nat) : s.countBit.aAt t = s.aAt t := rfl
@[simp] theorem State.countBit_fAt (t : Nat) : s.countBit.fAt t = s.fAt t := rfl
@[simp] theorem State.countBit_symbolIdx : s.countBit.symbolIdx = s.symbolIdx := rfl
@[simp] theorem State.setFOut_bufRead (y : List Int) (a : Nat) : (s.setFOut y).bufRead a = s.bufRead a := rfl
@[simp] theorem State.setFOut_rawRead (y : List Int) (a : Nat) : (s.setFOut y).rawRead a = s.rawRead a := rfl
@[simp] theorem State.setFOut_stream (y : List Int) (x : StreamId) : (s.setFOut y).stream x = s.stream x := rfl
@[simp] theorem State.setFOut_len (y : List Int) (c : Channel) : (s.setFOut y).len c = s.len c := rfl
@[simp] theorem State.setFOut_streamLen (y : List Int) (x : StreamId) : (s.setFOut y).streamLen x = s.streamLen x := rfl
@[simp] theorem State.setFOut_n (y : List Int) : (s.setFOut y).n = s.n := rfl
@[simp] theorem State.setFOut_elem (y : List Int) (x : StreamId) (a : Nat) : (s.setFOut y).elem x a = s.elem x a := rfl
@[simp] theorem State.setFOut_aAt (y : List Int) (t : Nat) : (s.setFOut y).aAt t = s.aAt t := rfl
@[simp] theorem State.setFOut_fAt (y : List Int) (t : Nat) : (s.setFOut y).fAt t = s.fAt t := rfl
@[simp] theorem State.setFOut_symbolIdx (y : List Int) : (s.setFOut y).symbolIdx = s.symbolIdx := rfl
@[simp] theorem State.setAOut_bufRead (y : List Int) (a : Nat) : (s.setAOut y).bufRead a = s.bufRead a := rfl
@[simp] theorem State.setAOut_rawRead (y : List Int) (a : Nat) : (s.setAOut y).rawRead a = s.rawRead a := rfl
@[simp] theorem State.setAOut_stream (y : List Int) (x : StreamId) : (s.setAOut y).stream x = s.stream x := rfl
@[simp] theorem State.setAOut_len (y : List Int) (c : Channel) : (s.setAOut y).len c = s.len c := rfl
@[simp] theorem State.setAOut_streamLen (y : List Int) (x : StreamId) : (s.setAOut y).streamLen x = s.streamLen x := rfl
@[simp] theorem State.setAOut_n (y : List Int) : (s.setAOut y).n = s.n := rfl
@[simp] theorem State.setAOut_elem (y : List Int) (x : StreamId) (a : Nat) : (s.setAOut y).elem x a = s.elem x a := rfl
@[simp] theorem State.setAOut_aAt (y : List Int) (t : Nat) : (s.setAOut y).aAt t = s.aAt t := rfl
@[simp] theorem State.setAOut_fAt (y : List Int) (t : Nat) : (s.setAOut y).fAt t = s.fAt t := rfl
@[simp] theorem State.setAOut_symbolIdx (y : List Int) : (s.setAOut y).symbolIdx = s.symbolIdx := rfl
@[simp] theorem State.setFirY_bufRead (y : Int) (a : Nat) : (s.setFirY y).bufRead a = s.bufRead a := rfl
@[simp] theorem State.setFirY_rawRead (y : Int) (a : Nat) : (s.setFirY y).rawRead a = s.rawRead a := rfl
@[simp] theorem State.setFirY_stream (y : Int) (x : StreamId) : (s.setFirY y).stream x = s.stream x := rfl
@[simp] theorem State.setFirY_len (y : Int) (c : Channel) : (s.setFirY y).len c = s.len c := rfl
@[simp] theorem State.setFirY_streamLen (y : Int) (x : StreamId) : (s.setFirY y).streamLen x = s.streamLen x := rfl
@[simp] theorem State.setFirY_n (y : Int) : (s.setFirY y).n = s.n := rfl
@[simp] theorem State.setFirY_elem (y : Int) (x : StreamId) (a : Nat) : (s.setFirY y).elem x a = s.elem x a := rfl
@[simp] theorem State.setFirY_aAt (y : Int) (t : Nat) : (s.setFirY y).aAt t = s.aAt t := rfl
@[simp] theorem State.setFirY_fAt (y : Int) (t : Nat) : (s.setFirY y).fAt t = s.fAt t := rfl
@[simp] theorem State.setFirY_symbolIdx (y : Int) : (s.setFirY y).symbolIdx = s.symbolIdx := rfl
@[simp] theorem State.setGate_bufRead (i run : Nat) (a : Nat) : (s.setGate i run).bufRead a = s.bufRead a := rfl
@[simp] theorem State.setGate_rawRead (i run : Nat) (a : Nat) : (s.setGate i run).rawRead a = s.rawRead a := rfl
@[simp] theorem State.setGate_stream (i run : Nat) (x : StreamId) : (s.setGate i run).stream x = s.stream x := rfl
@[simp] theorem State.setGate_len (i run : Nat) (c : Channel) : (s.setGate i run).len c = s.len c := rfl
@[simp] theorem State.setGate_streamLen (i run : Nat) (x : StreamId) : (s.setGate i run).streamLen x = s.streamLen x := rfl
@[simp] theorem State.setGate_n (i run : Nat) : (s.setGate i run).n = s.n := rfl
@[simp] theorem State.setGate_elem (i run : Nat) (x : StreamId) (a : Nat) : (s.setGate i run).elem x a = s.elem x a := rfl
@[simp] theorem State.setGate_aAt (i run : Nat) (t : Nat) : (s.setGate i run).aAt t = s.aAt t := rfl
@[simp] theorem State.setGate_fAt (i run : Nat) (t : Nat) : (s.setGate i run).fAt t = s.fAt t := rfl
@[simp] theorem State.setGate_symbolIdx (i run : Nat) : (s.setGate i run).symbolIdx = s.symbolIdx := rfl
@[simp] theorem State.setCorr_bufRead (r : CorrRegs) (a : Nat) : (s.setCorr r).bufRead a = s.bufRead a := rfl
@[simp] theorem State.setCorr_rawRead (r : CorrRegs) (a : Nat) : (s.setCorr r).rawRead a = s.rawRead a := rfl
@[simp] theorem State.setCorr_stream (r : CorrRegs) (x : StreamId) : (s.setCorr r).stream x = s.stream x := rfl
@[simp] theorem State.setCorr_len (r : CorrRegs) (c : Channel) : (s.setCorr r).len c = s.len c := rfl
@[simp] theorem State.setCorr_streamLen (r : CorrRegs) (x : StreamId) : (s.setCorr r).streamLen x = s.streamLen x := rfl
@[simp] theorem State.setCorr_n (r : CorrRegs) : (s.setCorr r).n = s.n := rfl
@[simp] theorem State.setCorr_elem (r : CorrRegs) (x : StreamId) (a : Nat) : (s.setCorr r).elem x a = s.elem x a := rfl
@[simp] theorem State.setCorr_aAt (r : CorrRegs) (t : Nat) : (s.setCorr r).aAt t = s.aAt t := rfl
@[simp] theorem State.setCorr_fAt (r : CorrRegs) (t : Nat) : (s.setCorr r).fAt t = s.fAt t := rfl
@[simp] theorem State.setCorr_symbolIdx (r : CorrRegs) : (s.setCorr r).symbolIdx = s.symbolIdx := rfl
@[simp] theorem State.setP0_bufRead (a0 : Nat) (a : Nat) : (s.setP0 a0).bufRead a = s.bufRead a := rfl
@[simp] theorem State.setP0_rawRead (a0 : Nat) (a : Nat) : (s.setP0 a0).rawRead a = s.rawRead a := rfl
@[simp] theorem State.setP0_stream (a0 : Nat) (x : StreamId) : (s.setP0 a0).stream x = s.stream x := rfl
@[simp] theorem State.setP0_len (a0 : Nat) (c : Channel) : (s.setP0 a0).len c = s.len c := rfl
@[simp] theorem State.setP0_streamLen (a0 : Nat) (x : StreamId) : (s.setP0 a0).streamLen x = s.streamLen x := rfl
@[simp] theorem State.setP0_n (a0 : Nat) : (s.setP0 a0).n = s.n := rfl
@[simp] theorem State.setP0_elem (a0 : Nat) (x : StreamId) (a : Nat) : (s.setP0 a0).elem x a = s.elem x a := rfl
@[simp] theorem State.setP0_aAt (a0 : Nat) (t : Nat) : (s.setP0 a0).aAt t = s.aAt t := rfl
@[simp] theorem State.setP0_fAt (a0 : Nat) (t : Nat) : (s.setP0 a0).fAt t = s.fAt t := rfl
@[simp] theorem State.takeBlock_bufRead (a : Nat) : s.takeBlock.bufRead a = s.bufRead a := rfl
@[simp] theorem State.takeBlock_stream (x : StreamId) : s.takeBlock.stream x = s.stream x := rfl
@[simp] theorem State.takeBlock_len (c : Channel) : s.takeBlock.len c = s.len c := rfl
@[simp] theorem State.takeBlock_streamLen (x : StreamId) : s.takeBlock.streamLen x = s.streamLen x := rfl
@[simp] theorem State.takeBlock_n : s.takeBlock.n = s.n := rfl
@[simp] theorem State.takeBlock_elem (x : StreamId) (a : Nat) : s.takeBlock.elem x a = s.elem x a := rfl
@[simp] theorem State.takeBlock_aAt (t : Nat) : s.takeBlock.aAt t = s.aAt t := rfl
@[simp] theorem State.takeBlock_fAt (t : Nat) : s.takeBlock.fAt t = s.fAt t := rfl
@[simp] theorem State.takeBlock_symbolIdx : s.takeBlock.symbolIdx = s.symbolIdx := rfl
@[simp] theorem State.dropPartial_bufRead (a : Nat) : s.dropPartial.bufRead a = s.bufRead a := rfl
@[simp] theorem State.dropPartial_stream (x : StreamId) : s.dropPartial.stream x = s.stream x := rfl
@[simp] theorem State.dropPartial_len (c : Channel) : s.dropPartial.len c = s.len c := rfl
@[simp] theorem State.dropPartial_streamLen (x : StreamId) : s.dropPartial.streamLen x = s.streamLen x := rfl
@[simp] theorem State.dropPartial_n : s.dropPartial.n = s.n := rfl
@[simp] theorem State.dropPartial_elem (x : StreamId) (a : Nat) : s.dropPartial.elem x a = s.elem x a := rfl
@[simp] theorem State.dropPartial_aAt (t : Nat) : s.dropPartial.aAt t = s.aAt t := rfl
@[simp] theorem State.dropPartial_fAt (t : Nat) : s.dropPartial.fAt t = s.fAt t := rfl
@[simp] theorem State.dropPartial_symbolIdx : s.dropPartial.symbolIdx = s.symbolIdx := rfl
@[simp] theorem State.setGbV_bufRead (v : Nat) (a : Nat) : (s.setGbV v).bufRead a = s.bufRead a := rfl
@[simp] theorem State.setGbV_rawRead (v : Nat) (a : Nat) : (s.setGbV v).rawRead a = s.rawRead a := rfl
@[simp] theorem State.setGbV_stream (v : Nat) (x : StreamId) : (s.setGbV v).stream x = s.stream x := rfl
@[simp] theorem State.setGbV_len (v : Nat) (c : Channel) : (s.setGbV v).len c = s.len c := rfl
@[simp] theorem State.setGbV_streamLen (v : Nat) (x : StreamId) : (s.setGbV v).streamLen x = s.streamLen x := rfl
@[simp] theorem State.setGbV_n (v : Nat) : (s.setGbV v).n = s.n := rfl
@[simp] theorem State.setGbV_elem (v : Nat) (x : StreamId) (a : Nat) : (s.setGbV v).elem x a = s.elem x a := rfl
@[simp] theorem State.setGbV_aAt (v : Nat) (t : Nat) : (s.setGbV v).aAt t = s.aAt t := rfl
@[simp] theorem State.setGbV_fAt (v : Nat) (t : Nat) : (s.setGbV v).fAt t = s.fAt t := rfl
@[simp] theorem State.setGbV_symbolIdx (v : Nat) : (s.setGbV v).symbolIdx = s.symbolIdx := rfl
@[simp] theorem State.enter_bufRead (sub : SubPhase) (a : Nat) : (s.enter sub).bufRead a = s.bufRead a := rfl
@[simp] theorem State.enter_rawRead (sub : SubPhase) (a : Nat) : (s.enter sub).rawRead a = s.rawRead a := rfl
@[simp] theorem State.enter_stream (sub : SubPhase) (x : StreamId) : (s.enter sub).stream x = s.stream x := rfl
@[simp] theorem State.enter_len (sub : SubPhase) (c : Channel) : (s.enter sub).len c = s.len c := rfl
@[simp] theorem State.enter_streamLen (sub : SubPhase) (x : StreamId) : (s.enter sub).streamLen x = s.streamLen x := rfl
@[simp] theorem State.enter_n (sub : SubPhase) : (s.enter sub).n = s.n := rfl
@[simp] theorem State.enter_elem (sub : SubPhase) (x : StreamId) (a : Nat) : (s.enter sub).elem x a = s.elem x a := rfl
@[simp] theorem State.enter_aAt (sub : SubPhase) (t : Nat) : (s.enter sub).aAt t = s.aAt t := rfl
@[simp] theorem State.enter_fAt (sub : SubPhase) (t : Nat) : (s.enter sub).fAt t = s.fAt t := rfl
@[simp] theorem State.enter_symbolIdx (sub : SubPhase) : (s.enter sub).symbolIdx = s.symbolIdx := rfl
@[simp] theorem State.beginScan_bufRead (c0 : Channel) (a : Nat) : (s.beginScan c0).bufRead a = s.bufRead a := rfl
@[simp] theorem State.beginScan_rawRead (c0 : Channel) (a : Nat) : (s.beginScan c0).rawRead a = s.rawRead a := rfl
@[simp] theorem State.beginScan_stream (c0 : Channel) (x : StreamId) : (s.beginScan c0).stream x = s.stream x := rfl
@[simp] theorem State.beginScan_len (c0 : Channel) (c : Channel) : (s.beginScan c0).len c = s.len c := rfl
@[simp] theorem State.beginScan_streamLen (c0 : Channel) (x : StreamId) : (s.beginScan c0).streamLen x = s.streamLen x := rfl
@[simp] theorem State.beginScan_elem (c0 : Channel) (x : StreamId) (a : Nat) : (s.beginScan c0).elem x a = s.elem x a := rfl
@[simp] theorem State.beginScan_symbolIdx (c0 : Channel) : (s.beginScan c0).symbolIdx = s.symbolIdx := rfl

/-! ### `storePair` -/

@[simp] theorem State.storePair_one_i1 (yI yQ : List Int) (len : Nat) : (s.storePair .one yI yQ len).i1 = overlay yI s.i1 := rfl
@[simp] theorem State.storePair_one_q1 (yI yQ : List Int) (len : Nat) : (s.storePair .one yI yQ len).q1 = overlay yQ s.q1 := rfl
@[simp] theorem State.storePair_one_i2 (yI yQ : List Int) (len : Nat) : (s.storePair .one yI yQ len).i2 = s.i2 := rfl
@[simp] theorem State.storePair_one_q2 (yI yQ : List Int) (len : Nat) : (s.storePair .one yI yQ len).q2 = s.q2 := rfl
@[simp] theorem State.storePair_one_len1 (yI yQ : List Int) (len : Nat) : (s.storePair .one yI yQ len).len1 = len := rfl
@[simp] theorem State.storePair_one_len2 (yI yQ : List Int) (len : Nat) : (s.storePair .one yI yQ len).len2 = s.len2 := rfl
@[simp] theorem State.storePair_two_i1 (yI yQ : List Int) (len : Nat) : (s.storePair .two yI yQ len).i1 = s.i1 := rfl
@[simp] theorem State.storePair_two_q1 (yI yQ : List Int) (len : Nat) : (s.storePair .two yI yQ len).q1 = s.q1 := rfl
@[simp] theorem State.storePair_two_i2 (yI yQ : List Int) (len : Nat) : (s.storePair .two yI yQ len).i2 = overlay yI s.i2 := rfl
@[simp] theorem State.storePair_two_q2 (yI yQ : List Int) (len : Nat) : (s.storePair .two yI yQ len).q2 = overlay yQ s.q2 := rfl
@[simp] theorem State.storePair_two_len1 (yI yQ : List Int) (len : Nat) : (s.storePair .two yI yQ len).len1 = s.len1 := rfl
@[simp] theorem State.storePair_two_len2 (yI yQ : List Int) (len : Nat) : (s.storePair .two yI yQ len).len2 = len := rfl
@[simp] theorem State.storePair_cfg (c : Channel) (yI yQ : List Int) (len : Nat) :
    (s.storePair c yI yQ len).cfg = s.cfg := by cases c <;> rfl
@[simp] theorem State.storePair_src (c : Channel) (yI yQ : List Int) (len : Nat) :
    (s.storePair c yI yQ len).src = s.src := by cases c <;> rfl
@[simp] theorem State.storePair_srcClosed (c : Channel) (yI yQ : List Int) (len : Nat) :
    (s.storePair c yI yQ len).srcClosed = s.srcClosed := by cases c <;> rfl
@[simp] theorem State.storePair_sink (c : Channel) (yI yQ : List Int) (len : Nat) :
    (s.storePair c yI yQ len).sink = s.sink := by cases c <;> rfl
@[simp] theorem State.storePair_phase (c : Channel) (yI yQ : List Int) (len : Nat) :
    (s.storePair c yI yQ len).phase = s.phase := by cases c <;> rfl
@[simp] theorem State.storePair_started (c : Channel) (yI yQ : List Int) (len : Nat) :
    (s.storePair c yI yQ len).started = s.started := by cases c <;> rfl
@[simp] theorem State.storePair_fetch (c : Channel) (yI yQ : List Int) (len : Nat) :
    (s.storePair c yI yQ len).fetch = s.fetch := by cases c <;> rfl
@[simp] theorem State.storePair_res (c : Channel) (yI yQ : List Int) (len : Nat) :
    (s.storePair c yI yQ len).res = s.res := by cases c <;> rfl
@[simp] theorem State.storePair_resume (c : Channel) (yI yQ : List Int) (len : Nat) :
    (s.storePair c yI yQ len).resume = s.resume := by cases c <;> rfl
@[simp] theorem State.storePair_raw (c : Channel) (yI yQ : List Int) (len : Nat) :
    (s.storePair c yI yQ len).raw = s.raw := by cases c <;> rfl
@[simp] theorem State.storePair_rawEpoch (c : Channel) (yI yQ : List Int) (len : Nat) :
    (s.storePair c yI yQ len).rawEpoch = s.rawEpoch := by cases c <;> rfl
@[simp] theorem State.storePair_buf (c : Channel) (yI yQ : List Int) (len : Nat) :
    (s.storePair c yI yQ len).buf = s.buf := by cases c <;> rfl
@[simp] theorem State.storePair_epoch (c : Channel) (yI yQ : List Int) (len : Nat) :
    (s.storePair c yI yQ len).epoch = s.epoch := by cases c <;> rfl
@[simp] theorem State.storePair_fOut (c : Channel) (yI yQ : List Int) (len : Nat) :
    (s.storePair c yI yQ len).fOut = s.fOut := by cases c <;> rfl
@[simp] theorem State.storePair_aOut (c : Channel) (yI yQ : List Int) (len : Nat) :
    (s.storePair c yI yQ len).aOut = s.aOut := by cases c <;> rfl
@[simp] theorem State.storePair_ch (c : Channel) (yI yQ : List Int) (len : Nat) :
    (s.storePair c yI yQ len).ch = s.ch := by cases c <;> rfl
@[simp] theorem State.storePair_i (c : Channel) (yI yQ : List Int) (len : Nat) :
    (s.storePair c yI yQ len).i = s.i := by cases c <;> rfl
@[simp] theorem State.storePair_run (c : Channel) (yI yQ : List Int) (len : Nat) :
    (s.storePair c yI yQ len).run = s.run := by cases c <;> rfl
@[simp] theorem State.storePair_k (c : Channel) (yI yQ : List Int) (len : Nat) :
    (s.storePair c yI yQ len).k = s.k := by cases c <;> rfl
@[simp] theorem State.storePair_j (c : Channel) (yI yQ : List Int) (len : Nat) :
    (s.storePair c yI yQ len).j = s.j := by cases c <;> rfl
@[simp] theorem State.storePair_score (c : Channel) (yI yQ : List Int) (len : Nat) :
    (s.storePair c yI yQ len).score = s.score := by cases c <;> rfl
@[simp] theorem State.storePair_smax (c : Channel) (yI yQ : List Int) (len : Nat) :
    (s.storePair c yI yQ len).smax = s.smax := by cases c <;> rfl
@[simp] theorem State.storePair_imax (c : Channel) (yI yQ : List Int) (len : Nat) :
    (s.storePair c yI yQ len).imax = s.imax := by cases c <;> rfl
@[simp] theorem State.storePair_p0 (c : Channel) (yI yQ : List Int) (len : Nat) :
    (s.storePair c yI yQ len).p0 = s.p0 := by cases c <;> rfl
@[simp] theorem State.storePair_m (c : Channel) (yI yQ : List Int) (len : Nat) :
    (s.storePair c yI yQ len).m = s.m := by cases c <;> rfl
@[simp] theorem State.storePair_idx (c : Channel) (yI yQ : List Int) (len : Nat) :
    (s.storePair c yI yQ len).idx = s.idx := by cases c <;> rfl
@[simp] theorem State.storePair_prev (c : Channel) (yI yQ : List Int) (len : Nat) :
    (s.storePair c yI yQ len).prev = s.prev := by cases c <;> rfl
@[simp] theorem State.storePair_hist (c : Channel) (yI yQ : List Int) (len : Nat) :
    (s.storePair c yI yQ len).hist = s.hist := by cases c <;> rfl
@[simp] theorem State.storePair_wp (c : Channel) (yI yQ : List Int) (len : Nat) :
    (s.storePair c yI yQ len).wp = s.wp := by cases c <;> rfl
@[simp] theorem State.storePair_bp (c : Channel) (yI yQ : List Int) (len : Nat) :
    (s.storePair c yI yQ len).bp = s.bp := by cases c <;> rfl
@[simp] theorem State.storePair_nbits (c : Channel) (yI yQ : List Int) (len : Nat) :
    (s.storePair c yI yQ len).nbits = s.nbits := by cases c <;> rfl
@[simp] theorem State.storePair_sym (c : Channel) (yI yQ : List Int) (len : Nat) :
    (s.storePair c yI yQ len).sym = s.sym := by cases c <;> rfl
@[simp] theorem State.storePair_out (c : Channel) (yI yQ : List Int) (len : Nat) :
    (s.storePair c yI yQ len).out = s.out := by cases c <;> rfl
@[simp] theorem State.storePair_mid (c : Channel) (yI yQ : List Int) (len : Nat) :
    (s.storePair c yI yQ len).mid = s.mid := by cases c <;> rfl
@[simp] theorem State.storePair_blen (c : Channel) (yI yQ : List Int) (len : Nat) :
    (s.storePair c yI yQ len).blen = s.blen := by cases c <;> rfl
@[simp] theorem State.storePair_crc (c : Channel) (yI yQ : List Int) (len : Nat) :
    (s.storePair c yI yQ len).crc = s.crc := by cases c <;> rfl
@[simp] theorem State.storePair_fcs (c : Channel) (yI yQ : List Int) (len : Nat) :
    (s.storePair c yI yQ len).fcs = s.fcs := by cases c <;> rfl
@[simp] theorem State.storePair_record (c : Channel) (yI yQ : List Int) (len : Nat) :
    (s.storePair c yI yQ len).record = s.record := by cases c <;> rfl
@[simp] theorem State.storePair_sync (c : Channel) (yI yQ : List Int) (len : Nat) :
    (s.storePair c yI yQ len).sync = s.sync := by cases c <;> rfl
@[simp] theorem State.storePair_pol (c : Channel) (yI yQ : List Int) (len : Nat) :
    (s.storePair c yI yQ len).pol = s.pol := by cases c <;> rfl
@[simp] theorem State.storePair_short (c : Channel) (yI yQ : List Int) (len : Nat) :
    (s.storePair c yI yQ len).short = s.short := by cases c <;> rfl
@[simp] theorem State.storePair_crcOk (c : Channel) (yI yQ : List Int) (len : Nat) :
    (s.storePair c yI yQ len).crcOk = s.crcOk := by cases c <;> rfl
@[simp] theorem State.storePair_argCh (c : Channel) (yI yQ : List Int) (len : Nat) :
    (s.storePair c yI yQ len).argCh = s.argCh := by cases c <;> rfl
@[simp] theorem State.storePair_firX (c : Channel) (yI yQ : List Int) (len : Nat) :
    (s.storePair c yI yQ len).firX = s.firX := by cases c <;> rfl
@[simp] theorem State.storePair_firH (c : Channel) (yI yQ : List Int) (len : Nat) :
    (s.storePair c yI yQ len).firH = s.firH := by cases c <;> rfl
@[simp] theorem State.storePair_firN (c : Channel) (yI yQ : List Int) (len : Nat) :
    (s.storePair c yI yQ len).firN = s.firN := by cases c <;> rfl
@[simp] theorem State.storePair_firY (c : Channel) (yI yQ : List Int) (len : Nat) :
    (s.storePair c yI yQ len).firY = s.firY := by cases c <;> rfl
@[simp] theorem State.storePair_crcD (c : Channel) (yI yQ : List Int) (len : Nat) :
    (s.storePair c yI yQ len).crcD = s.crcD := by cases c <;> rfl
@[simp] theorem State.storePair_gbO (c : Channel) (yI yQ : List Int) (len : Nat) :
    (s.storePair c yI yQ len).gbO = s.gbO := by cases c <;> rfl
@[simp] theorem State.storePair_gbW (c : Channel) (yI yQ : List Int) (len : Nat) :
    (s.storePair c yI yQ len).gbW = s.gbW := by cases c <;> rfl
@[simp] theorem State.storePair_gbV (c : Channel) (yI yQ : List Int) (len : Nat) :
    (s.storePair c yI yQ len).gbV = s.gbV := by cases c <;> rfl

end Sys2Proof.Machine
end

