-- ==== Sys2Proof/Laws/Ops.lean ====
section
/-! SUPPORT. One lemma per shared operation that says everything it can do. -/

namespace Sys2Proof.Machine

/-! ### Sequencing two operations -/

@[simp] theorem seqOp_next (s : State) (f : State → StepOutcome) : seqOp (.next s) f = f s := rfl

@[simp] theorem seqOp_fault (r : Fault) (f : State → StepOutcome) : seqOp (.fault r) f = .fault r := rfl

@[simp] theorem seqOp_refused (r : Refusal) (f : State → StepOutcome) : seqOp (.refused r) f = .refused r := rfl

/-- What follows a part that answers a next state. A rewrite with it goes one part at a time, where simplifying a whole
composite operation visits every part under its binder. -/
theorem seqOp_of {o : StepOutcome} {s : State} (h : o = .next s) (f : State → StepOutcome) : seqOp o f = f s := by
  rw [h]; rfl

/-- A sequence answers a next state exactly when both parts do. -/
theorem seqOp_eq_next {o : StepOutcome} {f : State → StepOutcome} {t : State} :
    seqOp o f = .next t ↔ ∃ s, o = .next s ∧ f s = .next t := by
  cases o <;> simp

theorem seqOp_assoc (o : StepOutcome) (f g : State → StepOutcome) :
    seqOp (seqOp o f) g = seqOp o fun s => seqOp (f s) g := by
  cases o <;> rfl

/-! ### Stream buffers -/

theorem overlay_length (y x : List Int) : (overlay y x).length = max y.length x.length := by
  simp only [overlay, List.length_append, List.length_drop]
  omega

/-- An overlaid buffer holds the new elements below their count and the old ones beyond it. -/
theorem overlay_getElem? (y x : List Int) (a : Nat) :
    (overlay y x)[a]? = if a < y.length then y[a]? else x[a]? := by
  by_cases h : a < y.length
  · rw [overlay, List.getElem?_append_left h, if_pos h]
  · simp only [overlay, h, if_false]
    rw [List.getElem?_append_right (by omega), List.getElem?_drop]
    congr 1
    omega

theorem elem?_eq_some {s : State} {x : StreamId} {a : Nat} {v : Int} :
    s.elem? x a = some v ↔ a < s.streamLen x ∧ s.elem x a = v := by
  simp [State.elem?]

theorem elem?_eq_none {s : State} {x : StreamId} {a : Nat} : s.elem? x a = none ↔ s.streamLen x ≤ a := by
  simp [State.elem?]

@[simp] theorem streamLen_iStream (s : State) (c : Channel) : s.streamLen c.iStream = s.len c := by
  cases c <;> rfl

@[simp] theorem streamLen_qStream (s : State) (c : Channel) : s.streamLen c.qStream = s.len c := by
  cases c <;> rfl

/-- A stage's output laid over a buffer: the outputs in order, then what the buffer held. -/
theorem overlay_map_range (f : Nat → Int) (n : Nat) (x : List Int) (a : Nat) :
    (overlay ((List.range n).map f) x)[a]? = if a < n then some (f a) else x[a]? := by
  rw [overlay_getElem?]
  by_cases h : a < n <;> simp [h]

/-- An element that has been written reads as what was written. -/
theorem elem_of_getElem? {s : State} {x : StreamId} {a : Nat} {v : Int} (h : (s.stream x)[a]? = some v) :
    s.elem x a = v := by
  simp [State.elem, h]

/-! ### Tests on numbers -/

theorem tailTooShort_iff {n i : Nat} : tailTooShort n i = true ↔ n < i + 500 := decide_eq_true_iff

theorem scanContinues_iff {n i : Nat} : scanContinues n i = true ↔ i + 500 ≤ n := decide_eq_true_iff

theorem shortFlag_iff {nbits : Nat} {b : BodyLen} : shortFlag nbits b = true ↔ nbits < 8 * (b.octets + 2) :=
  decide_eq_true_iff

theorem syncFlag_iff {smax : Int} : syncFlag smax = true ↔ smax ≠ 0 := bne_iff_ne

theorem crcOkFlag_iff {crc fcs : Word16} : crcOkFlag crc fcs = true ↔ crc = fcs := beq_iff_eq

/-! ### Conditions -/

/-- Raising a condition writes the returned outcome and the resume index, and nothing else (R170, R179). -/
theorem raise_eq (s : State) (c : Condition) (info : Option Nat) :
    s.raise c info = { s with res := .raised c, resume := info.getD s.resume } := rfl

@[simp] theorem hasRaised_raise (s : State) (c d : Condition) (info : Option Nat) :
    (s.raise c info).hasRaised d = (c == d) := by
  cases c <;> cases d <;> rfl

@[simp] theorem hasRaised_ret_plain (s : State) (c : Condition) : (s.ret .plain).hasRaised c = false := by
  cases c <;> rfl

/-! ### Symbol grid -/

theorem le_off (q : Nat) : 5 * q ≤ off q := by unfold off; omega

theorem off_mono {a b : Nat} (h : a ≤ b) : off a ≤ off b := by unfold off; omega

end Sys2Proof.Machine
end

