-- ==== Sys2Proof/Laws/Deframer.lean ====
section
/-! SUPPORT. What PACK, the deframer loop and DEFRAME can answer. -/

namespace Sys2Proof.Machine

/-- PACK's OR sets one bit of the octet (R118). -/
theorem packBit_getLsbD (o : Byte) (bp : Nat) (b : Bool) (p : Nat) (hp : p < 8) :
    (packBit o bp b).getLsbD p = (o.getLsbD p || (decide (p = bp) && b)) := by
  simp only [packBit, BitVec.getLsbD_or, BitVec.getLsbD_shiftLeft, BitVec.getLsbD_setWidth, BitVec.getLsbD_ofBool, hp]
  congr 1
  by_cases h : p = bp
  · subst h; simp
  · by_cases h2 : p < bp
    · simp [h, h2]
    · simp [h, h2, show ¬ (p - bp = 0) by omega]

/-- The registers and `BUF` of the deframer (R18) are all that differs between two states, beside `res`. -/
def OnlyDeframer (s t : State) : Prop :=
  t = { s with
    res := t.res, buf := t.buf, m := t.m, idx := t.idx, prev := t.prev, hist := t.hist, wp := t.wp, bp := t.bp
    nbits := t.nbits, sym := t.sym, out := t.out }

theorem OnlyDeframer.refl (s : State) : OnlyDeframer s s := rfl

theorem OnlyDeframer.trans {s t u : State} (h : OnlyDeframer s t) (h' : OnlyDeframer t u) : OnlyDeframer s u := by
  unfold OnlyDeframer at *; rw [h'] ; rw [h]

/-- The frame buffer and its write position are in range (R14, R18). -/
def FrameOk (s : State) : Prop :=
  (s.buf.wf = true ∧ ∀ c ∈ s.buf, c.1 < frameBytes) ∧
  (hdr ≤ s.wp ∧ s.wp ≤ frameBytes ∧ s.bp < 8 ∧ (s.wp = frameBytes → s.bp = 0)) ∧
  s.nbits = 8 * (s.wp - hdr) + s.bp

theorem clearFrame_ok (s : State) : FrameOk s.clearFrame := by
  refine ⟨⟨clearedBuf_wf, fun c hc => ?_⟩, by simp [hdr, frameBytes], by simp⟩
  have := (Memory.mem_ofBytes hc).2
  simpa using this

/-- PACK with room in the frame answers a next state, keeps the frame in range and counts one bit. -/
theorem execPack_next {s : State} (h : s.wp < frameBytes) (hf : FrameOk s) :
    ∃ t, execPack s = .next t ∧ OnlyDeframer s t ∧ FrameOk t ∧ t.m = s.m ∧ t.idx = s.idx ∧ t.nbits = s.nbits + 1 ∧ t.res = .plain := by
  obtain ⟨⟨h1, h2⟩, ⟨h3, h4, h5, h6⟩, h7⟩ := hf
  refine ⟨_, if_pos h, by apply State.ext <;> simp, ⟨⟨Memory.wf_set _ _ h1, ?_⟩, ?_, ?_⟩, rfl, rfl, rfl, rfl⟩
  · intro c hc
    rcases Memory.mem_set hc with rfl | hc
    · exact h
    · exact h2 c hc
  · simp [hdr, frameBytes] at *; refine ⟨?_, ?_, ?_, ?_⟩ <;> split <;> omega
  · simp [hdr, frameBytes] at *; split <;> omega

/-- One more symbol decided, decoded and offered to the destuffer. -/
def State.afterSlice (s : State) : State :=
  let b := !decide (0 < s.fAt s.symbolIdx)
  (((((s.setIdx s.symbolIdx).takeSymbol b).ret .plain).setOut (nrziBit s.prev b)).ret .plain)

/-- The deframer loop, one symbol at a time (R120). -/
theorem deframeLoop_succ (left : Nat) (s : State) : deframeLoop (left + 1) s =
    if s.n ≤ s.symbolIdx then .next ((s.setIdx s.symbolIdx).ret (.stop .exhausted))
    else if s.aAt s.symbolIdx < gateOff then .next ((s.setIdx s.symbolIdx).ret (.stop .fade))
    else if s.afterSlice.hist = 0b11111 ∧ s.afterSlice.out = false then
      deframeLoop left ((s.afterSlice.setHist 0).ret .drop)
    else
      seqOp (execPack ((s.afterSlice.setHist (histShift s.afterSlice.hist s.afterSlice.out)).ret .keep)) fun d =>
        if d.wp = frameBytes then .next d else deframeLoop left d := by
  by_cases h1 : s.n ≤ s.symbolIdx
  · simp [deframeLoop, execSlice, h1]
  by_cases h2 : s.aAt s.symbolIdx < gateOff
  · simp [deframeLoop, execSlice, h1, h2]
  simp only [deframeLoop, execSlice, if_neg h1, if_neg h2, seqOp_next, State.ret_res, execNrzi, execDestuff]
  generalize hb : s.afterSlice = b
  have : ((((s.setIdx s.symbolIdx).takeSymbol !decide (0 < s.fAt s.symbolIdx)).ret Result.plain).setOut
                    (nrziBit (((s.setIdx s.symbolIdx).takeSymbol !decide (0 < s.fAt s.symbolIdx)).ret Result.plain).prev
                      (((s.setIdx s.symbolIdx).takeSymbol !decide (0 < s.fAt s.symbolIdx)).ret Result.plain).sym)).ret
                Result.plain = b := hb
  rw [this]
  by_cases h3 : b.hist = 0b11111 ∧ b.out = false
  · simp only [if_pos h3, State.ret_res]
  · simp only [if_neg h3, State.ret_res]

/-- The deframer loop answers a next state from a frame with room; it writes only the deframer's registers and `BUF`,
keeps them in range, and forms at least the sample index of its first symbol. -/
theorem deframeLoop_spec (left : Nat) (s : State) (hw : s.wp < frameBytes) (hf : FrameOk s) :
    ∃ t, deframeLoop left s = .next t ∧ OnlyDeframer s t ∧ FrameOk t ∧ s.nbits ≤ t.nbits ∧
      (0 < left → s.symbolIdx ≤ t.idx) := by
  induction left generalizing s with
  | zero => exact ⟨s, rfl, rfl, hf, le_refl _, by simp⟩
  | succ left ih =>
    rw [deframeLoop_succ]
    split
    · exact ⟨_, rfl, by apply State.ext <;> simp, hf, le_refl _, fun _ => le_refl _⟩
    split
    · exact ⟨_, rfl, by apply State.ext <;> simp, hf, le_refl _, fun _ => le_refl _⟩
    have a1 : OnlyDeframer s ((s.afterSlice.setHist 0).ret .drop) := by apply State.ext <;> simp [State.afterSlice]
    have a2 : OnlyDeframer s ((s.afterSlice.setHist (histShift s.afterSlice.hist s.afterSlice.out)).ret .keep) := by
      apply State.ext <;> simp [State.afterSlice]
    have hbi : s.symbolIdx ≤ s.p0 + off (patLen + (s.m + 1)) := 
      Nat.add_le_add_left (off_mono (by omega)) _
    split
    · obtain ⟨t, e1, e2, e3, e4, e5⟩ := ih ((s.afterSlice.setHist 0).ret .drop) (by simpa [State.afterSlice] using hw) (by simpa [FrameOk, State.afterSlice] using hf)
      refine ⟨t, e1, a1.trans e2, e3, by simpa [State.afterSlice] using e4, fun _ => ?_⟩
      rcases Nat.eq_zero_or_pos left with h0 | h0
      · subst h0; simp only [deframeLoop] at e1; cases e1; simp [State.afterSlice]
      · refine le_trans hbi ?_; simpa [State.afterSlice, State.symbolIdx] using e5 h0
    · obtain ⟨d, p1, p2, p3, p4, p5, p6, -⟩ := execPack_next (s := (s.afterSlice.setHist (histShift s.afterSlice.hist s.afterSlice.out)).ret .keep) (by simpa [State.afterSlice] using hw) (by simpa [FrameOk, State.afterSlice] using hf)
      rw [p1, seqOp_next]
      have hsd : OnlyDeframer s d := a2.trans p2
      have p5' : d.idx = s.symbolIdx := by simpa [State.afterSlice] using p5
      have p4' : d.m = s.m + 1 := by simpa [State.afterSlice] using p4
      have p6' : d.nbits = s.nbits + 1 := by simpa [State.afterSlice] using p6
      split
      · exact ⟨d, rfl, hsd, p3, by omega, fun _ => p5'.ge⟩
      · next h4 =>
        obtain ⟨t, e1, e2, e3, e4, e5⟩ := ih d (lt_of_le_of_ne p3.2.1.2.1 h4) p3
        refine ⟨t, e1, hsd.trans e2, e3, by omega, fun _ => ?_⟩
        rcases Nat.eq_zero_or_pos left with h0 | h0
        · subst h0; simp only [deframeLoop] at e1; cases e1; exact p5'.ge
        · refine le_trans hbi (le_trans (le_of_eq ?_) (e5 h0))
          have : d.p0 = s.p0 := by rw [hsd]
          simp only [State.symbolIdx, p4', this]

/-- DEFRAME answers from every state: it writes only the deframer's registers, `BUF` and the resume index, which is the
last sample index formed, and leaves them in range (R120). -/
theorem deframe_spec (s : State) : ∃ t, deframe s = .next t ∧
    t = { s with
      res := t.res, buf := t.buf, m := t.m, idx := t.idx, prev := t.prev, hist := t.hist, wp := t.wp, bp := t.bp
      nbits := t.nbits, sym := t.sym, out := t.out, resume := t.idx } ∧ FrameOk t ∧ s.p0 + 167 ≤ t.idx := by
  obtain ⟨t, h1, h2, h3, -, h5⟩ := deframeLoop_spec (s.n + 1) (s.clearFrame.ret .plain) (by simp [hdr, frameBytes]) (clearFrame_ok s)
  refine ⟨t.endDeframe, ?_, ?_, h3, ?_⟩
  · simp only [deframe, execClear, seqOp_next]
    rw [show (s.clearFrame.ret .plain).n = s.n from rfl, h1]; rfl
  · unfold OnlyDeframer at h2
    rw [h2]; apply State.ext <;> simp
  · have := h5 (by omega)
    simpa [State.symbolIdx, patLen, off] using this
end Sys2Proof.Machine
end

