-- ==== Sys2Proof/Laws/Frontend.lean ====
section
/-! SUPPORT. The FIR accumulator as a sum, and what the stages C1 to C5 write: the streams and their lengths. -/

namespace Sys2Proof.Machine

/-! ### The accumulator -/

/-- The accumulator of R72 as the sum it computes. -/
theorem firAcc_eq_sum (tap : Nat → Int) (x : Int → Int) (n : Int) :
    firAcc tap x n = tap 0 * x n + ∑ i ∈ Finset.Icc 1 30, tap i * (x (n - (i : Nat)) + x (n + (i : Nat))) := by
  have h : ∀ (k : Nat) (a : Int) (f : Nat → Int),
      (List.range k).foldl (fun acc t => acc + f (t + 1)) a = a + ∑ i ∈ Finset.Icc 1 k, f i := by
    intro k a f
    induction k with
    | zero => simp
    | succ k ih =>
      rw [List.range_succ, List.foldl_append, ih, Finset.sum_Icc_succ_top (by omega)]
      simp [add_assoc]
  exact h 30 _ fun t => tap t * (x (n - (t : Nat)) + x (n + (t : Nat)))

/-- One FIR output is the accumulator divided by 2¹⁹, rounded down. -/
theorem firValue_eq_div (s : State) (x : StreamId) (h : Kernel) (n : Nat) :
    s.firValue x h n = firAcc (s.cfg.tap h) (s.tapIn x) n / 524288 := by
  rw [State.firValue, Int.shiftRight_eq_div_pow]; rfl

/-- Inside the active range a tap reads the element. -/
theorem tapIn_of_lt {s : State} {x : StreamId} {k : Nat} (h : k < s.streamLen x) : s.tapIn x k = s.elem x k := by
  rw [State.tapIn, if_pos (by omega)]; rfl

/-- Outside the active range a tap reads 0 (R74). -/
theorem tapIn_of_not {s : State} {x : StreamId} {k : Int} (h : k < 0 ∨ (s.streamLen x : Int) ≤ k) :
    s.tapIn x k = 0 := by
  rw [State.tapIn, if_neg (by omega)]

/-! ### What a stage writes -/

/-- The streams, their lengths, the latches of C5 and its operand, `phase` and `res` are all that differs. -/
def OnlyStreams (s t : State) : Prop :=
  t = { s with
    i1 := t.i1, q1 := t.q1, i2 := t.i2, q2 := t.q2, len1 := t.len1, len2 := t.len2, fOut := t.fOut, aOut := t.aOut
    argCh := t.argCh, phase := t.phase, res := t.res }

theorem OnlyStreams.trans {s t u : State} (h : OnlyStreams s t) (h' : OnlyStreams t u) : OnlyStreams s u := by
  unfold OnlyStreams at *
  rw [h']
  rw [h]

theorem OnlyStreams.cfg {s t : State} (h : OnlyStreams s t) : t.cfg = s.cfg := by
  have e := congrArg State.cfg h
  exact e

theorem OnlyStreams.src {s t : State} (h : OnlyStreams s t) : t.src = s.src := by
  have e := congrArg State.src h
  exact e

theorem OnlyStreams.srcClosed {s t : State} (h : OnlyStreams s t) : t.srcClosed = s.srcClosed := by
  have e := congrArg State.srcClosed h
  exact e

theorem OnlyStreams.started {s t : State} (h : OnlyStreams s t) : t.started = s.started := by
  have e := congrArg State.started h
  exact e

theorem OnlyStreams.fetch {s t : State} (h : OnlyStreams s t) : t.fetch = s.fetch := by
  have e := congrArg State.fetch h
  exact e

theorem OnlyStreams.resume {s t : State} (h : OnlyStreams s t) : t.resume = s.resume := by
  have e := congrArg State.resume h
  exact e

theorem OnlyStreams.raw {s t : State} (h : OnlyStreams s t) : t.raw = s.raw := by
  have e := congrArg State.raw h
  exact e

theorem OnlyStreams.rawEpoch {s t : State} (h : OnlyStreams s t) : t.rawEpoch = s.rawEpoch := by
  have e := congrArg State.rawEpoch h
  exact e

theorem OnlyStreams.buf {s t : State} (h : OnlyStreams s t) : t.buf = s.buf := by
  have e := congrArg State.buf h
  exact e

theorem OnlyStreams.epoch {s t : State} (h : OnlyStreams s t) : t.epoch = s.epoch := by
  have e := congrArg State.epoch h
  exact e

theorem OnlyStreams.sink {s t : State} (h : OnlyStreams s t) : t.sink = s.sink := by
  have e := congrArg State.sink h
  exact e

theorem OnlyStreams.record {s t : State} (h : OnlyStreams s t) : t.record = s.record := by
  have e := congrArg State.record h
  exact e

theorem onlyStreams_storePair (s : State) (c : Channel) (yI yQ : List Int) (l : Nat) :
    OnlyStreams s (s.storePair c yI yQ l) := by cases c <;> rfl

theorem onlyStreams_ret (s : State) (r : Result) : OnlyStreams s (s.ret r) := rfl

theorem onlyStreams_setPhase (s : State) (p : Phase) : OnlyStreams s (s.setPhase p) := rfl

theorem onlyStreams_setArgCh (s : State) (c : Channel) : OnlyStreams s (s.setArgCh c) := rfl

theorem execSdec_spec (s : State) : ∃ t, execSdec s = .next t ∧ OnlyStreams s t ∧ t.len1 = s.cfg.n :=
  ⟨_, rfl, (onlyStreams_storePair ..).trans (onlyStreams_ret ..), by simp⟩

theorem execDec3_spec (s : State) : ∃ t, execDec3 s = .next t ∧ OnlyStreams s t ∧ t.len1 = s.len1 / 3 - 10 :=
  ⟨_, rfl, (onlyStreams_storePair ..).trans (onlyStreams_ret ..), by simp [dec3Len, dcm3, trim3]⟩

theorem execSplit_spec (s : State) :
    ∃ t, execSplit s = .next t ∧ OnlyStreams s t ∧ t.len1 = s.len1 ∧ t.len2 = s.len1 :=
  ⟨_, rfl, ((onlyStreams_storePair ..).trans (onlyStreams_storePair ..)).trans (onlyStreams_ret ..), by simp, by simp⟩

theorem execDec2_spec (s : State) :
    ∃ t, execDec2 s = .next t ∧ OnlyStreams s t ∧ t.len1 = s.len1 / 2 - 15 ∧ t.len2 = s.len1 / 2 - 15 :=
  ⟨_, rfl, ((onlyStreams_storePair ..).trans (onlyStreams_storePair ..)).trans (onlyStreams_ret ..),
    by simp [dec2Len, dcm, trim2], by simp [dec2Len, dcm, trim2]⟩

theorem execFmdem_spec (s : State) : ∃ t, execFmdem s = .next t ∧ OnlyStreams s t ∧ t.argCh = s.argCh ∧
    t.len1 = s.len1 ∧ t.len2 = s.len2 ∧ t.fOut = (List.range (s.len s.argCh - 1)).map (s.fmSample s.argCh) ∧
    (∀ x, t.stream x = s.stream x) :=
  ⟨_, rfl, rfl, rfl, rfl, rfl, rfl, fun _ => rfl⟩

theorem execAmenv_spec (s : State) : ∃ t, execAmenv s = .next t ∧ OnlyStreams s t ∧ t.argCh = s.argCh ∧
    t.len1 = s.len1 ∧ t.len2 = s.len2 ∧ t.aOut = (List.range (s.len s.argCh - 1)).map (s.amSample s.argCh) ∧
    t.fOut = s.fOut ∧ (∀ x, t.stream x = s.stream x) :=
  ⟨_, rfl, rfl, rfl, rfl, rfl, rfl, rfl, fun _ => rfl⟩

theorem commitDemod_len (s : State) : s.commitDemod.len s.argCh = s.len s.argCh - 1 := by
  unfold State.commitDemod
  cases s.argCh <;> simp [State.len]

theorem commitDemod_len_ne (s : State) {c : Channel} (h : c ≠ s.argCh) : s.commitDemod.len c = s.len c := by
  unfold State.commitDemod
  cases hc : s.argCh <;> cases c <;> simp_all [State.len]

theorem onlyStreams_commitDemod (s : State) : OnlyStreams s s.commitDemod := onlyStreams_storePair ..

/-- DEMOD on a channel writes only the streams, and shortens the channel by one. -/
theorem demodChannel_spec (s : State) (c : Channel) : ∃ t, demodChannel s c = .next t ∧ OnlyStreams s t ∧
    t.argCh = c ∧ t.len c = s.len c - 1 ∧ ∀ d, d ≠ c → t.len d = s.len d := by
  obtain ⟨a, a1, a2, a3, a4, a5, -⟩ := execFmdem_spec (s.setArgCh c)
  obtain ⟨b, b1, b2, b3, b4, b5, -⟩ := execAmenv_spec a
  have hb : b.argCh = c := b3.trans a3
  have hl : ∀ d, b.len d = s.len d := by
    intro d
    cases d
    · exact b4.trans a4
    · exact b5.trans a5
  refine ⟨b.commitDemod, ?_, ?_, ?_, ?_, ?_⟩
  · simp only [demodChannel, a1, seqOp_next, b1]
  · exact ((onlyStreams_setArgCh s c).trans a2).trans (b2.trans (onlyStreams_commitDemod b))
  · have : b.commitDemod.argCh = b.argCh := by unfold State.commitDemod; simp
    rw [this, hb]
  · have := commitDemod_len b
    rw [hb, hl] at this
    exact this
  · intro d hd
    rw [commitDemod_len_ne b (by rw [hb]; exact hd), hl]

end Sys2Proof.Machine
end

