-- ==== Sys2Proof/Laws/Locator.lean ====
section
/-! SUPPORT. What the loops of the locator can answer: the burst gate, one candidate shift, one pass over the shifts,
and both passes inside the tail guard. -/

namespace Sys2Proof.Machine

/-! ### Burst gate -/

/-- The gate loop answers the least start of 100 samples of power 16 or more, counting the `run` samples before `t`,
or that there is none before `t + left`. -/
theorem gateLoop_spec (a : Nat → Int) (left t run : Nat) (hrun : run < 100) (h0 : run ≤ t)
    (hr : ∀ d < run, 16 ≤ a (t - run + d)) :
    (∀ r i, gateLoop a left t run = (r, some i) →
      r = 100 ∧ t - run ≤ i ∧ i + 100 ≤ t + left ∧ (∀ d < 100, 16 ≤ a (i + d)) ∧
      ∀ i', t - run ≤ i' → (∀ d < 100, 16 ≤ a (i' + d)) → i ≤ i') ∧
    (∀ r, gateLoop a left t run = (r, none) → r < 100 ∧
      ∀ i', t - run ≤ i' → i' + 100 ≤ t + left → ¬ ∀ d < 100, 16 ≤ a (i' + d)) := by
  induction left generalizing t run with
  | zero =>
    constructor
    · intro r i h; simp [gateLoop] at h
    · intro r h; simp [gateLoop] at h
      refine ⟨by omega, fun i' h1 h2 => by omega⟩
  | succ left ih =>
    simp only [gateLoop]
    by_cases hA : gateOn ≤ a t
    · rw [if_pos hA]
      by_cases h100 : run + 1 = gateRun
      · rw [if_pos h100]
        have h100 : run + 1 = 100 := h100
        constructor
        · intro r i h
          simp only [Prod.mk.injEq, Option.some.injEq, gateRun] at h
          obtain ⟨rfl, rfl⟩ := h
          refine ⟨h100, by omega, by omega, ?_, ?_⟩
          · intro d hd
            by_cases hd' : d < run
            · have := hr d hd'
              rwa [show t + 1 - 100 + d = t - run + d by omega]
            · rwa [show t + 1 - 100 + d = t by omega]
          · intro i' h1 _; omega
        · intro r h; simp at h
      · rw [if_neg h100]
        have h100 : ¬ run + 1 = 100 := h100
        have := ih (t+1) (run+1) (by omega) (by omega) (by
          intro d hd
          by_cases hd' : d < run
          · have := hr d hd'
            rwa [show t + 1 - (run+1) + d = t - run + d by omega]
          · rwa [show t + 1 - (run+1) + d = t by omega])
        rw [show t + 1 - (run + 1) = t - run by omega, show t + 1 + left = t + (left + 1) by omega] at this
        exact this
    · rw [if_neg hA, if_neg (by decide)]
      have := ih (t+1) 0 (by omega) (by omega) (by intro d hd; omega)
      rw [show t + 1 + left = t + (left + 1) by omega] at this
      have key : ∀ i', t - run ≤ i' → (∀ d < 100, 16 ≤ a (i' + d)) → t + 1 ≤ i' := by
        intro i' h1 h2
        by_contra hc
        have := h2 (t - i') (by omega)
        rw [show i' + (t - i') = t by omega] at this
        exact hA this
      constructor
      · intro r i h
        obtain ⟨h1, h2, h3, h4, h5⟩ := this.1 r i h
        exact ⟨h1, by omega, h3, h4, fun i' h6 h7 => h5 i' (key i' h6 h7) h7⟩
      · intro r h
        obtain ⟨h1, h2⟩ := this.2 r h
        exact ⟨h1, fun i' h6 h7 h8 => h2 i' (key i' h6 h8) h7 h8⟩

/-- The gate loop finds its burst inside the samples it is given, and counts at most to 100. -/
theorem gateLoop_range (a : Nat → Int) (left t : Nat) :
    (gateLoop a left t 0).1 ≤ 100 ∧ ∀ i, (gateLoop a left t 0).2 = some i → t ≤ i ∧ i + 100 ≤ t + left := by
  have H := gateLoop_spec a left t 0 (by omega) (by omega) (by intro d hd; omega)
  generalize gateLoop a left t 0 = g at H ⊢
  obtain ⟨r, _ | i⟩ := g
  · exact ⟨(H.2 r rfl).1.le, by simp⟩
  · obtain ⟨h1, h2, h3, -⟩ := H.1 r i rfl
    exact ⟨h1.le, fun j hj => by cases hj; exact ⟨by omega, h3⟩⟩

/-! ### Correlator -/

@[simp] theorem pat_length : pat.length = patLen := rfl

theorem off_le {j : Nat} (h : j < 32) : off j ≤ 161 := by unfold off; omega

/-- One candidate shift whose indices are all inside the stream: it answers; it passes when no term is rejected; then
its score is the sum of the terms. -/
theorem corrTerms_spec (g : Nat → Int) (f : Nat → Option Int) (bad : Int → Bool) (base : Nat) (ps : List Int) (j : Nat)
    (s : Int) (hf : ∀ d < ps.length, f (base + off (j + d)) = some (g (base + off (j + d)))) :
    ∃ t, corrTerms f bad base ps j s = some t ∧ t.j ≤ j + ps.length ∧
      (t.ok = true ↔ ∀ d < ps.length, bad (ps.getD d 0 * g (base + off (j + d))) = false) ∧
      (t.ok = true → t.s = s + ∑ d ∈ Finset.range ps.length, ps.getD d 0 * g (base + off (j + d))) := by
  induction ps generalizing j s with
  | nil => exact ⟨_, rfl, by simp, by simp, by simp⟩
  | cons p ps ih =>
    have h0 := hf 0 (by simp)
    simp only [Nat.add_zero] at h0
    simp only [corrTerms, h0]
    by_cases hb : bad (p * g (base + off j)) = true
    · rw [if_pos hb]
      refine ⟨_, rfl, by simp, ?_, by simp⟩
      simp only [Bool.false_eq_true, false_iff]
      intro h; have := h 0 (by simp); simp [hb] at this
    · rw [if_neg hb]
      obtain ⟨t, h1, h2, h3, h4⟩ := ih (j+1) (s + p * g (base + off j)) (by
        intro d hd; have := hf (d+1) (by simpa using hd); rw [show j + 1 + d = j + (d+1) by omega]; exact this)
      refine ⟨t, h1, by simp only [List.length_cons]; omega, ?_, ?_⟩
      · rw [h3]
        constructor
        · intro h d hd
          cases d with
          | zero => simpa using hb
          | succ d => have := h d (by simpa using hd); rw [show j + 1 + d = j + (d+1) by omega] at this; simpa using this
        · intro h d hd
          have := h (d+1) (by simpa using hd)
          rw [show j + 1 + d = j + (d+1) by omega]; simpa using this
      · intro h; rw [h4 h, List.length_cons, Finset.sum_range_succ']
        simp only [List.getD_cons_succ, List.getD_cons_zero, Nat.add_zero]
        have : ∀ d, j + 1 + d = j + (d+1) := by intro d; omega
        simp only [this]; ring

/-- One pass over shifts whose indices are all inside the stream, for an order `better` of scores: the best score is
that of the first shift that has it, or what it was. -/
theorem corrPass_spec (f : Nat → Option Int) (bad : Int → Bool) (better : Int → Int → Bool) (i : Nat)
    (ok : Nat → Prop) (sc : Nat → Int) (ks : List Nat) (r : CorrRegs)
    (hks : ks.Pairwise (· < ·))
    (hterm : ∀ k ∈ ks, ∃ t, corrTerms f bad (i + k) pat 0 0 = some t ∧ (t.ok = true ↔ ok k) ∧ (t.ok = true → t.s = sc k))
    (htrans : ∀ a b c, better a b = true → better b c = true → better a c = true)
    (hirr : ∀ a, better a a = false)
    (hneg : ∀ a b c, better a c = true → better a b = false → better b c = true) :
    ∃ r', corrPass f bad better i ks r = some r' ∧
      ((r'.smax = r.smax ∧ r'.imax = r.imax ∧ ∀ k ∈ ks, ok k → better (sc k) r.smax = false) ∨
       (better r'.smax r.smax = true ∧ r'.imax ∈ ks ∧ ok r'.imax ∧ r'.smax = sc r'.imax ∧
         ∀ k ∈ ks, ok k → better (sc k) r'.smax = false ∧ (k < r'.imax → better r'.smax (sc k) = true))) := by
  induction ks generalizing r with
  | nil => exact ⟨r, rfl, .inl ⟨rfl, rfl, by simp⟩⟩
  | cons k ks ih =>
    obtain ⟨t, ht, hok, hs⟩ := hterm k (by simp)
    simp only [corrPass, ht]
    rw [List.pairwise_cons] at hks
    by_cases hb : (t.ok && better t.s r.smax) = true
    · rw [if_pos hb]
      simp only [Bool.and_eq_true] at hb
      obtain ⟨hb1, hb2⟩ := hb
      rw [hs hb1] at hb2 ⊢
      obtain ⟨r', h1, h2⟩ := ih ⟨k, t.j, sc k, sc k, k⟩ hks.2 (fun k hk => hterm k (by simp [hk]))
      refine ⟨r', h1, .inr ?_⟩
      rcases h2 with ⟨e1, e2, h3⟩ | ⟨e1, e2, e3, e4, h3⟩
      · refine ⟨by rw [e1]; exact hb2, by simp [e2], by rw [e2]; exact hok.mp hb1, by rw [e1, e2], ?_⟩
        intro k' hk' hok'
        rcases List.mem_cons.mp hk' with rfl | hk'
        · exact ⟨by rw [e1]; exact hirr _, fun h => by rw [e2] at h; exact absurd h (lt_irrefl _)⟩
        · exact ⟨by rw [e1]; exact h3 k' hk' hok', fun h => by rw [e2] at h; exact absurd h (not_lt.mpr (hks.1 _ hk').le)⟩
      · refine ⟨htrans _ _ _ e1 hb2, by simp [e2], e3, e4, ?_⟩
        intro k' hk' hok'
        rcases List.mem_cons.mp hk' with rfl | hk'
        · refine ⟨?_, fun _ => e1⟩
          by_contra hc; rw [Bool.not_eq_false] at hc
          have := htrans _ _ _ e1 hc; rw [hirr] at this; cases this
        · exact h3 k' hk' hok'
    · rw [if_neg hb]
      obtain ⟨r', h1, h2⟩ := ih ⟨k, t.j, t.s, r.smax, r.imax⟩ hks.2 (fun k hk => hterm k (by simp [hk]))
      refine ⟨r', h1, ?_⟩
      have hk0 : ok k → better (sc k) r.smax = false := by
        intro h; have := hok.mpr h
        rw [this, hs this] at hb; simpa using hb
      rcases h2 with ⟨e1, e2, h3⟩ | ⟨e1, e2, e3, e4, h3⟩
      · refine .inl ⟨e1, e2, ?_⟩
        intro k' hk' hok'
        rcases List.mem_cons.mp hk' with rfl | hk'
        · exact hk0 hok'
        · exact h3 k' hk' hok'
      · refine .inr ⟨e1, by simp [e2], e3, e4, ?_⟩
        intro k' hk' hok'
        rcases List.mem_cons.mp hk' with rfl | hk'
        · have h0 := hk0 hok'
          have h5 : better r'.smax (sc k') = true := by
            by_contra hc
            rw [Bool.not_eq_true] at hc
            have := hneg _ _ _ e1 hc
            rw [this] at h0; cases h0
          refine ⟨?_, fun _ => h5⟩
          by_contra hc; rw [Bool.not_eq_false] at hc
          have := htrans _ _ _ h5 hc; rw [hirr] at this; cases this
        · exact h3 k' hk' hok'

/-- What both passes can leave, inside the tail guard: they answer, and the registers are in range. -/
theorem correlate_spec (f : Nat → Option Int) (i : Nat) (r : CorrRegs) (n : Nat) (hi : i + 500 ≤ n)
    (hf : ∀ a < n, ∃ v, f a = some v) (hk : r.k < kSpan) (hj : r.j ≤ patLen) :
    ∃ r', correlate f i r = some r' ∧ r'.k < kSpan ∧ r'.j ≤ patLen ∧ r'.imax < kSpan := by
  have pass : ∀ (bad : Int → Bool) (better : Int → Int → Bool) (ks : List Nat) (q : CorrRegs), (∀ k ∈ ks, k < kSpan) →
      q.k < kSpan → q.j ≤ patLen → q.imax < kSpan →
      ∃ r', corrPass f bad better i ks q = some r' ∧ r'.k < kSpan ∧ r'.j ≤ patLen ∧ r'.imax < kSpan := by
    intro bad better ks
    induction ks with
    | nil => exact fun q _ h1 h2 h3 => ⟨q, rfl, h1, h2, h3⟩
    | cons k ks ih =>
      intro q hks h1 h2 h3
      have hk : k < kSpan := hks k (by simp)
      obtain ⟨t, ht, htj, -⟩ := corrTerms_spec (fun a => (f a).getD 0) f bad (i + k) pat 0 0 (by
        intro d hd
        have h1 := off_le (j := 0 + d) (by simpa [patLen] using hd)
        obtain ⟨v, hv⟩ := hf (i + k + off (0 + d)) (by simp only [kSpan] at hk; omega)
        rw [hv]; rfl)
      have htj : t.j ≤ patLen := by simpa using htj
      simp only [corrPass, ht]
      split
      · exact ih _ (fun k hk => hks k (by simp [hk])) hk htj hk
      · exact ih _ (fun k hk => hks k (by simp [hk])) hk htj h3
  obtain ⟨p, hp, p1, p2, p3⟩ := pass (fun t => decide (t < 0)) (fun s best => decide (best < s)) (List.range kSpan)
    { r with smax := 0, imax := 0 } (fun k hk => List.mem_range.mp hk) hk hj (by simp [kSpan])
  simp only [correlate, corrPositive, hp]
  split
  · exact pass _ _ _ p (fun k hk => List.mem_range.mp hk) p1 p2 p3
  · exact ⟨p, rfl, p1, p2, p3⟩

end Sys2Proof.Machine
end

