-- ==== Sys2Proof/Laws/PerInstr.lean ====
section
/-! SUPPORT. Statements made of every instruction, one lemma per constructor. -/

namespace Sys2Proof.Laws.EncodedOctet

/-- The rows of a format. -/
def tableOf : Format → List Row
  | .op => opTable
  | .msgId => msgTable

/-- A well-formed instruction is encoded as an octet that has the fixed bits of a row of its format,
and that row builds the instruction. -/
def Statement (i : Instr) : Prop :=
  i.wellFormed = true →
    ∃ r ∈ tableOf (encode i).1, hasPattern r.mask r.pattern (encode i).2 = true ∧ r.build (encode i).2 = i

/-- A row found in a table by its position. -/
theorem of_row {i : Instr} (n : Nat) (r : Row) (hr : (tableOf (encode i).1)[n]? = some r)
    (h : i.wellFormed = true → hasPattern r.mask r.pattern (encode i).2 = true ∧ r.build (encode i).2 = i) :
    Statement i :=
  fun hw => ⟨r, List.mem_of_getElem? hr, h hw⟩

theorem runOp : Statement .runOp := of_row 0 _ rfl fun _ => ⟨rfl, rfl⟩

theorem readOp : Statement .readOp := of_row 1 _ rfl fun _ => ⟨rfl, rfl⟩

theorem sweepOp : Statement .sweepOp := of_row 2 _ rfl fun _ => ⟨rfl, rfl⟩

theorem scanOp : Statement .scanOp := of_row 3 _ rfl fun _ => ⟨rfl, rfl⟩

theorem aisdec : Statement .aisdec := of_row 4 _ rfl fun _ => ⟨rfl, rfl⟩

theorem sdec : Statement .sdec := of_row 5 _ rfl fun _ => ⟨rfl, rfl⟩

theorem fir : Statement .fir := of_row 6 _ rfl fun _ => ⟨rfl, rfl⟩

theorem dec3 : Statement .dec3 := of_row 7 _ rfl fun _ => ⟨rfl, rfl⟩

theorem splitOp : Statement .splitOp := of_row 8 _ rfl fun _ => ⟨rfl, rfl⟩

theorem dec2 : Statement .dec2 := of_row 9 _ rfl fun _ => ⟨rfl, rfl⟩

theorem fmdem : Statement .fmdem := of_row 10 _ rfl fun _ => ⟨rfl, rfl⟩

theorem amenv : Statement .amenv := of_row 11 _ rfl fun _ => ⟨rfl, rfl⟩

theorem gate : Statement .gate := of_row 12 _ rfl fun _ => ⟨rfl, rfl⟩

theorem corr : Statement .corr := of_row 13 _ rfl fun _ => ⟨rfl, rfl⟩

theorem syncOp : Statement .syncOp := of_row 14 _ rfl fun _ => ⟨rfl, rfl⟩

theorem clearOp : Statement .clearOp := of_row 15 _ rfl fun _ => ⟨rfl, rfl⟩

theorem slice : Statement .slice := of_row 16 _ rfl fun _ => ⟨rfl, rfl⟩

theorem nrzi : Statement .nrzi := of_row 17 _ rfl fun _ => ⟨rfl, rfl⟩

theorem destuff : Statement .destuff := of_row 18 _ rfl fun _ => ⟨rfl, rfl⟩

theorem pack : Statement .pack := of_row 19 _ rfl fun _ => ⟨rfl, rfl⟩

theorem lensel : Statement .lensel := of_row 20 _ rfl fun _ => ⟨rfl, rfl⟩

theorem crc16 : Statement .crc16 := of_row 21 _ rfl fun _ => ⟨rfl, rfl⟩

theorem crcchk : Statement .crcchk := of_row 22 _ rfl fun _ => ⟨rfl, rfl⟩

theorem getbits : Statement .getbits := of_row 23 _ rfl fun _ => ⟨rfl, rfl⟩

theorem unpackPos : Statement .unpackPos := of_row 24 _ rfl fun _ => ⟨rfl, rfl⟩

theorem unpackBase : Statement .unpackBase := of_row 25 _ rfl fun _ => ⟨rfl, rfl⟩

theorem unpackStatic : Statement .unpackStatic := of_row 26 _ rfl fun _ => ⟨rfl, rfl⟩

theorem unpackUnknown : Statement .unpackUnknown := of_row 27 _ rfl fun _ => ⟨rfl, rfl⟩

theorem emitOp : Statement .emitOp := of_row 28 _ rfl fun _ => ⟨rfl, rfl⟩

theorem msgPos1 (octet : Byte) : Statement (.msgPos1 octet) := of_row 0 _ rfl fun hw => ⟨hw, rfl⟩

theorem msgPos2 (octet : Byte) : Statement (.msgPos2 octet) := of_row 1 _ rfl fun hw => ⟨hw, rfl⟩

theorem msgPos3 (octet : Byte) : Statement (.msgPos3 octet) := of_row 2 _ rfl fun hw => ⟨hw, rfl⟩

theorem msgBase (octet : Byte) : Statement (.msgBase octet) := of_row 3 _ rfl fun hw => ⟨hw, rfl⟩

theorem msgStatic (octet : Byte) : Statement (.msgStatic octet) := of_row 4 _ rfl fun hw => ⟨hw, rfl⟩

theorem msgUnknown0 (octet : Byte) : Statement (.msgUnknown0 octet) := of_row 5 _ rfl fun hw => ⟨hw, rfl⟩

theorem msgUnknown6to7 (octet : Byte) : Statement (.msgUnknown6to7 octet) := of_row 6 _ rfl fun hw => ⟨hw, rfl⟩

theorem msgUnknown8to15 (octet : Byte) : Statement (.msgUnknown8to15 octet) := of_row 7 _ rfl fun hw => ⟨hw, rfl⟩

theorem msgUnknown16to31 (octet : Byte) : Statement (.msgUnknown16to31 octet) := of_row 8 _ rfl fun hw => ⟨hw, rfl⟩

theorem msgUnknown32to63 (octet : Byte) : Statement (.msgUnknown32to63 octet) := of_row 9 _ rfl fun hw => ⟨hw, rfl⟩

end Sys2Proof.Laws.EncodedOctet
end

