-- ==== Sys2Proof/Laws/Sequencer.lean ====
section
/-! SUPPORT. What the parts of a decode attempt can answer, each as the states it can leave, in named updates. -/

namespace Sys2Proof.Machine

theorem raise_none (s : State) (c : Condition) : s.raise c none = s.ret (.raised c) := rfl

/-! ### The parts of an attempt -/

/-- GATE, with the tail test: a burst start inside the tail guard and at or after the offset, or BufferExhaustion. -/
theorem execGate_cases (s : State) : ∃ i run, run ≤ 100 ∧
    ((s.n < i + 500 ∧ execGate s = .next ((s.setGate i run).raise .bufferExhaustion (some i))) ∨
     (s.i ≤ i ∧ i + 500 ≤ s.n ∧ execGate s = .next ((s.setGate i run).ret .plain))) := by
  have H := gateLoop_range s.aAt (s.n - s.i) s.i
  refine ⟨(gateLoop s.aAt (s.n - s.i) s.i 0).2.getD s.n, (gateLoop s.aAt (s.n - s.i) s.i 0).1, H.1, ?_⟩
  simp only [execGate]
  by_cases h : tailTooShort s.n ((gateLoop s.aAt (s.n - s.i) s.i 0).2.getD s.n) = true
  · exact .inl ⟨tailTooShort_iff.mp h, by rw [if_pos h]⟩
  · refine .inr ⟨?_, ?_, by rw [if_neg h]⟩
    · rw [tailTooShort_iff] at h
      cases hg : (gateLoop s.aAt (s.n - s.i) s.i 0).2 with
      | none => rw [hg] at h; simp at h
      | some i => exact (H.2 i hg).1
    · rw [tailTooShort_iff] at h; omega

/-- CORR inside the tail guard answers a next state, its registers in range. -/
theorem execCorr_next (s : State) (h : s.i + 500 ≤ s.n) :
    ∃ r : CorrRegs, r.imax < kSpan ∧
      correlate s.fAt? s.i ⟨s.k, s.j, s.score, s.smax, s.imax⟩ = some r ∧
      (s.k < kSpan → s.j ≤ patLen → r.k < kSpan ∧ r.j ≤ patLen) ∧ execCorr s = .next ((s.setCorr r).ret .plain) := by
  have hf : ∀ a < s.n, ∃ v, s.fAt? a = some v := by
    intro a ha
    exact ⟨s.fAt a, elem?_eq_some.mpr ⟨by rw [streamLen_iStream]; exact ha, rfl⟩⟩
  have any : ∀ r : CorrRegs, ∃ r', correlate s.fAt? s.i r = some r' ∧ r'.k < kSpan ∧ r'.j ≤ patLen ∧ r'.imax < kSpan := by
    intro r
    obtain ⟨p, hp, h1⟩ := correlate_spec s.fAt? s.i { r with k := 0, j := 0 } s.n h hf (by simp [kSpan]) (by simp)
    refine ⟨p, ?_, h1⟩
    rw [← hp]
    have e : List.range kSpan = 0 :: (List.range 104).map Nat.succ := List.range_succ_eq_map
    simp only [correlate, corrPositive, e, corrPass]
  obtain ⟨r, hr, h1, h2, h3⟩ := any ⟨s.k, s.j, s.score, s.smax, s.imax⟩
  exact ⟨r, h3, hr, fun _ _ => ⟨h1, h2⟩, by simp only [execCorr, hr]⟩

/-- The body length and the short-frame test of LENSEL, in named updates. -/
def State.lengthSet (s : State) : State :=
  s.setLength (messageId (s.bufRead hdr)) (bodyLenOf (messageId (s.bufRead hdr)))
    (shortFlag s.nbits (bodyLenOf (messageId (s.bufRead hdr))))

theorem execLensel_short {s : State} (h : s.lengthSet.short = true) :
    execLensel s = .next (s.lengthSet.raise .midFrameFade (some s.idx)) := congrArg Host.Outcome.next (if_pos h)

theorem execLensel_long {s : State} (h : s.lengthSet.short = false) :
    execLensel s = .next (s.lengthSet.ret .plain) := congrArg Host.Outcome.next (if_neg (Bool.eq_false_iff.mp h))

/-- The CRC comparison of CRCCHK, in named updates. -/
def State.checkSet (s : State) : State :=
  s.setCheck (crc16Of (s.bufOctets hdr s.blen.octets)) s.receivedFcs
    (crcOkFlag (crc16Of (s.bufOctets hdr s.blen.octets)) s.receivedFcs)

theorem execCrcchk_ok {s : State} (h : s.checkSet.crcOk = true) :
    execCrcchk s = .next (s.checkSet.ret .plain) := congrArg Host.Outcome.next (if_pos h)

theorem execCrcchk_bad {s : State} (h : s.checkSet.crcOk = false) :
    execCrcchk s = .next (s.checkSet.raise .crcMismatch (some s.idx)) :=
  congrArg Host.Outcome.next (if_neg (Bool.eq_false_iff.mp h))

theorem execSync_found {s : State} (h : s.sync = true) : execSync s = .next ((s.setP0 (s.i + s.imax)).ret .plain) :=
  congrArg Host.Outcome.next (if_pos h)

theorem execSync_lost {s : State} (h : s.sync = false) :
    execSync s = .next (s.raise .noSync (some (s.i + skipAhead))) :=
  congrArg Host.Outcome.next (if_neg (Bool.eq_false_iff.mp h))

/-- The record the unpacker chosen by `mid` builds (R139). -/
def State.recordByMid (s : State) : Record :=
  if s.mid = 1 ∨ s.mid = 2 ∨ s.mid = 3 then s.posRecord
  else if s.mid = 4 then s.baseRecord
  else if s.mid = 5 then s.staticRecord
  else s.unknownRecord

/-- What the unpacker chosen by `mid` returns: a report for an unknown ID, otherwise nothing (R149). -/
def State.unpackResult (s : State) : Result :=
  if s.mid = 1 ∨ s.mid = 2 ∨ s.mid = 3 ∨ s.mid = 4 ∨ s.mid = 5 then .plain else .raised .unknownMessageId

theorem unpackByMid_eq (s : State) : unpackByMid s = .next ((s.setRecord s.recordByMid).ret s.unpackResult) := by
  unfold unpackByMid State.recordByMid State.unpackResult
  by_cases h : s.mid = 1 ∨ s.mid = 2 ∨ s.mid = 3
  · rw [if_pos h, if_pos h, if_pos (by tauto)]; rfl
  · rw [if_neg h, if_neg h]
    by_cases h4 : s.mid = 4
    · rw [if_pos h4, if_pos h4, if_pos (by tauto)]; rfl
    · rw [if_neg h4, if_neg h4]
      by_cases h5 : s.mid = 5
      · rw [if_pos h5, if_pos h5, if_pos (by tauto)]; rfl
      · rw [if_neg h5, if_neg h5, if_neg (by tauto)]; rfl

/-- UNPACK and EMIT of an attempt answer the record of `mid`, appended to the sink. -/
theorem unpackAndEmit_eq (s : State) : unpackAndEmit s =
    .next ((((((((s.enter .unpack).setRecord (s.enter .unpack).recordByMid).ret (s.enter .unpack).unpackResult).enter
      .emit).appendSink (.item (s.enter .unpack).recordByMid)).ret .plain).finish .record)) := by
  simp only [unpackAndEmit, unpackByMid_eq, seqOp_next]
  rfl

/-- The check of a frame: too short, a wrong CRC, or a record. -/
theorem checkFrame_cases (s : State) :
    let a := (s.enter .check).lengthSet
    (a.short = true ∧ checkFrame s = .next ((a.raise .midFrameFade (some s.idx)).finish .short)) ∨
    (a.short = false ∧
      let b := (a.ret .plain).checkSet
      ((b.crcOk = false ∧ checkFrame s = .next ((b.raise .crcMismatch (some s.idx)).finish .crcfail)) ∨
       (b.crcOk = true ∧ checkFrame s = unpackAndEmit (b.ret .plain)))) := by
  intro a
  cases ha : a.short with
  | true =>
    refine .inl ⟨rfl, ?_⟩
    simp only [checkFrame, execLensel_short ha, seqOp_next, hasRaised_raise, beq_self_eq_true, if_true]
    rfl
  | false =>
    refine .inr ⟨rfl, ?_⟩
    intro b
    have hl : checkFrame s = seqOp (execCrcchk (a.ret .plain)) fun b =>
        if b.hasRaised .crcMismatch then .next (b.finish .crcfail) else unpackAndEmit b := by
      simp only [checkFrame, execLensel_long ha, seqOp_next, hasRaised_ret_plain, Bool.false_eq_true, if_false]
      rfl
    cases hb : b.crcOk with
    | true =>
      refine .inr ⟨rfl, ?_⟩
      simp only [hl, execCrcchk_ok hb, seqOp_next, hasRaised_ret_plain, Bool.false_eq_true, if_false]
      rfl
    | false =>
      refine .inl ⟨rfl, ?_⟩
      simp only [hl, execCrcchk_bad hb, seqOp_next, hasRaised_raise, beq_self_eq_true, if_true]
      rfl

/-- Correlation, synchronisation and the frame: no synchronisation, or the check of what DEFRAME left. -/
theorem locateFrame_cases (s : State) (h : s.i + 500 ≤ s.n) : ∃ r : CorrRegs, r.imax < kSpan ∧
    (s.k < kSpan → s.j ≤ patLen → r.k < kSpan ∧ r.j ≤ patLen) ∧
    correlate s.fAt? s.i ⟨s.k, s.j, s.score, s.smax, s.imax⟩ = some r ∧
    let c := ((s.enter .corr).setCorr r).ret .plain
    ((r.smax = 0 ∧ locateFrame s = .next ((c.raise .noSync (some (s.i + skipAhead))).finish .nosync)) ∨
     (r.smax ≠ 0 ∧ locateFrame s =
       seqOp (deframe (((c.setP0 (s.i + r.imax)).ret .plain).enter .deframe)) checkFrame)) := by
  obtain ⟨r, h1, h2, h3, h4⟩ := execCorr_next (s.enter .corr) h
  refine ⟨r, h1, h3, h2, ?_⟩
  intro c
  by_cases h0 : r.smax = 0
  · refine .inl ⟨h0, ?_⟩
    have hc : c.sync = false := by simp [c, syncFlag, h0]
    have e : locateFrame s = seqOp (execSync c) fun b =>
      if b.hasRaised .noSync then .next (b.finish .nosync)
      else seqOp (deframe (b.enter .deframe)) checkFrame := by rw [locateFrame, h4]; rfl
    simp only [e, execSync_lost hc, seqOp_next, hasRaised_raise, beq_self_eq_true, if_true]
    rfl
  · refine .inr ⟨h0, ?_⟩
    have hc : c.sync = true := by simp [c, syncFlag, h0]
    have e : locateFrame s = seqOp (execSync c) fun b =>
      if b.hasRaised .noSync then .next (b.finish .nosync)
      else seqOp (deframe (b.enter .deframe)) checkFrame := by rw [locateFrame, h4]; rfl
    simp only [e, execSync_found hc, seqOp_next, hasRaised_ret_plain, Bool.false_eq_true, if_false]
    rfl

/-- A decode attempt: the end of the buffer, or the location of a frame from a burst start inside the tail guard. -/
theorem execAisdec_cases (s : State) : ∃ i run, run ≤ 100 ∧
    ((s.n < i + 500 ∧
      execAisdec s = .next ((((s.enter .gate).setGate i run).raise .bufferExhaustion (some i)).finish .eob)) ∨
     (s.i ≤ i ∧ i + 500 ≤ s.n ∧ execAisdec s = locateFrame (((s.enter .gate).setGate i run).ret .plain))) := by
  obtain ⟨i, run, h1, h2⟩ := execGate_cases (s.enter .gate)
  refine ⟨i, run, h1, ?_⟩
  rcases h2 with ⟨h2, h3⟩ | ⟨h2, h3, h4⟩
  · refine .inl ⟨h2, ?_⟩
    simp only [execAisdec, h3, seqOp_next]
    rw [if_pos (by simp)]
  · refine .inr ⟨h2, h3, ?_⟩
    simp only [execAisdec, h4, seqOp_next]
    rw [if_neg (by simp)]

/-! ### The transitions after an attempt -/

/-- The loop test of SCAN moves the sequencer only: it keeps the outcome, the resume index and both lengths. -/
theorem scanNext_keeps (s : State) :
    s.scanNext.res = s.res ∧ s.scanNext.resume = s.resume ∧ s.scanNext.len1 = s.len1 ∧ s.scanNext.len2 = s.len2 := by
  unfold State.scanNext State.toScanTwo
  split
  · exact ⟨rfl, rfl, rfl, rfl⟩
  · split
    · dsimp only
      split <;> exact ⟨rfl, rfl, rfl, rfl⟩
    · exact ⟨rfl, rfl, rfl, rfl⟩

/-- The phase after the loop test of SCAN on channel `c` (R158, R167). -/
theorem scanNext_phase (s : State) (c : Channel) (hc : s.ch = c) :
    s.scanNext.phase = if s.i + 500 ≤ s.len c then .scan c .gate else phaseAfterScan s c := by
  subst hc
  have hn : s.len s.ch = s.n := rfl
  rw [hn]
  unfold State.scanNext
  by_cases h : scanContinues s.n s.i = true
  · rw [if_pos h, if_pos (scanContinues_iff.mp h)]
    rfl
  · rw [if_neg h, if_neg fun q => h (scanContinues_iff.mpr q)]
    cases hc : s.ch with
    | one =>
      have e : scanContinues (s.beginScan .two).n (s.beginScan .two).i = scanContinues s.len2 0 := rfl
      simp only [State.toScanTwo, phaseAfterScan, e]
      by_cases h5 : scanContinues s.len2 0 = true
      · rw [if_pos h5, if_pos ⟨trivial, by simpa [tailGuard] using scanContinues_iff.mp h5⟩]
        rfl
      · rw [if_neg h5, if_neg fun q => h5 (scanContinues_iff.mpr (by simpa [tailGuard] using q))]
        rfl
    | two =>
      simp [phaseAfterScan]
      rfl

/-- The phase after an attempt goes by the index it returned. -/
theorem afterAttempt_phase (s : State) (c : Channel) (hc : s.ch = c) :
    s.afterAttempt.phase = phaseAfterAttempt s c s.resume := by
  unfold State.afterAttempt phaseAfterAttempt
  rw [scanNext_phase (s.setI s.resume) c hc]
  rfl

end Sys2Proof.Machine
end

