-- ==== Sys2Proof/Laws/Unpacker.lean ====
section
/-! SUPPORT. The bit fields of `BUF` and the received FCS as numbers, with their ranges. -/

namespace Sys2Proof.Machine

theorem msgBit_lt (s : State) (b : Nat) : s.msgBit b < 2 := Nat.mod_lt _ (by decide)

/-- A field as the sum of its bits, the first the most significant (R135). -/
theorem bits_eq_sum (s : State) (o w : Nat) :
    s.bits o w = ∑ t ∈ Finset.range w, s.msgBit (o + t) * 2 ^ (w - 1 - t) := by
  induction w with
  | zero => rfl
  | succ w ih =>
    have step : s.bits o (w + 1) = 2 * s.bits o w + s.msgBit (o + w) := by
      simp only [State.bits, List.range_succ, List.foldl_append, List.foldl_cons, List.foldl_nil]
    rw [step, ih, Finset.sum_range_succ, Finset.mul_sum]
    congr 1
    · refine Finset.sum_congr rfl fun t ht => ?_
      have ht := Finset.mem_range.mp ht
      rw [show w + 1 - 1 - t = w - 1 - t + 1 by omega, pow_succ]
      ring
    · simp

/-- A field of `w` bits is below `2^w`. -/
theorem bits_lt (s : State) (o w : Nat) : s.bits o w < 2 ^ w := by
  induction w with
  | zero => exact Nat.one_pos
  | succ w ih =>
    have step : s.bits o (w + 1) = 2 * s.bits o w + s.msgBit (o + w) := by
      simp only [State.bits, List.range_succ, List.foldl_append, List.foldl_cons, List.foldl_nil]
    have := msgBit_lt s (o + w)
    rw [step, pow_succ]
    omega

/-- The two's complement reading of a `w`-bit value is in its range (R6). -/
theorem sext_range {w v : Nat} (hw : 0 < w) (hv : v < 2 ^ w) :
    -2 ^ (w - 1) ≤ sext w v ∧ sext w v < 2 ^ (w - 1) := by
  obtain ⟨k, rfl⟩ : ∃ k, w = k + 1 := ⟨w - 1, by omega⟩
  have hk : (2 : Nat) ^ (k + 1) = 2 * 2 ^ k := by rw [pow_succ]; omega
  have hz : (2 : Int) ^ (k + 1) = 2 * 2 ^ k := by rw [pow_succ]; omega
  have hc : ((2 ^ k : Nat) : Int) = 2 ^ k := by norm_num
  simp only [sext, Nat.add_sub_cancel]
  split <;> omega

@[simp] theorem text_length (s : State) (o c : Nat) : (s.text o c).length = c := by simp [State.text]

/-- A six-bit character is an ASCII code from 32 to 95 (R138). -/
theorem sixBitChar_range {v : Nat} (h : v < 64) : 32 ≤ sixBitChar v ∧ sixBitChar v ≤ 95 := by
  unfold sixBitChar
  split <;> omega

theorem text_range (s : State) (o c : Nat) : ∀ a ∈ s.text o c, 32 ≤ a ∧ a ≤ 95 := by
  intro a ha
  obtain ⟨q, -, rfl⟩ := List.mem_map.mp ha
  exact sixBitChar_range (bits_lt s _ 6)

@[simp] theorem bufOctets_length (s : State) (a n : Nat) : (s.bufOctets a n).length = n := by simp [State.bufOctets]

/-- The received FCS: two octets, low octet first (R41). -/
theorem receivedFcs_toNat (s : State) : s.receivedFcs.toNat =
    (s.bufRead (4 + s.blen.octets)).toNat + 256 * (s.bufRead (5 + s.blen.octets)).toNat := by
  have key : ∀ a b : Byte, (a.setWidth 16 ||| (b.setWidth 16 <<< 8)).toNat = a.toNat + 256 * b.toNat := by
    intro a b
    have ha := a.isLt
    have hb := b.isLt
    have e : (b.setWidth 16 <<< 8).toNat = 2 ^ 8 * b.toNat := by
      simp only [BitVec.toNat_shiftLeft, BitVec.toNat_setWidth, Nat.shiftLeft_eq]
      omega
    rw [BitVec.toNat_or, e, BitVec.toNat_setWidth, Nat.mod_eq_of_lt (by omega), Nat.or_comm,
      ← Nat.two_pow_add_eq_or_of_lt ha]
    omega
  exact key _ _

/-- The message ID of an octet is its value divided by 4 (R66). -/
theorem messageId_toNat (o : Byte) : (messageId o).toNat = o.toNat / 4 := by
  have := o.isLt
  simp only [messageId, BitVec.extractLsb'_toNat, Nat.shiftRight_eq_div_pow]
  omega

end Sys2Proof.Machine
end

