-- ==== Sys2Proof/Machine/Render.lean ====
section
/-! DEFINITION. The sink's reference rendering (spec/45_unpacker.md R152 to R154): the text of a line as a
function of the record alone. It stands outside the hardware boundary (R150) and no operation uses it. Text is
a list of characters. The rounding of decimals is a parameter (`RENDER_ROUNDING`, R153); the reference is
`roundNearest` (log 19). -/

namespace Sys2Proof.Machine

/-- Round to nearest on the exact rational `num / den`; no rendered value is a tie (R153). -/
def roundNearest (num : Int) (den : Nat) : Int := (2 * num + den) / (2 * (den : Int))

/-- The decimal digits of a natural number. -/
def natText (n : Nat) : List Char := Nat.toDigits 10 n

/-- Right-aligned in at least `w` columns, filled with `c`. -/
def padTo (w : Nat) (c : Char) (t : List Char) : List Char := List.replicate (w - t.length) c ++ t

/-- `%w.df` of the rational `num / den`: rounded to `d` places, in at least `w` columns. -/
def fixedText (rnd : Int → Nat → Int) (w d : Nat) (num : Int) (den : Nat) : List Char :=
  let v := rnd (num * 10 ^ d) den
  let sign := if v < 0 then ['-'] else []
  let whole := natText (v.natAbs / 10 ^ d)
  let frac := if d = 0 then [] else '.' :: padTo d '0' (natText (v.natAbs % 10 ^ d))
  padTo w ' ' (sign ++ whole ++ frac)

/-- `%wd` of a natural number. -/
def intText (w n : Nat) : List Char := padTo w ' ' (natText n)

/-- Columns separated by one space (R152, D32). -/
def columns : List (List Char) → List Char
  | [] => []
  | [t] => t
  | t :: ts => t ++ ' ' :: columns ts

/-- A longitude or latitude in degrees, `%11.6f` (R152). -/
def degreesText (rnd : Int → Nat → Int) (v : Int) : List Char := fixedText rnd 11 6 v 600000

/-- The ASCII codes of a text field as characters. -/
def codesText (codes : List Nat) : List Char := codes.map Char.ofNat

/-- `Y/M/D`, not zero-padded (R154). -/
def dateText (y m d : Nat) : List Char := natText y ++ '/' :: natText m ++ '/' :: natText d

/-- `HH:MM:SS`, zero-padded (R154). -/
def timeText (h m s : Nat) : List Char :=
  padTo 2 '0' (natText h) ++ ':' :: padTo 2 '0' (natText m) ++ ':' :: padTo 2 '0' (natText s)

/-- The line of a record (R152, R154). -/
def recordText (rnd : Int → Nat → Int) : Record → List Char
  | .pos id mmsi sog lon lat cog =>
    columns [ intText 2 id, intText 9 mmsi, degreesText rnd lon, degreesText rnd lat,
      fixedText rnd 3 0 (sog * 1852) 10000 ++ [' ', 'k', 'm', '/', 'h'], fixedText rnd 5 1 cog 10 ]
  | .base id mmsi y mo d h mi sec lon lat =>
    columns [ intText 2 id, intText 9 mmsi, degreesText rnd lon, degreesText rnd lat, dateText y mo d,
      timeText h mi sec ]
  | .static id mmsi callsign name dest =>
    columns [ intText 2 id, intText 9 mmsi, codesText callsign, ['<', '<'], codesText name, ['>', '>'],
      codesText dest ]
  | .unknown id mmsi =>
    columns [ intText 2 id, intText 9 mmsi, ['U', 'n', 'k', 'n', 'o', 'w', 'n'],
      ['m', 'e', 's', 's', 'a', 'g', 'e'], ['I', 'D'] ]

/-- The header of the stream-start event (R154), 52 characters; the rule line after it is the sink's own. -/
def headerText : List Char :=
  ['M', 'I', 'D', ' ', ' ', ' ', ' ', 'M', 'M', 'S', 'I', ' ', ' ', ' '] ++
  ['l', 'o', 'n', 'g', 'i', 't', 'u', 'd', 'e', ' ', ' ', ' '] ++
  ['l', 'a', 't', 'i', 't', 'u', 'd', 'e', ' ', ' ', ' '] ++
  ['s', 'p', 'e', 'e', 'd', ' ', ' ', ' ', ' '] ++ ['c', 'o', 'u', 'r', 's', 'e']

/-- The text a sink shows for an item. -/
def sinkText (rnd : Int → Nat → Int) : SinkItem → List Char
  | .streamStart => headerText
  | .item r => recordText rnd r

/-- The text under the open rounding of R5. -/
def openSinkText (x : SinkItem) : List Char := sinkText Config.renderRounding x

end Sys2Proof.Machine
end

