-- ==== Sys2Proof/Tests/Slice0.lean ====
section
/-! SUPPORT. The package's own tests: ill-formed terms refused, every constructor decoded from an octet written out
bit by bit, small steps on values of spec/95_test_vectors.md, and a witness for every statement with hypotheses. -/

open Sys2Proof Sys2Proof.Machine Sys2Proof.Stated

namespace Sys2Proof.Tests

set_option Elab.async false

/-! ### WellFormed -/

theorem test_ill_formed_msgPos1 : Instr.wellFormed (.msgPos1 0x08) = false := rfl

theorem test_ill_formed_msgPos2 : Instr.wellFormed (.msgPos2 0x0C) = false := rfl

theorem test_ill_formed_msgPos3 : Instr.wellFormed (.msgPos3 0x10) = false := rfl

theorem test_ill_formed_msgBase : Instr.wellFormed (.msgBase 0x0F) = false := rfl

theorem test_ill_formed_msgStatic : Instr.wellFormed (.msgStatic 0x18) = false := rfl

theorem test_ill_formed_msgUnknown0 : Instr.wellFormed (.msgUnknown0 0x04) = false := rfl

theorem test_ill_formed_msgUnknown6to7 : Instr.wellFormed (.msgUnknown6to7 0x17) = false := rfl

theorem test_ill_formed_msgUnknown8to15 : Instr.wellFormed (.msgUnknown8to15 0x1F) = false := rfl

theorem test_ill_formed_msgUnknown16to31 : Instr.wellFormed (.msgUnknown16to31 0x3F) = false := rfl

theorem test_ill_formed_msgUnknown32to63 : Instr.wellFormed (.msgUnknown32to63 0x7F) = false := rfl

/-! ### Decode: octets written out from the encoding tables of spec/30_encoding.md R69 and R66 -/

theorem test_decode_runOp : decode .op 0b00000000 = .ok .runOp := rfl

theorem test_decode_readOp : decode .op 0b00000001 = .ok .readOp := rfl

theorem test_decode_sweepOp : decode .op 0b00000010 = .ok .sweepOp := rfl

theorem test_decode_scanOp : decode .op 0b00000011 = .ok .scanOp := rfl

theorem test_decode_aisdec : decode .op 0b00000100 = .ok .aisdec := rfl

theorem test_decode_sdec : decode .op 0b00010000 = .ok .sdec := rfl

theorem test_decode_fir : decode .op 0b00010001 = .ok .fir := rfl

theorem test_decode_dec3 : decode .op 0b00010010 = .ok .dec3 := rfl

theorem test_decode_splitOp : decode .op 0b00010011 = .ok .splitOp := rfl

theorem test_decode_dec2 : decode .op 0b00010100 = .ok .dec2 := rfl

theorem test_decode_fmdem : decode .op 0b00010101 = .ok .fmdem := rfl

theorem test_decode_amenv : decode .op 0b00010110 = .ok .amenv := rfl

theorem test_decode_gate : decode .op 0b00100000 = .ok .gate := rfl

theorem test_decode_corr : decode .op 0b00100001 = .ok .corr := rfl

theorem test_decode_syncOp : decode .op 0b00100010 = .ok .syncOp := rfl

theorem test_decode_clearOp : decode .op 0b00110000 = .ok .clearOp := rfl

theorem test_decode_slice : decode .op 0b00110001 = .ok .slice := rfl

theorem test_decode_nrzi : decode .op 0b00110010 = .ok .nrzi := rfl

theorem test_decode_destuff : decode .op 0b00110011 = .ok .destuff := rfl

theorem test_decode_pack : decode .op 0b00110100 = .ok .pack := rfl

theorem test_decode_lensel : decode .op 0b01000000 = .ok .lensel := rfl

theorem test_decode_crc16 : decode .op 0b01000001 = .ok .crc16 := rfl

theorem test_decode_crcchk : decode .op 0b01000010 = .ok .crcchk := rfl

theorem test_decode_getbits : decode .op 0b01010000 = .ok .getbits := rfl

theorem test_decode_unpackPos : decode .op 0b01010001 = .ok .unpackPos := rfl

theorem test_decode_unpackBase : decode .op 0b01010010 = .ok .unpackBase := rfl

theorem test_decode_unpackStatic : decode .op 0b01010011 = .ok .unpackStatic := rfl

theorem test_decode_unpackUnknown : decode .op 0b01010100 = .ok .unpackUnknown := rfl

theorem test_decode_emitOp : decode .op 0b01010101 = .ok .emitOp := rfl

theorem test_decode_msgPos1 : decode .msgId 0b00000110 = .ok (.msgPos1 0b00000110) := rfl

theorem test_decode_msgPos2 : decode .msgId 0b00001001 = .ok (.msgPos2 0b00001001) := rfl

theorem test_decode_msgPos3 : decode .msgId 0b00001111 = .ok (.msgPos3 0b00001111) := rfl

theorem test_decode_msgBase : decode .msgId 0b00010010 = .ok (.msgBase 0b00010010) := rfl

theorem test_decode_msgStatic : decode .msgId 0b00010111 = .ok (.msgStatic 0b00010111) := rfl

theorem test_decode_msgUnknown0 : decode .msgId 0b00000011 = .ok (.msgUnknown0 0b00000011) := rfl

theorem test_decode_msgUnknown6to7 : decode .msgId 0b00011010 = .ok (.msgUnknown6to7 0b00011010) := rfl

theorem test_decode_msgUnknown8to15 : decode .msgId 0b00101101 = .ok (.msgUnknown8to15 0b00101101) := rfl

theorem test_decode_msgUnknown16to31 : decode .msgId 0b01110110 = .ok (.msgUnknown16to31 0b01110110) := rfl

theorem test_decode_msgUnknown32to63 : decode .msgId 0b10011001 = .ok (.msgUnknown32to63 0b10011001) := rfl

/-- 0x05 is no index of R69. -/
theorem test_decode_unlisted_index : decode .op 0b00000101 = .error (.noSuchOperation 0b00000101) := rfl

/-- A bare octet is read as an operation index when it is one, otherwise as a message class (log 2). -/
theorem test_table_word_op : decodeTableWord 8 0b00010010 = some .dec3 := rfl

theorem test_table_word_message : decodeTableWord 8 0b00001000 = some (.msgPos2 0b00001000) := rfl

theorem test_placed_index : (State.reset.withFetchWord 8 0b00100000).fetch = .tag 0x20 := rfl

theorem test_placed_body : (State.reset.withFetchWord 8 0b00001000).fetch = .body ∧
    (State.reset.withFetchWord 8 0b00001000).bufRead 4 = 0x08 := ⟨rfl, rfl⟩

/-! ### Constants: R56 and V20 -/

theorem test_pattern : pat = [1, 1, -1, -1, 1, 1, -1, -1, 1, 1, -1, -1, 1, 1, -1, -1, 1, 1, -1, -1, 1, 1, -1, -1] ++
    [1, 1, 1, 1, 1, 1, 1, -1] := by decide

theorem test_off : [off 0, off 1, off 2, off 3, off 12, off 31, off 32, off 36, off 165, off 224, off 780] =
    [0, 5, 10, 16, 63, 161, 167, 188, 859, 1167, 4063] := by decide

/-! ### Small states -/

/-- What a completed operation left, seen through `f`. -/
def left {α : Type} (o : StepOutcome) (f : State → α) : Option α :=
  match o with
  | .next t => some (f t)
  | _ => none

/-- The delta kernels of spec/95_test_vectors.md and blocks of `n` samples. -/
def delta (n : Nat) : State := { State.reset with cfg := ⟨n, List.replicate 30 0, List.replicate 30 0⟩ }

/-- Channel 1 with the streams `x`, `y`. -/
def streams (x y : List Int) : State := { delta x.length with i1 := x, q1 := y, len1 := x.length }

/-- A frame whose octets from `BUF[4]` are `d`. -/
def frame (d : List Byte) : State := { State.reset with buf := Memory.ofBytes 4 d, nbits := 8 * d.length }

/-- The body and the FCS of program P2. -/
def octets2 : List Byte := [0x04, 0x1D, 0x6F, 0x34, 0x54, 0x00, 0x07, 0xB6, 0xAD, 0x3A, 0x38, 0x17] ++
  [0x4B, 0xCA, 0x03, 0x6B, 0x00, 0x00, 0x00, 0x00, 0x00, 0x62, 0x01]

/-- The body of program P4. -/
def octets4 : List Byte := [0x10, 0x00, 0x8D, 0x9A, 0x04, 0x7E, 0x83, 0x73, 0xC9, 0x68] ++ List.replicate 11 0x00

/-- The body of V52. -/
def octets5 : List Byte := [0x14, 0x1D, 0x6F, 0x34, 0x54, 0x00, 0x00, 0x00, 0x01, 0x71, 0x05, 0xD7, 0x4C, 0xF2] ++
  [0x15, 0x61, 0x52, 0x80, 0x72, 0x56, 0x14, 0xE0] ++ List.replicate 15 0x00 ++
  [0x01, 0x23, 0xD4, 0x50, 0x54, 0x84, 0x04, 0xD0] ++ List.replicate 8 0x00

/-- The ASCII codes of a text. -/
def codes (t : String) : List Nat := t.toList.map Char.toNat

/-- The record of program P2. -/
def record2 : Record := .pos 1 123456789 123 (-44403600) 24427680 875

/-! ### C1 to C5 -/

/-- V2. -/
theorem test_sdec : left (exec .sdec { delta 4 with raw := Memory.ofBytes 0 [0x80, 0x80, 0xFF, 0x00, 0x00, 0xFF, 0x7F, 0x81] })
    (fun t => (t.i1, t.q1, t.len1)) = some ([0, 127, -128, -1], [0, -128, 127, 1], 4) := by decide +kernel

/-- V3. -/
theorem test_sdec_empty : left (exec .sdec (delta 0)) (fun t => (t.i1, t.len1)) = some ([], 0) := by decide +kernel

/-- V5: the shift rounds down. -/
theorem test_fir_floor : left (exec .fir (streams [-3] [0])) State.firY = some (-2) := by decide +kernel

/-- The example of R72. -/
theorem test_fir_kernel : left (exec .fir { streams ((List.range 100).map fun k => (k : Int) - 50) [] with
    cfg := ⟨100, 262144 :: List.replicate 28 0 ++ [-1024], []⟩, firN := 30 }) State.firY = some (-34) := by
  decide +kernel

/-- V5, V8: 33 inputs give one output. -/
theorem test_dec3 : left (exec .dec3 (streams (List.replicate 33 100) (List.replicate 33 (-100))))
    (fun t => (t.i1.take 2, t.q1.take 2, t.len1)) = some ([66, 100], [-67, -100], 1) := by decide +kernel

theorem test_dec3_short : left (exec .dec3 (streams (List.replicate 32 100) [])) State.len1 = some 0 := by
  decide +kernel

/-- V11. -/
theorem test_split : left (exec .splitOp (streams [3, 3, 3, 3] [5, 5, 5, 5]))
    (fun t => [t.i2, t.q2, t.i1, t.q1]) =
    some [[3, 5, -3, -5], [5, -3, -5, 3], [3, -5, -3, 5], [5, 3, -5, -3]] := by decide +kernel

theorem test_split_length : left (exec .splitOp (streams [3, 3] [5, 5])) (fun t => (t.len1, t.len2)) = some (2, 2) := by
  decide +kernel

/-- V14: 32 inputs give one output, and −11 gives −3. -/
theorem test_dec2 : left (exec .dec2 { streams (List.replicate 32 (-11)) (List.replicate 32 23) with
      i2 := List.replicate 32 4, q2 := List.replicate 32 (-35), len2 := 32 })
    (fun t => ([t.i1.take 1, t.q1.take 1, t.i2.take 1, t.q2.take 1], t.len1, t.len2)) =
    some ([[-3], [5], [1], [-9]], 1, 1) := by decide +kernel

theorem test_dec2_short : left (exec .dec2 (streams (List.replicate 31 0) [])) (fun t => (t.len1, t.len2)) =
    some (0, 0) := by decide +kernel

/-- The example of R90, and V15. -/
theorem test_fmdem : left (exec .fmdem (streams [-3, 5] [2, -4])) State.fOut = some [2] := by decide +kernel

theorem test_fmdem_turn : left (exec .fmdem (streams [3, 0] [0, -3])) State.fOut = some [-9] := by decide +kernel

/-- The example of R91: the power is that of the later sample. -/
theorem test_amenv : left (exec .amenv (streams [-3, 5] [2, -4])) State.aOut = some [41] := by decide +kernel

/-- V16: no output from one sample. -/
theorem test_amenv_short : left (exec .amenv (streams [7] [7])) State.aOut = some [] := by decide +kernel

/-! ### C6 -/

/-- V19: 500 samples left are enough, 499 are not. -/
theorem test_gate : left (exec .gate { streams [] (List.replicate 600 16) with len1 := 600, i := 100 })
    (fun t => (t.i, t.run, t.res)) = some (100, 100, .plain) := by decide +kernel

theorem test_gate_tail : left (exec .gate { streams [] (List.replicate 600 16) with len1 := 600, i := 101 })
    (fun t => (t.i, t.resume, t.res)) = some (101, 101, .raised .bufferExhaustion) := by decide +kernel

/-- V25: a constant stream has no agreeing shift of either sign. -/
theorem test_corr_constant : left (exec .corr (streams (List.replicate 500 500) []))
    (fun t => (t.smax, t.imax, t.sync)) = some (0, 0, false) := by decide +kernel

/-- The levels `v` from symbol `q` on, each held over the samples up to the next symbol. -/
def wave (q : Nat) : List Int → List Int
  | [] => []
  | v :: vs => List.replicate (off (q + 1) - off q) v ++ wave (q + 1) vs

/-- The octets `d` sent behind the preamble and the flag: symbol 0 at sample 0, constant power 16. -/
def burst (d : List Byte) : State :=
  let bits := d.flatMap fun b => (List.range 8).map b.getLsbD
  let f := wave 0 (pat ++ (nrziLevels true bits).map symbolSign)
  { streams f (List.replicate f.length 16) with cfg := ⟨f.length, [], []⟩ }

/-- The preamble, the flag and silence, 500 samples in all, with the sign `v`. -/
def lonePattern (v : Int) : State :=
  let f := (wave 0 pat).map (v * ·) ++ List.replicate 333 (-v)
  streams f (List.replicate 104 16 ++ List.replicate 396 0)

/-- R100 to R103 by hand: the pattern of amplitude 1 scores 32 from shift 0 on; of amplitude −3, −96. -/
theorem test_corr_negative : left (exec .corr (lonePattern (-3))) (fun t => (t.smax, t.imax, t.pol)) =
    some (-96, 0, .minus) := by decide +kernel

/-- The examples of R104. -/
theorem test_sync : left (exec .syncOp { State.reset with sync := true, i := 656, imax := 44 })
    (fun t => (t.p0, t.res)) = some (700, .plain) := by decide +kernel

theorem test_sync_lost : left (exec .syncOp { State.reset with i := 100 }) (fun t => (t.resume, t.res)) =
    some (1245, .raised .noSync) := by decide +kernel

/-! ### C7 -/

/-- The example of R111. -/
theorem test_clear : left (exec .clearOp { frame [0xFF] with hist := 0b11111, prev := some true, m := 7 })
    (fun t => (t.bufRead 4, t.bufRead 255, t.wp, t.nbits, t.hist, t.m)) = some (0, 0, 4, 0, 0, 0) := by
  decide +kernel

/-- V27: the range test comes before the gate. -/
theorem test_slice_exhausted : left (exec .slice { streams (List.replicate 167 1) [] with p0 := 0 })
    (fun t => (t.idx, t.m, t.res)) = some (167, 0, .stop .exhausted) := by decide +kernel

/-- V27: `F = 0` gives symbol 1, and power 4 passes. -/
theorem test_slice : left (exec .slice (streams (List.replicate 168 0) (List.replicate 168 4)))
    (fun t => (t.idx, t.m, t.sym, t.res)) = some (167, 1, true, .plain) := by decide +kernel

/-- V28: equal symbols give 1; V29: the first bit is 0. -/
theorem test_nrzi : left (exec .nrzi { State.reset with prev := some false, sym := false })
    (fun t => (t.out, t.prev)) = some (true, some false) := by decide +kernel

theorem test_nrzi_first : left (exec .nrzi { State.reset with sym := true }) (fun t => (t.out, t.prev)) =
    some (false, some true) := by decide +kernel

/-- V30, V33: the 0 after five 1s is dropped; a sixth 1 is kept and leaves the history full. -/
theorem test_destuff_drop : left (exec .destuff { State.reset with hist := 0b11111 }) (fun t => (t.hist, t.res)) =
    some (0b00000, .drop) := by decide +kernel

theorem test_destuff_keep : left (exec .destuff { State.reset with hist := 0b11111, out := true })
    (fun t => (t.hist, t.res)) = some (0b11111, .keep) := by decide +kernel

/-- V37: the third kept bit is bit 2 of `BUF[4]`; the eighth advances the write pointer. -/
theorem test_pack : left (exec .pack { frame [0x00] with wp := 4, bp := 2, nbits := 2, out := true })
    (fun t => (t.bufRead 4, t.wp, t.bp, t.nbits)) = some (0x04, 4, 3, 3) := by decide +kernel

theorem test_pack_eighth : left (exec .pack { frame [0x04] with wp := 4, bp := 7, nbits := 7 })
    (fun t => (t.bufRead 4, t.wp, t.bp, t.nbits)) = some (0x04, 5, 0, 8) := by decide +kernel

/-! ### C8 -/

/-- V39. -/
theorem test_lensel : left (exec .lensel { frame [0x07] with nbits := 184 })
    (fun t => (t.mid, t.blen, t.short, t.res)) = some (1, .octets21, false, .plain) := by decide +kernel

theorem test_lensel_short : left (exec .lensel { frame [0x17] with nbits := 439, idx := 9 })
    (fun t => (t.mid, t.blen, t.short, t.res, t.resume)) =
    some (5, .octets53, true, .raised .midFrameFade, 9) := by decide +kernel

/-- V40: the nine octets of the check string, and the empty sequence. -/
theorem test_crc16 : left (exec .crc16 { State.reset with
    crcD := [0x31, 0x32, 0x33, 0x34, 0x35, 0x36, 0x37, 0x38, 0x39] }) State.crc = some 0x906E := by decide +kernel

theorem test_crc16_empty : left (exec .crc16 State.reset) State.crc = some 0x0000 := by decide +kernel

/-- V42: the FCS has its low octet first. -/
theorem test_crcchk : left (exec .crcchk (frame octets2)) (fun t => (t.crc, t.fcs, t.crcOk, t.res)) =
    some (0x0162, 0x0162, true, .plain) := by decide +kernel

theorem test_crcchk_swapped : left (exec .crcchk (frame (octets2.take 21 ++ [0x01, 0x62])))
    (fun t => (t.fcs, t.crcOk, t.res)) = some (0x6201, false, .raised .crcMismatch) := by decide +kernel

/-! ### C9 -/

/-- V43, V46. -/
theorem test_getbits : left (exec .getbits { frame octets2 with gbO := 8, gbW := 30 }) State.gbV = some 123456789 := by
  decide +kernel

theorem test_getbits_straddle : left (exec .getbits { frame [0x01, 0x80] with gbO := 6, gbW := 4 }) State.gbV =
    some 6 := by decide +kernel

/-- V53. -/
theorem test_unpack_pos : left (exec .unpackPos { frame octets2 with mid := 1 }) State.record = some record2 := by
  decide +kernel

/-- V48: the sign bit of the longitude. -/
theorem test_sext : [sext 28 0x8000000, sext 28 0x7FFFFFF, sext 28 0x9900D00, sext 27 0x4C80680, sext 27 0x337F980] =
    [-134217728, 134217727, -108000000, -54000000, 54000000] := by decide

/-- V54. -/
theorem test_unpack_base : left (exec .unpackBase (frame octets4)) State.record =
    some (.base 4 2320001 2024 3 14 15 9 26 0 0) := by decide +kernel

/-- V52. -/
theorem test_unpack_static : left (exec .unpackStatic (frame octets5)) State.record =
    some (.static 5 123456789 (codes "WDE5432") (codes "EVER GIVEN@@@@@@@@@@") (codes "ROTTERDAM@@@@@@@@@@@")) := by
  decide +kernel

/-- V55. -/
theorem test_unpack_unknown : left (exec .unpackUnknown { frame (0x1C :: (octets2.drop 1)) with mid := 7 })
    (fun t => (t.record, t.res)) = some (.unknown 7 123456789, .raised .unknownMessageId) := by decide +kernel

theorem test_emit : left (exec .emitOp { State.reset with record := record2, sink := [.streamStart] }) State.sink =
    some [.streamStart, .item record2] := by decide +kernel

/-! ### Message classes: V53, V54, V52 and V55 -/

theorem test_msgPos1 : left (exec (.msgPos1 0x04) (frame octets2)) (fun t => (t.mid, t.blen, t.record, t.res)) =
    some (1, .octets21, .pos 1 123456789 123 (-44403600) 24427680 875, .plain) := by decide +kernel

theorem test_msgPos2 : left (exec (.msgPos2 0x08) (frame octets2)) (fun t => (t.mid, t.blen, t.record, t.res)) =
    some (2, .octets21, .pos 2 123456789 123 (-44403600) 24427680 875, .plain) := by decide +kernel

theorem test_msgPos3 : left (exec (.msgPos3 0x0C) (frame octets2)) (fun t => (t.mid, t.blen, t.record, t.res)) =
    some (3, .octets21, .pos 3 123456789 123 (-44403600) 24427680 875, .plain) := by decide +kernel

theorem test_msgBase : left (exec (.msgBase 0x10) (frame octets4)) (fun t => (t.mid, t.blen, t.record, t.res)) =
    some (4, .octets21, .base 4 2320001 2024 3 14 15 9 26 0 0, .plain) := by decide +kernel

theorem test_msgUnknown0 : left (exec (.msgUnknown0 0x03) (frame octets2)) (fun t => (t.mid, t.blen, t.record, t.res)) =
    some (0, .octets21, .unknown 0 123456789, .raised .unknownMessageId) := by decide +kernel

theorem test_msgUnknown6to7 : left (exec (.msgUnknown6to7 0x1C) (frame octets2)) (fun t => (t.mid, t.blen, t.record, t.res)) =
    some (7, .octets21, .unknown 7 123456789, .raised .unknownMessageId) := by decide +kernel

theorem test_msgUnknown8to15 : left (exec (.msgUnknown8to15 0x3F) (frame octets2)) (fun t => (t.mid, t.blen, t.record, t.res)) =
    some (15, .octets21, .unknown 15 123456789, .raised .unknownMessageId) := by decide +kernel

theorem test_msgUnknown16to31 : left (exec (.msgUnknown16to31 0x40) (frame octets2)) (fun t => (t.mid, t.blen, t.record, t.res)) =
    some (16, .octets21, .unknown 16 123456789, .raised .unknownMessageId) := by decide +kernel

theorem test_msgUnknown32to63 : left (exec (.msgUnknown32to63 0xFE) (frame octets2)) (fun t => (t.mid, t.blen, t.record, t.res)) =
    some (63, .octets21, .unknown 63 123456789, .raised .unknownMessageId) := by decide +kernel

theorem test_msgStatic : left (exec (.msgStatic 0x17) (frame octets5)) (fun t => (t.mid, t.blen, t.res)) =
    some (5, .octets53, .plain) := by decide +kernel

/-! ### The sequencer -/

/-- R161: two of five bytes are one block of one sample; a source that has closed on one byte gives none. -/
theorem test_read : left (exec .readOp { delta 1 with src := [1, 2, 3, 4, 5] }) (fun t => (t.rawRead 1, t.src, t.res)) =
    some (2, [3, 4, 5], .block) := by decide +kernel

theorem test_read_closed : left (exec .readOp { delta 1 with src := [9], srcClosed := true })
    (fun t => (t.src, t.res)) = some ([], .raised .sourceClosed) := by decide +kernel

/-- R162: a run without a block is legal; its output is the stream-start event only. -/
theorem test_run_no_block : left (exec .runOp { delta 1 with srcClosed := true })
    (fun t => (t.phase, t.started, t.sink)) = some (.done, true, [.streamStart]) := by decide +kernel

/-- R162, R166: two blocks and a partial third, of one sample each, too short for any record. -/
theorem test_run : left (exec .runOp { delta 1 with src := [1, 2, 3, 4, 5], srcClosed := true })
    (fun t => (t.phase, t.sink, t.len1)) = some (.done, [.streamStart], 0) := by decide +kernel

/-- V8: the lengths after a sweep of 33 samples. -/
theorem test_sweep : left (exec .sweepOp { delta 33 with raw := Memory.ofBytes 0 (List.replicate 66 0) })
    (fun t => (t.len1, t.len2, t.sink)) = some (0, 0, []) := by decide +kernel

/-- R158: with fewer than 500 samples no attempt is made. -/
theorem test_scan_short : left (exec .scanOp { streams [] (List.replicate 499 16) with len1 := 499, i := 7 })
    (fun t => (t.i, t.ch, t.run)) = some (0, .one, 0) := by decide +kernel

/-- R155: no burst ends the attempt at the end of the buffer. -/
theorem test_aisdec_eob : left (exec .aisdec (streams [] (List.replicate 3 0))) (fun t => (t.res, t.resume)) =
    some (.attempt .eob, 0) := by decide +kernel

/-- R155, the outcome NOSYNC (V25). -/
theorem test_aisdec_nosync : left (exec .aisdec (streams (List.replicate 500 500) (List.replicate 500 16)))
    (fun t => (t.res, t.resume)) = some (.attempt .nosync, 1145) := by decide +kernel

/-- A step from reset performs RUN, which waits in READ for the source (R190, R160; log 9). -/
theorem test_step_reset : left (step State.reset) (fun t => (t.phase, t.fetch, t.sink)) =
    some (.read, .tag 0x01, [.streamStart]) := by decide +kernel

/-- A step with an octet that is no index is refused by name. -/
theorem test_step_unlisted : (match step { State.reset with fetch := .tag 0x05 } with
    | .refused r => some r
    | _ => none) = some (.noSuchOperation 0x05) := by decide +kernel

/-- P2's reference line (R152). -/
theorem test_render : recordText roundNearest record2 =
    " 1 123456789  -74.006000   40.712800  23 km/h  87.5".toList := by decide +kernel

/-- P4's reference line (R154). -/
theorem test_render_base : recordText roundNearest (.base 4 2320001 2024 3 14 15 9 26 0 0) =
    " 4   2320001    0.000000    0.000000 2024/3/14 15:09:26".toList := by decide +kernel


/-! ### Witnesses: the hypotheses of the statements can be met -/

/-- A completed operation with a tested field. -/
theorem completes_with {α : Type} {o : StepOutcome} {f : State → α} {a : α} (h : left o f = some a) :
    ∃ t, o = .next t ∧ f t = a := by
  cases o with
  | next t => exact ⟨t, rfl, Option.some.inj h⟩
  | fault r => cases h
  | refused r => cases h

theorem witness_DecodeEncodeRoundTrip : Instr.wellFormed (.msgUnknown32to63 0x80) = true ∧
    Instr.wellFormed (.msgUnknown32to63 0xFF) = true ∧ Instr.wellFormed .runOp = true := ⟨rfl, rfl, rfl⟩

theorem witness_EncodeDecodeRoundTrip : decode .op 0x55 = .ok .emitOp ∧
    decode .msgId 0xFF = .ok (.msgUnknown32to63 0xFF) := ⟨rfl, rfl⟩

theorem witness_UnlistedIndexRejected : (∀ i : Instr, encode i ≠ (.op, 0x05)) ∧ (∀ i : Instr, encode i ≠ (.op, 0x56)) ∧
    ∃ s : State, s.fetch = .tag 0x05 :=
  ⟨fun i => by cases i <;> simp [encode], fun i => by cases i <;> simp [encode],
    { State.reset with fetch := .tag 0x05 }, rfl⟩

theorem witness_StepRunsDecodedInstruction_next : ∃ (s t : State) (i : Instr) (w : Byte),
    s.fetch = .tag w ∧ decode .op w = .ok i ∧ exec i s = .next t :=
  ⟨{ State.reset with fetch := .tag 0x55 }, _, .emitOp, 0x55, rfl, rfl, rfl⟩

theorem witness_StepRunsDecodedInstruction_body : ∃ (s t : State) (i : Instr),
    s.fetch = .body ∧ decode .msgId (s.bufRead 4) = .ok i ∧ exec i s = .next t :=
  ⟨{ frame octets2 with fetch := .body }, _, .msgPos1 0x04, rfl, rfl, rfl⟩

theorem witness_StepRunsDecodedInstruction_fault : ∃ (s : State) (i : Instr) (w : Byte),
    s.fetch = .tag w ∧ decode .op w = .ok i ∧ exec i s = .fault .bufRange :=
  ⟨{ State.reset with fetch := .tag 0x34, wp := 256 }, .pack, 0x34, rfl, rfl, rfl⟩

theorem witness_StepRunsDecodedInstruction_refused : ∃ (s : State) (i : Instr) (w : Byte),
    s.fetch = .tag w ∧ decode .op w = .ok i ∧ exec i s = .refused .runInProgress :=
  ⟨{ State.reset with phase := .read }, .runOp, 0x00, rfl, rfl, rfl⟩

/-- A state that stands in phase `p` with the operation `f` next. -/
def standing (p : Phase) (f : Fetch) : State := { delta 1 with phase := p, fetch := f, crcOk := true }

/-- Each phase has a sequenced state, with the operation named and any lengths. -/
theorem sequenced_sized (p : Phase) (f : Fetch) (n1 n2 : Nat) (hf : f ∈ phaseOps p) (hc : f ≠ fetchOf .corr)
    (hp : ∀ c sub, p = .scan c sub → c = .one) : { standing p f with len1 := n1, len2 := n2 }.sequenced := by
  refine ⟨rfl, hf, ?_, ?_, ?_, ?_, ?_⟩
  · intro c sub h
    exact (hp c sub h).symm
  · intro h
    exact absurd h hc
  · intro c _ _
    show 4 < 256
    decide
  · intro _
    rfl
  · intro _
    exact ⟨rfl, rfl, rfl⟩

theorem sequenced_at (p : Phase) (f : Fetch) (hf : f ∈ phaseOps p) (hc : f ≠ fetchOf .corr)
    (hp : ∀ c sub, p = .scan c sub → c = .one) : (standing p f).sequenced := sequenced_sized p f 0 0 hf hc hp

theorem witness_DoneIsFinal : ∃ s : State, s.sequenced ∧ s.phase = .done :=
  ⟨standing .done .halt, sequenced_at _ _ (by decide) (by decide) (by simp), rfl⟩

theorem witness_SplitKeepsMagnitude : ∃ s t : State, exec .splitOp s = .next t ∧ 0 < s.len1 :=
  ⟨streams [3] [5], _, rfl, by decide⟩

theorem witness_FrontEndFitsItsBounds : ∃ s a b c d : State, s.cfg.ok = true ∧ exec .sdec s = .next a ∧
    exec .dec3 a = .next b ∧ exec .splitOp b = .next c ∧ exec .dec2 c = .next d ∧ 32 ≤ b.len1 ∧ 0 < d.len1 :=
  ⟨delta 126, _, _, _, _, by decide, rfl, rfl, rfl, rfl, by decide +kernel, by decide +kernel⟩

/-- The clauses of GATE: a burst at the offset with 500 samples left, and none. -/
theorem witness_GateFindsFirstBurst : (∃ s : State, burstAt s s.i s.i ∧ (s.n : Int) - s.i = 500) ∧
    ∃ s : State, (∀ i, ¬ burstAt s s.i i) ∧ (s.n : Int) - s.n < 500 := by
  refine ⟨⟨{ streams [] (List.replicate 500 16) with len1 := 500 }, ⟨Nat.le_refl _, by decide, ?_⟩, by decide⟩,
    streams [] [], fun i h => ?_, by decide⟩
  · intro d hd
    have h : (List.replicate 500 (16 : Int))[0 + d]? = some 16 := by
      rw [List.getElem?_replicate, if_pos (by omega)]
    show 16 ≤ ((List.replicate 500 (16 : Int))[0 + d]?).getD _
    rw [h]
    exact Int.le_refl 16
  · have := h.2.1
    exact absurd this (by show ¬ i + 100 ≤ 0; omega)

theorem witness_CorrFindsBestShift_none : ∃ s : State, s.i + 500 = s.n := ⟨{ State.reset with len1 := 500 }, rfl⟩

/-- A shift that agrees with a positive score, at the boundary of the tail guard. -/
theorem witness_CorrFindsBestShift_plus : ∃ s : State, s.i + 500 = s.n ∧ foundPlus s :=
  ⟨lonePattern 1, by decide +kernel, 0, by decide, by unfold agrees; decide +kernel, by decide +kernel⟩

theorem witness_CorrFindsBestShift_minus : ∃ s : State, s.i + 500 = s.n ∧ foundMinus s ∧
    left (exec .corr s) (fun t => t.pol) = some .minus :=
  ⟨lonePattern (-1), by decide +kernel, ⟨0, by decide, by unfold opposes; decide +kernel, by decide +kernel⟩, by decide +kernel⟩

theorem witness_SliceDecidesSymbol : (∃ s : State, s.n = s.symbolIdx) ∧
    (∃ s : State, s.symbolIdx + 1 = s.n ∧ s.aAt s.symbolIdx = 3) ∧
    ∃ s : State, s.symbolIdx + 1 = s.n ∧ s.aAt s.symbolIdx = 4 :=
  ⟨⟨{ State.reset with len1 := 167 }, by decide⟩,
    ⟨streams (List.replicate 168 0) (List.replicate 168 3), by decide +kernel, by decide +kernel⟩,
    ⟨streams (List.replicate 168 0) (List.replicate 168 4), by decide +kernel, by decide +kernel⟩⟩

theorem witness_PackStoresBit : (∃ s : State, s.wp = 255 ∧ s.bp + 1 = 8) ∧ ∃ s : State, s.wp = 4 ∧ s.bp + 1 ≠ 8 :=
  ⟨⟨{ State.reset with wp := 255, bp := 7 }, rfl, rfl⟩, ⟨State.reset, rfl, by decide⟩⟩

theorem witness_IndexOutsideBufferFaults : (∃ s : State, s.n = s.i) ∧ (∃ s : State, s.wp = 256) ∧
    ∃ s : State, 0 < s.gbW ∧ s.gbO + s.gbW = 8 * 252 + 1 :=
  ⟨⟨State.reset, rfl⟩, ⟨{ State.reset with wp := 256 }, rfl⟩, ⟨{ State.reset with gbO := 2016 }, by decide, rfl⟩⟩

theorem witness_PackedBitsLandInOrder : ∃ (s a : State) (bits : List Bool), bits.length = 2016 ∧
    exec .clearOp s = .next a := ⟨State.reset, _, List.replicate 2016 true, List.length_replicate, rfl⟩

theorem witness_LenselSelectsLength : (∃ t, exec .lensel { frame [0x14] with nbits := 439 } = .next t ∧
      (t.mid, t.short) = (5, true)) ∧
    ∃ t, exec .lensel { frame [0x10] with nbits := 184 } = .next t ∧ (t.mid, t.short) = (4, false) :=
  ⟨completes_with (by decide +kernel), completes_with (by decide +kernel)⟩

theorem witness_CrcchkComparesFcs : (∃ t, exec .crcchk (frame octets2) = .next t ∧ t.crcOk = true) ∧
    ∃ t, exec .crcchk (frame (octets2.take 21 ++ [0x63, 0x01])) = .next t ∧ t.crcOk = false :=
  ⟨completes_with (by decide +kernel), completes_with (by decide +kernel)⟩

theorem witness_OneChangedOctetFails : (0x00 : Byte) ≠ 0x01 := by decide

theorem witness_GetbitsReadsField : (∃ s : State, s.gbW = 1 ∧ s.gbO + s.gbW = 8 * 252) ∧
    ∃ s : State, s.gbW = 30 ∧ s.gbO + s.gbW ≤ 8 * 252 :=
  ⟨⟨{ State.reset with gbO := 2015 }, rfl, rfl⟩, ⟨{ State.reset with gbO := 8, gbW := 30 }, rfl, by decide⟩⟩

theorem witness_BaseDateByteView : ∃ t, exec .unpackBase (frame octets4) = .next t ∧
    t.record = .base 4 2320001 2024 3 14 15 9 26 0 0 := completes_with (by decide +kernel)

/-- The IDs at the ends of R66's ranges. -/
theorem witness_MessageClassSelectsRecord : (0x03 : Byte).toNat / 4 = 0 ∧ (0x04 : Byte).toNat / 4 = 1 ∧
    (0x0F : Byte).toNat / 4 = 3 ∧ (0x10 : Byte).toNat / 4 = 4 ∧ (0x17 : Byte).toNat / 4 = 5 ∧
    (0x18 : Byte).toNat / 4 = 6 ∧ (0xFF : Byte).toNat / 4 = 63 := by decide

theorem witness_MessageInstructionsComplete : Instr.wellFormed (.msgPos1 0x04) = true ∧
    Instr.wellFormed (.msgPos2 0x0B) = true ∧ Instr.wellFormed (.msgPos3 0x0C) = true ∧
    Instr.wellFormed (.msgBase 0x13) = true ∧ Instr.wellFormed (.msgStatic 0x14) = true ∧
    Instr.wellFormed (.msgUnknown0 0x03) = true ∧ Instr.wellFormed (.msgUnknown6to7 0x18) = true ∧
    Instr.wellFormed (.msgUnknown8to15 0x3F) = true ∧ Instr.wellFormed (.msgUnknown16to31 0x40) = true ∧
    Instr.wellFormed (.msgUnknown32to63 0xFF) = true := by decide

theorem witness_ReadTakesWholeBlocks : (∃ s : State, 2 * s.cfg.n = s.src.length) ∧
    (∃ s : State, s.src.length + 1 = 2 * s.cfg.n ∧ s.srcClosed = true) ∧
    ∃ s : State, s.src.length + 1 = 2 * s.cfg.n ∧ s.srcClosed = false :=
  ⟨⟨{ delta 1 with src := [1, 2] }, rfl⟩, ⟨{ delta 1 with src := [1], srcClosed := true }, rfl, rfl⟩,
    ⟨{ delta 1 with src := [1] }, rfl, rfl⟩⟩

/-- The outcome SHORT: the power falls before the first payload symbol. -/
theorem witness_AttemptHasOneOutcome_short : ∃ t, exec .aisdec (lonePattern 1) = .next t ∧ t.res = .attempt .short :=
  completes_with (by decide +kernel)

/-- The outcome RECORD: the frame of P2 on streams of 1125 samples. -/
theorem witness_RecordMeansValidFrame : ∃ t, exec .aisdec (burst octets2) = .next t ∧ t.res = .attempt .record :=
  completes_with (by decide +kernel)

theorem witness_AttemptMakesProgress : (∃ t, exec .aisdec (streams [] []) = .next t ∧ t.res = .attempt .eob) ∧
    ∃ t, exec .aisdec (streams (List.replicate 500 500) (List.replicate 500 16)) = .next t ∧
      t.res = .attempt .nosync :=
  ⟨completes_with (by decide +kernel), completes_with (by decide +kernel)⟩

theorem witness_ScanCompletes : ∃ s : State, s.len s.argCh = 499 := ⟨{ State.reset with len1 := 499 }, rfl⟩

theorem witness_StreamLengthsThroughSweep : ∃ s a b c d e f : State, exec .sdec s = .next a ∧ exec .dec3 a = .next b ∧
    exec .splitOp b = .next c ∧ exec .dec2 c = .next d ∧ demodChannel d .one = .next e ∧
    demodChannel e .two = .next f ∧ s.cfg.n = 300000 :=
  ⟨State.reset, _, _, _, _, _, _, rfl, rfl, rfl, rfl, rfl, rfl, rfl⟩

theorem witness_ZeroSignalEmitsNothing : ∃ s : State, s.cfg.n = 1 ∧ ∀ a < 2 * s.cfg.n, s.rawRead a = 128 :=
  ⟨{ delta 1 with raw := Memory.ofBytes 0 [128, 128] }, rfl, by
    intro a ha
    have h : a = 0 ∨ a = 1 := by
      have : a < 2 := ha
      omega
    rcases h with rfl | rfl <;> rfl⟩

theorem witness_SweepDependsOnBlockAlone : ∃ s u : State, s.cfg = u.cfg ∧ s ≠ u ∧
    ∀ a < 2 * s.cfg.n, s.rawRead a = u.rawRead a :=
  ⟨{ delta 1 with i1 := [7], wp := 99 }, delta 1, rfl, by decide, fun _ _ => rfl⟩

theorem witness_RunProcessesEveryBlock :
    (∃ s : State, s.phase = .idle ∧ s.cfg.ok = true ∧ s.cfg.n = 1 ∧ s.srcClosed = true ∧ s.src.length = 5) ∧
    (∃ s : State, s.phase = .done ∧ s.cfg.ok = true ∧ s.cfg.n = 1 ∧ s.srcClosed = false ∧ s.src.length = 2) ∧
    (∃ s : State, s.phase = .idle ∧ s.cfg.ok = true ∧ s.cfg.n = 0) ∧
    (∃ s : State, s.phase ≠ .idle ∧ s.phase ≠ .done) ∧ ∃ s : State, s.phase = .idle ∧ s.cfg.ok = false :=
  ⟨⟨{ delta 1 with srcClosed := true, src := [1, 2, 3, 4, 5] }, rfl, by decide, rfl, rfl, rfl⟩,
    ⟨{ delta 1 with phase := .done, src := [1, 2] }, rfl, by decide, rfl, rfl, rfl⟩,
    ⟨delta 0, rfl, by decide, rfl⟩, ⟨{ State.reset with phase := .read }, by decide, by decide⟩,
    ⟨{ State.reset with cfg := ⟨1, [349526], []⟩ }, rfl, by decide⟩⟩

/-- R161: two blocks of one sample each in five bytes. -/
theorem test_blocks_of_source : (blockAt { delta 1 with src := [1, 2, 3, 4, 5] } 0,
    blockAt { delta 1 with src := [1, 2, 3, 4, 5] } 1) = ([1, 2], [3, 4]) := by decide +kernel

/-- FIR's kernels: admissible ones whose listed taps stand at both ends of the range of R73. -/
theorem witness_FirRoundsExactSumDown : ∃ s : State, s.cfg.ok = true ∧ s.cfg.h3[0]? = some 349525 ∧
    s.cfg.h8[29]? = some (-131072) :=
  ⟨{ State.reset with cfg := ⟨1, [349525], List.replicate 29 0 ++ [-131072]⟩ }, by decide, rfl, rfl⟩

theorem witness_AttemptIsItsOperations : ∃ s : State, s.fetch = fetchOf .gate :=
  ⟨{ State.reset with fetch := .tag 0x20 }, rfl⟩

theorem witness_StepKeepsDataInRange : ∃ s t : State, s.dataOk ∧ step s = .next t := by
  refine ⟨{ State.reset with phase := .done, fetch := .halt }, _, ?_, rfl⟩
  refine ⟨⟨rfl, by simp [State.reset]⟩, ⟨rfl, by simp [State.reset]⟩, ?_, by decide, by decide, by decide, by decide, by decide⟩
  intro x
  cases x <;> exact ⟨Nat.le_refl _, Nat.zero_le _⟩

theorem witness_SequencedStepsNeverStop : ∃ s : State, s.sequenced ∧ s.phase = .scan .one .deframe ∧ s.fetch = fetchOf .pack :=
  ⟨standing (.scan .one .deframe) (fetchOf .pack), sequenced_at _ _ (by decide) (by decide) (by simp), rfl, rfl⟩

theorem witness_StepKeepsParameters : ∃ s t : State, step s = .next t ∧ s.fetch = fetchOf .sdec :=
  ⟨{ delta 1 with fetch := .tag 0x10 }, _, rfl, rfl⟩

theorem witness_SinkIsAppendOnly : ∃ s t : State, step s = .next t ∧ s.fetch = fetchOf .emitOp :=
  ⟨{ delta 1 with fetch := .tag 0x55 }, _, rfl, rfl⟩

theorem witness_SequencedRecordsAreValid : ∃ s t : State, s.sequenced ∧ s.phase ≠ .idle ∧ step s = .next t ∧ t.sink ≠ s.sink :=
  ⟨standing (.scan .one .emit) (fetchOf .emitOp), _, sequenced_at _ _ (by decide) (by decide) (by simp), by decide, rfl,
    by decide +kernel⟩

/-- The guards of READ: a whole block to the byte, one byte less with the source closed, and with it open. -/
theorem witness_PhaseTransitions_read : ∃ s u v : State, s.sequenced ∧ u.sequenced ∧ v.sequenced ∧
    (s.phase, u.phase, v.phase) = (.read, .read, .read) ∧ left (step s) State.phase = some .sdec ∧
    left (step u) State.phase = some .done ∧ left (step v) State.phase = some .read :=
  have h := sequenced_at .read (fetchOf .readOp) (by decide) (by decide) (by simp)
  ⟨{ standing .read (fetchOf .readOp) with src := [1, 2], srcClosed := true },
    { standing .read (fetchOf .readOp) with src := [1], srcClosed := true },
    { standing .read (fetchOf .readOp) with src := [1] }, h, h, h, rfl, by decide +kernel, by decide +kernel,
    by decide +kernel⟩

/-- The guards of the scans: after DEMOD with 499 samples on channel 1 and 500 on channel 2, and after an attempt. -/
theorem witness_PhaseTransitions_scan : ∃ s u : State, s.sequenced ∧ u.sequenced ∧ s.phase = .demod ∧
    u.phase = .scan .one .emit ∧ left (step s) State.phase = some (.scan .two .gate) ∧
    left (step u) State.phase = some (.scan .one .gate) :=
  ⟨{ standing .demod (fetchOf .amenv) with
      argCh := .two, len1 := 499, len2 := 501, fOut := List.replicate 500 0, i2 := List.replicate 501 0
      q2 := List.replicate 501 0 },
    { standing (.scan .one .emit) (fetchOf .emitOp) with len1 := 600, resume := 100 },
    sequenced_sized .demod (fetchOf .amenv) 499 501 (by decide) (by decide) (by simp),
    sequenced_sized (.scan .one .emit) (fetchOf .emitOp) 600 0 (by decide) (by decide) (by simp), rfl, rfl,
    by decide +kernel, by decide +kernel⟩

end Sys2Proof.Tests
end

section
/-! PROOFS. Relations between the state before and after a step: a preorder that every part of the machine respects is
respected by every step (`KeptByParts.step`). The invariants of every step follow from it, each by the choice of the
relation. -/

namespace Sys2Proof

/-- The operations that are not sequences of other operations. -/
def Instr.isLeaf : Instr → Bool
  | .runOp | .sweepOp | .scanOp | .aisdec => false
  | _ => true

end Sys2Proof

namespace Sys2Proof.Machine

/-! ### The parts of a step -/

/-- The sequencer's own fields are all that differs: what the transitions of R167 write, but for `commitDemod`. -/
def OnlySequencer (s t : State) : Prop :=
  t = { s with
    phase := t.phase, fetch := t.fetch, res := t.res, resume := t.resume, ch := t.ch, i := t.i, argCh := t.argCh }

theorem OnlySequencer.trans {s t u : State} (h : OnlySequencer s t) (h' : OnlySequencer t u) : OnlySequencer s u := by
  unfold OnlySequencer at *
  rw [h']
  rw [h]

/-- A relation that composes and that holds across each part a step is made of: the sequencer's moves, the operations
that are no sequences, the replacement of the streams after DEMOD (R92), and the reset at entry to RUN with the stream
start (R28, R160). -/
structure KeptByParts (R : State → State → Prop) : Prop where
  trans : ∀ {s t u : State}, R s t → R t u → R s u
  move : ∀ {s t : State}, OnlySequencer s t → R s t
  leaf : ∀ {i : Instr} {s t : State}, i.isLeaf = true → exec i s = .next t → R s t
  demod : ∀ s : State, R s s.commitDemod
  start : ∀ s : State, R s s.runReset.streamStart

/-- If the outcome `o` of an operation on `s` is a next state, `R` relates it to `s`. -/
def Leads (R : State → State → Prop) (s : State) (o : StepOutcome) : Prop :=
  ∀ t, o = .next t → R s t

theorem Leads.next {R : State → State → Prop} {s t : State} (h : R s t) : Leads R s (.next t) := by
  intro u hu
  cases hu
  exact h

theorem Leads.refused {R : State → State → Prop} {s : State} (r : Refusal) : Leads R s (.refused r) := by
  intro t ht
  cases ht

/-! ### What a transition writes -/

theorem onlySequencer_toScanTwo (s : State) : OnlySequencer s s.toScanTwo := by
  unfold State.toScanTwo
  dsimp only
  split <;> rfl

theorem onlySequencer_scanNext (s : State) : OnlySequencer s s.scanNext := by
  unfold State.scanNext
  split
  · rfl
  · split
    · exact onlySequencer_toScanTwo s
    · rfl

theorem onlySequencer_afterAttempt (s : State) : OnlySequencer s s.afterAttempt :=
  OnlySequencer.trans (t := s.setI s.resume) rfl (onlySequencer_scanNext _)

theorem onlySequencer_toScanOne (s : State) : OnlySequencer s s.toScanOne :=
  OnlySequencer.trans (t := s.beginScan .one) rfl (onlySequencer_scanNext _)

/-- The end of an attempt with outcome `o`, and the loop test of SCAN. -/
theorem onlySequencer_attemptEnd (s : State) (o : AttemptOutcome) : OnlySequencer s (s.finish o).afterAttempt :=
  OnlySequencer.trans (t := s.finish o) rfl (onlySequencer_afterAttempt _)

/-- Every transition but the one after AMENV writes the sequencer's own fields only. -/
theorem onlySequencer_advance {i : Instr} (hi : i ≠ .amenv) (s : State) : OnlySequencer s (advance i s) := by
  cases i <;> simp only [advance]
  case amenv => exact absurd rfl hi
  case aisdec => exact onlySequencer_afterAttempt s
  case emitOp => exact onlySequencer_attemptEnd s _
  case runOp | destuff | pack => split <;> rfl
  case readOp | slice => split <;> rfl
  case scanOp =>
    split
    · exact onlySequencer_toScanTwo s
    · rfl
  case gate | syncOp | lensel | crcchk =>
    split
    · exact onlySequencer_attemptEnd s _
    · rfl
  all_goals rfl

/-- A step answers a next state when nothing is selected, or when the selected operation does. -/
theorem step_eq_next {s t : State} : step s = .next t ↔
    (s.selected = .ok none ∧ t = s) ∨
    ∃ i u, s.selected = .ok (some i) ∧ exec i s = .next u ∧ t = advance i u := by
  unfold step
  split
  · next h => simp [h, eq_comm]
  · next i h => simp [h, seqOp_eq_next, eq_comm (a := t)]
  · next h => simp [h]
  · next h => simp [h]

/-! ### The composite operations -/

namespace KeptByParts

variable {R : State → State → Prop} (hR : KeptByParts R)
include hR

theorem refl (s : State) : R s s := hR.move rfl

theorem seq {s : State} {o : StepOutcome} {f : State → StepOutcome} (ho : Leads R s o) (hf : ∀ a, Leads R a (f a)) :
    Leads R s (seqOp o f) := by
  intro t ht
  obtain ⟨a, ha, hat⟩ := seqOp_eq_next.mp ht
  exact hR.trans (ho a ha) (hf a t hat)

/-- An operation that runs after a move of the sequencer. -/
theorem after {s a : State} {o : StepOutcome} (ho : Leads R a o) (hm : OnlySequencer s a) : Leads R s o :=
  fun t ht => hR.trans (hR.move hm) (ho t ht)

/-- A return that writes the sequencer's own fields only. -/
theorem move_next {s t : State} (h : OnlySequencer s t) : Leads R s (.next t) := .next (hR.move h)

theorem leaf_leads {i : Instr} (hi : i.isLeaf = true) (s : State) : Leads R s (exec i s) := fun _ h => hR.leaf hi h

theorem deframeLoop (left : Nat) (s : State) : Leads R s (deframeLoop left s) := by
  induction left generalizing s with
  | zero => exact .next (hR.refl s)
  | succ left ih =>
    refine hR.seq (hR.leaf_leads (i := .slice) rfl s) fun a => ?_
    split
    · exact .next (hR.refl a)
    refine hR.seq (hR.leaf_leads (i := .nrzi) rfl a) fun b => hR.seq (hR.leaf_leads (i := .destuff) rfl b) fun c => ?_
    split
    · exact ih c
    refine hR.seq (hR.leaf_leads (i := .pack) rfl c) fun d => ?_
    split
    · exact .next (hR.refl d)
    · exact ih d

theorem deframe (s : State) : Leads R s (deframe s) :=
  hR.seq (hR.leaf_leads (i := .clearOp) rfl s) fun a => hR.seq (hR.deframeLoop _ a) fun _ => hR.move_next rfl

theorem unpackByMid (s : State) : Leads R s (unpackByMid s) := by
  unfold Machine.unpackByMid
  split
  · exact hR.leaf_leads (i := .unpackPos) rfl s
  split
  · exact hR.leaf_leads (i := .unpackBase) rfl s
  split
  · exact hR.leaf_leads (i := .unpackStatic) rfl s
  · exact hR.leaf_leads (i := .unpackUnknown) rfl s

theorem unpackAndEmit (s : State) : Leads R s (unpackAndEmit s) :=
  hR.seq (hR.after (hR.unpackByMid (s.enter .unpack)) rfl) fun a =>
    hR.seq (hR.after (hR.leaf_leads (i := .emitOp) rfl (a.enter .emit)) rfl) fun _ => hR.move_next rfl

theorem checkFrame (s : State) : Leads R s (checkFrame s) := by
  refine hR.seq (hR.after (hR.leaf_leads (i := .lensel) rfl (s.enter .check)) rfl) fun a => ?_
  split
  · exact hR.move_next rfl
  refine hR.seq (hR.leaf_leads (i := .crcchk) rfl a) fun b => ?_
  split
  · exact hR.move_next rfl
  · exact hR.unpackAndEmit b

theorem locateFrame (s : State) : Leads R s (locateFrame s) := by
  refine hR.seq (hR.after (hR.leaf_leads (i := .corr) rfl (s.enter .corr)) rfl) fun a =>
    hR.seq (hR.leaf_leads (i := .syncOp) rfl a) fun b => ?_
  split
  · exact hR.move_next rfl
  · exact hR.seq (hR.after (hR.deframe (b.enter .deframe)) rfl) hR.checkFrame

theorem aisdec (s : State) : Leads R s (execAisdec s) := by
  refine hR.seq (hR.after (hR.leaf_leads (i := .gate) rfl (s.enter .gate)) rfl) fun a => ?_
  split
  · exact hR.move_next rfl
  · exact hR.locateFrame a

theorem scanLoop (left : Nat) (s : State) : Leads R s (scanLoop left s) := by
  induction left generalizing s with
  | zero => exact .next (hR.refl s)
  | succ left ih =>
    unfold Machine.scanLoop
    split
    · exact hR.seq (hR.aisdec s) fun t => hR.after (ih (t.setI t.resume)) rfl
    · exact .next (hR.refl s)

theorem scan (s : State) : Leads R s (execScan s) :=
  hR.seq (hR.after (hR.scanLoop _ (s.beginScan s.argCh)) rfl) fun _ => hR.move_next rfl

theorem demodChannel (s : State) (c : Channel) : Leads R s (demodChannel s c) :=
  hR.seq (hR.after (hR.leaf_leads (i := .fmdem) rfl (s.setArgCh c)) rfl) fun a =>
    hR.seq (hR.leaf_leads (i := .amenv) rfl a) fun b => .next (hR.demod b)

theorem sweep (s : State) : Leads R s (execSweep s) :=
  hR.seq (hR.after (hR.leaf_leads (i := .sdec) rfl (s.setPhase .sdec)) rfl) fun a =>
  hR.seq (hR.after (hR.leaf_leads (i := .dec3) rfl (a.setPhase .dec3)) rfl) fun b =>
  hR.seq (hR.after (hR.leaf_leads (i := .splitOp) rfl (b.setPhase .split)) rfl) fun c =>
  hR.seq (hR.after (hR.leaf_leads (i := .dec2) rfl (c.setPhase .dec2)) rfl) fun d =>
  hR.seq (hR.after (hR.demodChannel (d.setPhase .demod) .one) rfl) fun e =>
  hR.seq (hR.demodChannel e .two) fun f =>
  hR.seq (hR.after (hR.scan (f.setArgCh .one)) rfl) fun g =>
  hR.seq (hR.after (hR.scan (g.setArgCh .two)) rfl) fun _ => hR.move_next rfl

theorem runLoop (left : Nat) (s : State) : Leads R s (runLoop left s) := by
  induction left generalizing s with
  | zero => exact hR.move_next rfl
  | succ left ih =>
    refine hR.seq (hR.leaf_leads (i := .readOp) rfl s) fun t => ?_
    split
    · exact hR.seq (hR.sweep t) ih
    · exact hR.move_next rfl
    · exact .next (hR.refl t)

theorem run (s : State) : Leads R s (execRun s) := by
  unfold execRun
  split
  · exact .refused _
  split
  · exact fun t ht => hR.trans (hR.start s) (hR.runLoop _ _ t ht)
  · exact .refused _

/-! ### Every step -/

theorem exec (i : Instr) (s : State) : Leads R s (exec i s) := by
  cases hi : i.isLeaf with
  | true => exact hR.leaf_leads hi s
  | false =>
    match i, hi with
    | .runOp, _ => exact hR.run s
    | .sweepOp, _ => exact hR.sweep s
    | .scanOp, _ => exact hR.scan s
    | .aisdec, _ => exact hR.aisdec s

theorem advance (i : Instr) (s : State) : R s (advance i s) := by
  by_cases hi : i = .amenv
  · subst hi
    refine hR.trans (hR.demod s) (hR.move ?_)
    simp only [Machine.advance]
    split
    · rfl
    · exact onlySequencer_toScanOne _
  · exact hR.move (onlySequencer_advance hi s)

/-- A relation that every part keeps relates the states before and after a step. -/
theorem step {s t : State} (h : step s = .next t) : R s t := by
  obtain ⟨-, rfl⟩ | ⟨i, u, -, hu, rfl⟩ := step_eq_next.mp h
  · exact hR.refl t
  · exact hR.trans (hR.exec i s u hu) (hR.advance i u)

end KeptByParts

end Sys2Proof.Machine
end

section
/-! PROOFS. The operations that touch no buffer, stream, length or parameter, and what READ, CORR and PACK answer. -/

namespace Sys2Proof

/-- The operations that write registers only: no buffer, no stream, no length and none of the registers whose ranges
`State.dataOk` states. -/
def Instr.registersOnly : Instr → Bool
  | .fir | .syncOp | .slice | .nrzi | .destuff | .lensel | .crc16 | .crcchk | .getbits
  | .unpackPos | .unpackBase | .unpackStatic | .unpackUnknown | .emitOp
  | .msgPos1 _ | .msgPos2 _ | .msgPos3 _ | .msgBase _ | .msgStatic _ | .msgUnknown0 _
  | .msgUnknown6to7 _ | .msgUnknown8to15 _ | .msgUnknown16to31 _ | .msgUnknown32to63 _ => true
  | _ => false

end Sys2Proof

namespace Sys2Proof.Machine

/-- Registers without a range in `State.dataOk`, and the sink, are all that differs. -/
def OnlyRegisters (s t : State) : Prop :=
  t = { s with
    sink := t.sink, res := t.res, resume := t.resume, p0 := t.p0, m := t.m, idx := t.idx, prev := t.prev
    hist := t.hist, sym := t.sym, out := t.out, mid := t.mid, blen := t.blen, crc := t.crc, fcs := t.fcs
    record := t.record, short := t.short, crcOk := t.crcOk, firY := t.firY, gbV := t.gbV }

theorem onlyRegisters_execSync {s t : State} (h : execSync s = .next t) : OnlyRegisters s t := by
  cases hs : s.sync with
  | true => rw [execSync_found hs] at h; cases h; rfl
  | false => rw [execSync_lost hs] at h; cases h; rfl

theorem onlyRegisters_execSlice {s t : State} (h : execSlice s = .next t) : OnlyRegisters s t := by
  cases h
  split
  · rfl
  split <;> rfl

theorem onlyRegisters_execDestuff {s t : State} (h : execDestuff s = .next t) : OnlyRegisters s t := by
  cases h
  split <;> rfl

theorem onlyRegisters_execLensel {s t : State} (h : execLensel s = .next t) : OnlyRegisters s t := by
  cases hs : s.lengthSet.short with
  | true => rw [execLensel_short hs] at h; cases h; rfl
  | false => rw [execLensel_long hs] at h; cases h; rfl

theorem onlyRegisters_execCrcchk {s t : State} (h : execCrcchk s = .next t) : OnlyRegisters s t := by
  cases hs : s.checkSet.crcOk with
  | true => rw [execCrcchk_ok hs] at h; cases h; rfl
  | false => rw [execCrcchk_bad hs] at h; cases h; rfl

theorem onlyRegisters_execGetbits {s t : State} (h : execGetbits s = .next t) : OnlyRegisters s t := by
  unfold execGetbits at h
  split at h
  · cases h; rfl
  · cases h

theorem exec_onlyRegisters {i : Instr} {s t : State} (hi : i.registersOnly = true) (h : exec i s = .next t) :
    OnlyRegisters s t := by
  cases i with
  | runOp | readOp | sweepOp | scanOp | aisdec | sdec | dec3 | splitOp | dec2 | fmdem | amenv | gate | corr | clearOp
  | pack => cases hi
  | syncOp => exact onlyRegisters_execSync h
  | slice => exact onlyRegisters_execSlice h
  | destuff => exact onlyRegisters_execDestuff h
  | lensel => exact onlyRegisters_execLensel h
  | crcchk => exact onlyRegisters_execCrcchk h
  | getbits => exact onlyRegisters_execGetbits h
  | _ => cases h; rfl

/-! ### What READ, CORR and PACK answer -/

/-- READ delivers a block, ends the stream, or waits (R161). -/
theorem execRead_cases (s : State) :
    (2 * s.cfg.n ≤ s.src.length ∧ execRead s = .next ((s.setPhase .read).takeBlock.ret .block)) ∨
    execRead s = .next ((s.setPhase .read).dropPartial.raise .sourceClosed none) ∨
    execRead s = .next ((s.setPhase .read).ret .waiting) := by
  by_cases hn : 2 * s.cfg.n ≤ s.src.length
  · exact .inl ⟨hn, congrArg Host.Outcome.next (if_pos hn)⟩
  have hr : execRead s = .next (if s.srcClosed then (s.setPhase .read).dropPartial.raise .sourceClosed none
      else (s.setPhase .read).ret .waiting) := congrArg Host.Outcome.next (if_neg hn)
  rw [hr]
  cases s.srcClosed
  · exact .inr (.inr rfl)
  · exact .inr (.inl rfl)

/-- CORR answers a next state when both passes keep inside the stream, and writes the registers they leave. -/
theorem execCorr_eq_next {s t : State} (h : execCorr s = .next t) :
    ∃ r, correlate s.fAt? s.i ⟨s.k, s.j, s.score, s.smax, s.imax⟩ = some r ∧ t = (s.setCorr r).ret .plain := by
  unfold execCorr at h
  split at h
  · cases h
  · next r hr => cases h; exact ⟨r, hr, rfl⟩

/-- PACK answers a next state only with room in the frame. -/
theorem execPack_eq_next {s t : State} (h : execPack s = .next t) : s.wp < frameBytes ∧
    t = (s.bufWrite s.wp (packBit (s.bufRead s.wp) s.bp s.out)).countBit.ret .plain := by
  unfold execPack at h
  split at h
  · next hw => cases h; exact ⟨hw, rfl⟩
  · cases h

end Sys2Proof.Machine
end

section
/-! PROOFS. No step writes the parameters (O57). -/

namespace Sys2Proof.Machine

theorem OnlySequencer.cfg {s t : State} (h : OnlySequencer s t) : t.cfg = s.cfg := by
  rw [h]

theorem OnlyRegisters.cfg {s t : State} (h : OnlyRegisters s t) : t.cfg = s.cfg := by
  rw [h]

theorem exec_leaf_cfg {i : Instr} {s t : State} (hi : i.isLeaf = true) (h : exec i s = .next t) : t.cfg = s.cfg := by
  cases i with
  | runOp | sweepOp | scanOp | aisdec => cases hi
  | readOp =>
    obtain ⟨-, e⟩ | e | e := execRead_cases s <;> cases e.symm.trans h <;> rfl
  | sdec | dec3 | splitOp | dec2 | fmdem | amenv | clearOp => cases h; rfl
  | gate =>
    obtain ⟨i, run, -, ⟨-, e⟩ | ⟨-, -, e⟩⟩ := execGate_cases s <;> cases e.symm.trans h <;> rfl
  | corr =>
    obtain ⟨r, -, rfl⟩ := execCorr_eq_next h
    rfl
  | pack =>
    obtain ⟨-, rfl⟩ := execPack_eq_next h
    rfl
  | _ => exact (exec_onlyRegisters rfl h).cfg

theorem keptByParts_cfg : KeptByParts fun s t => t.cfg = s.cfg where
  trans h h' := h'.trans h
  move h := h.cfg
  leaf := exec_leaf_cfg
  demod s := (onlyStreams_commitDemod s).cfg
  start _ := rfl

end Sys2Proof.Machine

/-- Settles O57: every part of a step keeps the parameters. -/
theorem stepKeepsParameters : Obligations.StepKeepsParameters :=
  fun _ _ h => Sys2Proof.Machine.keptByParts_cfg.step h
end

section
/-! PROOFS. Every step keeps the data in range (O55). The ranges fall into four parts (the frame, `RAW`, the streams, the
locator's registers), and each operation writes one of them. -/

namespace Sys2Proof.Machine

/-! ### The four parts of the ranges -/

/-- `RAW` is canonical and inside its index range (R10). -/
def RawOk (s : State) : Prop :=
  s.raw.wf = true ∧ ∀ c ∈ s.raw, c.1 < 2 * s.cfg.n

/-- The streams hold their active elements and fit their capacity, and so do the output streams of C5 (R11, R12). -/
def StreamsOk (s : State) : Prop :=
  (∀ x, s.streamLen x ≤ (s.stream x).length ∧ (s.stream x).length ≤ s.cfg.n) ∧
  s.fOut.length ≤ s.cfg.n ∧ s.aOut.length ≤ s.cfg.n

/-- The registers of the gate and of the correlator are in their ranges (R17). -/
def LocatorOk (s : State) : Prop :=
  s.run ≤ gateRun ∧ s.k < kSpan ∧ s.j ≤ patLen ∧ s.imax < kSpan

theorem dataOk_iff (s : State) : s.dataOk ↔ FrameOk s ∧ RawOk s ∧ StreamsOk s ∧ LocatorOk s := by
  unfold State.dataOk FrameOk RawOk StreamsOk LocatorOk
  tauto

theorem OnlySequencer.dataOk {s t : State} (h : OnlySequencer s t) (hs : s.dataOk) : t.dataOk := by
  rw [h]
  exact hs

theorem OnlyRegisters.dataOk {s t : State} (h : OnlyRegisters s t) (hs : s.dataOk) : t.dataOk := by
  rw [h]
  exact hs

/-! ### The streams -/

/-- One buffer after a stage's output is laid over it: it holds its active elements and fits its capacity. -/
theorem overlay_inRange {y x : List Int} {l l' n : Nat} (hx : l ≤ x.length ∧ x.length ≤ n) (hy : y.length ≤ n)
    (hl : l' ≤ max y.length l) : l' ≤ (overlay y x).length ∧ (overlay y x).length ≤ n := by
  rw [overlay_length]
  omega

/-- Storing an output that fits keeps the streams in range, when the new length is that of the output at most, or the
old one at most. -/
theorem streamsOk_storePair {s : State} (hs : StreamsOk s) (c : Channel) {yI yQ : List Int} {len : Nat}
    (hI : yI.length ≤ s.cfg.n) (hQ : yQ.length ≤ s.cfg.n) (hlI : len ≤ max yI.length (s.len c))
    (hlQ : len ≤ max yQ.length (s.len c)) : StreamsOk (s.storePair c yI yQ len) := by
  obtain ⟨hx, hf, ha⟩ := hs
  cases c with
  | one =>
    refine ⟨fun x => ?_, hf, ha⟩
    cases x with
    | i1 => exact overlay_inRange (hx .i1) hI hlI
    | q1 => exact overlay_inRange (hx .q1) hQ hlQ
    | i2 => exact hx .i2
    | q2 => exact hx .q2
  | two =>
    refine ⟨fun x => ?_, hf, ha⟩
    cases x with
    | i1 => exact hx .i1
    | q1 => exact hx .q1
    | i2 => exact overlay_inRange (hx .i2) hI hlI
    | q2 => exact overlay_inRange (hx .q2) hQ hlQ

/-- A stage stores `len` outputs on each stream of a pair. -/
theorem streamsOk_storePair_map {s : State} (hs : StreamsOk s) (c : Channel) (f g : Nat → Int) {len : Nat}
    (hl : len ≤ s.cfg.n) :
    StreamsOk (s.storePair c ((List.range len).map f) ((List.range len).map g) len) :=
  streamsOk_storePair hs c (by simpa) (by simpa) (by simp) (by simp)

/-- The active lengths are inside the capacity. -/
theorem StreamsOk.len_le {s : State} (hs : StreamsOk s) (c : Channel) : s.len c ≤ s.cfg.n := by
  obtain ⟨h1, h2⟩ := hs.1 c.iStream
  rw [streamLen_iStream] at h1
  omega

theorem streamsOk_commitDemod {s : State} (hs : StreamsOk s) : StreamsOk s.commitDemod := by
  have ⟨_, hf, ha⟩ := hs
  exact streamsOk_storePair hs s.argCh hf ha (by omega) (by omega)

theorem streamsOk_execSdec {s t : State} (hs : StreamsOk s) (h : execSdec s = .next t) : StreamsOk t := by
  cases h
  exact streamsOk_storePair_map hs .one _ _ (le_refl _)

theorem streamsOk_execDec3 {s t : State} (hs : StreamsOk s) (h : execDec3 s = .next t) : StreamsOk t := by
  have hl : s.len1 ≤ s.cfg.n := hs.len_le .one
  have hn : dec3Len s.len1 ≤ s.cfg.n := by unfold dec3Len dcm3 trim3; omega
  cases h
  exact streamsOk_storePair_map hs .one _ _ hn

theorem streamsOk_execSplit {s t : State} (hs : StreamsOk s) (h : execSplit s = .next t) : StreamsOk t := by
  have hl : s.len1 ≤ s.cfg.n := hs.len_le .one
  cases h
  exact streamsOk_storePair_map (streamsOk_storePair_map hs .one _ _ hl) .two _ _ hl

theorem streamsOk_execDec2 {s t : State} (hs : StreamsOk s) (h : execDec2 s = .next t) : StreamsOk t := by
  have hl : s.len1 ≤ s.cfg.n := hs.len_le .one
  have hn : dec2Len s.len1 ≤ s.cfg.n := by unfold dec2Len dcm trim2; omega
  cases h
  exact streamsOk_storePair_map (streamsOk_storePair_map hs .one _ _ hn) .two _ _ hn

theorem streamsOk_execFmdem {s t : State} (hs : StreamsOk s) (h : execFmdem s = .next t) : StreamsOk t := by
  have hl := hs.len_le s.argCh
  obtain ⟨hx, -, ha⟩ := hs
  cases h
  exact ⟨hx, le_trans (by simp) hl, ha⟩

theorem streamsOk_execAmenv {s t : State} (hs : StreamsOk s) (h : execAmenv s = .next t) : StreamsOk t := by
  have hl := hs.len_le s.argCh
  obtain ⟨hx, hf, -⟩ := hs
  cases h
  exact ⟨hx, hf, le_trans (by simp) hl⟩

/-- What only writes streams keeps the data in range when it keeps the streams in range. -/
theorem OnlyStreams.dataOk {s t : State} (h : OnlyStreams s t) (hs : s.dataOk) (ht : StreamsOk t) : t.dataOk := by
  obtain ⟨hframe, hraw, -, hloc⟩ := (dataOk_iff s).mp hs
  refine (dataOk_iff t).mpr ⟨?_, ?_, ht, ?_⟩ <;> rw [h] <;> assumption

/-- The frame in the `_spec` lemma of an operation of C1 to C5, for the state the operation answers. -/
theorem OnlyStreams.of_spec {o : StepOutcome} {s t : State} {P : State → Prop}
    (hspec : ∃ u, o = .next u ∧ OnlyStreams s u ∧ P u) (h : o = .next t) : OnlyStreams s t := by
  obtain ⟨u, hu, honly, -⟩ := hspec
  cases hu.symm.trans h
  exact honly

/-! ### The locator -/

/-- A candidate shift ends inside the pattern. -/
theorem corrTerms_j_le {f : Nat → Option Int} {bad : Int → Bool} {base : Nat} {ps : List Int} {j : Nat} {sc : Int}
    {t : ShiftRun} (h : corrTerms f bad base ps j sc = some t) : t.j ≤ j + ps.length := by
  induction ps generalizing j sc with
  | nil => cases h; exact le_refl _
  | cons p ps ih =>
    simp only [corrTerms] at h
    split at h
    · cases h
    split at h
    · cases h; exact Nat.le_add_right _ _
    · have := ih h
      simp only [List.length_cons]
      omega

/-- The correlator's index registers are in their ranges (R17). -/
def CorrRegs.inRange (r : CorrRegs) : Prop :=
  r.k < kSpan ∧ r.j ≤ patLen ∧ r.imax < kSpan

/-- A pass over candidate shifts keeps the registers in range, whatever the stream holds. -/
theorem corrPass_inRange {f : Nat → Option Int} {bad : Int → Bool} {better : Int → Int → Bool} {i : Nat} {ks : List Nat}
    {r r' : CorrRegs} (hks : ∀ k ∈ ks, k < kSpan) (hr : r.inRange) (h : corrPass f bad better i ks r = some r') :
    r'.inRange := by
  induction ks generalizing r with
  | nil => cases h; exact hr
  | cons k ks ih =>
    have hk : k < kSpan := hks k (by simp)
    obtain ⟨-, -, himax⟩ := hr
    simp only [corrPass] at h
    split at h
    · cases h
    next t ht =>
      have hj : t.j ≤ patLen := by simpa using corrTerms_j_le ht
      refine ih (fun k hk => hks k (by simp [hk])) ?_ h
      split
      · exact ⟨hk, hj, hk⟩
      · exact ⟨hk, hj, himax⟩

theorem correlate_inRange {f : Nat → Option Int} {i : Nat} {r r' : CorrRegs} (hk : r.k < kSpan) (hj : r.j ≤ patLen)
    (h : correlate f i r = some r') : r'.inRange := by
  have hks : ∀ k ∈ List.range kSpan, k < kSpan := fun k => List.mem_range.mp
  unfold correlate at h
  split at h
  · cases h
  next p hp =>
    have hp : p.inRange := corrPass_inRange (r := { r with smax := 0, imax := 0 }) hks ⟨hk, hj, (by decide : 0 < kSpan)⟩ hp
    split at h
    · exact corrPass_inRange hks hp h
    · cases h; exact hp

/-! ### The operations that write data -/

theorem dataOk_execGate {s t : State} (hs : s.dataOk) (h : execGate s = .next t) : t.dataOk := by
  obtain ⟨hframe, hraw, hstreams, -, hcorr⟩ := (dataOk_iff s).mp hs
  obtain ⟨i, run, hrun, ⟨-, e⟩ | ⟨-, -, e⟩⟩ := execGate_cases s <;> cases e.symm.trans h <;>
    exact (dataOk_iff _).mpr ⟨hframe, hraw, hstreams, hrun, hcorr⟩

theorem dataOk_execCorr {s t : State} (hs : s.dataOk) (h : execCorr s = .next t) : t.dataOk := by
  obtain ⟨hframe, hraw, hstreams, hrun, hk, hj, -⟩ := (dataOk_iff s).mp hs
  obtain ⟨r, hr, rfl⟩ := execCorr_eq_next h
  exact (dataOk_iff _).mpr ⟨hframe, hraw, hstreams, hrun, correlate_inRange hk hj hr⟩

theorem dataOk_execClear {s t : State} (hs : s.dataOk) (h : execClear s = .next t) : t.dataOk := by
  obtain ⟨-, hraw, hstreams, hloc⟩ := (dataOk_iff s).mp hs
  cases h
  exact (dataOk_iff _).mpr ⟨clearFrame_ok s, hraw, hstreams, hloc⟩

theorem dataOk_execPack {s t : State} (hs : s.dataOk) (h : execPack s = .next t) : t.dataOk := by
  obtain ⟨hframe, hraw, hstreams, hloc⟩ := (dataOk_iff s).mp hs
  obtain ⟨hw, rfl⟩ := execPack_eq_next h
  obtain ⟨u, hu, -, hok, -⟩ := execPack_next hw hframe
  cases hu.symm.trans h
  exact (dataOk_iff _).mpr ⟨hok, hraw, hstreams, hloc⟩

/-- A delivered block fills `RAW` from index 0 with at most `2N` octets (R161). -/
theorem rawOk_takeBlock (s : State) : RawOk s.takeBlock := by
  refine ⟨Memory.wf_ofBytes _ _, fun c hc => ?_⟩
  have hlt := (Memory.mem_ofBytes hc).2
  rw [List.length_take] at hlt
  simp only [State.takeBlock_cfg]
  omega

theorem dataOk_execRead {s t : State} (hs : s.dataOk) (h : execRead s = .next t) : t.dataOk := by
  obtain ⟨hframe, -, hstreams, hloc⟩ := (dataOk_iff s).mp hs
  obtain ⟨-, e⟩ | e | e := execRead_cases s <;> cases e.symm.trans h
  · exact (dataOk_iff _).mpr ⟨hframe, rawOk_takeBlock (s.setPhase .read), hstreams, hloc⟩
  · exact (dataOk_iff _).mpr ⟨hframe, ⟨rfl, by simp⟩, hstreams, hloc⟩
  · exact hs

theorem exec_leaf_dataOk {i : Instr} {s t : State} (hi : i.isLeaf = true) (h : exec i s = .next t) (hs : s.dataOk) :
    t.dataOk := by
  obtain ⟨-, -, hstreams, -⟩ := (dataOk_iff s).mp hs
  cases i with
  | runOp | sweepOp | scanOp | aisdec => cases hi
  | readOp => exact dataOk_execRead hs h
  | sdec => exact (OnlyStreams.of_spec (execSdec_spec s) h).dataOk hs (streamsOk_execSdec hstreams h)
  | dec3 => exact (OnlyStreams.of_spec (execDec3_spec s) h).dataOk hs (streamsOk_execDec3 hstreams h)
  | splitOp => exact (OnlyStreams.of_spec (execSplit_spec s) h).dataOk hs (streamsOk_execSplit hstreams h)
  | dec2 => exact (OnlyStreams.of_spec (execDec2_spec s) h).dataOk hs (streamsOk_execDec2 hstreams h)
  | fmdem => exact (OnlyStreams.of_spec (execFmdem_spec s) h).dataOk hs (streamsOk_execFmdem hstreams h)
  | amenv => exact (OnlyStreams.of_spec (execAmenv_spec s) h).dataOk hs (streamsOk_execAmenv hstreams h)
  | gate => exact dataOk_execGate hs h
  | corr => exact dataOk_execCorr hs h
  | clearOp => exact dataOk_execClear hs h
  | pack => exact dataOk_execPack hs h
  | _ => exact (exec_onlyRegisters rfl h).dataOk hs

/-! ### Reset and every step -/

/-- Reset leaves the data in range whatever the parameters: nothing is written and every length is 0. -/
theorem dataOk_reset (cfg : Cfg) : { State.reset with cfg := cfg }.dataOk := by
  have hframe : FrameOk State.reset := ⟨⟨rfl, nofun⟩, by decide, rfl⟩
  have hloc : LocatorOk State.reset := by unfold LocatorOk; decide
  refine (dataOk_iff _).mpr ⟨hframe, ⟨rfl, nofun⟩, ⟨fun x => ?_, Nat.zero_le _, Nat.zero_le _⟩, hloc⟩
  cases x <;> exact ⟨le_refl 0, Nat.zero_le _⟩

theorem keptByParts_dataOk : KeptByParts fun s t => s.dataOk → t.dataOk where
  trans h h' := h' ∘ h
  move := OnlySequencer.dataOk
  leaf := exec_leaf_dataOk
  demod s hs :=
    have ⟨_, _, hstreams, _⟩ := (dataOk_iff s).mp hs
    (onlyStreams_commitDemod s).dataOk hs (streamsOk_commitDemod hstreams)
  start s _ := dataOk_reset s.cfg

end Sys2Proof.Machine

/-- Settles O55: every part of a step keeps the data in range. -/
theorem stepKeepsDataInRange : Obligations.StepKeepsDataInRange :=
  fun _ _ hs h => Sys2Proof.Machine.keptByParts_dataOk.step h hs
end

section
/-! PROOFS. The state after reset (O7, O54). -/

open Sys2Proof.Machine

/-- Settles O7, by the fields of the reset state. -/
theorem resetState : Obligations.ResetState :=
  ⟨rfl, rfl, rfl, rfl, rfl, rfl⟩

/-- RUN is the next operation in IDLE, and no tap is listed that could break R73. -/
theorem reset_sequenced : State.reset.sequenced :=
  ⟨by decide, by decide, nofun, by decide, nofun, by decide, by decide⟩

/-- Settles O54: both invariants hold of the reset state. -/
theorem resetIsSequenced : Obligations.ResetIsSequenced :=
  ⟨dataOk_reset State.reset.cfg, reset_sequenced⟩
end

section
/-! PROOFS. Every composite operation of a run answers from every state (O56). -/

namespace Sys2Proof.Machine

/-- The outcome is a next state: no fault and no refusal. -/
def Completes (o : StepOutcome) : Prop := ∃ t, o = .next t

theorem Completes.next (s : State) : Completes (.next s) := ⟨s, rfl⟩

theorem Completes.seq {o : StepOutcome} {f : State → StepOutcome} (ho : Completes o) (hf : ∀ s, Completes (f s)) :
    Completes (seqOp o f) := by
  obtain ⟨s, rfl⟩ := ho
  exact hf s

/-- An operation whose `_spec` lemma says more. -/
theorem Completes.of_spec {o : StepOutcome} {P : State → Prop} (h : ∃ t, o = .next t ∧ P t) : Completes o := by
  obtain ⟨t, ht, -⟩ := h
  exact ⟨t, ht⟩

theorem checkFrame_completes (s : State) : Completes (checkFrame s) := by
  obtain ⟨-, e⟩ | ⟨-, ⟨-, e⟩ | ⟨-, e⟩⟩ := checkFrame_cases s
  · exact ⟨_, e⟩
  · exact ⟨_, e⟩
  · exact ⟨_, e.trans (unpackAndEmit_eq _)⟩

/-- Inside the tail guard no candidate shift leaves the stream (R106). -/
theorem locateFrame_completes {s : State} (h : s.i + tailGuard ≤ s.n) : Completes (locateFrame s) := by
  obtain ⟨r, -, -, -, ⟨-, e⟩ | ⟨-, e⟩⟩ := locateFrame_cases s h
  · exact ⟨_, e⟩
  · rw [e]
    exact (Completes.of_spec (deframe_spec _)).seq checkFrame_completes

theorem execAisdec_completes (s : State) : Completes (execAisdec s) := by
  obtain ⟨i, run, -, ⟨-, e⟩ | ⟨-, htail, e⟩⟩ := execAisdec_cases s
  · exact ⟨_, e⟩
  · rw [e]
    exact locateFrame_completes htail

theorem scanLoop_completes (left : Nat) (s : State) : Completes (scanLoop left s) := by
  induction left generalizing s with
  | zero => exact .next s
  | succ left ih =>
    unfold scanLoop
    split
    · exact (execAisdec_completes s).seq fun t => ih (t.setI t.resume)
    · exact .next s

theorem execScan_completes (s : State) : Completes (execScan s) :=
  (scanLoop_completes _ _).seq fun u => .next (u.ret .plain)

theorem execSweep_completes (s : State) : Completes (execSweep s) :=
  (Completes.of_spec (execSdec_spec _)).seq fun _ =>
  (Completes.of_spec (execDec3_spec _)).seq fun _ =>
  (Completes.of_spec (execSplit_spec _)).seq fun _ =>
  (Completes.of_spec (execDec2_spec _)).seq fun _ =>
  (Completes.of_spec (demodChannel_spec _ .one)).seq fun _ =>
  (Completes.of_spec (demodChannel_spec _ .two)).seq fun _ =>
  (execScan_completes _).seq fun _ =>
  (execScan_completes _).seq fun t => .next (t.ret .plain)

theorem runLoop_completes (left : Nat) (s : State) : Completes (runLoop left s) := by
  induction left generalizing s with
  | zero => exact .next _
  | succ left ih =>
    refine Completes.seq ⟨_, rfl⟩ fun t => ?_
    split
    · exact (execSweep_completes t).seq ih
    · exact .next _
    · exact .next _

/-- RUN answers when no run is in progress and the kernels keep the constraint of R73. -/
theorem execRun_completes {s : State} (hidle : s.running = false) (hcfg : s.cfg.ok = true) : Completes (execRun s) := by
  unfold execRun
  rw [if_neg (by simp [hidle]), if_pos hcfg]
  exact runLoop_completes _ _

end Sys2Proof.Machine
end

section
/-! PROOFS. A sequenced machine never stops and stays sequenced (O56): for each operation R167 issues, that it answers a
next state and that the transition after it leads to a sequenced state. -/

namespace Sys2Proof.Machine

/-! ### Where a transition leads -/

/-- The operations with a guard in `State.sequenced` are all issued inside a scan. -/
theorem phaseOps_unguarded {p : Phase} (hp : ∀ c sub, p ≠ .scan c sub) :
    ∀ f ∈ phaseOps p, f ≠ fetchOf .corr ∧ f ≠ fetchOf .crcchk ∧ ¬ (f = .body ∨ f = fetchOf .emitOp) := by
  cases p with
  | scan c sub => exact absurd rfl (hp c sub)
  | _ => decide

/-- Outside a scan any operation of the phase may be next. -/
theorem sequenced_goto {s : State} {p : Phase} {f : Fetch} (hcfg : s.cfg.ok = true) (hp : ∀ c sub, p ≠ .scan c sub)
    (hf : f ∈ phaseOps p) : (s.goto p f).sequenced :=
  have ⟨hcorr, hcrcchk, hvalid⟩ := phaseOps_unguarded hp f hf
  ⟨hcfg, hf, fun c sub h => absurd h (hp c sub), fun h => absurd h hcorr, fun c h => absurd h (hp c .deframe),
    fun h => absurd h hcrcchk, fun h => absurd h hvalid⟩

/-- Inside a scan the tests passed so far must hold for the next operation. -/
theorem sequenced_goto_scan {s : State} {sub : SubPhase} {f : Fetch} (hcfg : s.cfg.ok = true)
    (hf : f ∈ phaseOps (.scan s.ch sub) := by simp [phaseOps])
    (hcorr : f = fetchOf .corr → s.i + tailGuard ≤ s.n := by exact fun h => absurd h (by decide))
    (hroom : sub = .deframe → f ≠ fetchOf .clearOp → s.wp < frameBytes := by exact fun h => absurd h (by decide))
    (hlong : f = fetchOf .crcchk → s.short = false := by exact fun h => absurd h (by decide))
    (hvalid : f = .body ∨ f = fetchOf .emitOp → s.short = false ∧ s.crcOk = true ∧ s.crc = s.fcs := by
      exact fun h => absurd h (by decide)) :
    (s.goto (.scan s.ch sub) f).sequenced :=
  ⟨hcfg, hf, fun _ _ h => by cases h; rfl, hcorr, fun _ h => hroom (by cases h; rfl), hlong, hvalid⟩

theorem sequenced_toRead {s : State} (hcfg : s.cfg.ok = true) : s.toRead.sequenced :=
  sequenced_goto hcfg nofun (by decide)

theorem sequenced_toGate {s : State} (hcfg : s.cfg.ok = true) : s.toGate.sequenced :=
  sequenced_goto_scan hcfg

theorem sequenced_toScanTwo {s : State} (hcfg : s.cfg.ok = true) : s.toScanTwo.sequenced := by
  unfold State.toScanTwo
  dsimp only
  split
  · exact sequenced_toGate hcfg
  · exact sequenced_toRead hcfg

theorem sequenced_scanNext {s : State} (hcfg : s.cfg.ok = true) : s.scanNext.sequenced := by
  unfold State.scanNext
  split
  · exact sequenced_toGate hcfg
  split
  · exact sequenced_toScanTwo hcfg
  · exact sequenced_toRead hcfg

theorem sequenced_toScanOne {s : State} (hcfg : s.cfg.ok = true) : s.toScanOne.sequenced :=
  sequenced_scanNext (s := s.beginScan .one) hcfg

/-- The end of an attempt, and the loop test of SCAN. -/
theorem sequenced_attemptEnd {s : State} (o : AttemptOutcome) (hcfg : s.cfg.ok = true) :
    (s.finish o).afterAttempt.sequenced :=
  sequenced_scanNext (s := (s.finish o).setI (s.finish o).resume) hcfg

theorem sequenced_toCheck {s : State} (hcfg : s.cfg.ok = true) : s.toCheck.sequenced :=
  sequenced_goto_scan (s := s.endDeframe) hcfg

/-! ### One operation and its transition -/

/-- The operation answers a next state and the transition after it leads to a sequenced state. -/
def Continues (i : Instr) (s : State) : Prop :=
  ∃ t, exec i s = .next t ∧ (advance i t).sequenced

/-- Where the transition needs no guard it is enough that the operation completes. -/
theorem continues_of_completes {i : Instr} {s : State} (hcfg : s.cfg.ok = true) (h : Completes (exec i s))
    (hadvance : ∀ t : State, t.cfg.ok = true → (advance i t).sequenced) : Continues i s := by
  obtain ⟨t, ht⟩ := h
  have hkept : t.cfg = s.cfg := keptByParts_cfg.exec i s t ht
  exact ⟨t, ht, hadvance t (by rwa [hkept])⟩

theorem continues_runOp {s : State} (hcfg : s.cfg.ok = true) (hidle : s.running = false) : Continues .runOp s := by
  refine continues_of_completes hcfg (execRun_completes hidle hcfg) fun t ht => ?_
  simp only [advance]
  split
  · exact sequenced_goto ht nofun (by decide)
  · exact sequenced_toRead ht

theorem continues_readOp {s : State} (hcfg : s.cfg.ok = true) : Continues .readOp s := by
  refine continues_of_completes hcfg ⟨_, rfl⟩ fun t ht => ?_
  simp only [advance]
  split
  · exact sequenced_goto ht nofun (by decide)
  · exact sequenced_goto ht nofun (by decide)
  · exact sequenced_toRead ht

/-- The stages of C1 to C4, and FMDEM, are each followed by one operation (R167). -/
theorem continues_stage {i : Instr} {s : State} (hi : i ∈ [.sdec, .dec3, .splitOp, .dec2, .fmdem])
    (hcfg : s.cfg.ok = true) : Continues i s := by
  simp only [List.mem_cons, List.not_mem_nil, or_false] at hi
  obtain rfl | rfl | rfl | rfl | rfl := hi <;>
    exact continues_of_completes hcfg ⟨_, rfl⟩ fun _ ht => sequenced_goto ht nofun (by decide)

theorem continues_amenv {s : State} (hcfg : s.cfg.ok = true) : Continues .amenv s := by
  refine continues_of_completes hcfg ⟨_, rfl⟩ fun t ht => ?_
  have hcommit : t.commitDemod.cfg.ok = true := by rwa [(onlyStreams_commitDemod t).cfg]
  simp only [advance]
  split
  · exact sequenced_goto hcommit nofun (by decide)
  · exact sequenced_toScanOne hcommit

/-- GATE passes on to CORR only inside the tail guard (R97). -/
theorem continues_gate {s : State} (hcfg : s.cfg.ok = true) : Continues .gate s := by
  obtain ⟨i, run, -, ⟨-, e⟩ | ⟨-, htail, e⟩⟩ := execGate_cases s
  · exact ⟨_, e, sequenced_attemptEnd .eob hcfg⟩
  · exact ⟨_, e, sequenced_goto_scan hcfg (hcorr := fun _ => htail)⟩

theorem continues_corr {s : State} (hcfg : s.cfg.ok = true) (htail : s.i + tailGuard ≤ s.n) : Continues .corr s := by
  obtain ⟨r, -, -, -, e⟩ := execCorr_next s htail
  exact ⟨_, e, sequenced_goto_scan hcfg⟩

theorem continues_syncOp {s : State} (hcfg : s.cfg.ok = true) : Continues .syncOp s := by
  cases hs : s.sync with
  | true => exact ⟨_, execSync_found hs, sequenced_goto_scan hcfg (hroom := fun _ h => absurd rfl h)⟩
  | false => exact ⟨_, execSync_lost hs, sequenced_attemptEnd .nosync hcfg⟩

theorem continues_clearOp {s : State} (hcfg : s.cfg.ok = true) : Continues .clearOp s :=
  ⟨_, rfl, sequenced_goto_scan hcfg (hroom := fun _ _ => (by decide : hdr < frameBytes))⟩

theorem continues_slice {s : State} (hcfg : s.cfg.ok = true) (hroom : s.wp < frameBytes) : Continues .slice s := by
  refine ⟨_, rfl, ?_⟩
  split
  · exact sequenced_toCheck hcfg
  split
  · exact sequenced_toCheck hcfg
  · exact sequenced_goto_scan hcfg (hroom := fun _ _ => hroom)

theorem continues_nrzi {s : State} (hcfg : s.cfg.ok = true) (hroom : s.wp < frameBytes) : Continues .nrzi s :=
  ⟨_, rfl, sequenced_goto_scan hcfg (hroom := fun _ _ => hroom)⟩

theorem continues_destuff {s : State} (hcfg : s.cfg.ok = true) (hroom : s.wp < frameBytes) : Continues .destuff s := by
  refine ⟨_, rfl, ?_⟩
  split
  · exact sequenced_goto_scan hcfg (hroom := fun _ _ => hroom)
  · exact sequenced_goto_scan hcfg (hroom := fun _ _ => hroom)

theorem countBit_wp_le (s : State) : s.countBit.wp ≤ s.wp + 1 := by
  simp only [State.countBit_wp]
  split <;> omega

/-- PACK leaves the deframer when it has filled the last octet (R119). -/
theorem continues_pack {s : State} (hcfg : s.cfg.ok = true) (hroom : s.wp < frameBytes) : Continues .pack s := by
  refine ⟨_, if_pos hroom, ?_⟩
  simp only [advance]
  split
  · exact sequenced_toCheck hcfg
  next hfull =>
    exact sequenced_goto_scan hcfg (hroom := fun _ _ => lt_of_le_of_ne ((countBit_wp_le _).trans hroom) hfull)

/-- LENSEL passes on to CRCCHK only a frame that is long enough (R126). -/
theorem continues_lensel {s : State} (hcfg : s.cfg.ok = true) : Continues .lensel s := by
  cases hs : s.lengthSet.short with
  | true => exact ⟨_, execLensel_short hs, sequenced_attemptEnd .short hcfg⟩
  | false => exact ⟨_, execLensel_long hs, sequenced_goto_scan hcfg (hlong := fun _ => hs)⟩

/-- CRCCHK passes on to UNPACK only a frame whose CRC equals its FCS (R130). -/
theorem continues_crcchk {s : State} (hcfg : s.cfg.ok = true) (hlong : s.short = false) : Continues .crcchk s := by
  cases hs : s.checkSet.crcOk with
  | true => exact ⟨_, execCrcchk_ok hs, sequenced_goto_scan hcfg (hvalid := fun _ => ⟨hlong, hs, crcOkFlag_iff.mp hs⟩)⟩
  | false => exact ⟨_, execCrcchk_bad hs, sequenced_attemptEnd .crcfail hcfg⟩

theorem continues_emitOp {s : State} (hcfg : s.cfg.ok = true) : Continues .emitOp s :=
  ⟨_, rfl, sequenced_attemptEnd .record hcfg⟩

/-- A message class writes what it selects and the record only (R66). -/
theorem exec_message {i : Instr} (hi : (encode i).1 = .msgId) (s : State) :
    ∃ t, exec i s = .next t ∧ t = { s with mid := t.mid, blen := t.blen, record := t.record, res := t.res } := by
  cases i with
  | msgPos1 | msgPos2 | msgPos3 | msgBase | msgStatic | msgUnknown0 | msgUnknown6to7 | msgUnknown8to15
  | msgUnknown16to31 | msgUnknown32to63 => exact ⟨_, rfl, rfl⟩
  | _ => cases hi

theorem advance_message {i : Instr} (hi : (encode i).1 = .msgId) (s : State) :
    advance i s = s.goto (.scan s.ch .emit) (fetchOf .emitOp) := by
  cases i with
  | msgPos1 | msgPos2 | msgPos3 | msgBase | msgStatic | msgUnknown0 | msgUnknown6to7 | msgUnknown8to15
  | msgUnknown16to31 | msgUnknown32to63 => rfl
  | _ => cases hi

/-- A message class leaves the frame a valid one, as EMIT needs it. -/
theorem continues_message {i : Instr} {s : State} (hi : (encode i).1 = .msgId) (hcfg : s.cfg.ok = true)
    (hvalid : s.short = false ∧ s.crcOk = true ∧ s.crc = s.fcs) : Continues i s := by
  obtain ⟨t, ht, honly⟩ := exec_message hi s
  have hcfg' : t.cfg.ok = true := by rwa [honly]
  have hvalid' : t.short = false ∧ t.crcOk = true ∧ t.crc = t.fcs := by rwa [honly]
  refine ⟨t, ht, ?_⟩
  rw [advance_message hi]
  exact sequenced_goto_scan hcfg' (hvalid := fun _ => hvalid')

/-! ### The operation that is next -/

/-- Every first body octet has a message class (R67). -/
theorem lookupRow_msgTable_isSome : ∀ octet : Byte, (lookupRow msgTable octet).isSome = true := by
  decide

theorem decode_msgId_total (octet : Byte) : ∃ i, decode .msgId octet = .ok i ∧ (encode i).1 = .msgId := by
  obtain ⟨i, hi⟩ := Option.isSome_iff_exists.mp (lookupRow_msgTable_isSome octet)
  refine ⟨i, by simp only [decode, hi, Option.elim_some], ?_⟩
  simp only [lookupRow, Option.map_eq_some_iff] at hi
  obtain ⟨r, hr, rfl⟩ := hi
  have hformat : ∀ r ∈ msgTable, (encode (r.build octet)).1 = .msgId := by simp [msgTable, encode]
  exact hformat r (List.mem_of_find?_eq_some hr)

/-- The operation that is next continues; in `DONE` there is none. -/
def Proceeds (s : State) : Prop :=
  s.selected = .ok none ∨ ∃ i, s.selected = .ok (some i) ∧ Continues i s

theorem proceeds_of_halt {s : State} (hf : s.fetch = .halt) : Proceeds s :=
  .inl (by rw [State.selected, hf])

/-- The latch holds the index of an operation that continues. -/
theorem proceeds_of_fetchOf {i : Instr} {s : State} (hf : s.fetch = fetchOf i) (hi : decode .op (encode i).2 = .ok i)
    (h : Continues i s) : Proceeds s :=
  .inr ⟨i, by simp [State.selected, hf, fetchOf, hi, Except.map], h⟩

/-- The latch is on the body octet of a valid frame. -/
theorem proceeds_of_body {s : State} (hf : s.fetch = .body) (hcfg : s.cfg.ok = true)
    (hvalid : s.short = false ∧ s.crcOk = true ∧ s.crc = s.fcs) : Proceeds s := by
  obtain ⟨i, hi, hformat⟩ := decode_msgId_total (s.bufRead hdr)
  exact .inr ⟨i, by simp [State.selected, hf, hi, Except.map], continues_message hformat hcfg hvalid⟩

/-- In a scan the guards of `State.sequenced` are what the rule of the next operation needs. -/
theorem proceeds_scan {s : State} {c : Channel} {sub : SubPhase} (hs : s.sequenced) (hp : s.phase = .scan c sub) :
    Proceeds s := by
  obtain ⟨hcfg, hfetch, -, htail, hroom, hlong, hvalid⟩ := hs
  rw [hp] at hfetch
  cases sub with
  | gate => exact proceeds_of_fetchOf (List.mem_singleton.mp hfetch) rfl (continues_gate hcfg)
  | corr =>
    obtain hf | hf : s.fetch = fetchOf .corr ∨ s.fetch = fetchOf .syncOp := by simpa [phaseOps] using hfetch
    · exact proceeds_of_fetchOf hf rfl (continues_corr hcfg (htail hf))
    · exact proceeds_of_fetchOf hf rfl (continues_syncOp hcfg)
  | deframe =>
    have hroom : ∀ {i}, s.fetch = fetchOf i → fetchOf i ≠ fetchOf .clearOp → s.wp < frameBytes :=
      fun hf hi => hroom c hp (hf ▸ hi)
    obtain hf | hf | hf | hf | hf : s.fetch = fetchOf .clearOp ∨ s.fetch = fetchOf .slice ∨ s.fetch = fetchOf .nrzi ∨
        s.fetch = fetchOf .destuff ∨ s.fetch = fetchOf .pack := by simpa [phaseOps] using hfetch
    · exact proceeds_of_fetchOf hf rfl (continues_clearOp hcfg)
    · exact proceeds_of_fetchOf hf rfl (continues_slice hcfg (hroom hf (by decide)))
    · exact proceeds_of_fetchOf hf rfl (continues_nrzi hcfg (hroom hf (by decide)))
    · exact proceeds_of_fetchOf hf rfl (continues_destuff hcfg (hroom hf (by decide)))
    · exact proceeds_of_fetchOf hf rfl (continues_pack hcfg (hroom hf (by decide)))
  | check =>
    obtain hf | hf : s.fetch = fetchOf .lensel ∨ s.fetch = fetchOf .crcchk := by simpa [phaseOps] using hfetch
    · exact proceeds_of_fetchOf hf rfl (continues_lensel hcfg)
    · exact proceeds_of_fetchOf hf rfl (continues_crcchk hcfg (hlong hf))
  | unpack =>
    have hf : s.fetch = .body := List.mem_singleton.mp hfetch
    exact proceeds_of_body hf hcfg (hvalid (.inl hf))
  | emit => exact proceeds_of_fetchOf (List.mem_singleton.mp hfetch) rfl (continues_emitOp hcfg)

theorem proceeds_of_sequenced {s : State} (hs : s.sequenced) : Proceeds s := by
  have ⟨hcfg, hfetch, _⟩ := hs
  cases hp : s.phase <;> rw [hp] at hfetch
  case scan => exact proceeds_scan hs hp
  case idle =>
    exact proceeds_of_fetchOf (List.mem_singleton.mp hfetch) rfl (continues_runOp hcfg (by simp [State.running, hp]))
  case read => exact proceeds_of_fetchOf (List.mem_singleton.mp hfetch) rfl (continues_readOp hcfg)
  case sdec | dec3 | split | dec2 =>
    exact proceeds_of_fetchOf (List.mem_singleton.mp hfetch) rfl (continues_stage (by simp) hcfg)
  case demod =>
    obtain hf | hf : s.fetch = fetchOf .fmdem ∨ s.fetch = fetchOf .amenv := by simpa [phaseOps] using hfetch
    · exact proceeds_of_fetchOf hf rfl (continues_stage (by simp) hcfg)
    · exact proceeds_of_fetchOf hf rfl (continues_amenv hcfg)
  case done => exact proceeds_of_halt (List.mem_singleton.mp hfetch)

end Sys2Proof.Machine

open Sys2Proof.Machine

/-- Settles O56: the operation that is next continues, and `DONE` stays as it is. -/
theorem sequencedStepsNeverStop : Obligations.SequencedStepsNeverStop := by
  intro s hs
  obtain hnone | ⟨i, hsel, t, ht, hseq⟩ := proceeds_of_sequenced hs
  · exact ⟨s, step_eq_next.mpr (.inl ⟨hnone, rfl⟩), hs⟩
  · exact ⟨_, step_eq_next.mpr (.inr ⟨i, t, hsel, ht, rfl⟩), hseq⟩
end

section
/-! PROOFS. The bits packed after CLEAR land in order (O28). -/

open Sys2Proof.Stated

namespace Sys2Proof.Machine

/-- The frame holds exactly the bits `kept`, in the order of R39, and zeros in the rest of its capacity; the write
position is that of the next bit. -/
def FrameHolds (kept : List Bool) (s : State) : Prop :=
  s.wp = hdr + kept.length / 8 ∧ s.bp = kept.length % 8 ∧ s.nbits = kept.length ∧
  ∀ q < 8 * (frameBytes - hdr), (s.bufRead (hdr + q / 8)).getLsbD (q % 8) = kept.getD q false

/-- CLEAR leaves a frame without bits (R111). -/
theorem frameHolds_nil_of_execClear {s t : State} (h : execClear s = .next t) : FrameHolds [] t := by
  cases h
  refine ⟨rfl, rfl, rfl, fun q hq => ?_⟩
  have hin : hdr + q / 8 < frameBytes := by simp only [hdr, frameBytes] at hq ⊢; omega
  simp [State.bufRead, clearedBuf_get?, hin]

theorem getD_concat (kept : List Bool) (b : Bool) (q : Nat) :
    (kept ++ [b]).getD q false = (kept.getD q false || (decide (q = kept.length) && b)) := by
  rcases Nat.lt_trichotomy q kept.length with h | rfl | h
  · rw [List.getD_append _ _ _ _ h]
    simp [h.ne]
  · simp
  · simp [h.ne', h.le, h]

/-- PACK with room in the frame adds its bit after the ones kept so far (R118). -/
theorem execPack_frameHolds {kept : List Bool} {s : State} (h : FrameHolds kept s)
    (hroom : kept.length < 8 * (frameBytes - hdr)) :
    ∃ t, execPack s = .next t ∧ FrameHolds (kept ++ [s.out]) t := by
  obtain ⟨hwp, hbp, hnbits, hbits⟩ := h
  have hlt : s.wp < frameBytes := by simp only [hwp, hdr, frameBytes] at hroom ⊢; omega
  refine ⟨_, if_pos hlt, ?_, ?_, ?_, fun q hq => ?_⟩
  · simp [hwp, hbp]; split <;> omega
  · simp [hbp]; split <;> omega
  · simp [hnbits]
  · have hread : ∀ a, ((s.bufWrite s.wp (packBit (s.bufRead s.wp) s.bp s.out)).countBit.ret .plain).bufRead a =
        if a = s.wp then packBit (s.bufRead s.wp) s.bp s.out else s.bufRead a := 
        fun a => State.bufRead_bufWrite s s.wp a _
    rw [getD_concat, hread, ← hbits q hq]
    by_cases hoctet : q / 8 = kept.length / 8
    · have hat : hdr + q / 8 = s.wp := by rw [hwp, hoctet]
      have hpos : (q % 8 = s.bp) = (q = kept.length) := by rw [hbp]; exact propext (by omega)
      rw [hat, if_pos rfl, packBit_getLsbD _ _ _ _ (Nat.mod_lt _ (by decide))]
      simp only [hpos]
    · have hother : hdr + q / 8 ≠ s.wp := by omega
      have hne : q ≠ kept.length := fun e => hoctet (by rw [e])
      simp [hother, hne]

/-- Packing the bits one after another adds all of them, up to the capacity of the frame. -/
theorem packAll_frameHolds {bits kept : List Bool} {s : State} (h : FrameHolds kept s)
    (hroom : kept.length + bits.length ≤ 8 * (frameBytes - hdr)) :
    ∃ t, packAll bits s = .next t ∧ FrameHolds (kept ++ bits) t := by
  induction bits generalizing kept s with
  | nil => exact ⟨s, rfl, by simpa using h⟩
  | cons b bits ih =>
    rw [List.length_cons] at hroom
    have hout : FrameHolds kept { s with out := b } := h
    obtain ⟨t, hpack, ht⟩ := execPack_frameHolds hout (by omega)
    obtain ⟨u, hrest, hu⟩ := ih ht (by simp only [List.length_append, List.length_singleton]; omega)
    exact ⟨u, (seqOp_of hpack _).trans hrest, by simpa using hu⟩

end Sys2Proof.Machine

open Sys2Proof.Machine

/-- Settles O28, by induction over the bits, from the empty frame that CLEAR leaves. -/
theorem packedBitsLandInOrder : Obligations.PackedBitsLandInOrder := by
  intro s a bits hlen hclear
  obtain ⟨t, ht, -, -, hnbits, hbits⟩ := packAll_frameHolds (frameHolds_nil_of_execClear hclear)
    (by simpa [hdr, frameBytes] using hlen)
  refine ⟨t, ht, by simpa using hnbits, fun q hq => ?_⟩
  have hbit := hbits q (by simp only [hdr, frameBytes]; omega)
  rw [List.nil_append, List.getD_eq_getElem _ _ hq] at hbit
  rw [List.getElem?_eq_getElem hq, ← hbit]
  rfl
end

section
/-! PROOFS. The stream lengths through a sweep (O47). -/

namespace Sys2Proof.Machine

/-- What is known of the state an operation answers holds of the state it is given to answer. -/
theorem of_next {o : StepOutcome} {t : State} {P : State → Prop} (hspec : ∃ u, o = .next u ∧ P u) (h : o = .next t) :
    P t := by
  obtain ⟨u, hu, hP⟩ := hspec
  cases hu.symm.trans h
  exact hP

/-- DEMOD of both channels shortens both by one. -/
theorem demodChannel_both_len {s t u : State} (h1 : demodChannel s .one = .next t) (h2 : demodChannel t .two = .next u) :
    u.len1 = s.len1 - 1 ∧ u.len2 = s.len2 - 1 := by
  obtain ⟨-, -, t1, tne⟩ := of_next (demodChannel_spec s .one) h1
  obtain ⟨-, -, u2, une⟩ := of_next (demodChannel_spec t .two) h2
  have t2 : t.len .two = s.len .two := tne .two (by decide)
  have u1 : u.len .one = t.len .one := une .one (by decide)
  exact ⟨u1.trans t1, u2.trans (congrArg (· - 1) t2)⟩

end Sys2Proof.Machine

open Sys2Proof.Machine

/-- Settles O47, from the length each stage leaves. -/
theorem streamLengthsThroughSweep : Obligations.StreamLengthsThroughSweep := by
  intro s a b c d e f ha hb hc hd he hf
  obtain ⟨-, ha⟩ := of_next (execSdec_spec s) ha
  obtain ⟨-, hb⟩ := of_next (execDec3_spec a) hb
  obtain ⟨-, hc1, hc2⟩ := of_next (execSplit_spec b) hc
  obtain ⟨-, hd1, hd2⟩ := of_next (execDec2_spec c) hd
  obtain ⟨hf1, hf2⟩ := demodChannel_both_len he hf
  omega
end

section
/-! PROOFS. The sink is append only (O58). -/

namespace Sys2Proof.Machine

theorem OnlySequencer.sink {s t : State} (h : OnlySequencer s t) : t.sink = s.sink := by
  rw [h]

/-- Of the operations that are no sequences only EMIT reaches the sink (R150). -/
theorem exec_leaf_sink {i : Instr} {s t : State} (hi : i.isLeaf = true) (hemit : i ≠ .emitOp)
    (h : exec i s = .next t) : t.sink = s.sink := by
  cases i with
  | runOp | sweepOp | scanOp | aisdec => cases hi
  | emitOp => exact absurd rfl hemit
  | readOp =>
    obtain ⟨-, e⟩ | e | e := execRead_cases s <;> cases e.symm.trans h <;> rfl
  | gate =>
    obtain ⟨i, run, -, ⟨-, e⟩ | ⟨-, -, e⟩⟩ := execGate_cases s <;> cases e.symm.trans h <;> rfl
  | corr =>
    obtain ⟨r, -, rfl⟩ := execCorr_eq_next h
    rfl
  | pack =>
    obtain ⟨-, rfl⟩ := execPack_eq_next h
    rfl
  | getbits =>
    simp only [exec, execGetbits] at h
    split at h
    · cases h; rfl
    · cases h
  | slice =>
    cases h
    split
    · rfl
    split <;> rfl
  | syncOp | destuff | lensel | crcchk =>
    cases h
    split <;> rfl
  | _ => cases h; rfl

theorem exec_leaf_sink_grows {i : Instr} {s t : State} (hi : i.isLeaf = true) (h : exec i s = .next t) :
    s.sink <+: t.sink := by
  by_cases hemit : i = .emitOp
  · subst hemit
    cases h
    exact List.prefix_append s.sink _
  · rw [exec_leaf_sink hi hemit h]

theorem keptByParts_sink : KeptByParts fun s t => s.sink <+: t.sink where
  trans := List.IsPrefix.trans
  move h := h.sink ▸ List.prefix_refl _
  leaf := exec_leaf_sink_grows
  demod s := (onlyStreams_commitDemod s).sink ▸ List.prefix_refl _
  start s := List.prefix_append s.sink _

end Sys2Proof.Machine

/-- Settles O58: every part of a step keeps the sink or appends to it. -/
theorem sinkIsAppendOnly : Obligations.SinkIsAppendOnly :=
  fun _ _ h => Sys2Proof.Machine.keptByParts_sink.step h
end

section
/-! PROOFS. An index outside its buffer is the model's fault, in CORR, PACK and GETBITS (O27). -/

namespace Sys2Proof.Machine

/-- The first index a candidate shift forms is the base itself. -/
theorem corrTerms_pat_eq_none {f : Nat → Option Int} {bad : Int → Bool} {base : Nat} (h : f base = none) :
    corrTerms f bad base pat 0 0 = none := by
  obtain ⟨p, ps, hpat⟩ : ∃ p ps, pat = p :: ps := ⟨_, _, rfl⟩
  have hoff : base + off 0 = base := rfl
  simp only [hpat, corrTerms, hoff, h]

theorem correlate_eq_none {f : Nat → Option Int} {i : Nat} {r : CorrRegs} (h : f i = none) :
    correlate f i r = none := by
  have hrange : List.range kSpan = 0 :: (List.range 104).map Nat.succ := List.range_succ_eq_map
  simp only [correlate, corrPositive, hrange, corrPass, Nat.add_zero, corrTerms_pat_eq_none h]

theorem execCorr_fault {s : State} (h : s.n ≤ s.i) : execCorr s = .fault .streamRange := by
  have hf : s.fAt? s.i = none := elem?_eq_none.mpr (by rwa [streamLen_iStream])
  simp only [execCorr, correlate_eq_none hf]

theorem execPack_fault {s : State} (h : frameBytes ≤ s.wp) : execPack s = .fault .bufRange :=
  if_neg (Nat.not_lt.mpr h)

/-- The last bit of the field lies beyond octet 255. -/
theorem execGetbits_fault {s : State} (hw : 0 < s.gbW) (h : 8 * (frameBytes - hdr) < s.gbO + s.gbW) :
    execGetbits s = .fault .bufRange := by
  refine if_neg ?_
  simp only [frameBytes, hdr] at h ⊢
  omega

end Sys2Proof.Machine

/-- Settles O27: the first term of CORR, the write of PACK and the last bit of GETBITS leave the buffer. -/
theorem indexOutsideBufferFaults : Obligations.IndexOutsideBufferFaults :=
  ⟨fun _ => Sys2Proof.Machine.execCorr_fault, fun _ => Sys2Proof.Machine.execPack_fault,
    fun _ => Sys2Proof.Machine.execGetbits_fault⟩
end

section
/-! PROOFS. The decoder and the encoder are inverse to each other (O1 to O4). Two rows of one format fix some common
bit to different values, so the row that matches an octet is the only one, and its order in the table has no effect. -/

namespace Sys2Proof

open Laws.EncodedOctet

/-! ### The rows of a format -/

theorem hasPattern_iff {mask pattern octet : Byte} : hasPattern mask pattern octet = true ↔ octet &&& mask = pattern :=
  beq_iff_eq

/-- The octet has the row's fixed bits. -/
abbrev Row.Matches (r : Row) (octet : Byte) : Prop := hasPattern r.mask r.pattern octet = true

/-- Some bit is fixed in both rows, to different values. -/
def Row.Apart (r q : Row) : Prop := (r.pattern ^^^ q.pattern) &&& (r.mask &&& q.mask) ≠ 0

theorem Row.Apart.not_matches {r q : Row} {octet : Byte} (h : r.Apart q) (hr : r.Matches octet) : ¬ q.Matches octet := by
  intro hq
  have hbit : ∀ x m n : Bool, (((x && m) ^^ (x && n)) && (m && n)) = false := by decide
  refine h ?_
  rw [← hasPattern_iff.mp hr, ← hasPattern_iff.mp hq]
  ext b
  simp [hbit]

theorem tableOf_pairwise_apart (f : Format) : (tableOf f).Pairwise Row.Apart := by
  unfold Row.Apart
  cases f with
  | op => decide
  | msgId => decide

/-- At most one row of a format matches an octet. -/
theorem matching_row_unique {f : Format} {octet : Byte} {r q : Row} (hr : r ∈ tableOf f) (hq : q ∈ tableOf f)
    (hrm : r.Matches octet) (hqm : q.Matches octet) : r = q := by
  have hapart := tableOf_pairwise_apart f
  exact List.Pairwise.forall_of_forall_of_flip (R := fun r q => r.Matches octet → q.Matches octet → r = q)
    (fun _ _ _ _ => rfl) (hapart.imp fun h hr hq => absurd hq (h.not_matches hr))
    (hapart.imp fun h hq hr => absurd hq (h.not_matches hr)) hr hq hrm hqm

/-- A lookup finds the row that matches, wherever it stands in the table. -/
theorem lookupRow_eq_some {f : Format} {octet : Byte} {i : Instr} :
    lookupRow (tableOf f) octet = some i ↔ ∃ r ∈ tableOf f, r.Matches octet ∧ r.build octet = i := by
  simp only [lookupRow, Option.map_eq_some_iff]
  constructor
  · rintro ⟨r, hfind, hbuild⟩
    have hmatch := List.find?_some hfind
    exact ⟨r, List.mem_of_find?_eq_some hfind, hmatch, hbuild⟩
  · rintro ⟨r, hr, hmatch, hbuild⟩
    cases hfind : (tableOf f).find? fun r => hasPattern r.mask r.pattern octet with
    | none => exact absurd hmatch (List.find?_eq_none.mp hfind r hr)
    | some q =>
      have hqmatch := List.find?_some hfind
      obtain rfl := matching_row_unique hr (List.mem_of_find?_eq_some hfind) hmatch hqmatch
      exact ⟨r, rfl, hbuild⟩

/-! ### The decoder -/

theorem decode_eq_elim (f : Format) (octet : Byte) :
    decode f octet = (lookupRow (tableOf f) octet).elim (.error (.noSuchOperation octet)) .ok := by
  cases f with
  | op => rfl
  | msgId => rfl

theorem decode_eq_ok {f : Format} {octet : Byte} {i : Instr} :
    decode f octet = .ok i ↔ ∃ r ∈ tableOf f, r.Matches octet ∧ r.build octet = i := by
  rw [decode_eq_elim, ← lookupRow_eq_some]
  cases lookupRow (tableOf f) octet with
  | none => simp
  | some j => simp

/-- The one error of the decoder names the octet. -/
theorem decode_ok_or_error (f : Format) (octet : Byte) :
    (∃ i, decode f octet = .ok i) ∨ decode f octet = .error (.noSuchOperation octet) := by
  rw [decode_eq_elim]
  cases lookupRow (tableOf f) octet with
  | none => exact .inr rfl
  | some i => exact .inl ⟨i, rfl⟩

/-! ### Encoding, then decoding -/

theorem exists_row_of_wellFormed : ∀ i : Instr, Statement i
  | .runOp => runOp
  | .readOp => readOp
  | .sweepOp => sweepOp
  | .scanOp => scanOp
  | .aisdec => aisdec
  | .sdec => sdec
  | .fir => fir
  | .dec3 => dec3
  | .splitOp => splitOp
  | .dec2 => dec2
  | .fmdem => fmdem
  | .amenv => amenv
  | .gate => gate
  | .corr => corr
  | .syncOp => syncOp
  | .clearOp => clearOp
  | .slice => slice
  | .nrzi => nrzi
  | .destuff => destuff
  | .pack => pack
  | .lensel => lensel
  | .crc16 => crc16
  | .crcchk => crcchk
  | .getbits => getbits
  | .unpackPos => unpackPos
  | .unpackBase => unpackBase
  | .unpackStatic => unpackStatic
  | .unpackUnknown => unpackUnknown
  | .emitOp => emitOp
  | .msgPos1 octet => msgPos1 octet
  | .msgPos2 octet => msgPos2 octet
  | .msgPos3 octet => msgPos3 octet
  | .msgBase octet => msgBase octet
  | .msgStatic octet => msgStatic octet
  | .msgUnknown0 octet => msgUnknown0 octet
  | .msgUnknown6to7 octet => msgUnknown6to7 octet
  | .msgUnknown8to15 octet => msgUnknown8to15 octet
  | .msgUnknown16to31 octet => msgUnknown16to31 octet
  | .msgUnknown32to63 octet => msgUnknown32to63 octet

/-! ### Decoding, then encoding -/

/-- What the row builds from an octet it matches is well-formed and has that octet as its encoding. -/
def Row.Encodes (f : Format) (r : Row) : Prop :=
  ∀ octet, r.Matches octet → (r.build octet).wellFormed = true ∧ encode (r.build octet) = (f, octet)

/-- An operation row matches its index only. -/
theorem opRow_encodes {name : String} {index : Byte} {i : Instr} (hi : i.wellFormed = true)
    (hindex : encode i = (.op, index)) : (opRow name index i).Encodes .op := by
  intro octet hmatch
  have hall : octet &&& BitVec.allOnes 8 = index := hasPattern_iff.mp hmatch
  rw [BitVec.and_allOnes] at hall
  exact ⟨hi, hall ▸ hindex⟩

theorem tableOf_encodes (f : Format) : ∀ r ∈ tableOf f, r.Encodes f := by
  cases f with
  | op =>
    simp only [tableOf, opTable, List.forall_mem_cons, List.not_mem_nil, false_imp_iff, implies_true, and_true]
    and_intros <;> exact opRow_encodes rfl rfl
  | msgId => simp [tableOf, msgTable, Row.Encodes, Row.Matches, Instr.wellFormed, encode]

/-- The decoder inverts the encoder on the well-formed instructions, and answers no other instruction. -/
theorem decode_eq_ok_iff_encode {f : Format} {octet : Byte} {i : Instr} :
    decode f octet = .ok i ↔ i.wellFormed = true ∧ encode i = (f, octet) := by
  rw [decode_eq_ok]
  constructor
  · rintro ⟨r, hr, hmatch, rfl⟩
    exact tableOf_encodes f r hr octet hmatch
  · rintro ⟨hi, hencode⟩
    have hrow := exists_row_of_wellFormed i hi
    rwa [hencode] at hrow

/-! ### Octets that are no index -/

theorem decode_op_unlisted {octet : Byte} (h : ∀ i : Instr, encode i ≠ (.op, octet)) :
    decode .op octet = .error (.noSuchOperation octet) := by
  obtain ⟨i, hi⟩ | herror := decode_ok_or_error .op octet
  · exact absurd (decode_eq_ok_iff_encode.mp hi).2 (h i)
  · exact herror

theorem step_refused_of_tag {s : Machine.State} {octet : Byte} (hfetch : s.fetch = .tag octet)
    (h : decode .op octet = .error (.noSuchOperation octet)) :
    Machine.step s = .refused (.noSuchOperation octet) := by
  have hselected : s.selected = .error (.noSuchOperation octet) := by
    simp [Machine.State.selected, hfetch, h, Except.map]
  simp only [Machine.step, hselected]

end Sys2Proof

/-- Settles O1: the row of its class matches the octet, and no other row does. -/
theorem decodeEncodeRoundTrip : Obligations.DecodeEncodeRoundTrip :=
  fun _ hi => Sys2Proof.decode_eq_ok_iff_encode.mpr ⟨hi, rfl⟩

/-- Settles O2, row by row. -/
theorem encodeDecodeRoundTrip : Obligations.EncodeDecodeRoundTrip :=
  fun _ _ _ => Sys2Proof.decode_eq_ok_iff_encode.mp

/-- Settles O3: what an index decodes to would be encoded as that index. -/
theorem unlistedIndexRejected : Obligations.UnlistedIndexRejected := by
  intro octet hunlisted
  have herror := Sys2Proof.decode_op_unlisted hunlisted
  exact ⟨herror, fun _ hfetch => Sys2Proof.step_refused_of_tag hfetch herror⟩

/-- Settles O4: each octet is the encoding of the instruction named beside it. -/
theorem listedOctetsDecode : Obligations.ListedOctetsDecode := by
  unfold Obligations.ListedOctetsDecode
  and_intros <;> exact Sys2Proof.decode_eq_ok_iff_encode.mpr ⟨rfl, rfl⟩
end

section
/-! PROOFS. A message class selects `mid` and `blen` and then does what the unpacker that `mid` chooses does (O39, O40). -/

namespace Sys2Proof.Machine

open Stated

/-! ### The fields of `BUF` in the terms of the statements -/

theorem msgBit_eq_bitAt (s : State) (b : Nat) : s.msgBit b = bitAt s b := by
  rw [State.msgBit, Nat.shiftRight_eq_div_pow]
  rfl

theorem bits_eq_field (s : State) (o w : Nat) : s.bits o w = field s o w := by
  simp only [bits_eq_sum, msgBit_eq_bitAt, field]

theorem signedBits_eq_signedField (s : State) (o w : Nat) : s.signedBits o w = signedField s o w := by
  simp only [State.signedBits, sext, bits_eq_field, signedField, ← Nat.not_lt, ite_not]

theorem text_eq_textField (s : State) (o c : Nat) : s.text o c = textField s o c := by
  simp only [State.text, sixBitChar, bits_eq_field, textField]

/-- The unpacker that `mid` chooses builds the record R66 names for that ID. -/
theorem recordByMid_eq_recordFor (s : State) : s.recordByMid = recordFor s s.mid.toNat := by
  simp only [State.recordByMid, recordFor, State.posRecord, State.baseRecord, State.staticRecord, State.unknownRecord,
    bits_eq_field, signedBits_eq_signedField, text_eq_textField, BitVec.toNat_eq]
  rfl

/-! ### The message ID of a class -/

/-- The fixed bits of a class fix the corresponding bits of the message ID. -/
theorem messageId_and_of_hasPattern {mask pattern octet : Byte} (h : hasPattern mask pattern octet = true) :
    messageId octet &&& messageId mask = messageId pattern := by
  rw [← hasPattern_iff.mp h]
  exact BitVec.extractLsb'_and.symm

/-- A class that fixes all six bits has one message ID. -/
theorem messageId_of_hasPattern {pattern octet : Byte} (h : hasPattern 0xFC pattern octet = true) :
    messageId octet = messageId pattern := by
  rw [← messageId_and_of_hasPattern h]
  exact (BitVec.and_allOnes).symm

/-! ### What a message class does -/

/-- `mid` and `blen` as the octet selects them (R66). -/
def State.selectOctet (s : State) (octet : Byte) : State :=
  s.selectMessage octet (bodyLenOf (messageId octet))

/-- The positions are the IDs 1 to 3, with a short body. -/
theorem unpackByMid_selectOctet_position {octet : Byte}
    (h : messageId octet = 1 ∨ messageId octet = 2 ∨ messageId octet = 3) (s : State) :
    unpackByMid (s.selectOctet octet) = .next (unpackPosition (s.selectMessage octet .octets21)) := by
  have hne : messageId octet ≠ 5 := by rcases h with h | h | h <;> simp [h]
  rw [State.selectOctet, bodyLenOf, if_neg hne]
  exact if_pos h

theorem unpackByMid_selectOctet_base {octet : Byte} (h : messageId octet = 4) (s : State) :
    unpackByMid (s.selectOctet octet) = .next (unpackBaseStation (s.selectMessage octet .octets21)) := by
  simp [unpackByMid, State.selectOctet, bodyLenOf, h, execUnpackBase]

theorem unpackByMid_selectOctet_static {octet : Byte} (h : messageId octet = 5) (s : State) :
    unpackByMid (s.selectOctet octet) = .next (unpackStaticData (s.selectMessage octet .octets53)) := by
  simp [unpackByMid, State.selectOctet, bodyLenOf, h, execUnpackStatic]

/-- A class whose fixed bits exclude the IDs 1 to 5 is unknown, with a short body. -/
theorem unpackByMid_selectOctet_unknown {mask pattern octet : Byte} (h : hasPattern mask pattern octet = true)
    (hout : ∀ id ∈ [1, 2, 3, 4, 5], id &&& messageId mask ≠ messageId pattern) (s : State) :
    unpackByMid (s.selectOctet octet) = .next (unpackUnknownId (s.selectMessage octet .octets21)) := by
  have hid : messageId octet ∉ [1, 2, 3, 4, 5] := fun hmem => hout _ hmem (messageId_and_of_hasPattern h)
  simp only [List.mem_cons, List.not_mem_nil, or_false, not_or] at hid
  simp only [unpackByMid, State.selectOctet, State.selectMessage_mid, bodyLenOf, hid, or_self, if_false,
    execUnpackUnknown]

/-- A well-formed message class sets what its octet selects and unpacks by the message ID (R66, R139). -/
theorem exec_message_eq_unpackByMid {i : Instr} {octet : Byte} (hi : i.wellFormed = true)
    (hencode : encode i = (.msgId, octet)) (s : State) : exec i s = unpackByMid (s.selectOctet octet) := by
  cases i with
  | msgPos1 o => cases hencode; exact (unpackByMid_selectOctet_position (.inl (messageId_of_hasPattern hi)) s).symm
  | msgPos2 o => cases hencode; exact (unpackByMid_selectOctet_position (.inr (.inl (messageId_of_hasPattern hi))) s).symm
  | msgPos3 o => cases hencode; exact (unpackByMid_selectOctet_position (.inr (.inr (messageId_of_hasPattern hi))) s).symm
  | msgBase o => cases hencode; exact (unpackByMid_selectOctet_base (messageId_of_hasPattern hi) s).symm
  | msgStatic o => cases hencode; exact (unpackByMid_selectOctet_static (messageId_of_hasPattern hi) s).symm
  | msgUnknown0 o | msgUnknown6to7 o | msgUnknown8to15 o | msgUnknown16to31 o | msgUnknown32to63 o =>
    cases hencode
    exact (unpackByMid_selectOctet_unknown hi (by decide) s).symm
  | _ => cases hencode

/-- What a message class leaves: the columns of R66 for its octet, and every other field as it was. -/
theorem exec_message_spec {i : Instr} {octet : Byte} (hi : i.wellFormed = true) (hencode : encode i = (.msgId, octet))
    (s : State) : ∃ t, exec i s = .next t ∧
      t.mid = messageId octet ∧ t.blen = bodyLenOf (messageId octet) ∧ t.record = recordFor s (octet.toNat / 4) ∧
      t.res = (s.selectOctet octet).unpackResult ∧ SameBytes s t ∧
      t = { s with mid := t.mid, blen := t.blen, record := t.record, res := t.res } := by
  refine ⟨_, (exec_message_eq_unpackByMid hi hencode s).trans (unpackByMid_eq _), rfl, rfl, ?_, rfl,
    fun _ => ⟨rfl, rfl⟩, rfl⟩
  rw [← messageId_toNat]
  exact recordByMid_eq_recordFor (s.selectOctet octet)

/-! ### The columns of R66 by the number of the message ID -/

theorem bodyLenOf_messageId (octet : Byte) :
    bodyLenOf (messageId octet) = if octet.toNat / 4 = 5 then .octets53 else .octets21 := by
  simp only [bodyLenOf, BitVec.toNat_eq, messageId_toNat]
  rfl

theorem unpackResult_selectOctet (s : State) (octet : Byte) : (s.selectOctet octet).unpackResult =
    if 1 ≤ octet.toNat / 4 ∧ octet.toNat / 4 ≤ 5 then .plain else .raised .unknownMessageId := by
  refine if_congr ?_ rfl rfl
  simp only [State.selectOctet, State.selectMessage_mid, BitVec.toNat_eq, messageId_toNat, BitVec.ofNat_eq_ofNat,
    BitVec.toNat_ofNat]
  omega

end Sys2Proof.Machine

open Sys2Proof Sys2Proof.Machine

/-- Settles O39: the octet decodes to the class it is the encoding of, and the columns of R66 follow from its
message ID. -/
theorem messageClassSelectsRecord : Obligations.MessageClassSelectsRecord := by
  intro s octet
  obtain ⟨i, hdecode, -⟩ := decode_msgId_total octet
  obtain ⟨hi, hencode⟩ := decode_eq_ok_iff_encode.mp hdecode
  obtain ⟨t, ht, hmid, hblen, hrecord, hres, hbytes, hframe⟩ := exec_message_spec hi hencode s
  rw [bodyLenOf_messageId] at hblen
  rw [unpackResult_selectOctet] at hres
  refine ⟨i, t, hdecode, ht, ?_, ?_, ?_, hrecord, ?_, ?_, hbytes, hframe⟩
  · rw [hmid, messageId_toNat]
  · exact fun h5 => hblen.trans (if_pos h5)
  · exact fun h5 => hblen.trans (if_neg h5)
  · exact fun hknown => hres.trans (if_pos hknown)
  · exact fun hunknown => hres.trans (if_neg (by omega))

/-- Settles O40: each of the ten classes is the encoding of its octet as a message ID. -/
theorem messageInstructionsComplete : Obligations.MessageInstructionsComplete := by
  intro s octet i hclass hi
  have hencode : encode i = (.msgId, octet) := by
    rcases hclass with rfl | rfl | rfl | rfl | rfl | rfl | rfl | rfl | rfl | rfl <;> rfl
  obtain ⟨t, ht, -, -, hrecord, -, hbytes, hframe⟩ := exec_message_spec hi hencode s
  exact ⟨t, ht, hrecord, hbytes, hframe⟩
end

section
/-! PROOFS. The stages C1 to C4 (O8 to O13): the kernels of R73, the FIR output as the rounded sum of R72, and each
element a stage stores. -/

namespace Sys2Proof.Machine

open Stated

/-! ### Stored outputs -/

/-- Below its count, a stage's output is what the buffer holds. -/
theorem overlay_map_range_lt {f : Nat → Int} {n a : Nat} (x : List Int) (h : a < n) :
    (overlay ((List.range n).map f) x)[a]? = some (f a) :=
  (overlay_map_range f n x a).trans (if_pos h)

/-- From its count on, a stage's output leaves the buffer as it was. -/
theorem overlay_map_range_ge {f : Nat → Int} {n a : Nat} (x : List Int) (h : n ≤ a) :
    (overlay ((List.range n).map f) x)[a]? = x[a]? :=
  (overlay_map_range f n x a).trans (if_neg (Nat.not_lt.mpr h))

/-- The first `n` outputs `f x` stored in each of the four streams, with both active lengths `n`. -/
def State.storeFour (s : State) (f : StreamId → Nat → Int) (n : Nat) : State :=
  (s.storePair .one ((List.range n).map (f .i1)) ((List.range n).map (f .q1)) n).storePair .two
    ((List.range n).map (f .i2)) ((List.range n).map (f .q2)) n

theorem storeFour_getElem?_lt {f : StreamId → Nat → Int} {n a : Nat} (s : State) (x : StreamId) (h : a < n) :
    ((s.storeFour f n).stream x)[a]? = some (f x a) := by
  cases x <;> exact overlay_map_range_lt _ h

theorem storeFour_getElem?_ge {f : StreamId → Nat → Int} {n a : Nat} (s : State) (x : StreamId) (h : n ≤ a) :
    ((s.storeFour f n).stream x)[a]? = (s.stream x)[a]? := by
  cases x <;> exact overlay_map_range_ge _ h

/-! ### Kernels -/

theorem Kernel.centre_nonneg (h : Kernel) : 0 ≤ h.centre := by
  cases h <;> decide

/-- A tap that the parameters list is the one used (R15). -/
theorem Cfg.tap_of_listed {c : Cfg} {h : Kernel} {i : Nat} {v : Int} (hv : (c.taps h)[i]? = some v) :
    c.tap h (i + 1) = v := by
  simp [Cfg.tap, hv]

/-- An open tap is inside the constraint of R73. -/
theorem Kernel.abs_openTap_le (h : Kernel) (t : Nat) : |h.openTap t| ≤ h.centre := by
  rw [abs_le]
  cases h with
  | h3 =>
    have := (Config.h3Open t).isLt
    simp only [openTap, centre, h3Centre]
    omega
  | h8 =>
    have := (Config.h8Open t).isLt
    simp only [openTap, centre, h8Centre]
    omega

/-- Admissible parameters list only taps inside the constraint of R73. -/
theorem Cfg.abs_listed_le {c : Cfg} (hok : c.ok = true) {h : Kernel} {v : Int} (hv : v ∈ c.taps h) :
    |v| ≤ h.centre := by
  simp only [Cfg.ok, Bool.and_eq_true, List.all_eq_true, decide_eq_true_eq] at hok
  obtain ⟨⟨-, h3⟩, h8⟩ := hok
  rw [abs_le]
  cases h with
  | h3 => exact h3 v hv
  | h8 => exact h8 v hv

/-- No tap of an admissible kernel exceeds the centre tap in magnitude (R73). -/
theorem Cfg.abs_tap_le {c : Cfg} (hok : c.ok = true) (h : Kernel) (i : Nat) : |c.tap h i| ≤ h.centre := by
  cases i with
  | zero => exact (abs_of_nonneg h.centre_nonneg).le
  | succ i =>
    cases hv : (c.taps h)[i]? with
    | none =>
      have : c.tap h (i + 1) = h.openTap (i + 1) := by simp [Cfg.tap, hv]
      exact this ▸ h.abs_openTap_le (i + 1)
    | some v => exact Cfg.tap_of_listed hv ▸ Cfg.abs_listed_le hok (List.mem_of_getElem? hv)

/-! ### FIR -/

/-- Dividing by 2¹⁹ and rounding down is integer division (R72, R202). -/
theorem firOutput_eq_div (s : State) (x : StreamId) (h : Kernel) (n : Nat) :
    firOutput s x h n = firSum s x h n / 524288 :=
  Rat.floor_intCast_div_natCast (firSum s x h n) 524288

/-- What the model computes for one FIR output is the rounded sum of R72. -/
theorem firValue_eq_firOutput (s : State) (x : StreamId) (h : Kernel) (n : Nat) :
    s.firValue x h n = firOutput s x h n := by
  rw [firValue_eq_div, firAcc_eq_sum, firOutput_eq_div, firSum]

/-! ### SPLIT -/

/-- What SPLIT stores in a stream at an index (R80). -/
def State.splitOut (s : State) : StreamId → Nat → Int
  | .i1, i => (splitOne i (s.elem .i1 i) (s.elem .q1 i)).1
  | .q1, i => (splitOne i (s.elem .i1 i) (s.elem .q1 i)).2
  | .i2, i => (splitTwo i (s.elem .i1 i) (s.elem .q1 i)).1
  | .q2, i => (splitTwo i (s.elem .i1 i) (s.elem .q1 i)).2

theorem execSplit_eq (s : State) : execSplit s = .next ((s.storeFour s.splitOut s.len1).ret .plain) := rfl

/-- SPLIT leaves the rotated samples in the four streams. -/
theorem split_elem {s t : State} (h : exec .splitOp s = .next t) (x : StreamId) {i : Nat} (hi : i < s.len1) :
    t.elem x i = s.splitOut x i := by
  cases (execSplit_eq s).symm.trans h
  exact elem_of_getElem? (storeFour_getElem?_lt s x hi)

theorem splitTwo_of_mod {i r : Nat} (h : i % 4 = r) (a b : Int) : splitTwo i a b = rot r a b := by
  rw [splitTwo, h]

theorem splitOne_of_mod {i r : Nat} (h : i % 4 = r) (a b : Int) :
    splitOne i a b = if r % 2 = 1 then (-(rot r a b).1, -(rot r a b).2) else rot r a b := by
  rw [splitOne, splitTwo_of_mod h]
  exact if_congr (by omega) rfl rfl

/-- A rotation keeps the magnitude (R78). -/
theorem rot_sq_add_sq (r : Nat) (a b : Int) : (rot r a b).1 ^ 2 + (rot r a b).2 ^ 2 = a ^ 2 + b ^ 2 := by
  unfold rot
  split <;> ring

/-- Rotated by its residue, and perhaps negated, a sample keeps its magnitude (R81). -/
theorem splitOne_sq_add_sq (i : Nat) (a b : Int) : (splitOne i a b).1 ^ 2 + (splitOne i a b).2 ^ 2 = a ^ 2 + b ^ 2 := by
  unfold splitOne splitTwo
  split
  · simp only [neg_sq, rot_sq_add_sq]
  · exact rot_sq_add_sq _ a b

/-! ### DEC2 -/

/-- What DEC2 stores in a stream at an index (R84). -/
def State.dec2Out (s : State) (x : StreamId) (j : Nat) : Int := s.firValue x .h8 (2 * j)

theorem execDec2_eq (s : State) : execDec2 s = .next ((s.storeFour s.dec2Out (dec2Len s.len1)).ret .plain) := rfl

/-- The lengths of R32: subtraction of natural numbers stops at 0, as `max(0, ·)` does. -/
theorem cast_div_sub (n d k : Nat) : ((n / d - k : Nat) : Int) = max 0 ((n : Int) / d - k) := by
  omega

end Sys2Proof.Machine

open Sys2Proof Sys2Proof.Machine

/-- Settles O8: the stored samples are `signedSample` of the octets of `RAW`. -/
theorem sdecRemovesBias : Obligations.SdecRemovesBias := by
  intro s
  refine ⟨_, rfl, fun i hi => ⟨?_, ?_⟩, fun i hi => ⟨?_, ?_⟩, rfl, fun _ => ⟨rfl, rfl⟩, rfl⟩
  · exact overlay_map_range_lt s.i1 hi
  · exact overlay_map_range_lt s.q1 hi
  · exact overlay_map_range_ge s.i1 hi
  · exact overlay_map_range_ge s.q1 hi

/-- Settles O9: the accumulator is the sum, and the kernels are those of R15 and R73. -/
theorem firRoundsExactSumDown : Obligations.FirRoundsExactSumDown := by
  intro s
  refine ⟨_, rfl, firValue_eq_firOutput s _ _ _, fun _ => tapIn_of_not, fun _ => tapIn_of_lt, rfl, rfl,
    fun i v => ⟨?_, ?_⟩, fun hok i => ⟨?_, ?_⟩, fun _ => ⟨rfl, rfl⟩, rfl⟩
  · exact Cfg.tap_of_listed (h := .h3)
  · exact Cfg.tap_of_listed (h := .h8)
  · exact Cfg.abs_tap_le hok .h3 i
  · exact Cfg.abs_tap_le hok .h8 i

/-- Settles O10: both streams are decimated from the stage's own input. -/
theorem dec3FiltersAndDecimates : Obligations.Dec3FiltersAndDecimates := by
  intro s
  refine ⟨_, rfl, cast_div_sub s.len1 3 10, fun j hj => ⟨?_, ?_⟩, fun j hj => ⟨?_, ?_⟩, fun _ => ⟨rfl, rfl⟩, rfl⟩
  · rw [← firValue_eq_firOutput]
    exact overlay_map_range_lt s.i1 hj
  · rw [← firValue_eq_firOutput]
    exact overlay_map_range_lt s.q1 hj
  · exact overlay_map_range_ge s.i1 hj
  · exact overlay_map_range_ge s.q1 hj

/-- Settles O11: the row of R80's table is the rotation by the residue, negated on channel 1 at odd indices. -/
theorem splitAssignsByResidue : Obligations.SplitAssignsByResidue := by
  intro s
  refine ⟨_, execSplit_eq s, rfl, rfl, fun i hi => ?_, fun i hi => ?_, fun _ => ⟨rfl, rfl⟩, rfl⟩
  · have stored := fun x => storeFour_getElem?_lt (f := s.splitOut) s x hi
    have row := And.intro (stored .i2) (And.intro (stored .q2) (And.intro (stored .i1) (stored .q1)))
    refine ⟨fun h => ?_, fun h => ?_, fun h => ?_, fun h => ?_⟩ <;>
      simpa [State.stream, State.splitOut, splitOne_of_mod h, splitTwo_of_mod h, rot] using row
  · have kept := fun x => storeFour_getElem?_ge (f := s.splitOut) s x hi
    exact ⟨kept .i1, kept .q1, kept .i2, kept .q2⟩

/-- Settles O12: SPLIT rotates by quarter turns and negates. -/
theorem splitKeepsMagnitude : Obligations.SplitKeepsMagnitude := by
  intro s t h i hi
  simp only [split_elem h _ hi]
  exact ⟨splitOne_sq_add_sq i _ _, rot_sq_add_sq (i % 4) _ _⟩

/-- Settles O13: the four streams are decimated from the stage's own input. -/
theorem dec2FiltersAndDecimates : Obligations.Dec2FiltersAndDecimates := by
  intro s
  refine ⟨_, execDec2_eq s, cast_div_sub s.len1 2 15, rfl, fun x j hj => ?_, fun x j hj => ?_, fun _ => ⟨rfl, rfl⟩, rfl⟩
  · rw [← firValue_eq_firOutput]
    exact storeFour_getElem?_lt (f := s.dec2Out) (n := dec2Len s.len1) s x hj
  · exact storeFour_getElem?_ge (f := s.dec2Out) (n := dec2Len s.len1) s x hj
end

section
/-! PROOFS. The widths of the front end under the constraint of R73 (O14): a bound on a stream's active elements gives
one on every FIR output. -/

namespace Sys2Proof.Machine

open Stated

/-- The active elements of a stream are at most `M` in magnitude. -/
def State.boundedBy (s : State) (x : StreamId) (M : Int) : Prop :=
  ∀ i < s.streamLen x, |s.elem x i| ≤ M

/-- A tap is bounded too: outside the stream it is 0 (R74). -/
theorem State.boundedBy.abs_tapIn_le {s : State} {x : StreamId} {M : Int} (hx : s.boundedBy x M) (hM : 0 ≤ M)
    (k : Int) : |s.tapIn x k| ≤ M := by
  unfold State.tapIn
  split
  · exact hx _ (by omega)
  · simpa

/-- The sum of R72 has 61 products, each at most the centre tap times the bound of the stream (R88). -/
theorem abs_firSum_le {s : State} (hok : s.cfg.ok = true) {x : StreamId} {M : Int} (hM : 0 ≤ M)
    (hx : s.boundedBy x M) (h : Kernel) (n : Nat) : |firSum s x h n| ≤ 61 * (h.centre * M) := by
  have tap_le := Cfg.abs_tap_le hok h
  have in_le := hx.abs_tapIn_le hM
  have centre_le : |s.cfg.tap h 0 * s.tapIn x n| ≤ h.centre * M := by
    rw [abs_mul]
    exact mul_le_mul (tap_le 0) (in_le n) (abs_nonneg _) h.centre_nonneg
  have pair_le : ∀ i : Nat,
      |s.cfg.tap h i * (s.tapIn x ((n : Int) - (i : Int)) + s.tapIn x ((n : Int) + (i : Int)))| ≤ 2 * (h.centre * M) := by
    intro i
    have pair_in_le := (abs_add_le (s.tapIn x ((n : Int) - i)) (s.tapIn x ((n : Int) + i))).trans
      (add_le_add (in_le _) (in_le _))
    rw [abs_mul]
    calc _ ≤ h.centre * (M + M) := mul_le_mul (tap_le i) pair_in_le (abs_nonneg _) h.centre_nonneg
      _ = 2 * (h.centre * M) := by ring
  have pairs_le := (Finset.abs_sum_le_sum_abs _ _).trans
    (Finset.sum_le_card_nsmul (Finset.Icc 1 30) _ _ fun i _ => pair_le i)
  simp only [Nat.card_Icc, nsmul_eq_mul] at pairs_le
  calc |firSum s x h n| ≤ _ := abs_add_le _ _
    _ ≤ h.centre * M + ((30 + 1 - 1 : Nat) : Int) * (2 * (h.centre * M)) := add_le_add centre_le pairs_le
    _ = 61 * (h.centre * M) := by push_cast; ring

/-- Rounding down may add one to the magnitude, so the bound on an output is the next integer. -/
theorem abs_firOutput_le {s : State} (hok : s.cfg.ok = true) {x : StreamId} {M B : Int} (hM : 0 ≤ M)
    (hx : s.boundedBy x M) {h : Kernel} (hB : 61 * (h.centre * M) ≤ 524288 * B) (n : Nat) : |firOutput s x h n| ≤ B := by
  have hsum := abs_le.mp (abs_firSum_le hok hM hx h n)
  rw [firOutput_eq_div, abs_le]
  omega

/-- A sample without its bias is at most 128 in magnitude (R51). -/
theorem abs_signedSample_le (b : Byte) : |signedSample b| ≤ 128 := by
  have := b.isLt
  rw [signedSample, abs_le]
  omega

/-- A rotation permutes the components and changes signs, so it keeps a bound on both. -/
theorem abs_rot_le {a b M : Int} (ha : |a| ≤ M) (hb : |b| ≤ M) (r : Nat) :
    |(rot r a b).1| ≤ M ∧ |(rot r a b).2| ≤ M := by
  unfold rot
  split <;> simp [ha, hb]

theorem abs_splitOne_le {a b M : Int} (ha : |a| ≤ M) (hb : |b| ≤ M) (i : Nat) :
    |(splitOne i a b).1| ≤ M ∧ |(splitOne i a b).2| ≤ M := by
  unfold splitOne splitTwo
  split
  · simpa only [abs_neg] using abs_rot_le ha hb (i % 4)
  · exact abs_rot_le ha hb (i % 4)

/-- The active elements SDEC leaves are samples. -/
theorem boundedBy_sdec {s t : State} (h : exec .sdec s = .next t) : t.boundedBy .i1 128 ∧ t.boundedBy .q1 128 := by
  obtain ⟨hsample, -, hlen, -⟩ := of_next (sdecRemovesBias s) h
  refine ⟨fun i hi => ?_, fun i hi => ?_⟩
  · rw [elem_of_getElem? (hsample i (hlen ▸ hi)).1]
    exact abs_signedSample_le _
  · rw [elem_of_getElem? (hsample i (hlen ▸ hi)).2]
    exact abs_signedSample_le _

/-- R77: `⌈61·349525·128 / 2¹⁹⌉ = 5206`. -/
theorem boundedBy_dec3 {s t : State} (hok : s.cfg.ok = true) (hI : s.boundedBy .i1 128) (hQ : s.boundedBy .q1 128)
    (h : exec .dec3 s = .next t) : t.boundedBy .i1 5206 ∧ t.boundedBy .q1 5206 := by
  obtain ⟨-, houtput, -⟩ := of_next (dec3FiltersAndDecimates s) h
  have hB : 61 * (Kernel.h3.centre * 128) ≤ 524288 * 5206 := by decide
  refine ⟨fun i hi => ?_, fun i hi => ?_⟩
  · rw [elem_of_getElem? (houtput i hi).1]
    exact abs_firOutput_le hok (by decide) hI hB _
  · rw [elem_of_getElem? (houtput i hi).2]
    exact abs_firOutput_le hok (by decide) hQ hB _

/-- SPLIT keeps a bound on both components, on both channels. -/
theorem boundedBy_split {s t : State} {M : Int} (hI : s.boundedBy .i1 M) (hQ : s.boundedBy .q1 M)
    (h : exec .splitOp s = .next t) (x : StreamId) : t.boundedBy x M := by
  obtain ⟨-, hlen1, hlen2⟩ := of_next (execSplit_spec s) h
  have hlen : t.streamLen x = s.len1 := by cases x <;> assumption
  intro i hi
  rw [hlen] at hi
  have one := abs_splitOne_le (hI i hi) (hQ i hi) i
  have two := abs_rot_le (hI i hi) (hQ i hi) (i % 4)
  rw [split_elem h x hi]
  cases x with
  | i1 => exact one.1
  | q1 => exact one.2
  | i2 => exact two.1
  | q2 => exact two.2

/-- R88: `⌈61·131072·5206 / 2¹⁹⌉ = 79392`. -/
theorem boundedBy_dec2 {s t : State} (hok : s.cfg.ok = true) (hs : ∀ x, s.boundedBy x 5206)
    (h : exec .dec2 s = .next t) (x : StreamId) {i : Nat} (hi : i < t.len1) : |t.elem x i| ≤ 79392 := by
  obtain ⟨-, -, houtput, -⟩ := of_next (dec2FiltersAndDecimates s) h
  rw [elem_of_getElem? (houtput x i hi)]
  exact abs_firOutput_le hok (by decide) (hs x) (by decide) _

end Sys2Proof.Machine

open Sys2Proof Sys2Proof.Machine

/-- Settles O14: the bound of each stage from that of the stage before, the parameters kept on the way. -/
theorem frontEndFitsItsBounds : Obligations.FrontEndFitsItsBounds := by
  intro s a b c d hok ha hb hc hd
  have hoka : a.cfg.ok = true := (exec_leaf_cfg rfl ha).symm ▸ hok
  have hokb : b.cfg.ok = true := (exec_leaf_cfg rfl hb).symm ▸ hoka
  have hokc : c.cfg.ok = true := (exec_leaf_cfg rfl hc).symm ▸ hokb
  obtain ⟨haI, haQ⟩ := boundedBy_sdec ha
  obtain ⟨hbI, hbQ⟩ := boundedBy_dec3 hoka haI haQ hb
  have hbounds := boundedBy_split hbI hbQ hc
  exact ⟨fun i hi => ⟨hbI i hi, hbQ i hi⟩, fun x i hi => boundedBy_dec2 hokc hbounds hd x hi⟩
end

section
/-! PROOFS. FMDEM, AMENV and DEMOD on a channel (O15 to O17): what a channel's pair of buffers holds after a store, and
the one store that DEMOD makes, of samples computed from the streams as they stood. -/

namespace Sys2Proof.Machine

/-! ### Storing a pair -/

theorem storePair_stream_iStream (s : State) (c : Channel) (yI yQ : List Int) (len : Nat) :
    (s.storePair c yI yQ len).stream c.iStream = overlay yI (s.stream c.iStream) := by
  cases c <;> rfl

theorem storePair_stream_qStream (s : State) (c : Channel) (yI yQ : List Int) (len : Nat) :
    (s.storePair c yI yQ len).stream c.qStream = overlay yQ (s.stream c.qStream) := by
  cases c <;> rfl

/-- A store on one channel keeps the pair of the other. -/
theorem storePair_stream_ne (s : State) {c d : Channel} (h : d ≠ c) (yI yQ : List Int) (len : Nat) :
    (s.storePair c yI yQ len).stream d.iStream = s.stream d.iStream ∧
      (s.storePair c yI yQ len).stream d.qStream = s.stream d.qStream := by
  cases c <;> cases d
  case one.one | two.two => exact absurd rfl h
  case one.two | two.one => exact ⟨rfl, rfl⟩

/-- A stage of C1 to C5 leaves every octet of `RAW` and `BUF` as it was. -/
theorem OnlyStreams.sameBytes {s t : State} (h : OnlyStreams s t) : SameBytes s t := by
  rw [h]
  exact fun _ => ⟨rfl, rfl⟩

/-! ### The samples -/

/-- The frequency samples of a channel, one fewer than its streams (R90). -/
def State.fmStream (s : State) (c : Channel) : List Int := (List.range (s.len c - 1)).map (s.fmSample c)

/-- The power samples of a channel, one fewer than its streams (R91). -/
def State.amStream (s : State) (c : Channel) : List Int := (List.range (s.len c - 1)).map (s.amSample c)

theorem fmStream_length (s : State) (c : Channel) : (s.fmStream c).length = s.len c - 1 := by
  simp [State.fmStream]

theorem amStream_length (s : State) (c : Channel) : (s.amStream c).length = s.len c - 1 := by
  simp [State.amStream]

theorem fmStream_getElem? {s : State} {c : Channel} {i : Nat} (h : i < s.len c - 1) :
    (s.fmStream c)[i]? = some (s.fmSample c i) := by
  simp [State.fmStream, h]

theorem amStream_getElem? {s : State} {c : Channel} {i : Nat} (h : i < s.len c - 1) :
    (s.amStream c)[i]? = some (s.amSample c i) := by
  simp [State.amStream, h]

theorem amSample_eq_sq_add_sq (s : State) (c : Channel) (i : Nat) :
    s.amSample c i = s.elem c.iStream (i + 1) ^ 2 + s.elem c.qStream (i + 1) ^ 2 := by
  rw [State.amSample, sq, sq]

/-- A power is a sum of two squares (R91). -/
theorem amStream_nonneg {s : State} {c : Channel} {a : Int} (h : a ∈ s.amStream c) : 0 ≤ a := by
  obtain ⟨i, -, rfl⟩ := List.mem_map.mp h
  rw [amSample_eq_sq_add_sq]
  exact add_nonneg (sq_nonneg _) (sq_nonneg _)

theorem execFmdem_eq (s : State) : execFmdem s = .next ((s.setFOut (s.fmStream s.argCh)).ret .plain) := rfl

theorem execAmenv_eq (s : State) : execAmenv s = .next ((s.setAOut (s.amStream s.argCh)).ret .plain) := rfl

/-! ### DEMOD -/

/-- The state in which FMDEM and AMENV on a channel have run and the streams still stand (log 12). -/
def State.demodulated (s : State) (c : Channel) : State :=
  (((s.setArgCh c).setFOut (s.fmStream c)).setAOut (s.amStream c)).ret .plain

theorem demodulated_stream (s : State) (c : Channel) (x : StreamId) : (s.demodulated c).stream x = s.stream x := by
  cases x <;> simp [State.demodulated, State.stream]

theorem demodChannel_eq (s : State) (c : Channel) : demodChannel s c = .next (s.demodulated c).commitDemod := by
  rw [demodChannel, execFmdem_eq, seqOp_next, execAmenv_eq, seqOp_next]
  rfl

/-- DEMOD on a channel makes one store, of samples that were all computed before it (R92, R198). -/
theorem commitDemod_demodulated (s : State) (c : Channel) :
    (s.demodulated c).commitDemod =
      (s.demodulated c).storePair c (s.fmStream c) (s.amStream c) ((s.demodulated c).len c - 1) := by
  simp [State.commitDemod, State.demodulated]

/-- DEMOD on a channel lays the samples over its pair, which then is `F` and `A`. -/
theorem demodChannel_stream {s t : State} {c : Channel} (h : demodChannel s c = .next t) :
    t.stream c.iStream = overlay (s.fmStream c) (s.stream c.iStream) ∧
      t.stream c.qStream = overlay (s.amStream c) (s.stream c.qStream) := by
  cases (demodChannel_eq s c).symm.trans h
  rw [commitDemod_demodulated, storePair_stream_iStream, storePair_stream_qStream, demodulated_stream,
    demodulated_stream]
  exact ⟨rfl, rfl⟩

/-- DEMOD on a channel keeps the pair of the other. -/
theorem demodChannel_stream_ne {s t : State} {c d : Channel} (h : demodChannel s c = .next t) (hd : d ≠ c) :
    t.stream d.iStream = s.stream d.iStream ∧ t.stream d.qStream = s.stream d.qStream := by
  cases (demodChannel_eq s c).symm.trans h
  have kept := storePair_stream_ne (s.demodulated c) hd (s.fmStream c) (s.amStream c) ((s.demodulated c).len c - 1)
  rwa [← commitDemod_demodulated, demodulated_stream, demodulated_stream] at kept

end Sys2Proof.Machine

open Sys2Proof Sys2Proof.Machine

/-- Settles O15: the output latch receives `fmStream` of the operand channel. -/
theorem fmdemProducesF : Obligations.FmdemProducesF := by
  intro s
  exact ⟨_, execFmdem_eq s, fmStream_length s _, fun _ => fmStream_getElem?, fun _ => ⟨rfl, rfl⟩, rfl⟩

/-- Settles O16: the output latch receives `amStream` of the operand channel, whose elements are sums of squares. -/
theorem amenvProducesPower : Obligations.AmenvProducesPower := by
  intro s
  refine ⟨_, execAmenv_eq s, amStream_length s _, fun i hi => ?_, fun _ => amStream_nonneg, fun _ => ⟨rfl, rfl⟩, rfl⟩
  rw [← amSample_eq_sq_add_sq]
  exact amStream_getElem? hi

/-- Settles O17: the frame and the lengths are those of `demodChannel_spec`, the elements those of the one store. -/
theorem demodReplacesStreams : Obligations.DemodReplacesStreams := by
  intro s c
  obtain ⟨t, ht, honly, -, hlen, hlen_ne⟩ := demodChannel_spec s c
  obtain ⟨hI, hQ⟩ := demodChannel_stream ht
  refine ⟨t, ht, by omega, fun i hi => ?_, fun i hi => ?_,
    fun d hd => ⟨hlen_ne d hd, demodChannel_stream_ne ht hd⟩, honly.sameBytes⟩
  · rw [hI, hQ]
    exact ⟨overlay_map_range_lt _ (hlen ▸ hi), overlay_map_range_lt _ (hlen ▸ hi)⟩
  · rw [hI, hQ]
    exact ⟨overlay_map_range_ge _ (hlen ▸ hi), overlay_map_range_ge _ (hlen ▸ hi)⟩
end

section
/-! PROOFS. The locator (O18 to O21): the burst gate with its tail test, the symbol grid, the best candidate shift of each
pass of the correlator, and SYNC. -/

namespace Sys2Proof.Machine

open Sys2Proof.Stated

/-! ### Burst gate -/

/-- The gate loop from the offset in `i` answers the least burst start of the stream, or that there is none. -/
theorem gateLoop_burstAt (s : State) :
    (∃ b, gateLoop s.aAt (s.n - s.i) s.i 0 = (100, some b) ∧ IsLeast {i | burstAt s s.i i} b) ∨
      ∃ run < 100, gateLoop s.aAt (s.n - s.i) s.i 0 = (run, none) ∧ ∀ i, ¬ burstAt s s.i i := by
  obtain ⟨hsome, hnone⟩ := gateLoop_spec s.aAt (s.n - s.i) s.i 0 (by omega) (Nat.zero_le _) nofun
  rcases hg : gateLoop s.aAt (s.n - s.i) s.i 0 with ⟨run, _ | b⟩
  · obtain ⟨hrun, hno⟩ := hnone run hg
    exact .inr ⟨run, hrun, rfl, fun i ⟨hfrom, hend, hpow⟩ => hno i hfrom (by omega) hpow⟩
  · obtain ⟨rfl, hfrom, hend, hpow, hmin⟩ := hsome run b hg
    have hend : b + 100 ≤ s.n := by omega
    exact .inl ⟨b, rfl, ⟨hfrom, hend, hpow⟩, fun i ⟨hi, _, hipow⟩ => hmin i hi hipow⟩

/-- What GATE leaves when its loop ends with the index `b` and the count `run`: the two registers, then the tail test. -/
def State.gateEnd (s : State) (b run : Nat) : State :=
  if tailTooShort s.n b then (s.setGate b run).raise .bufferExhaustion (some b) else (s.setGate b run).ret .plain

theorem execGate_eq (s : State) : execGate s =
    .next (s.gateEnd ((gateLoop s.aAt (s.n - s.i) s.i 0).2.getD s.n) (gateLoop s.aAt (s.n - s.i) s.i 0).1) := rfl

theorem gateEnd_of_short {s : State} {b : Nat} (h : s.n < b + 500) (run : Nat) :
    s.gateEnd b run = (s.setGate b run).raise .bufferExhaustion (some b) := if_pos (tailTooShort_iff.mpr h)

theorem gateEnd_of_long {s : State} {b : Nat} (h : b + 500 ≤ s.n) (run : Nat) :
    s.gateEnd b run = (s.setGate b run).ret .plain :=
  if_neg fun hshort => absurd (tailTooShort_iff.mp hshort) (not_lt.mpr h)

@[simp] theorem gateEnd_i (s : State) (b run : Nat) : (s.gateEnd b run).i = b := by
  unfold State.gateEnd
  split <;> rfl

@[simp] theorem gateEnd_run (s : State) (b run : Nat) : (s.gateEnd b run).run = run := by
  unfold State.gateEnd
  split <;> rfl

/-- The locator's `i` and `run` and what the operation returns are all that GATE writes. -/
theorem gateEnd_frame (s : State) (b run : Nat) :
    s.gateEnd b run =
      { s with i := b, run := run, res := (s.gateEnd b run).res, resume := (s.gateEnd b run).resume } := by
  unfold State.gateEnd
  split <;> rfl

theorem sameBytes_gateEnd (s : State) (b run : Nat) : SameBytes s (s.gateEnd b run) := by
  rw [gateEnd_frame]
  exact fun _ => ⟨rfl, rfl⟩

/-! ### Symbol grid -/

/-- The grid in whole numbers is the grid of R98: `q·125/24 + 1/2` over the common denominator 24. -/
theorem off_eq_floor (q : Nat) : (off q : Int) = ⌊(q : ℚ) * (125 / 24) + 1 / 2⌋ := by
  have hfrac : (q : ℚ) * (125 / 24) + 1 / 2 = ((125 * q + 12 : ℕ) : ℚ) / (24 : ℕ) := by
    push_cast
    ring
  rw [hfrac, Rat.floor_natCast_div_natCast, off]
  rfl

theorem off_succ (q : Nat) : off (q + 1) = off q + 5 ∨ off (q + 1) = off q + 6 := by
  unfold off
  omega

/-! ### Correlator -/

/-- Inside the tail guard the terms of a candidate shift are those of R99, and each of them is inside the stream (R106). -/
theorem corrTerms_term {s : State} {k : Nat} (hi : s.i + 500 ≤ s.n) (hk : k < kSpan) (bad : Int → Bool) :
    ∃ t, corrTerms s.fAt? bad (s.i + k) pat 0 0 = some t ∧ (t.ok = true ↔ ∀ j < 32, bad (term s k j) = false) ∧
      (t.ok = true → t.s = shiftScore s k) := by
  have hread : ∀ j < pat.length, s.fAt? (s.i + k + off (0 + j)) = some (s.fAt (s.i + k + off (0 + j))) := by
    intro j hj
    have hoff : off (0 + j) ≤ 161 := off_le (by simpa [patLen] using hj)
    have hin : s.i + k + off (0 + j) < s.n := by
      simp only [kSpan] at hk
      omega
    exact elem?_eq_some.mpr ⟨by rwa [streamLen_iStream], rfl⟩
  obtain ⟨t, ht, -, hok, hscore⟩ := corrTerms_spec s.fAt s.fAt? bad (s.i + k) pat 0 0 hread
  simp only [pat_length, patLen, zero_add] at hok hscore
  exact ⟨t, ht, hok, hscore⟩

/-- The registers hold the greatest positive score of an agreeing shift, and the lowest shift that has it (R100, R101). -/
def BestPlus (s : State) (r : CorrRegs) : Prop :=
  0 < r.smax ∧ r.imax < 105 ∧ agrees s r.imax ∧ r.smax = shiftScore s r.imax ∧
    ∀ k < 105, agrees s k → shiftScore s k ≤ r.smax ∧ (k < r.imax → shiftScore s k < r.smax)

/-- The registers hold the least negative score of an opposing shift, and the lowest shift that has it (R102). -/
def BestMinus (s : State) (r : CorrRegs) : Prop :=
  r.smax < 0 ∧ r.imax < 105 ∧ opposes s r.imax ∧ r.smax = shiftScore s r.imax ∧
    ∀ k < 105, opposes s k → r.smax ≤ shiftScore s k ∧ (k < r.imax → r.smax < shiftScore s k)

theorem BestPlus.found {s : State} {r : CorrRegs} (h : BestPlus s r) : foundPlus s := by
  obtain ⟨hpos, hlt, hagrees, hscore, -⟩ := h
  exact ⟨r.imax, hlt, hagrees, hscore ▸ hpos⟩

theorem BestMinus.found {s : State} {r : CorrRegs} (h : BestMinus s r) : foundMinus s := by
  obtain ⟨hneg, hlt, hopposes, hscore, -⟩ := h
  exact ⟨r.imax, hlt, hopposes, hscore ▸ hneg⟩

/-- The positive pass leaves the best agreeing shift, or nothing when no agreeing shift has a positive score. -/
theorem corrPositive_best {s : State} (hi : s.i + 500 ≤ s.n) (r : CorrRegs) :
    ∃ p, corrPositive s.fAt? s.i r = some p ∧
      (BestPlus s p ∨ (¬ foundPlus s ∧ p.smax = 0 ∧ p.imax = 0)) := by
  obtain ⟨p, hp, hcases⟩ := corrPass_spec s.fAt? (fun t => decide (t < 0)) (fun x best => decide (best < x)) s.i
    (agrees s) (shiftScore s) (List.range kSpan) { r with smax := 0, imax := 0 } List.pairwise_lt_range
    (fun k hk => by simpa [agrees] using corrTerms_term hi (List.mem_range.mp hk) fun t => decide (t < 0))
    (by grind) (by grind) (by grind)
  refine ⟨p, hp, ?_⟩
  simp only [List.mem_range, kSpan, decide_eq_true_eq, decide_eq_false_iff_not, not_lt] at hcases
  obtain ⟨hsmax, himax, hnone⟩ | hbest := hcases
  · exact .inr ⟨fun ⟨k, hk, hagrees, hpos⟩ => absurd (hnone k hk hagrees) (not_le.mpr hpos), hsmax, himax⟩
  · exact .inl hbest

/-- The negative pass after a positive pass without a result leaves the best opposing shift, or nothing. -/
theorem corrNegative_best {s : State} (hi : s.i + 500 ≤ s.n) {r : CorrRegs} (hsmax : r.smax = 0) (himax : r.imax = 0) :
    ∃ p, corrNegative s.fAt? s.i r = some p ∧
      (BestMinus s p ∨ (¬ foundMinus s ∧ p.smax = 0 ∧ p.imax = 0)) := by
  obtain ⟨p, hp, hcases⟩ := corrPass_spec s.fAt? (fun t => decide (0 < t)) (fun x best => decide (x < best)) s.i
    (opposes s) (shiftScore s) (List.range kSpan) r List.pairwise_lt_range
    (fun k hk => by simpa [opposes] using corrTerms_term hi (List.mem_range.mp hk) fun t => decide (0 < t))
    (by grind) (by grind) (by grind)
  refine ⟨p, hp, ?_⟩
  simp only [hsmax, himax, List.mem_range, kSpan, decide_eq_true_eq, decide_eq_false_iff_not, not_lt] at hcases
  obtain ⟨hsmax, himax, hnone⟩ | hbest := hcases
  · exact .inr ⟨fun ⟨k, hk, hopposes, hneg⟩ => absurd (hnone k hk hopposes) (not_le.mpr hneg), hsmax, himax⟩
  · exact .inl hbest

/-- Both passes: the positive one has priority, and the negative one runs when it left `smax = 0` (R102). -/
theorem correlate_best {s : State} (hi : s.i + 500 ≤ s.n) (r : CorrRegs) :
    ∃ p, correlate s.fAt? s.i r = some p ∧
      (BestPlus s p ∨ (¬ foundPlus s ∧ BestMinus s p) ∨
        (¬ foundPlus s ∧ ¬ foundMinus s ∧ p.smax = 0 ∧ p.imax = 0)) := by
  obtain ⟨p, hp, hbest | ⟨hplus, hsmax, himax⟩⟩ := corrPositive_best hi r
  · have hpos : 0 < p.smax := hbest.1
    refine ⟨p, ?_, .inl hbest⟩
    simp only [correlate, hp, if_neg hpos.ne']
  · obtain ⟨q, hq, hcases⟩ := corrNegative_best hi hsmax himax
    refine ⟨q, ?_, .inr (hcases.imp (⟨hplus, ·⟩) (⟨hplus, ·⟩))⟩
    simp only [correlate, hp, if_pos hsmax, hq]

/-- CORR inside the tail guard leaves the registers of `correlate_best`. -/
theorem execCorr_best {s : State} (hi : s.i + 500 ≤ s.n) :
    ∃ r, execCorr s = .next ((s.setCorr r).ret .plain) ∧
      (BestPlus s r ∨ (¬ foundPlus s ∧ BestMinus s r) ∨
        (¬ foundPlus s ∧ ¬ foundMinus s ∧ r.smax = 0 ∧ r.imax = 0)) := by
  obtain ⟨r, hr, hcases⟩ := correlate_best hi ⟨s.k, s.j, s.score, s.smax, s.imax⟩
  exact ⟨r, by simp only [execCorr, hr], hcases⟩

theorem polFlag_of_pos {old : Polarity} {x : Int} (h : 0 < x) : polFlag old x = .plus := if_pos h

theorem polFlag_of_neg {old : Polarity} {x : Int} (h : x < 0) : polFlag old x = .minus :=
  (if_neg h.not_gt).trans (if_pos h)

end Sys2Proof.Machine

open Sys2Proof Sys2Proof.Machine Sys2Proof.Stated

/-- Settles O18: the least burst start or the end of the stream by `gateLoop_burstAt`, then the tail test. -/
theorem gateFindsFirstBurst : Obligations.GateFindsFirstBurst := by
  intro s
  refine ⟨_, execGate_eq s, ?_, ?_, fun hshort => ?_, fun hlong => ?_, sameBytes_gateEnd s _ _, ?_⟩
  · intro i hburst hmin
    obtain ⟨b, hg, hleast⟩ | ⟨-, -, -, hno⟩ := gateLoop_burstAt s
    · have hb : b = i := hleast.unique ⟨hburst, hmin⟩
      simp [hg, hb]
    · exact absurd hburst (hno i)
  · intro hno
    obtain ⟨b, -, hburst, -⟩ | ⟨run, hrun, hg, -⟩ := gateLoop_burstAt s
    · exact absurd hburst (hno b)
    · simp [hg, hrun]
  · rw [gateEnd_i] at hshort
    rw [gateEnd_of_short (by omega)]
    exact ⟨rfl, rfl⟩
  · rw [gateEnd_i] at hlong
    rw [gateEnd_of_long (by omega)]
    exact ⟨rfl, rfl⟩
  · rw [gateEnd_i, gateEnd_run]
    exact gateEnd_frame s _ _

/-- Settles O19, over the common denominator 24. -/
theorem symbolGridIsExact : Obligations.SymbolGridIsExact :=
  fun q => ⟨off_eq_floor q, off_succ q⟩

/-- Settles O20: the cases of `execCorr_best` exclude each other, and the flags follow the sign of the score. -/
theorem corrFindsBestShift : Obligations.CorrFindsBestShift := by
  intro s hi
  obtain ⟨r, hr, hcases⟩ := execCorr_best hi
  refine ⟨_, hr, fun hplus => ?_, fun hplus hminus => ?_, fun hplus hminus => ?_, fun _ => ⟨rfl, rfl⟩, rfl⟩
  · obtain hbest | ⟨hno, -⟩ | ⟨hno, -⟩ := hcases
    · exact ⟨syncFlag_iff.mpr hbest.1.ne', polFlag_of_pos hbest.1, hbest⟩
    · exact absurd hplus hno
    · exact absurd hplus hno
  · obtain hbest | ⟨-, hbest⟩ | ⟨-, hno, -⟩ := hcases
    · exact absurd hbest.found hplus
    · exact ⟨syncFlag_iff.mpr hbest.1.ne, polFlag_of_neg hbest.1, hbest⟩
    · exact absurd hminus hno
  · obtain hbest | ⟨-, hbest⟩ | ⟨-, -, hsmax, himax⟩ := hcases
    · exact absurd hbest.found hplus
    · exact absurd hbest.found hminus
    · refine ⟨?_, ?_, hsmax, himax⟩ <;> simp [hsmax, syncFlag, polFlag]

/-- Settles O21, by the two answers of SYNC. -/
theorem syncSetsFirstBitCentre : Obligations.SyncSetsFirstBitCentre := by
  intro s
  obtain hs | hs := Bool.eq_false_or_eq_true s.sync
  · exact ⟨_, execSync_found hs, fun _ => rfl, fun hlost => absurd (hs.symm.trans hlost) nofun, fun _ => ⟨rfl, rfl⟩⟩
  · exact ⟨_, execSync_lost hs, fun hfound => absurd (hs.symm.trans hfound) nofun, fun _ => rfl, fun _ => ⟨rfl, rfl⟩⟩
end

section
/-! PROOFS. The progress of a decode attempt (O45): each part that can end one names its resume index. -/

namespace Sys2Proof.Machine

/-- UNPACK and EMIT end the attempt with a record and keep the resume index. -/
theorem unpackAndEmit_return {s t : State} (h : unpackAndEmit s = .next t) :
    t.res = .attempt .record ∧ t.resume = s.resume := by
  cases (unpackAndEmit_eq s).symm.trans h
  exact ⟨rfl, by simp⟩

/-- A checked frame ends at the last sample index that DEFRAME formed, whatever the outcome (R156). -/
theorem checkFrame_resume {s t : State} (hidx : s.resume = s.idx) (h : checkFrame s = .next t) :
    t.res ≠ .attempt .eob ∧ t.resume = s.idx := by
  obtain ⟨-, e⟩ | ⟨-, ⟨-, e⟩ | ⟨-, e⟩⟩ := checkFrame_cases s
  · cases e.symm.trans h
    exact ⟨nofun, rfl⟩
  · cases e.symm.trans h
    exact ⟨nofun, rfl⟩
  · obtain ⟨hres, hresume⟩ := unpackAndEmit_return (e.symm.trans h)
    refine ⟨by simp [hres], hresume.trans ?_⟩
    simpa [State.checkSet, State.lengthSet] using hidx

/-- An attempt that got past the gate resumes beyond its burst start: 1145 beyond it without synchronisation (R104),
otherwise where the deframer stopped, whose first symbol is already 167 samples beyond `p0` (R163). -/
theorem locateFrame_progress {s t : State} (hi : s.i + 500 ≤ s.n) (h : locateFrame s = .next t) :
    t.res ≠ .attempt .eob ∧ s.i + 167 ≤ t.resume := by
  obtain ⟨r, -, -, -, ⟨-, e⟩ | ⟨-, e⟩⟩ := locateFrame_cases s hi
  · cases e.symm.trans h
    exact ⟨nofun, Nat.add_le_add_left (by decide : 167 ≤ skipAhead) s.i⟩
  · obtain ⟨d, hd, hframe, -, hp0⟩ := deframe_spec
      ((((((s.enter .corr).setCorr r).ret .plain).setP0 (s.i + r.imax)).ret .plain).enter .deframe)
    have hidx : d.resume = d.idx := by rw [hframe]
    obtain ⟨hres, hresume⟩ := checkFrame_resume hidx ((e.trans (seqOp_of hd checkFrame)).symm.trans h)
    refine ⟨hres, ?_⟩
    calc s.i + 167 ≤ s.i + r.imax + 167 := by omega
      _ ≤ d.idx := by simpa using hp0
      _ = t.resume := hresume.symm

/-- The outcome EOB leaves fewer than 500 samples; every other outcome moves on by 167 samples or more. -/
theorem execAisdec_progress {s t : State} (h : execAisdec s = .next t) :
    (t.res = .attempt .eob ∧ s.n < t.resume + 500) ∨ (t.res ≠ .attempt .eob ∧ s.i + 167 ≤ t.resume) := by
  obtain ⟨b, run, -, ⟨hshort, e⟩ | ⟨hfrom, hlong, e⟩⟩ := execAisdec_cases s
  · cases e.symm.trans h
    exact .inl ⟨rfl, hshort⟩
  · obtain ⟨hres, hresume⟩ := locateFrame_progress (by simpa using hlong) (e.symm.trans h)
    exact .inr ⟨hres, (Nat.add_le_add_right hfrom 167).trans (by simpa using hresume)⟩

end Sys2Proof.Machine

open Sys2Proof Sys2Proof.Machine

/-- Settles O45, by the two ends of an attempt in `execAisdec_progress`. -/
theorem attemptMakesProgress : Obligations.AttemptMakesProgress := by
  intro s t o h ho
  obtain ⟨heob, hresume⟩ | ⟨hne, hresume⟩ := execAisdec_progress h
  · cases ho.symm.trans heob
    exact ⟨fun hne => absurd rfl hne, fun _ => by omega⟩
  · exact ⟨fun _ => hresume, fun heob => absurd (heob ▸ ho) hne⟩
end

section
/-! PROOFS. The deframer's operations (O22 to O26): what CLEAR, SLICE, NRZI, DESTUFF and PACK answer in each of their
cases. -/

namespace Sys2Proof.Machine

/-! ### CLEAR -/

theorem clearFrame_bufRead (s : State) {a : Nat} (h : a < frameBytes) : s.clearFrame.bufRead a = 0 := by
  simp [State.bufRead, clearedBuf_get?, h]

/-! ### SLICE -/

theorem execSlice_exhausted {s : State} (h : s.n ≤ s.symbolIdx) :
    execSlice s = .next ((s.setIdx s.symbolIdx).ret (.stop .exhausted)) :=
  congrArg Host.Outcome.next (if_pos h)

theorem execSlice_fade {s : State} (hin : s.symbolIdx < s.n) (h : s.aAt s.symbolIdx < gateOff) :
    execSlice s = .next ((s.setIdx s.symbolIdx).ret (.stop .fade)) :=
  congrArg Host.Outcome.next ((if_neg (not_le.mpr hin)).trans (if_pos h))

theorem execSlice_symbol {s : State} (hin : s.symbolIdx < s.n) (h : gateOff ≤ s.aAt s.symbolIdx) :
    execSlice s = .next (((s.setIdx s.symbolIdx).takeSymbol (!decide (0 < s.fAt s.symbolIdx))).ret .plain) :=
  congrArg Host.Outcome.next ((if_neg (not_le.mpr hin)).trans (if_neg (not_lt.mpr h)))

/-! ### NRZI -/

@[simp] theorem nrziBit_none (sym : Bool) : nrziBit none sym = false := rfl

theorem nrziBit_some_iff {p sym : Bool} : nrziBit (some p) sym = true ↔ sym = p :=
  beq_iff_eq.trans eq_comm

/-- Only the equality of successive symbols counts, so inverting both changes nothing (R114). -/
theorem nrziBit_not (prev : Option Bool) (sym : Bool) : nrziBit (prev.map (!·)) (!sym) = nrziBit prev sym := by
  cases prev with
  | none => rfl
  | some p => simp [nrziBit]

/-! ### DESTUFF -/

theorem execDestuff_drop {s : State} (h : s.hist = 0b11111 ∧ s.out = false) :
    execDestuff s = .next ((s.setHist 0).ret .drop) :=
  congrArg Host.Outcome.next (if_pos h)

theorem execDestuff_keep {s : State} (h : ¬ (s.hist = 0b11111 ∧ s.out = false)) :
    execDestuff s = .next ((s.setHist (histShift s.hist s.out)).ret .keep) :=
  congrArg Host.Outcome.next (if_neg h)

/-- The shifted history as a number: the five bits double, and the new bit comes in below (R116). -/
theorem histShift_toNat (hist : BitVec 5) (out : Bool) :
    (histShift hist out).toNat = (2 * hist.toNat + out.toNat) % 32 := by
  revert hist out
  decide

/-! ### PACK -/

/-- What PACK with room in the frame leaves. -/
def State.packed (s : State) : State :=
  (s.bufWrite s.wp (packBit (s.bufRead s.wp) s.bp s.out)).countBit.ret .plain

theorem execPack_eq {s : State} (h : s.wp < frameBytes) : execPack s = .next s.packed := if_pos h

theorem packed_bufRead_wp (s : State) : s.packed.bufRead s.wp = packBit (s.bufRead s.wp) s.bp s.out :=
  (State.bufRead_bufWrite s s.wp s.wp _).trans (if_pos rfl)

theorem packed_bufRead_ne {s : State} {a : Nat} (h : a ≠ s.wp) : s.packed.bufRead a = s.bufRead a :=
  (State.bufRead_bufWrite s s.wp a _).trans (if_neg h)

theorem packed_position_next_octet {s : State} (h : s.bp + 1 = 8) : s.packed.wp = s.wp + 1 ∧ s.packed.bp = 0 :=
  ⟨if_pos h, if_pos h⟩

theorem packed_position_same_octet {s : State} (h : s.bp + 1 ≠ 8) : s.packed.wp = s.wp ∧ s.packed.bp = s.bp + 1 :=
  ⟨if_neg h, if_neg h⟩

end Sys2Proof.Machine

open Sys2Proof Sys2Proof.Machine

/-- Settles O22: every octet of the cleared buffer was written as 0. -/
theorem clearEmptiesFrame : Obligations.ClearEmptiesFrame :=
  fun s => ⟨_, rfl, fun _ ha => clearFrame_bufRead s ha, fun _ => rfl, rfl⟩

/-- Settles O23, by the three answers of SLICE; their conditions exclude each other. -/
theorem sliceDecidesSymbol : Obligations.SliceDecidesSymbol := by
  intro s
  obtain hout | hin := le_or_gt s.n s.symbolIdx
  · exact ⟨_, execSlice_exhausted hout, rfl, fun _ => rfl, fun hlt => absurd hlt (not_lt.mpr hout),
      fun hlt => absurd hlt (not_lt.mpr hout), fun _ => ⟨rfl, rfl⟩⟩
  obtain hlow | hhigh := lt_or_ge (s.aAt s.symbolIdx) gateOff
  · exact ⟨_, execSlice_fade hin hlow, rfl, fun hle => absurd hin (not_lt.mpr hle), fun _ _ => rfl,
      fun _ hge => absurd hlow (not_lt.mpr hge), fun _ => ⟨rfl, rfl⟩⟩
  · refine ⟨_, execSlice_symbol hin hhigh, rfl, fun hle => absurd hin (not_lt.mpr hle),
      fun _ hlt => absurd hhigh (not_le.mpr hlt), fun _ _ => ⟨rfl, ?_⟩, fun _ => ⟨rfl, rfl⟩⟩
    simp

/-- Settles O24, by the cases of `nrziBit` and its blindness to polarity. -/
theorem nrziComparesSymbols : Obligations.NrziComparesSymbols := by
  intro s
  refine ⟨_, rfl, fun hnone => ?_, fun p hp => ?_, ⟨_, rfl, nrziBit_not s.prev s.sym⟩, fun _ => ⟨rfl, rfl⟩, rfl⟩
  · simp [hnone]
  · simpa [hp] using nrziBit_some_iff

/-- Settles O25, by the two answers of DESTUFF. -/
theorem destuffDropsStuffBit : Obligations.DestuffDropsStuffBit := by
  intro s
  by_cases hstuff : s.hist = 0b11111 ∧ s.out = false
  · exact ⟨_, execDestuff_drop hstuff, fun _ => rfl, fun hkept => absurd hstuff hkept, fun _ => ⟨rfl, rfl⟩⟩
  · exact ⟨_, execDestuff_keep hstuff, fun hdropped => absurd hdropped hstuff,
      fun _ => ⟨rfl, histShift_toNat s.hist s.out⟩, fun _ => ⟨rfl, rfl⟩⟩

/-- Settles O26, by what `packed` holds at the write pointer and beside it. -/
theorem packStoresBit : Obligations.PackStoresBit := by
  intro s hroom
  refine ⟨s.packed, execPack_eq hroom, fun p hp => ?_, fun _ => packed_bufRead_ne, fun _ => rfl,
    packed_position_next_octet, packed_position_same_octet, rfl⟩
  rw [packed_bufRead_wp, packBit_getLsbD _ _ _ _ hp]
end

section
/-! PROOFS. CRC16 is the bit-serial CRC of R128 read in reverse bit order (O30), and every one of its steps is injective,
so that one changed octet changes the result (O32). -/

namespace Sys2Proof.Machine

open Stated

/-! ### One data bit -/

/-- The register of R127 with one data bit compared against its bit 0: the mirror image of `serialBit`. -/
def crcBit (c : Word16) (d : Bool) : Word16 :=
  if c.getLsbD 0 != d then (c >>> 1) ^^^ crcPolyReversed else c >>> 1

theorem getLsbD_crcBit (c : Word16) (d : Bool) (t : Nat) :
    (crcBit c d).getLsbD t = (c.getLsbD (t + 1) ^^ ((c.getLsbD 0 ^^ d) && crcPolyReversed.getLsbD t)) := by
  unfold crcBit
  cases h : c.getLsbD 0 <;> cases d <;> simp [Nat.add_comm 1 t]

theorem crcShift_eq_crcBit (c : Word16) : crcShift c = crcBit c false := by
  have hbit : c &&& 1#16 = 1#16 ↔ c.getLsbD 0 = true := by
    rw [BitVec.and_one_eq_setWidth_ofBool_getLsbD]
    cases c.getLsbD 0 <;> decide
  exact if_congr (hbit.trans (by simp)) rfl rfl

/-- Of a word that enters the register only bit 0 is compared in the next step; the others shift down beside it. -/
theorem crcShift_xor (c w : Word16) : crcShift (c ^^^ w) = crcBit c (w.getLsbD 0) ^^^ (w >>> 1) := by
  rw [crcShift_eq_crcBit]
  refine BitVec.eq_of_getLsbD_eq fun t _ => ?_
  simp only [BitVec.getLsbD_xor, BitVec.getLsbD_ushiftRight, getLsbD_crcBit, Bool.xor_false, Nat.add_comm 1 t]
  exact Bool.xor_right_comm _ _ _

theorem reverse_xor {w : Nat} (a b : BitVec w) : (a ^^^ b).reverse = a.reverse ^^^ b.reverse := by
  refine BitVec.eq_of_getLsbD_eq fun t _ => ?_
  simp only [BitVec.getLsbD_reverse, BitVec.getMsbD_xor, BitVec.getLsbD_xor]

theorem reverse_shiftLeft_one (r : Word16) : (r <<< 1).reverse = r.reverse >>> 1 := by
  refine BitVec.eq_of_getLsbD_eq fun t _ => ?_
  simp only [BitVec.getLsbD_reverse, BitVec.getMsbD_shiftLeft, BitVec.getLsbD_ushiftRight, Nat.add_comm 1 t]

/-- The two registers are mirror images, their polynomials too (R127, R128). -/
theorem reverse_serialBit (r : Word16) (d : Bool) : (serialBit r d).reverse = crcBit r.reverse d := by
  have htop : r.reverse.getLsbD 0 = r.getLsbD 15 := BitVec.getLsbD_reverse
  have hpoly : (0x1021 : Word16).reverse = crcPolyReversed := by decide
  rw [serialBit, crcBit, htop, apply_ite BitVec.reverse, reverse_xor, reverse_shiftLeft_one, hpoly]

/-! ### One octet, and an octet sequence -/

theorem crcShifts_succ (n : Nat) (c : Word16) : crcShifts (n + 1) c = crcShift (crcShifts n c) := by
  induction n generalizing c with
  | zero => rfl
  | succ n ih => exact ih (crcShift c)

/-- `n` shift steps after a word has entered compare its lowest `n` bits one by one; the rest has moved down. -/
theorem crcShifts_xor (n : Nat) (c w : Word16) :
    crcShifts n (c ^^^ w) = (List.range n).foldl (fun c t => crcBit c (w.getLsbD t)) c ^^^ (w >>> n) := by
  induction n with
  | zero => simp [crcShifts]
  | succ n ih =>
    rw [crcShifts_succ, ih, crcShift_xor, List.range_succ, List.foldl_append, BitVec.shiftRight_add]
    simp

theorem crcOctet_eq_foldl (c : Word16) (d : Byte) :
    crcOctet c d = (List.range 8).foldl (fun c t => crcBit c (d.getLsbD t)) c := by
  have hbits : ∀ t, (d.setWidth 16).getLsbD t = d.getLsbD t := by
    intro t
    simp only [BitVec.getLsbD_setWidth, Bool.and_eq_right_iff_imp, decide_eq_true_eq]
    exact fun h => (BitVec.lt_of_getLsbD h).trans (by decide)
  have hrest : d.setWidth 16 >>> 8 = 0#16 := by
    refine BitVec.eq_of_getLsbD_eq fun t _ => ?_
    simp [BitVec.getLsbD_ushiftRight, hbits]
  simp only [crcOctet, crcShifts_xor, hbits, hrest, BitVec.xor_zero]

theorem reverse_serialOctet (r : Word16) (d : Byte) : (serialOctet r d).reverse = crcOctet r.reverse d := by
  rw [crcOctet_eq_foldl, serialOctet]
  exact (List.foldl_hom BitVec.reverse fun r t => (reverse_serialBit r (d.getLsbD t)).symm).symm

/-- CRC16 is the standard CRC (R128): its register runs as the mirror image of the bit-serial one from the start. -/
theorem crc16Of_eq_serialCrc (d : List Byte) : crc16Of d = serialCrc d := by
  have hinit : (0xFFFF : Word16).reverse = crcInit := by decide
  have hxor : (0xFFFF : Word16).reverse = crcXorOut := by decide
  rw [serialCrc, reverse_xor, hxor, crc16Of, ← hinit,
    List.foldl_hom BitVec.reverse fun r b => (reverse_serialOctet r b).symm]

/-! ### Injectivity -/

/-- The polynomial has bit 15, so that bit tells the bit that was shifted out. -/
theorem crcShift_injective : Function.Injective crcShift := by
  intro a b h
  have hbit : ∀ t, (crcShift a).getLsbD t = (crcShift b).getLsbD t := fun t => by rw [h]
  simp only [crcShift_eq_crcBit, getLsbD_crcBit, Bool.xor_false] at hbit
  have hlow : a.getLsbD 0 = b.getLsbD 0 := by simpa [crcPolyReversed] using hbit 15
  refine BitVec.eq_of_getLsbD_eq fun t _ => ?_
  cases t with
  | zero => exact hlow
  | succ t => simpa only [hlow, Bool.xor_left_inj] using hbit t

theorem crcShifts_injective (n : Nat) : Function.Injective (crcShifts n) := by
  induction n with
  | zero => exact fun _ _ h => h
  | succ n ih => exact ih.comp crcShift_injective

theorem crcOctet_left_injective (d : Byte) : Function.Injective fun c => crcOctet c d :=
  fun _ _ h => (BitVec.xor_left_inj _).mp (crcShifts_injective 8 h)

theorem crcOctet_right_injective (c : Word16) : Function.Injective (crcOctet c) := by
  intro a b h
  have hwide : a.setWidth 16 = b.setWidth 16 := (BitVec.xor_right_inj c).mp (crcShifts_injective 8 h)
  simpa using congrArg (BitVec.setWidth 8) hwide

/-- Two registers that differ still differ after the same octets. -/
theorem foldl_crcOctet_injective (d : List Byte) : Function.Injective fun c => d.foldl crcOctet c := by
  induction d with
  | nil => exact fun _ _ h => h
  | cons x xs ih => exact ih.comp (crcOctet_left_injective x)

/-! ### CRC16 -/

theorem execCrc16_eq (s : State) : execCrc16 s = .next ((s.setCrc (serialCrc s.crcD)).ret .plain) := by
  rw [execCrc16, crc16Of_eq_serialCrc]

end Sys2Proof.Machine

open Sys2Proof Sys2Proof.Machine

/-- Settles O30: the register of CRC16 is the mirror image of the bit-serial one (`crc16Of_eq_serialCrc`). -/
theorem crc16IsBitSerialCrc : Obligations.Crc16IsBitSerialCrc :=
  fun s => ⟨_, execCrc16_eq s, rfl, fun _ => ⟨rfl, rfl⟩, rfl⟩

/-- Settles O32: the registers differ after the changed octet, and the octets behind it keep them apart. -/
theorem oneChangedOctetFails : Obligations.OneChangedOctetFails := by
  intro front back a b hne h
  have hfold := (BitVec.xor_left_inj _).mp h
  simp only [List.foldl_append, List.foldl_cons] at hfold
  exact hne (crcOctet_right_injective _ (foldl_crcOctet_injective back hfold))
end

section
/-! PROOFS. LENSEL, CRCCHK and the record of an attempt (O29, O31, O44): what the check of a frame leaves in the registers,
carried to the end of an attempt that emits a record. -/

namespace Sys2Proof.Machine

open Stated

/-! ### LENSEL and CRCCHK -/

theorem lengthSet_mid (s : State) : s.lengthSet.mid.toNat = (s.bufRead 4).toNat / 4 :=
  messageId_toNat (s.bufRead hdr)

theorem lengthSet_short_iff (s : State) :
    s.lengthSet.short = true ↔ s.nbits < 8 * (s.lengthSet.blen.octets + 2) := shortFlag_iff

theorem checkSet_crc (s : State) : s.checkSet.crc = serialCrc (body s) := crc16Of_eq_serialCrc _

theorem checkSet_crcOk_iff (s : State) : s.checkSet.crcOk = true ↔ s.checkSet.crc = s.checkSet.fcs := crcOkFlag_iff

/-! ### A checked frame -/

/-- What the tests of R126 and R130 say of the frame in `BUF` and the registers. -/
def VerifiedFrame (s : State) : Prop :=
  8 * (s.blen.octets + 2) ≤ s.nbits ∧ s.crc = s.fcs ∧ s.crc = serialCrc (body s) ∧
  s.fcs.toNat = (s.bufRead (4 + s.blen.octets)).toNat + 256 * (s.bufRead (5 + s.blen.octets)).toNat ∧
  s.mid.toNat = (s.bufRead 4).toNat / 4

/-- Both states hold the same frame and the same results of its check. -/
def SameFrame (s t : State) : Prop :=
  t.nbits = s.nbits ∧ t.blen = s.blen ∧ t.crc = s.crc ∧ t.fcs = s.fcs ∧ t.mid = s.mid ∧ ∀ a, t.bufRead a = s.bufRead a

theorem VerifiedFrame.of_sameFrame {s t : State} (hs : VerifiedFrame s) (h : SameFrame s t) : VerifiedFrame t := by
  obtain ⟨hnbits, hblen, hcrc, hfcs, hmid, hbuf⟩ := h
  unfold VerifiedFrame body State.bufOctets
  simp only [hnbits, hblen, hcrc, hfcs, hmid, hbuf]
  exact hs

theorem recordFor_of_sameFrame {s t : State} (h : SameFrame s t) : recordFor t t.mid.toNat = recordFor s s.mid.toNat := by
  obtain ⟨-, -, -, -, hmid, hbuf⟩ := h
  have hfield : field t = field s := by
    funext o w
    simp only [field, bitAt, hbuf]
  unfold recordFor textField signedField
  rw [hfield, hmid]

/-- LENSEL, then CRCCHK, with both tests passed. -/
theorem verifiedFrame_checkSet {s : State} (hlong : s.lengthSet.short = false)
    (hok : (s.lengthSet.ret .plain).checkSet.crcOk = true) : VerifiedFrame (s.lengthSet.ret .plain).checkSet := by
  have hbits : ¬ s.nbits < 8 * (s.lengthSet.blen.octets + 2) := fun h => by simp [(lengthSet_short_iff s).mpr h] at hlong
  exact ⟨not_lt.mp hbits, (checkSet_crcOk_iff _).mp hok, checkSet_crc _, receivedFcs_toNat _, lengthSet_mid s⟩

/-! ### The record of an attempt -/

/-- UNPACK and EMIT build the record that the message ID selects from `BUF` (R139), and leave the frame alone. -/
theorem unpackAndEmit_record {s t : State} (h : unpackAndEmit s = .next t) :
    SameFrame s t ∧ t.record = recordFor t t.mid.toNat := by
  obtain ⟨hsame, hrecord⟩ : SameFrame s t ∧ t.record = (s.enter .unpack).recordByMid := by
    cases (unpackAndEmit_eq s).symm.trans h
    simp [SameFrame]
  refine ⟨hsame, ?_⟩
  calc t.record = (s.enter .unpack).recordByMid := hrecord
    _ = recordFor (s.enter .unpack) s.mid.toNat := recordByMid_eq_recordFor _
    _ = recordFor s s.mid.toNat := recordFor_of_sameFrame (by simp [SameFrame])
    _ = recordFor t t.mid.toNat := (recordFor_of_sameFrame hsame).symm

/-- A checked frame gives a record only when it passed both tests (R131). -/
theorem checkFrame_record {s t : State} (h : checkFrame s = .next t) (hres : t.res = .attempt .record) :
    VerifiedFrame t ∧ t.record = recordFor t t.mid.toNat := by
  obtain ⟨-, e⟩ | ⟨hlong, ⟨-, e⟩ | ⟨hok, e⟩⟩ := checkFrame_cases s
  · cases e.symm.trans h
    cases hres
  · cases e.symm.trans h
    cases hres
  · obtain ⟨hsame, hrecord⟩ := unpackAndEmit_record (e.symm.trans h)
    exact ⟨(verifiedFrame_checkSet hlong hok).of_sameFrame hsame, hrecord⟩

/-- A record comes from the check of what DEFRAME left. -/
theorem execAisdec_record {s t : State} (h : execAisdec s = .next t) (hres : t.res = .attempt .record) :
    ∃ d, checkFrame d = .next t := by
  obtain ⟨b, run, -, ⟨-, e⟩ | ⟨-, hlong, e⟩⟩ := execAisdec_cases s
  · cases e.symm.trans h
    cases hres
  obtain ⟨r, -, -, -, ⟨-, e'⟩ | ⟨-, e'⟩⟩ := locateFrame_cases (((s.enter .gate).setGate b run).ret .plain) hlong
  · cases e'.symm.trans (e.symm.trans h)
    cases hres
  · obtain ⟨d, -, hd⟩ := seqOp_eq_next.mp (e'.symm.trans (e.symm.trans h))
    exact ⟨d, hd⟩

end Sys2Proof.Machine

open Sys2Proof Sys2Proof.Machine

/-- Settles O29, by the two answers of LENSEL. -/
theorem lenselSelectsLength : Obligations.LenselSelectsLength := by
  intro s
  have hshort := lengthSet_short_iff s
  cases h : s.lengthSet.short with
  | true => exact ⟨_, execLensel_short h, lengthSet_mid s, fun h5 => if_pos h5, fun h5 => if_neg h5, hshort,
      fun _ => ⟨rfl, rfl⟩, fun hlong => absurd (h.symm.trans hlong) nofun, fun _ => ⟨rfl, rfl⟩, rfl⟩
  | false => exact ⟨_, execLensel_long h, lengthSet_mid s, fun h5 => if_pos h5, fun h5 => if_neg h5, hshort,
      fun hs => absurd (h.symm.trans hs) nofun, fun _ => ⟨rfl, rfl⟩, fun _ => ⟨rfl, rfl⟩, rfl⟩

/-- Settles O31, by the two answers of CRCCHK. -/
theorem crcchkComparesFcs : Obligations.CrcchkComparesFcs := by
  intro s
  have hcrc := checkSet_crc s
  have hfcs := receivedFcs_toNat s
  have hok := checkSet_crcOk_iff s
  cases h : s.checkSet.crcOk with
  | true => exact ⟨_, execCrcchk_ok h, hcrc, hfcs, hok, fun _ => ⟨rfl, rfl⟩,
      fun hbad => absurd (h.symm.trans hbad) nofun, fun _ => ⟨rfl, rfl⟩, rfl⟩
  | false => exact ⟨_, execCrcchk_bad h, hcrc, hfcs, hok, fun hgood => absurd (h.symm.trans hgood) nofun,
      fun _ => ⟨rfl, rfl⟩, fun _ => ⟨rfl, rfl⟩, rfl⟩

/-- Settles O44: the check that let the frame through is still what the registers and `BUF` say at the end. -/
theorem recordMeansValidFrame : Obligations.RecordMeansValidFrame := by
  intro s t h hres
  obtain ⟨d, hd⟩ := execAisdec_record h hres
  obtain ⟨⟨hbits, hequal, hcrc, hfcs, hmid⟩, hrecord⟩ := checkFrame_record hd hres
  exact ⟨hbits, hequal, hcrc, hfcs, hmid, hrecord⟩
end

section
/-! PROOFS. What a step of a sequenced machine appends to the sink (O59). -/

namespace Sys2Proof

theorem encode_of_decode_map {f : Format} {octet : Byte} {i : Instr} (h : (decode f octet).map some = .ok (some i)) :
    encode i = (f, octet) := by
  cases hd : decode f octet with
  | error e => rw [hd] at h; cases h
  | ok j =>
    rw [hd] at h
    cases h
    exact (decode_eq_ok_iff_encode.mp hd).2

/-- The latch holds the encoding of the operation it selects, or is on the body octet and selects a message class. -/
theorem fetch_of_selected {s : Machine.State} {i : Instr} (h : s.selected = .ok (some i)) :
    s.fetch = Machine.fetchOf i ∨ (s.fetch = .body ∧ (encode i).1 = .msgId) := by
  unfold Machine.State.selected at h
  split at h
  · cases h
  · next w hf => exact .inl (by rw [hf, Machine.fetchOf, encode_of_decode_map h])
  · next hf => exact .inr ⟨hf, congrArg Prod.fst (encode_of_decode_map h)⟩

namespace Machine

/-- Outside IDLE the sequencer issues no composite operation (R167). -/
theorem fetchOf_composite_notMem_phaseOps {i : Instr} (hi : i.isLeaf = false) {p : Phase} (hp : p ≠ .idle) :
    fetchOf i ∉ phaseOps p := by
  have hnone : ∀ f ∈ phaseOps p,
      f ≠ fetchOf .runOp ∧ f ≠ fetchOf .sweepOp ∧ f ≠ fetchOf .scanOp ∧ f ≠ fetchOf .aisdec := by
    cases p with
    | idle => exact absurd rfl hp
    | scan c sub => cases sub <;> simp only [phaseOps] <;> decide
    | _ => decide
  intro hmem
  obtain ⟨hrun, hsweep, hscan, haisdec⟩ := hnone _ hmem
  cases i with
  | runOp => exact hrun rfl
  | sweepOp => exact hsweep rfl
  | scanOp => exact hscan rfl
  | aisdec => exact haisdec rfl
  | _ => cases hi

theorem isLeaf_of_msgId {i : Instr} (hi : (encode i).1 = .msgId) : i.isLeaf = true := by
  cases i with
  | runOp | sweepOp | scanOp | aisdec => cases hi
  | _ => rfl

/-- No transition of R167 writes the sink. -/
theorem advance_sink (i : Instr) (s : State) : (advance i s).sink = s.sink := by
  by_cases hi : i = .amenv
  · subst hi
    have hcommit : s.commitDemod.sink = s.sink := (onlyStreams_commitDemod s).sink
    simp only [advance]
    split
    · exact hcommit
    · exact (onlySequencer_toScanOne _).sink.trans hcommit
  · exact (onlySequencer_advance hi s).sink

/-- The operation a sequenced machine issues outside IDLE is no composite one. -/
theorem isLeaf_of_sequenced {s : State} {i : Instr} (hs : s.sequenced) (hp : s.phase ≠ .idle)
    (hsel : s.selected = .ok (some i)) : i.isLeaf = true := by
  obtain ⟨-, hfetch, -⟩ := hs
  obtain hf | ⟨-, hformat⟩ := fetch_of_selected hsel
  · by_contra hi
    exact fetchOf_composite_notMem_phaseOps (Bool.eq_false_iff.mpr hi) hp (hf ▸ hfetch)
  · exact isLeaf_of_msgId hformat

/-- A step of a sequenced machine outside IDLE that changes the sink is EMIT. -/
theorem emitOp_of_sink_ne {s t : State} (hs : s.sequenced) (hp : s.phase ≠ .idle) (h : step s = .next t)
    (hsink : t.sink ≠ s.sink) :
    s.fetch = fetchOf .emitOp ∧ t = advance .emitOp ((s.appendSink (.item s.record)).ret .plain) := by
  obtain ⟨-, rfl⟩ | ⟨i, u, hsel, hu, rfl⟩ := step_eq_next.mp h
  · exact absurd rfl hsink
  have hi : i = .emitOp := by
    by_contra hne
    exact hsink ((advance_sink i u).trans (exec_leaf_sink (isLeaf_of_sequenced hs hp hsel) hne hu))
  subst hi
  obtain hf | ⟨-, hformat⟩ := fetch_of_selected hsel
  · cases hu
    exact ⟨hf, rfl⟩
  · cases hformat

end Machine

end Sys2Proof

open Sys2Proof Sys2Proof.Machine

/-- Settles O59: the step is EMIT, and the tests passed before it are what `State.sequenced` says of its latch. -/
theorem sequencedRecordsAreValid : Obligations.SequencedRecordsAreValid := by
  intro s t hs hp h hsink
  obtain ⟨hf, rfl⟩ := emitOp_of_sink_ne hs hp h hsink
  obtain ⟨-, -, -, -, -, -, hvalid⟩ := hs
  exact ⟨hf, advance_sink _ _, hvalid (.inr hf)⟩
end

section
/-! PROOFS. GETBITS, the four unpackers and EMIT (O33 to O38, O41): the fields in the terms of the statements, their
ranges, and a field as shifted and masked octets of `BUF`. -/

namespace Sys2Proof.Machine

/-! ### The fields -/

theorem bits_succ (s : State) (o w : Nat) : s.bits o (w + 1) = 2 * s.bits o w + s.msgBit (o + w) := by
  simp only [State.bits, List.range_succ, List.foldl_append, List.foldl_cons, List.foldl_nil]

/-- A field is its first `w` bits followed by the `v` bits after them. -/
theorem bits_add (s : State) (o w v : Nat) : s.bits o (w + v) = s.bits o w <<< v ||| s.bits (o + w) v := by
  rw [← Nat.shiftLeft_add_eq_or_of_lt (bits_lt s (o + w) v), Nat.shiftLeft_eq]
  induction v with
  | zero => simp [State.bits]
  | succ v ih =>
    rw [← Nat.add_assoc, bits_succ, ih, bits_succ, Nat.add_assoc o w v]
    ring

/-- A field inside one octet: `w` bits from bit `r`, counted from the most significant (R40). -/
theorem bits_of_octet (s : State) (q r w : Nat) (h : r + w ≤ 8) :
    s.bits (8 * q + r) w = (s.bufRead (4 + q)).toNat / 2 ^ (8 - r - w) % 2 ^ w := by
  induction w with
  | zero => simp [State.bits, Nat.mod_one]
  | succ w ih =>
    have hbit : s.msgBit (8 * q + r + w) = (s.bufRead (4 + q)).toNat / 2 ^ (8 - r - (w + 1)) % 2 := by
      rw [State.msgBit, Nat.shiftRight_eq_div_pow, show (8 * q + r + w) / 8 = q by omega,
        show 7 - (8 * q + r + w) % 8 = 8 - r - (w + 1) by omega]
      rfl
    rw [bits_succ, ih (by omega), hbit, show 8 - r - w = 8 - r - (w + 1) + 1 by omega, pow_succ, pow_succ',
      ← Nat.div_div_eq_div_mul, Nat.mod_mul, Nat.add_comm]

/-- The bits of an octet from bit `r` to its end are the octet masked. -/
theorem bits_of_octet_low (s : State) (q r : Nat) (h : r ≤ 8) :
    s.bits (8 * q + r) (8 - r) = (s.bufRead (4 + q)).toNat &&& (2 ^ (8 - r) - 1) := by
  rw [bits_of_octet s q r (8 - r) (by omega), Nat.sub_self, pow_zero, Nat.div_one, Nat.and_two_pow_sub_one_eq_mod]

/-- The first `w` bits of an octet are the octet shifted. -/
theorem bits_of_octet_high (s : State) (q w : Nat) (h : w ≤ 8) :
    s.bits (8 * q) w = (s.bufRead (4 + q)).toNat >>> (8 - w) := by
  have hlt : (s.bufRead (4 + q)).toNat / 2 ^ (8 - w) < 2 ^ w := by
    rw [Nat.div_lt_iff_lt_mul (Nat.two_pow_pos _), ← pow_add, Nat.add_sub_cancel' h]
    exact (s.bufRead (4 + q)).isLt
  rw [Nat.shiftRight_eq_div_pow, ← Nat.mod_eq_of_lt hlt]
  exact bits_of_octet s q 0 w (by omega)

theorem signedBits_range (s : State) (o : Nat) {w : Nat} (hw : 0 < w) :
    -2 ^ (w - 1) ≤ s.signedBits o w ∧ s.signedBits o w < 2 ^ (w - 1) :=
  sext_range hw (bits_lt s o w)

/-! ### The operations -/

/-- GETBITS answers the field when its last bit is inside the frame (R135). -/
theorem execGetbits_inside {s : State} (h : s.gbO + s.gbW ≤ 8 * 252) :
    execGetbits s = .next ((s.setGbV (s.bits s.gbO s.gbW)).ret .plain) := by
  refine if_pos ?_
  simp only [hdr, frameBytes]
  omega

theorem baseRecord_eq (s : State) : s.baseRecord =
    .base 4 (Stated.field s 8 30) (Stated.field s 38 14) (Stated.field s 52 4) (Stated.field s 56 5)
      (Stated.field s 61 5) (Stated.field s 66 6) (Stated.field s 72 6) (Stated.signedField s 79 28)
      (Stated.signedField s 107 27) := by
  simp only [State.baseRecord, bits_eq_field, signedBits_eq_signedField]

/-- The year runs over three octets: the last two bits of the first, the second, the first four bits of the third. -/
theorem year_eq_octets (s : State) : s.bits 38 14 =
    (((s.bufRead 8).toNat &&& 0x03) <<< 12) ||| ((s.bufRead 9).toNat <<< 4) ||| ((s.bufRead 10).toNat >>> 4) := by
  calc s.bits 38 14
    _ = s.bits 38 2 <<< 12 ||| s.bits 40 12 := bits_add s 38 2 12
    _ = s.bits 38 2 <<< 12 ||| (s.bits 40 8 <<< 4 ||| s.bits 48 4) := by rw [bits_add s 40 8 4]
    _ = _ := by
      rw [bits_of_octet_low s 4 6 (by decide), bits_of_octet_high s 5 8 (by decide),
        bits_of_octet_high s 6 4 (by decide), Nat.or_assoc]
      rfl

/-- The hour is the last three bits of one octet and the first two of the next. -/
theorem hour_eq_octets (s : State) : s.bits 61 5 =
    (((s.bufRead 11).toNat &&& 0x07) <<< 2) ||| ((s.bufRead 12).toNat >>> 6) := by
  rw [bits_add s 61 3 2, bits_of_octet_low s 7 5 (by decide), bits_of_octet_high s 8 2 (by decide)]
  rfl

end Sys2Proof.Machine

open Sys2Proof Sys2Proof.Machine

/-- Settles O33: the accumulated value is the sum of R64 (`bits_eq_field`). -/
theorem getbitsReadsField : Obligations.GetbitsReadsField := fun s _ hinside =>
  ⟨_, execGetbits_inside hinside, bits_eq_field s s.gbO s.gbW, bits_lt s s.gbO s.gbW, fun _ => ⟨rfl, rfl⟩, rfl⟩

/-- Settles O34, field by field, with the range of each. -/
theorem unpackPosBuildsRecord : Obligations.UnpackPosBuildsRecord := by
  intro s
  obtain ⟨hlonMin, hlonMax⟩ := signedBits_range s 61 (w := 28) (by decide)
  obtain ⟨hlatMin, hlatMax⟩ := signedBits_range s 89 (w := 27) (by decide)
  exact ⟨_, _, _, _, _, _, rfl, rfl, bits_eq_field s 8 30, bits_eq_field s 50 10, signedBits_eq_signedField s 61 28,
    signedBits_eq_signedField s 89 27, bits_eq_field s 116 12, bits_lt s 8 30, bits_lt s 50 10, hlonMin, hlonMax,
    hlatMin, hlatMax, bits_lt s 116 12, fun _ => ⟨rfl, rfl⟩, rfl⟩

/-- Settles O35, by the record in the terms of the statement. -/
theorem unpackBaseBuildsRecord : Obligations.UnpackBaseBuildsRecord :=
  fun s => ⟨_, rfl, baseRecord_eq s, fun _ => ⟨rfl, rfl⟩, rfl⟩

/-- Settles O36: each field is cut at the octet boundaries it crosses. -/
theorem baseDateByteView : Obligations.BaseDateByteView := by
  intro s t id mmsi year month day hour minute second lon lat h hrecord
  cases h
  cases hrecord
  exact ⟨year_eq_octets s, bits_of_octet_low s 6 4 (by decide), bits_of_octet_high s 7 5 (by decide),
    hour_eq_octets s, bits_of_octet_low s 8 2 (by decide), bits_of_octet_high s 9 6 (by decide)⟩

/-- Settles O37: none of the texts is trimmed, and each of their characters is in the range of R138. -/
theorem unpackStaticBuildsRecord : Obligations.UnpackStaticBuildsRecord := by
  intro s
  refine ⟨_, s.text 70 7, s.text 112 20, s.text 302 20, rfl, ?_, text_eq_textField s 70 7, text_eq_textField s 112 20,
    text_eq_textField s 302 20, text_length s 70 7, text_length s 112 20, text_length s 302 20, fun c hc => ?_,
    fun _ => ⟨rfl, rfl⟩, rfl⟩
  · rw [← bits_eq_field]
    rfl
  · obtain (hcallsign | hname) | hdest := by simpa only [List.mem_append] using hc
    · exact text_range s 70 7 c hcallsign
    · exact text_range s 112 20 c hname
    · exact text_range s 302 20 c hdest

/-- Settles O38: the report goes to the result alone. -/
theorem unpackUnknownBuildsRecord : Obligations.UnpackUnknownBuildsRecord :=
  fun s => ⟨_, rfl, congrArg (Record.unknown s.mid.toNat) (bits_eq_field s 8 30), fun _ => ⟨rfl, rfl⟩, rfl⟩

/-- Settles O41: EMIT has one answer. -/
theorem emitAppendsRecord : Obligations.EmitAppendsRecord :=
  fun s => ⟨(s.appendSink (.item s.record)).ret .plain, rfl, fun _ => ⟨rfl, rfl⟩, rfl⟩
end

section
/-! PROOFS. A step and its operation (O5, O6), and READ (O42). -/

namespace Sys2Proof.Machine

/-! ### The selected operation -/

theorem selected_of_tag {s : State} {w : Byte} {i : Instr} (hf : s.fetch = .tag w) (hi : decode .op w = .ok i) :
    s.selected = .ok (some i) := by
  simp [State.selected, hf, hi, Except.map]

theorem selected_of_body {s : State} {i : Instr} (hf : s.fetch = .body) (hi : decode .msgId (s.bufRead hdr) = .ok i) :
    s.selected = .ok (some i) := by
  simp [State.selected, hf, hi, Except.map]

/-- A step performs the selected operation and then makes its transition (R167). -/
theorem step_of_selected {s : State} {i : Instr} (h : s.selected = .ok (some i)) :
    step s = seqOp (exec i s) fun t => .next (advance i t) := by
  simp only [step, h]

theorem step_of_halt {s : State} (h : s.fetch = .halt) : step s = .next s := by
  have hsel : s.selected = .ok none := by rw [State.selected, h]
  simp only [step, hsel]

/-! ### READ -/

theorem execRead_block {s : State} (h : 2 * s.cfg.n ≤ s.src.length) :
    execRead s = .next ((s.setPhase .read).takeBlock.ret .block) :=
  congrArg Host.Outcome.next (if_pos h)

theorem execRead_closed {s : State} (h : s.src.length < 2 * s.cfg.n) (hc : s.srcClosed = true) :
    execRead s = .next ((s.setPhase .read).dropPartial.raise .sourceClosed none) :=
  congrArg Host.Outcome.next ((if_neg (not_le.mpr h)).trans (if_pos hc))

theorem execRead_waiting {s : State} (h : s.src.length < 2 * s.cfg.n) (hc : s.srcClosed = false) :
    execRead s = .next ((s.setPhase .read).ret .waiting) :=
  congrArg Host.Outcome.next ((if_neg (not_le.mpr h)).trans (if_neg (by simp [hc])))

/-- Octets stored from index 0 are what `RAW` reads there. -/
theorem rawRead_of_ofBytes {s : State} {bs : List Byte} (h : s.raw = Memory.ofBytes 0 bs) {a : Nat}
    (ha : a < bs.length) : some (s.rawRead a) = bs[a]? := by
  simp [State.rawRead, h, Memory.get?_ofBytes, ha]

end Sys2Proof.Machine

open Sys2Proof Sys2Proof.Machine

/-- Settles O5: the latch selects the instruction, and what `exec` answers for it decides the step. -/
theorem stepRunsDecodedInstruction : Obligations.StepRunsDecodedInstruction := by
  intro s i hfetch
  have hsel : s.selected = .ok (some i) := by
    obtain ⟨w, hf, hi⟩ | ⟨hf, hi⟩ := hfetch
    · exact selected_of_tag hf hi
    · exact selected_of_body hf hi
  rw [step_of_selected hsel]
  exact ⟨fun t h => by rw [h]; rfl, fun r h => by rw [h]; rfl, fun r h => by rw [h]; rfl⟩

/-- Settles O6: the only latch of R167 in `DONE` selects nothing. -/
theorem doneIsFinal : Obligations.DoneIsFinal := by
  rintro s ⟨-, hfetch, -⟩ hphase
  rw [hphase] at hfetch
  exact step_of_halt (List.mem_singleton.mp hfetch)

/-- Settles O42, by the three answers of READ; their conditions exclude each other. -/
theorem readTakesWholeBlocks : Obligations.ReadTakesWholeBlocks := by
  intro s
  obtain hblock | hless := le_or_gt (2 * s.cfg.n) s.src.length
  · refine ⟨_, execRead_block hblock, rfl, fun _ => ⟨rfl, rfl, fun a ha => ?_, rfl⟩,
      fun hlt => absurd hblock (not_le.mpr hlt), fun hlt => absurd hblock (not_le.mpr hlt), fun _ => rfl⟩
    have hlt : a < (s.src.take (2 * s.cfg.n)).length := (List.length_take_of_le hblock).symm ▸ ha
    exact (rawRead_of_ofBytes rfl hlt).trans (List.getElem?_take_of_lt ha)
  obtain hc | hc := Bool.eq_false_or_eq_true s.srcClosed
  · exact ⟨_, execRead_closed hless hc, rfl, fun hle => absurd hless (not_lt.mpr hle), fun _ _ => ⟨rfl, rfl, rfl⟩,
      fun _ hopen => absurd (hc.symm.trans hopen) nofun, fun _ => rfl⟩
  · exact ⟨_, execRead_waiting hless hc, rfl, fun hle => absurd hless (not_lt.mpr hle),
      fun _ hclosed => absurd (hc.symm.trans hclosed) nofun, fun _ _ => rfl, fun _ => rfl⟩
end

section
/-! PROOFS. The outcome of a decode attempt (O43): each part that can end one says what it reports, what it appends to
the sink and where it resumes. -/

namespace Sys2Proof.Machine

open Stated

/-! ### What an attempt leaves as it was -/

theorem sameOutsideAttempt_trans {s t u : State} (h : sameOutsideAttempt s t) (h' : sameOutsideAttempt t u) :
    sameOutsideAttempt s u := by
  unfold sameOutsideAttempt at *
  rw [h']
  rw [h]

section
variable {s t : State} (h : sameOutsideAttempt s t)
include h

theorem sameOutsideAttempt_cfg : t.cfg = s.cfg := by rw [h]

theorem sameOutsideAttempt_src : t.src = s.src := by rw [h]

theorem sameOutsideAttempt_srcClosed : t.srcClosed = s.srcClosed := by rw [h]

theorem sameOutsideAttempt_started : t.started = s.started := by rw [h]

theorem sameOutsideAttempt_argCh : t.argCh = s.argCh := by rw [h]

theorem sameOutsideAttempt_rawRead (a : Nat) : t.rawRead a = s.rawRead a := by
  rw [h]
  rfl

theorem sameOutsideAttempt_len (c : Channel) : t.len c = s.len c := by
  rw [h]
  rfl

theorem sameOutsideAttempt_elem (x : StreamId) (a : Nat) : t.elem x a = s.elem x a := by
  rw [h]
  rfl

end

/-- The sink, the record and the selected channel are kept too: so far the attempt has reported nothing. -/
structure Unreported (s t : State) : Prop where
  outside : sameOutsideAttempt s t
  sink : t.sink = s.sink
  record : t.record = s.record
  ch : t.ch = s.ch

/-- An attempt on `s` has ended in `t` with the outcome `o`: RECORD has appended the record in `REC`, and no other
outcome has touched the sink or `REC` (R156). -/
structure Ended (s t : State) (o : AttemptOutcome) : Prop where
  res : t.res = .attempt o
  emitted : o = .record → t.sink = s.sink ++ [.item t.record]
  kept : o ≠ .record → t.sink = s.sink ∧ t.record = s.record
  outside : sameOutsideAttempt s t
  ch : t.ch = s.ch

/-- Field by field, as `simp` decides it for a chain of named updates. -/
theorem unreported_iff {s t : State} :
    Unreported s t ↔ sameOutsideAttempt s t ∧ t.sink = s.sink ∧ t.record = s.record ∧ t.ch = s.ch :=
  ⟨fun ⟨h1, h2, h3, h4⟩ => ⟨h1, h2, h3, h4⟩, fun ⟨h1, h2, h3, h4⟩ => ⟨h1, h2, h3, h4⟩⟩

theorem Unreported.trans {s t u : State} (h : Unreported s t) (h' : Unreported t u) : Unreported s u :=
  ⟨sameOutsideAttempt_trans h.outside h'.outside, h'.sink.trans h.sink, h'.record.trans h.record, h'.ch.trans h.ch⟩

theorem Ended.after {s a t : State} {o : AttemptOutcome} (h : Ended a t o) (hs : Unreported s a) : Ended s t o where
  res := h.res
  emitted ho := (h.emitted ho).trans (by rw [hs.sink])
  kept ho := ⟨(h.kept ho).1.trans hs.sink, (h.kept ho).2.trans hs.record⟩
  outside := sameOutsideAttempt_trans hs.outside h.outside
  ch := h.ch.trans hs.ch

/-- An outcome other than RECORD is all that the end of the attempt reports. -/
theorem Unreported.ended {s t : State} {o : AttemptOutcome} (h : Unreported s t) (ho : o ≠ .record)
    (hres : t.res = .attempt o) : Ended s t o :=
  ⟨hres, fun he => absurd he ho, fun _ => ⟨h.sink, h.record⟩, h.outside, h.ch⟩

/-! ### The parts that end an attempt -/

theorem unpackAndEmit_ended (s : State) :
    ∃ t, unpackAndEmit s = .next t ∧ Ended s t .record ∧ t.resume = s.resume ∧ t.idx = s.idx := by
  have h := unpackAndEmit_eq s
  generalize (s.enter .unpack).recordByMid = r at h
  generalize (s.enter .unpack).unpackResult = x at h
  exact ⟨_, h, ⟨rfl, fun _ => by simp, fun hne => absurd rfl hne, by simp [sameOutsideAttempt, State.ext_iff], by simp⟩,
    by simp, by simp⟩

/-- The outcomes of a frame that was read in. -/
def AttemptOutcome.ofFrame (o : AttemptOutcome) : Prop := o = .short ∨ o = .crcfail ∨ o = .record

theorem checkFrame_ended (s : State) (hidx : s.resume = s.idx) :
    ∃ t o, checkFrame s = .next t ∧ Ended s t o ∧ o.ofFrame ∧ t.resume = t.idx := by
  have hlength : Unreported s ((s.enter .check).lengthSet.ret .plain) := by
    simp [unreported_iff, sameOutsideAttempt, State.ext_iff, State.lengthSet]
  obtain ⟨-, e⟩ | ⟨-, ⟨-, e⟩ | ⟨-, e⟩⟩ := checkFrame_cases s
  · refine ⟨_, .short, e, Unreported.ended ?_ nofun rfl, .inl rfl, rfl⟩
    simp [unreported_iff, sameOutsideAttempt, State.ext_iff, State.lengthSet]
  · refine ⟨_, .crcfail, e, Unreported.ended (hlength.trans ?_) nofun rfl, .inr (.inl rfl), rfl⟩
    simp [unreported_iff, sameOutsideAttempt, State.ext_iff, State.checkSet]
  · obtain ⟨t, ht, hended, hresume, hkept⟩ :=
      unpackAndEmit_ended ((((s.enter .check).lengthSet.ret .plain).checkSet).ret .plain)
    refine ⟨t, .record, e.trans ht, hended.after (hlength.trans ?_), .inr (.inr rfl), ?_⟩
    · simp [unreported_iff, sameOutsideAttempt, State.ext_iff, State.checkSet]
    · exact hresume.trans (hidx.trans hkept.symm)

theorem deframe_unreported {s t : State} (h : deframe s = .next t) : Unreported s t ∧ t.resume = t.idx := by
  obtain ⟨hframe, -⟩ := of_next (deframe_spec s) h
  refine ⟨⟨?_, ?_, ?_, ?_⟩, ?_⟩ <;> rw [hframe]
  rfl

theorem locateFrame_ended {s : State} (h : s.i + tailGuard ≤ s.n) :
    ∃ t o, locateFrame s = .next t ∧ Ended s t o ∧
      ((o = .nosync ∧ (∀ a, t.bufRead a = s.bufRead a) ∧ t.smax = 0 ∧ t.sync = false ∧ t.resume = t.i + 1145) ∨
        (o.ofFrame ∧ t.resume = t.idx)) := by
  obtain ⟨r, -, -, -, ⟨hr, e⟩ | ⟨-, e⟩⟩ := locateFrame_cases s h
  · have hsync : syncFlag r.smax = false := by rw [hr]; rfl
    refine ⟨_, .nosync, e, Unreported.ended ?_ nofun rfl, .inl ⟨rfl, fun _ => rfl, hr, hsync, rfl⟩⟩
    simp [unreported_iff, sameOutsideAttempt, State.ext_iff]
  · have hfound : Unreported s
        ((((((s.enter .corr).setCorr r).ret .plain).setP0 (s.i + r.imax)).ret .plain).enter .deframe) :=
      (by simp [unreported_iff, sameOutsideAttempt, State.ext_iff])
    obtain ⟨d, hd, -⟩ := deframe_spec
      ((((((s.enter .corr).setCorr r).ret .plain).setP0 (s.i + r.imax)).ret .plain).enter .deframe)
    obtain ⟨hdeframe, hidx⟩ := deframe_unreported hd
    obtain ⟨t, o, ht, hended, ho, hresume⟩ := checkFrame_ended d hidx
    exact ⟨t, o, e.trans ((seqOp_of hd checkFrame).trans ht),
      hended.after (hfound.trans hdeframe), .inr ⟨ho, hresume⟩⟩

/-- Each outcome of an attempt with what belongs to it (R156). -/
theorem execAisdec_ended (s : State) :
    ∃ t o, execAisdec s = .next t ∧ Ended s t o ∧
      ((o = .eob ∧ (∀ a, t.bufRead a = s.bufRead a) ∧ t.resume = t.i) ∨
        (o = .nosync ∧ (∀ a, t.bufRead a = s.bufRead a) ∧ t.smax = 0 ∧ t.sync = false ∧ t.resume = t.i + 1145) ∨
        (o.ofFrame ∧ t.resume = t.idx)) := by
  obtain ⟨b, run, -, ⟨-, e⟩ | ⟨-, hlong, e⟩⟩ := execAisdec_cases s
  · refine ⟨_, .eob, e, Unreported.ended ?_ nofun rfl, .inl ⟨rfl, fun _ => rfl, rfl⟩⟩
    simp [unreported_iff, sameOutsideAttempt, State.ext_iff]
  · obtain ⟨t, o, ht, hended, hcases⟩ := locateFrame_ended (s := ((s.enter .gate).setGate b run).ret .plain) hlong
    refine ⟨t, o, e.trans ht, hended.after ?_, .inr hcases⟩
    simp [unreported_iff, sameOutsideAttempt, State.ext_iff]

end Sys2Proof.Machine

open Sys2Proof Sys2Proof.Machine

/-- Settles O43: the outcomes of `execAisdec_ended` exclude each other. -/
theorem attemptHasOneOutcome : Obligations.AttemptHasOneOutcome := by
  intro s
  obtain ⟨t, o, ht, hended, hcases⟩ := execAisdec_ended s
  obtain ⟨res, emitted, kept, outside, ch⟩ := hended
  refine ⟨t, o, ht, res, emitted, kept, ?_⟩
  obtain ⟨rfl, hbuf, hresume⟩ | ⟨rfl, hbuf, hlost⟩ | ⟨ho, hresume⟩ := hcases
  · exact ⟨fun _ => hbuf, nofun, fun _ => hresume, by simp, outside, ch⟩
  · exact ⟨fun _ => hbuf, fun _ => hlost, nofun, by simp, outside, ch⟩
  · have hne : o ≠ .eob ∧ o ≠ .nosync := by rcases ho with rfl | rfl | rfl <;> decide
    exact ⟨fun h => absurd h (not_or.mpr hne), fun h => absurd h hne.2, fun h => absurd h hne.1, fun _ => hresume,
      outside, ch⟩
end

section
/-! PROOFS. SCAN (O46): the loop of R158 keeps the streams, appends records, and has enough attempts to pass
`n - 500`. -/

namespace Sys2Proof.Machine

open Stated

/-- The sink has received records and nothing else. -/
def AppendsRecords (s t : State) : Prop := ∃ rs : List Record, t.sink = s.sink ++ rs.map .item

theorem appendsRecords_of_sink_eq {s t : State} (h : t.sink = s.sink) : AppendsRecords s t := ⟨[], by simp [h]⟩

theorem AppendsRecords.trans {s t u : State} (h : AppendsRecords s t) (h' : AppendsRecords t u) :
    AppendsRecords s u := by
  obtain ⟨rs, hrs⟩ := h
  obtain ⟨rs', hrs'⟩ := h'
  exact ⟨rs ++ rs', by rw [hrs', hrs, List.map_append, List.append_assoc]⟩

theorem Ended.appendsRecords {s t : State} {o : AttemptOutcome} (h : Ended s t o) : AppendsRecords s t := by
  by_cases ho : o = .record
  · exact ⟨[t.record], h.emitted ho⟩
  · exact appendsRecords_of_sink_eq (h.kept ho).1

/-- What a number of attempts on the selected channel can do. -/
structure Scanned (s t : State) : Prop where
  records : AppendsRecords s t
  outside : sameOutsideAttempt s t
  ch : t.ch = s.ch

theorem Scanned.refl (s : State) : Scanned s s := ⟨appendsRecords_of_sink_eq rfl, rfl, rfl⟩

theorem Scanned.trans {s t u : State} (h : Scanned s t) (h' : Scanned t u) : Scanned s u :=
  ⟨h.records.trans h'.records, sameOutsideAttempt_trans h.outside h'.outside, h'.ch.trans h.ch⟩

theorem Scanned.n {s t : State} (h : Scanned s t) : t.n = s.n := by
  rw [State.n, State.n, h.ch, sameOutsideAttempt_len h.outside]

theorem Ended.scanned {s t : State} {o : AttemptOutcome} (h : Ended s t o) (a : Nat) : Scanned s (t.setI a) :=
  Scanned.trans ⟨h.appendsRecords, h.outside, h.ch⟩ ⟨appendsRecords_of_sink_eq rfl, rfl, rfl⟩

/-! ### The loop -/

theorem scanLoop_stop {s : State} (h : s.n < s.i + 500) (left : Nat) : scanLoop left s = .next s := by
  cases left with
  | zero => rfl
  | succ left => exact if_neg fun hc => absurd (scanContinues_iff.mp hc) (not_le.mpr h)

theorem scanLoop_attempt {s t : State} (h : s.i + 500 ≤ s.n) (ht : execAisdec s = .next t) (left : Nat) :
    scanLoop (left + 1) s = scanLoop left (t.setI t.resume) :=
  (if_pos (scanContinues_iff.mpr h)).trans (seqOp_of ht _)

/-- The index moves on with each attempt, or is beyond `n - 500` (R163). -/
theorem execAisdec_resume {s t : State} (h : execAisdec s = .next t) : s.i < t.resume ∨ s.n < t.resume + 500 := by
  obtain ⟨-, hend⟩ | ⟨-, hmoved⟩ := execAisdec_progress h
  · exact .inr hend
  · exact .inl (by omega)

/-- With an attempt for every sample that is left the loop ends by its own test. -/
theorem scanLoop_spec {left : Nat} {s : State} (hleft : s.n < s.i + left + 500) :
    ∃ t, scanLoop left s = .next t ∧ Scanned s t ∧ s.n < t.i + 500 := by
  induction left generalizing s with
  | zero => exact ⟨s, rfl, .refl s, hleft⟩
  | succ left ih =>
    obtain hstop | hcontinues := lt_or_ge s.n (s.i + 500)
    · exact ⟨s, scanLoop_stop hstop _, .refl s, hstop⟩
    obtain ⟨t, o, ht, hended, -⟩ := execAisdec_ended s
    have hscanned := hended.scanned t.resume
    have hn : (t.setI t.resume).n = s.n := hscanned.n
    have hmoved := execAisdec_resume ht
    obtain ⟨u, hu, hrest, hend⟩ := ih (s := t.setI t.resume) (by rw [hn, State.setI_i]; omega)
    exact ⟨u, (scanLoop_attempt hcontinues ht left).trans hu, hscanned.trans hrest, hn ▸ hend⟩

/-! ### SCAN -/

/-- SCAN stands on its operand channel at index 0 and runs the loop (R158). -/
theorem execScan_eq (s : State) : execScan s =
    seqOp (scanLoop (s.len s.argCh + 1) (s.beginScan s.argCh)) fun u => .next (u.ret .plain) := rfl

theorem beginScan_n (s : State) (c : Channel) : (s.beginScan c).n = s.len c := rfl

/-- SCAN ends where its loop ends, beyond `n - 500`. -/
theorem execScan_loop (s : State) : ∃ u,
    scanLoop (s.len s.argCh + 1) (s.beginScan s.argCh) = .next u ∧ Scanned (s.beginScan s.argCh) u ∧
      s.len s.argCh < u.i + 500 ∧ execScan s = .next (u.ret .plain) := by
  obtain ⟨u, hu, hscanned, hend⟩ := scanLoop_spec (left := s.len s.argCh + 1) (s := s.beginScan s.argCh)
    (by rw [beginScan_n]; omega)
  exact ⟨u, hu, hscanned, hend, (execScan_eq s).trans (seqOp_of hu _)⟩

/-- On a channel with fewer than 500 samples no attempt is made. -/
theorem execScan_short {s : State} (h : s.len s.argCh < 500) :
    execScan s = .next ((s.beginScan s.argCh).ret .plain) :=
  (execScan_eq s).trans (seqOp_of (scanLoop_stop (by simpa [beginScan_n] using h) _) _)

theorem execScan_spec (s : State) : ∃ t, execScan s = .next t ∧ t.ch = s.argCh ∧ s.len s.argCh < t.i + 500 ∧
    AppendsRecords s t ∧ sameOutsideAttempt s t := by
  obtain ⟨u, -, ⟨hrecords, houtside, hch⟩, hend, ht⟩ := execScan_loop s
  have hbegin : sameOutsideAttempt s (s.beginScan s.argCh) := rfl
  have hreturn : sameOutsideAttempt u (u.ret .plain) := rfl
  exact ⟨_, ht, hch, hend, hrecords, sameOutsideAttempt_trans (sameOutsideAttempt_trans hbegin houtside) hreturn⟩

end Sys2Proof.Machine

open Sys2Proof Sys2Proof.Machine

/-- Settles O46, from the loop's answer, and without an attempt when the channel is too short for one. -/
theorem scanCompletes : Obligations.ScanCompletes := by
  intro s
  obtain ⟨t, ht, hch, hend, hrecords, houtside⟩ := execScan_spec s
  refine ⟨t, ht, hch, by omega, hrecords, houtside, fun hshort => ?_⟩
  cases (execScan_short hshort).symm.trans ht
  rfl
end

section
/-! PROOFS. SWEEP (O48, O49): the front end leaves in each stream a signal that is a function of the parameters and the
block alone, and the two scans append records. -/

namespace Sys2Proof.Machine

open Stated

/-! ### The parts of a sweep -/

/-- The states the stages of a sweep leave, from SDEC to DEMOD of channel 2 (R157). -/
structure FrontEnd (s a b c d e f : State) : Prop where
  sdec : execSdec (s.setPhase .sdec) = .next a
  dec3 : execDec3 (a.setPhase .dec3) = .next b
  split : execSplit (b.setPhase .split) = .next c
  dec2 : execDec2 (c.setPhase .dec2) = .next d
  demod1 : demodChannel (d.setPhase .demod) .one = .next e
  demod2 : demodChannel e .two = .next f

theorem exists_frontEnd (s : State) : ∃ a b c d e f, FrontEnd s a b c d e f := by
  obtain ⟨a, ha, -⟩ := execSdec_spec (s.setPhase .sdec)
  obtain ⟨b, hb, -⟩ := execDec3_spec (a.setPhase .dec3)
  obtain ⟨c, hc, -⟩ := execSplit_spec (b.setPhase .split)
  obtain ⟨d, hd, -⟩ := execDec2_spec (c.setPhase .dec2)
  obtain ⟨e, he, -⟩ := demodChannel_spec (d.setPhase .demod) .one
  obtain ⟨f, hf, -⟩ := demodChannel_spec e .two
  exact ⟨a, b, c, d, e, f, ha, hb, hc, hd, he, hf⟩

section
variable {s a b c d e f : State} (h : FrontEnd s a b c d e f)
include h

/-- After its front end a sweep scans both channels. -/
theorem FrontEnd.sweep_eq : execSweep s =
    seqOp (execScan (f.setArgCh .one)) fun g => seqOp (execScan (g.setArgCh .two)) fun u => .next (u.ret .plain) := by
  rw [execSweep, seqOp_of h.sdec, seqOp_of h.dec3, seqOp_of h.split, seqOp_of h.dec2, seqOp_of h.demod1,
    seqOp_of h.demod2]

theorem FrontEnd.onlyStreams : OnlyStreams s f :=
  have hphase := onlyStreams_setPhase
  (hphase s .sdec).trans <| (OnlyStreams.of_spec (execSdec_spec _) h.sdec).trans <|
  (hphase a .dec3).trans <| (OnlyStreams.of_spec (execDec3_spec _) h.dec3).trans <|
  (hphase b .split).trans <| (OnlyStreams.of_spec (execSplit_spec _) h.split).trans <|
  (hphase c .dec2).trans <| (OnlyStreams.of_spec (execDec2_spec _) h.dec2).trans <|
  (hphase d .demod).trans <| (OnlyStreams.of_spec (demodChannel_spec _ .one) h.demod1).trans <|
  OnlyStreams.of_spec (demodChannel_spec _ .two) h.demod2

end

theorem sameOutsideAttempt_setArgCh {s t : State} (h : sameOutsideAttempt s t) (c : Channel) :
    sameOutsideAttempt (s.setArgCh c) (t.setArgCh c) := by
  unfold sameOutsideAttempt at *
  rw [h]
  rfl

/-- Both scans of a sweep, after its front end. -/
theorem FrontEnd.scans {s a b c d e f : State} (h : FrontEnd s a b c d e f) : ∃ g u,
    execScan (f.setArgCh .one) = .next g ∧ execScan (g.setArgCh .two) = .next u ∧
      execSweep s = .next (u.ret .plain) ∧ AppendsRecords f u ∧ sameOutsideAttempt (f.setArgCh .two) u := by
  obtain ⟨g, hg, -, -, hgrecords, hgoutside⟩ := execScan_spec (f.setArgCh .one)
  obtain ⟨u, hu, -, -, hurecords, huoutside⟩ := execScan_spec (g.setArgCh .two)
  exact ⟨g, u, hg, hu, h.sweep_eq.trans ((seqOp_of hg _).trans (seqOp_of hu _)),
    AppendsRecords.trans (t := g) hgrecords hurecords,
    sameOutsideAttempt_trans (sameOutsideAttempt_setArgCh hgoutside .two) huoutside⟩

/-! ### The signals of the front end -/

/-- Every active element of the stream `x` is that of the signal `y`, and there are `n` of them. -/
def State.Carries (s : State) (x : StreamId) (n : Nat) (y : Nat → Int) : Prop :=
  s.streamLen x = n ∧ ∀ a < n, s.elem x a = y a

/-- A signal of `n` samples as FIR reads it, 0 outside (R74). -/
def padded (n : Nat) (y : Nat → Int) (k : Int) : Int := if 0 ≤ k ∧ k < n then y k.toNat else 0

/-- A signal of `n` samples, filtered and decimated (R75, R84). -/
def decimatedSignal (cfg : Cfg) (h : Kernel) (ratio n : Nat) (y : Nat → Int) (j : Nat) : Int :=
  firAcc (cfg.tap h) (padded n y) (ratio * j : Nat) >>> firShift

theorem State.Carries.firValue {s : State} {x : StreamId} {n : Nat} {y : Nat → Int} (hx : s.Carries x n y)
    (h : Kernel) (ratio j : Nat) : s.firValue x h (ratio * j) = decimatedSignal s.cfg h ratio n y j := by
  obtain ⟨hlen, helem⟩ := hx
  have htap : s.tapIn x = padded n y := by
    funext k
    unfold tapIn padded
    rw [hlen]
    split
    · exact helem _ (by omega)
    · rfl
  rw [State.firValue, htap, decimatedSignal]

/-- The four signals after SPLIT of the signals `yI`, `yQ` (R80). -/
def splitSignal (yI yQ : Nat → Int) : StreamId → Nat → Int
  | .i1, i => (splitOne i (yI i) (yQ i)).1
  | .q1, i => (splitOne i (yI i) (yQ i)).2
  | .i2, i => (splitTwo i (yI i) (yQ i)).1
  | .q2, i => (splitTwo i (yI i) (yQ i)).2

/-- The frequency signal of a channel (R90). -/
def fmSignal (yI yQ : Nat → Int) (i : Nat) : Int := yQ (i + 1) * yI i - yQ i * yI (i + 1)

/-- The power signal of a channel (R91). -/
def amSignal (yI yQ : Nat → Int) (i : Nat) : Int := yI (i + 1) * yI (i + 1) + yQ (i + 1) * yQ (i + 1)

/-- Both channels demodulated (R92). -/
def demodSignal (y : StreamId → Nat → Int) : StreamId → Nat → Int
  | .i1 => fmSignal (y .i1) (y .q1)
  | .q1 => amSignal (y .i1) (y .q1)
  | .i2 => fmSignal (y .i2) (y .q2)
  | .q2 => amSignal (y .i2) (y .q2)

/-- The signals of both channels after the front end, from the bytes of a block. -/
def frontEndSignal (cfg : Cfg) (raw : Nat → Byte) : StreamId → Nat → Int :=
  let n2 := dec3Len cfg.n
  demodSignal fun x => decimatedSignal cfg .h8 dcm n2
    (splitSignal (decimatedSignal cfg .h3 dcm3 cfg.n fun i => signedSample (raw (2 * i)))
      (decimatedSignal cfg .h3 dcm3 cfg.n fun i => signedSample (raw (2 * i + 1))) x)

/-- The length of both channels after the front end (R32). -/
def frontEndLen (cfg : Cfg) : Nat := dec2Len (dec3Len cfg.n) - 1

theorem carries_sdec {s t : State} {raw : Nat → Byte} (hraw : ∀ a < 2 * s.cfg.n, s.rawRead a = raw a)
    (h : execSdec s = .next t) :
    t.Carries .i1 s.cfg.n (fun i => signedSample (raw (2 * i))) ∧
      t.Carries .q1 s.cfg.n (fun i => signedSample (raw (2 * i + 1))) := by
  obtain ⟨hsample, -, hlen, -⟩ := of_next (sdecRemovesBias s) h
  refine ⟨⟨hlen, fun i hi => ?_⟩, ⟨hlen, fun i hi => ?_⟩⟩
  · rw [elem_of_getElem? (hsample i hi).1, hraw (2 * i) (by omega)]
    rfl
  · rw [elem_of_getElem? (hsample i hi).2, hraw (2 * i + 1) (by omega)]
    rfl

theorem carries_dec3 {s t : State} {n : Nat} {yI yQ : Nat → Int} (hI : s.Carries .i1 n yI) (hQ : s.Carries .q1 n yQ)
    (h : execDec3 s = .next t) :
    t.Carries .i1 (dec3Len n) (decimatedSignal s.cfg .h3 dcm3 n yI) ∧
      t.Carries .q1 (dec3Len n) (decimatedSignal s.cfg .h3 dcm3 n yQ) := by
  obtain rfl : s.len1 = n := hI.1
  cases h
  refine ⟨⟨rfl, fun j hj => ?_⟩, ⟨rfl, fun j hj => ?_⟩⟩
  · rw [← hI.firValue]
    exact elem_of_getElem? (overlay_map_range_lt s.i1 hj)
  · rw [← hQ.firValue]
    exact elem_of_getElem? (overlay_map_range_lt s.q1 hj)

theorem carries_split {s t : State} {n : Nat} {yI yQ : Nat → Int} (hI : s.Carries .i1 n yI) (hQ : s.Carries .q1 n yQ)
    (h : execSplit s = .next t) (x : StreamId) : t.Carries x n (splitSignal yI yQ x) := by
  obtain ⟨-, hlen1, hlen2⟩ := of_next (execSplit_spec s) h
  obtain rfl : s.len1 = n := hI.1
  refine ⟨by cases x <;> assumption, fun i hi => ?_⟩
  rw [split_elem h x hi]
  cases x <;> simp only [State.splitOut, splitSignal, hI.2 i hi, hQ.2 i hi]

theorem carries_dec2 {s t : State} {n : Nat} {y : StreamId → Nat → Int} (hs : ∀ x, s.Carries x n (y x))
    (h : execDec2 s = .next t) (x : StreamId) : t.Carries x (dec2Len n) (decimatedSignal s.cfg .h8 dcm n (y x)) := by
  obtain ⟨-, hlen1, hlen2⟩ := of_next (execDec2_spec s) h
  obtain rfl : s.len1 = n := (hs .i1).1
  refine ⟨by cases x <;> assumption, fun j hj => ?_⟩
  cases (execDec2_eq s).symm.trans h
  rw [← (hs x).firValue]
  exact elem_of_getElem? (storeFour_getElem?_lt s x hj)

theorem carries_demodChannel {s t : State} {c : Channel} {n : Nat} {yI yQ : Nat → Int}
    (hI : s.Carries c.iStream n yI) (hQ : s.Carries c.qStream n yQ) (h : demodChannel s c = .next t) :
    t.Carries c.iStream (n - 1) (fmSignal yI yQ) ∧ t.Carries c.qStream (n - 1) (amSignal yI yQ) := by
  obtain ⟨-, -, hlen, -⟩ := of_next (demodChannel_spec s c) h
  obtain ⟨hfm, ham⟩ := demodChannel_stream h
  obtain ⟨hn, hI⟩ := hI
  obtain ⟨-, hQ⟩ := hQ
  rw [streamLen_iStream] at hn
  rw [hn] at hlen
  refine ⟨⟨(streamLen_iStream t c).trans hlen, fun i hi => ?_⟩, ⟨(streamLen_qStream t c).trans hlen, fun i hi => ?_⟩⟩
  · rw [elem_of_getElem? (hfm ▸ overlay_map_range_lt _ (hn ▸ hi)), State.fmSample, fmSignal, hI i (by omega),
      hI (i + 1) (by omega), hQ i (by omega), hQ (i + 1) (by omega)]
  · rw [elem_of_getElem? (ham ▸ overlay_map_range_lt _ (hn ▸ hi)), State.amSample, amSignal, hI (i + 1) (by omega),
      hQ (i + 1) (by omega)]

theorem elem_congr {s t : State} {x : StreamId} (hx : t.stream x = s.stream x) (he : t.epoch = s.epoch) (a : Nat) :
    t.elem x a = s.elem x a := by
  rw [State.elem, State.elem, hx, he]

/-- DEMOD on a channel keeps the signals of the other. -/
theorem carries_demodChannel_ne {s t : State} {c d : Channel} {n : Nat} {yI yQ : Nat → Int} (hd : d ≠ c)
    (hI : s.Carries d.iStream n yI) (hQ : s.Carries d.qStream n yQ) (h : demodChannel s c = .next t) :
    t.Carries d.iStream n yI ∧ t.Carries d.qStream n yQ := by
  obtain ⟨honly, -, -, hlen⟩ := of_next (demodChannel_spec s c) h
  obtain ⟨hi, hq⟩ := demodChannel_stream_ne h hd
  have hlen : t.streamLen d.iStream = s.streamLen d.iStream ∧ t.streamLen d.qStream = s.streamLen d.qStream := by
    simp only [streamLen_iStream, streamLen_qStream, hlen d hd, and_self]
  exact ⟨⟨hlen.1.trans hI.1, fun a ha => (elem_congr hi honly.epoch a).trans (hI.2 a ha)⟩,
    ⟨hlen.2.trans hQ.1, fun a ha => (elem_congr hq honly.epoch a).trans (hQ.2 a ha)⟩⟩

/-- The front end leaves in each stream a function of the parameters and the block, whatever was there before (R76). -/
theorem FrontEnd.carries {s a b c d e f : State} (h : FrontEnd s a b c d e f) {raw : Nat → Byte}
    (hraw : ∀ a < 2 * s.cfg.n, s.rawRead a = raw a) (x : StreamId) :
    f.Carries x (frontEndLen s.cfg) (frontEndSignal s.cfg raw x) := by
  have hcfga : a.cfg = s.cfg := (OnlyStreams.of_spec (execSdec_spec _) h.sdec).cfg
  have hcfgb : b.cfg = s.cfg := (OnlyStreams.of_spec (execDec3_spec _) h.dec3).cfg.trans hcfga
  have hcfgc : c.cfg = s.cfg := (OnlyStreams.of_spec (execSplit_spec _) h.split).cfg.trans hcfgb
  obtain ⟨haI, haQ⟩ := carries_sdec (s := s.setPhase .sdec) hraw h.sdec
  obtain ⟨hbI, hbQ⟩ := carries_dec3 (s := a.setPhase .dec3) haI haQ h.dec3
  have hc := carries_split (s := b.setPhase .split) hbI hbQ h.split
  have hd := carries_dec2 (s := c.setPhase .dec2) hc h.dec2
  simp only [State.setPhase_cfg, hcfga, hcfgc] at hd
  obtain ⟨he1, he2⟩ := carries_demodChannel (c := .one) (s := d.setPhase .demod) (hd .i1) (hd .q1) h.demod1
  obtain ⟨he3, he4⟩ := carries_demodChannel_ne (c := .one) (d := .two) (s := d.setPhase .demod) nofun (hd .i2)
    (hd .q2) h.demod1
  obtain ⟨hf1, hf2⟩ := carries_demodChannel_ne (c := .two) (d := .one) nofun he1 he2 h.demod2
  obtain ⟨hf3, hf4⟩ := carries_demodChannel (c := .two) he3 he4 h.demod2
  cases x with
  | i1 => exact hf1
  | q1 => exact hf2
  | i2 => exact hf3
  | q2 => exact hf4

/-! ### The sweep -/

/-- A sweep appends records, leaves both channels demodulated, and keeps the parameters, the source and `RAW`. -/
theorem execSweep_spec (s : State) : ∃ t, execSweep s = .next t ∧ (∀ c, t.len c = frontEndLen s.cfg) ∧
    AppendsRecords s t ∧ t.cfg = s.cfg ∧ t.src = s.src ∧ t.srcClosed = s.srcClosed ∧ t.started = s.started ∧
    ∀ a, t.rawRead a = s.rawRead a := by
  obtain ⟨a, b, c, d, e, f, h⟩ := exists_frontEnd s
  obtain ⟨g, u, -, -, ht, hrecords, hout⟩ := h.scans
  have honly := h.onlyStreams
  have hlen : ∀ c, f.len c = frontEndLen s.cfg := fun c =>
    (streamLen_iStream f c).symm.trans (h.carries (fun _ _ => rfl) c.iStream).1
  refine ⟨_, ht, fun c => (sameOutsideAttempt_len hout c).trans (hlen c),
    (appendsRecords_of_sink_eq honly.sink).trans hrecords, (sameOutsideAttempt_cfg hout).trans honly.cfg,
    (sameOutsideAttempt_src hout).trans honly.src, (sameOutsideAttempt_srcClosed hout).trans honly.srcClosed,
    (sameOutsideAttempt_started hout).trans honly.started, fun a => ?_⟩
  exact (sameOutsideAttempt_rawRead hout a).trans (honly.sameBytes a).1

/-- Streams too short for an attempt leave the sink, `BUF` and `REC` as they were. -/
theorem execSweep_short {s t : State} (hshort : frontEndLen s.cfg < 500) (h : execSweep s = .next t) :
    t.sink = s.sink ∧ t.buf = s.buf ∧ t.record = s.record := by
  obtain ⟨a, b, c, d, e, f, hfront⟩ := exists_frontEnd s
  have honly := hfront.onlyStreams
  have hlen : ∀ c, f.len c < 500 := fun c => by
    rwa [← streamLen_iStream, (hfront.carries (fun _ _ => rfl) c.iStream).1]
  have hone := execScan_short (s := f.setArgCh .one) (hlen .one)
  have htwo := execScan_short (s := (((f.setArgCh .one).beginScan .one).ret .plain).setArgCh .two) (hlen .two)
  cases (hfront.sweep_eq.trans ((seqOp_of hone _).trans (seqOp_of htwo _))).symm.trans h
  simpa using And.intro honly.sink (And.intro honly.buf honly.record)

/-! ### A silent block -/

theorem firAcc_zero (tap : Nat → Int) (n : Int) : firAcc tap (fun _ => 0) n = 0 := by
  simp [firAcc_eq_sum]

@[simp] theorem decimatedSignal_zero (cfg : Cfg) (h : Kernel) (ratio n : Nat) :
    decimatedSignal cfg h ratio n (fun _ => 0) = fun _ => 0 := by
  have hpad : padded n (fun _ => 0) = fun _ => 0 := by
    funext k
    simp [padded]
  funext j
  rw [decimatedSignal, hpad, firAcc_zero]
  rfl

@[simp] theorem rot_zero (r : Nat) : rot r 0 0 = (0, 0) := by
  unfold rot
  split <;> rfl

@[simp] theorem splitSignal_zero (x : StreamId) : splitSignal (fun _ => 0) (fun _ => 0) x = fun _ => 0 := by
  funext i
  cases x <;> simp [splitSignal, splitOne, splitTwo]

/-- Without bias the byte 128 is 0, and every stage makes zeros of zeros, whatever the kernels (R164). -/
theorem frontEndSignal_silent (cfg : Cfg) (x : StreamId) : frontEndSignal cfg (fun _ => 128) x = fun _ => 0 := by
  have hsample : signedSample 128#8 = 0 := rfl
  funext i
  cases x <;> simp [frontEndSignal, hsample, demodSignal, fmSignal, amSignal]

/-- The selected channel has no power anywhere. -/
def State.Silent (s : State) (c : Channel) : Prop := ∀ a < s.len c, s.elem c.qStream a = 0

theorem State.Silent.of_sameOutsideAttempt {s t : State} {c : Channel} (hs : s.Silent c) (h : sameOutsideAttempt s t) :
    t.Silent c := by
  intro a ha
  rw [sameOutsideAttempt_elem h]
  exact hs a (sameOutsideAttempt_len h c ▸ ha)

/-- Without power there is no burst. -/
theorem State.Silent.no_burst {s : State} (h : s.Silent s.ch) (b : Nat) : ¬ burstAt s s.i b := by
  rintro ⟨-, hend, hpower⟩
  have hlow : s.aAt (b + 0) = 0 := h b (by rw [← State.n]; omega)
  have := hpower 0 (by decide)
  omega

/-- The index GATE leaves: the first burst start, or the end of the stream (R96). -/
def State.gateIndex (s : State) : Nat := (gateLoop s.aAt (s.n - s.i) s.i 0).2.getD s.n

/-- The count GATE leaves in `run`. -/
def State.gateCount (s : State) : Nat := (gateLoop s.aAt (s.n - s.i) s.i 0).1

theorem execGate_enter (s : State) :
    execGate (s.enter .gate) = .next ((s.enter .gate).gateEnd s.gateIndex s.gateCount) := rfl

theorem gateIndex_of_no_burst {s : State} (h : ∀ b, ¬ burstAt s s.i b) : s.gateIndex = s.n := by
  obtain ⟨b, -, hburst, -⟩ | ⟨run, -, hg, -⟩ := gateLoop_burstAt s
  · exact absurd hburst (h b)
  · rw [State.gateIndex, hg, Option.getD_none]

theorem execAisdec_of_short {s : State} (h : s.n < s.gateIndex + 500) : execAisdec s =
    .next ((((s.enter .gate).setGate s.gateIndex s.gateCount).raise .bufferExhaustion
      (some s.gateIndex)).finish .eob) := by
  rw [execAisdec, execGate_enter, gateEnd_of_short (s := s.enter .gate) h, seqOp_next, if_pos (by simp)]

theorem execAisdec_of_long {s : State} (h : s.gateIndex + 500 ≤ s.n) : execAisdec s =
    locateFrame (((s.enter .gate).setGate s.gateIndex s.gateCount).ret .plain) := by
  rw [execAisdec, execGate_enter, gateEnd_of_long (s := s.enter .gate) h, seqOp_next, if_neg (by simp)]

/-- On a silent channel an attempt ends at the end of the buffer. -/
theorem execAisdec_silent {s t : State} (hs : s.Silent s.ch) (h : execAisdec s = .next t) : t.sink = s.sink := by
  have hend : s.n < s.gateIndex + 500 := by rw [gateIndex_of_no_burst hs.no_burst]; omega
  cases (execAisdec_of_short hend).symm.trans h
  simp

/-- A loop of attempts on a silent channel appends nothing. -/
theorem scanLoop_silent {left : Nat} {s t : State} (hs : s.Silent s.ch) (h : scanLoop left s = .next t) :
    t.sink = s.sink := by
  induction left generalizing s with
  | zero => cases h; rfl
  | succ left ih =>
    obtain hstop | hcontinues := lt_or_ge s.n (s.i + 500)
    · cases (scanLoop_stop hstop _).symm.trans h
      rfl
    obtain ⟨a, o, ha, hended, -⟩ := execAisdec_ended s
    have hscanned := hended.scanned a.resume
    have hsilent : (a.setI a.resume).Silent (a.setI a.resume).ch := by
      rw [hscanned.ch]
      exact hs.of_sameOutsideAttempt hscanned.outside
    have hrest := ih hsilent ((scanLoop_attempt hcontinues ha left).symm.trans h)
    have hfirst : a.sink = s.sink := execAisdec_silent hs ha
    exact hrest.trans hfirst

theorem execScan_silent {s t : State} (hs : s.Silent s.argCh) (h : execScan s = .next t) : t.sink = s.sink := by
  obtain ⟨u, hu, -, -, ht⟩ := execScan_loop s
  have hloop : u.sink = s.sink := scanLoop_silent (s := s.beginScan s.argCh) hs hu
  cases ht.symm.trans h
  exact hloop

end Sys2Proof.Machine

open Sys2Proof Sys2Proof.Machine

/-- Settles O48, by `execSweep_spec` and the lengths of R32. -/
theorem sweepCompletes : Obligations.SweepCompletes := by
  intro s
  obtain ⟨t, ht, hlen, hrecords, hcfg, hsrc, hclosed, hstarted, hraw⟩ := execSweep_spec s
  have hlen1 : t.len1 = frontEndLen s.cfg := hlen .one
  refine ⟨t, ht, hlen1, (hlen .two).trans hlen1.symm, hrecords, hcfg, hsrc, hclosed, hstarted, hraw, fun hshort => ?_⟩
  exact execSweep_short (hlen1 ▸ hshort) ht

/-- Settles O49: the front end leaves silence, in which no attempt finds a burst. -/
theorem zeroSignalEmitsNothing : Obligations.ZeroSignalEmitsNothing := by
  intro s hzero
  obtain ⟨a, b, c, d, e, f, hfront⟩ := exists_frontEnd s
  obtain ⟨g, u, hg, hu, ht, -⟩ := hfront.scans
  have hsilent : ∀ c, f.Silent c := fun c i hi => by
    obtain ⟨hlen, helem⟩ := hfront.carries hzero c.qStream
    rw [helem i (by rwa [← hlen, streamLen_qStream]), frontEndSignal_silent]
  have hgsilent : g.Silent .two := by
    obtain ⟨-, -, -, hout⟩ := of_next (execScan_spec _) hg
    have hbefore : (f.setArgCh .one).Silent .two := hsilent .two
    exact hbefore.of_sameOutsideAttempt hout
  refine ⟨_, ht, ?_⟩
  calc u.sink = g.sink := execScan_silent (s := g.setArgCh .two) hgsilent hu
    _ = f.sink := execScan_silent (s := f.setArgCh .one) (hsilent .one) hg
    _ = s.sink := hfront.onlyStreams.sink
end

section
/-! PROOFS. A sweep's records depend on the block alone (O50): two runs of an attempt on the same signals go the same
way, although everything that an attempt writes before it reads may differ at their start. -/

namespace Sys2Proof.Machine

/-! ### The locator -/

/-- The active elements of every stream are the same in both states. -/
def SameStreams (s u : State) : Prop :=
  ∀ x, u.streamLen x = s.streamLen x ∧ ∀ a < s.streamLen x, u.elem x a = s.elem x a

/-- What a decode attempt reads at its start is the same in both states. -/
structure SameInput (s u : State) : Prop where
  ch : u.ch = s.ch
  i : u.i = s.i
  streams : SameStreams s u

/-- What the deframer reads at its start is the same in both states. -/
structure SameAnchor (s u : State) : Prop where
  ch : u.ch = s.ch
  p0 : u.p0 = s.p0
  streams : SameStreams s u

section
variable {s u : State} (hch : u.ch = s.ch) (h : SameStreams s u)
include hch h

theorem SameStreams.n : u.n = s.n := by
  rw [State.n, State.n, hch, ← streamLen_iStream, ← streamLen_iStream, (h _).1]

theorem SameStreams.aAt {t : Nat} (ht : t < s.n) : u.aAt t = s.aAt t := by
  rw [State.aAt, State.aAt, hch]
  exact (h _).2 t (by rwa [streamLen_qStream])

theorem SameStreams.fAt {t : Nat} (ht : t < s.n) : u.fAt t = s.fAt t := by
  rw [State.fAt, State.fAt, hch]
  exact (h _).2 t (by rwa [streamLen_iStream])

theorem SameStreams.fAt? : u.fAt? = s.fAt? := by
  funext t
  obtain ⟨hlen, helem⟩ := h s.ch.iStream
  rw [State.fAt?, State.fAt?, hch, State.elem?, State.elem?, hlen]
  split
  · next ht => rw [helem t ht]
  · rfl

end

/-- The gate loop reads only the samples it is given. -/
theorem gateLoop_congr {a b : Nat → Int} {left t run : Nat} (h : ∀ d, d < t + left → b d = a d) :
    gateLoop b left t run = gateLoop a left t run := by
  induction left generalizing t run with
  | zero => rfl
  | succ left ih => simp only [gateLoop, h t (by omega), ih fun d (hd : d < t + 1 + left) => h d (by omega)]

theorem SameInput.n {s u : State} (h : SameInput s u) : u.n = s.n := h.streams.n h.ch

theorem SameInput.gateIndex {s u : State} (h : SameInput s u) : u.gateIndex = s.gateIndex := by
  obtain hbeyond | hinside := le_or_gt s.n s.i
  · have hnone : s.n - s.i = 0 := by omega
    simp only [State.gateIndex, h.n, h.i, hnone, gateLoop]
  · rw [State.gateIndex, State.gateIndex, h.n, h.i,
      gateLoop_congr fun d hd => h.streams.aAt h.ch (by omega)]

/-- The passes overwrite the correlator's registers before they read them. -/
theorem correlate_congr (f : Nat → Option Int) (i : Nat) (r q : CorrRegs) : correlate f i q = correlate f i r := by
  have hrange : List.range kSpan = 0 :: (List.range 104).map Nat.succ := List.range_succ_eq_map
  simp only [correlate, corrPositive, hrange, corrPass]

/-! ### The deframer -/

/-- The frame and the deframer's registers are the same in both states, with the signals they are read from. `sym`,
`out` and `idx` may differ: each symbol writes them before they are read. -/
structure SameDeframer (s u : State) : Prop where
  anchor : SameAnchor s u
  m : u.m = s.m
  prev : u.prev = s.prev
  hist : u.hist = s.hist
  wp : u.wp = s.wp
  bp : u.bp = s.bp
  nbits : u.nbits = s.nbits
  bytes : ∀ a < frameBytes, u.bufRead a = s.bufRead a

theorem SameDeframer.symbolIdx {s u : State} (h : SameDeframer s u) : u.symbolIdx = s.symbolIdx := by
  rw [State.symbolIdx, State.symbolIdx, h.anchor.p0, h.m]

theorem SameAnchor.of_onlyDeframer {s u t v : State} (h : SameAnchor s u) (hs : OnlyDeframer s t)
    (hu : OnlyDeframer u v) : SameAnchor t v := by
  rw [hs, hu]
  exact ⟨h.ch, h.p0, h.streams⟩

theorem sameDeframer_clear {s u : State} (h : SameAnchor s u) :
    SameDeframer (s.clearFrame.ret .plain) (u.clearFrame.ret .plain) :=
  ⟨⟨h.ch, h.p0, h.streams⟩, rfl, rfl, rfl, rfl, rfl, rfl,
    fun a ha => by rw [State.ret_bufRead, State.ret_bufRead, clearFrame_bufRead u ha, clearFrame_bufRead s ha]⟩

theorem sameDeframer_stop {s u : State} (h : SameDeframer s u) (a : Nat) (r : Result) :
    SameDeframer ((s.setIdx a).ret r) ((u.setIdx a).ret r) :=
  ⟨⟨h.anchor.ch, h.anchor.p0, h.anchor.streams⟩, h.m, h.prev, h.hist, h.wp, h.bp, h.nbits, h.bytes⟩

theorem onlyDeframer_afterSlice (s : State) : OnlyDeframer s s.afterSlice := by
  apply State.ext <;> simp [State.afterSlice]

theorem afterSlice_bufRead (s : State) (a : Nat) : s.afterSlice.bufRead a = s.bufRead a := by
  simp [State.afterSlice]

/-- Both runs decide and decode the same symbol. -/
theorem sameDeframer_afterSlice {s u : State} (h : SameDeframer s u) (hin : s.symbolIdx < s.n) :
    SameDeframer s.afterSlice u.afterSlice ∧ u.afterSlice.out = s.afterSlice.out ∧
      u.afterSlice.idx = s.afterSlice.idx := by
  have hidx := h.symbolIdx
  have hf : u.fAt s.symbolIdx = s.fAt s.symbolIdx := h.anchor.streams.fAt h.anchor.ch hin
  have hanchor := h.anchor.of_onlyDeframer (onlyDeframer_afterSlice s) (onlyDeframer_afterSlice u)
  refine ⟨⟨hanchor, ?_, ?_, ?_, ?_, ?_, ?_, fun a ha => ?_⟩, ?_, ?_⟩
  case refine_7 => rw [afterSlice_bufRead, afterSlice_bufRead, h.bytes a ha]
  all_goals simp [State.afterSlice, hidx, hf, h.m, h.prev, h.hist, h.wp, h.bp, h.nbits]

theorem sameDeframer_setHist {s u : State} (h : SameDeframer s u) (g : BitVec 5) (r : Result) :
    SameDeframer ((s.setHist g).ret r) ((u.setHist g).ret r) :=
  ⟨⟨h.anchor.ch, h.anchor.p0, h.anchor.streams⟩, h.m, h.prev, rfl, h.wp, h.bp, h.nbits, h.bytes⟩

theorem onlyDeframer_packed (s : State) : OnlyDeframer s s.packed := by
  apply State.ext <;> simp [State.packed]

theorem sameDeframer_packed {s u : State} (h : SameDeframer s u) (hout : u.out = s.out) (hroom : s.wp < frameBytes) :
    SameDeframer s.packed u.packed := by
  have hanchor := h.anchor.of_onlyDeframer (onlyDeframer_packed s) (onlyDeframer_packed u)
  refine ⟨hanchor, ?_, ?_, ?_, ?_, ?_, ?_, fun a ha => ?_⟩
  case refine_7 =>
    by_cases hwp : a = s.wp
    · rw [hwp, packed_bufRead_wp, ← h.wp, packed_bufRead_wp, h.wp, h.bytes _ hroom, h.bp, hout]
    · rw [packed_bufRead_ne hwp, packed_bufRead_ne (by rwa [h.wp]), h.bytes a ha]
  all_goals simp [State.packed, h.m, h.prev, h.hist, h.wp, h.bp, h.nbits]

/-- Both runs pack the same bit at the same position. -/
theorem sameDeframer_execPack {s u d e : State} (h : SameDeframer s u) (hout : u.out = s.out) (hidx : u.idx = s.idx)
    (hd : execPack s = .next d) (he : execPack u = .next e) : SameDeframer d e ∧ e.idx = d.idx := by
  obtain ⟨hroom, rfl⟩ := execPack_eq_next hd
  obtain ⟨-, rfl⟩ := execPack_eq_next he
  exact ⟨sameDeframer_packed h hout hroom, by simp [hidx]⟩

/-- Both runs of the deframer loop read in the same frame. -/
theorem sameDeframer_deframeLoop {left : Nat} {s u t v : State} (h : SameDeframer s u) (hidx : 0 < left ∨ u.idx = s.idx)
    (ht : deframeLoop left s = .next t) (hv : deframeLoop left u = .next v) :
    SameDeframer t v ∧ v.idx = t.idx := by
  induction left generalizing s u with
  | zero =>
    cases ht
    cases hv
    exact ⟨h, hidx.resolve_left (lt_irrefl 0)⟩
  | succ left ih =>
    rw [deframeLoop_succ] at ht hv
    rw [h.symbolIdx, h.anchor.streams.n h.anchor.ch] at hv
    by_cases hend : s.n ≤ s.symbolIdx
    · rw [if_pos hend] at ht hv
      cases ht
      cases hv
      exact ⟨sameDeframer_stop h _ _, rfl⟩
    rw [if_neg hend] at ht hv
    have hin : s.symbolIdx < s.n := not_le.mp hend
    rw [h.anchor.streams.aAt h.anchor.ch hin] at hv
    by_cases hfade : s.aAt s.symbolIdx < gateOff
    · rw [if_pos hfade] at ht hv
      cases ht
      cases hv
      exact ⟨sameDeframer_stop h _ _, rfl⟩
    rw [if_neg hfade] at ht hv
    obtain ⟨hslice, hout, hsliceIdx⟩ := sameDeframer_afterSlice h hin
    rw [hslice.hist, hout] at hv
    by_cases hstuff : s.afterSlice.hist = 0b11111 ∧ s.afterSlice.out = false
    · rw [if_pos hstuff] at ht hv
      exact ih (sameDeframer_setHist hslice 0 .drop) (.inr (by simpa using hsliceIdx)) ht hv
    rw [if_neg hstuff] at ht hv
    have hkept := sameDeframer_setHist hslice (histShift s.afterSlice.hist s.afterSlice.out) .keep
    obtain ⟨d, hd, ht⟩ := seqOp_eq_next.mp ht
    obtain ⟨e, he, hv⟩ := seqOp_eq_next.mp hv
    obtain ⟨hpacked, hpackedIdx⟩ := sameDeframer_execPack hkept (by simp [hout]) (by simp [hsliceIdx]) hd he
    rw [hpacked.wp] at hv
    by_cases hfull : d.wp = frameBytes
    · rw [if_pos hfull] at ht hv
      cases ht
      cases hv
      exact ⟨hpacked, hpackedIdx⟩
    · rw [if_neg hfull] at ht hv
      exact ih hpacked (.inr hpackedIdx) ht hv

/-- The frame that DEFRAME hands to the check is the same in both states. -/
structure SameReadIn (s u : State) : Prop where
  bytes : ∀ a < frameBytes, u.bufRead a = s.bufRead a
  nbits : u.nbits = s.nbits
  idx : u.idx = s.idx
  resume : u.resume = s.resume

theorem sameReadIn_deframe {s u t v : State} (h : SameAnchor s u) (ht : deframe s = .next t)
    (hv : deframe u = .next v) : SameReadIn t v := by
  obtain ⟨a, ha, ht⟩ := seqOp_eq_next.mp ht
  obtain ⟨b, hb, hv⟩ := seqOp_eq_next.mp hv
  cases ha
  cases hb
  obtain ⟨a, ha, ht⟩ := seqOp_eq_next.mp ht
  obtain ⟨b, hb, hv⟩ := seqOp_eq_next.mp hv
  cases ht
  cases hv
  have hn : (u.clearFrame.ret .plain).n = (s.clearFrame.ret .plain).n := h.streams.n h.ch
  rw [hn] at hb
  obtain ⟨hloop, hidx⟩ := sameDeframer_deframeLoop (sameDeframer_clear h) (.inl (Nat.succ_pos _)) ha hb
  exact ⟨hloop.bytes, hloop.nbits, hidx, hidx⟩

end Sys2Proof.Machine
end

section
/-! PROOFS. The check of a frame, an attempt, a scan and a sweep in two runs (O50). -/

namespace Sys2Proof.Machine

open Stated

/-! ### The check of a frame -/

/-- Inside the frame a bit is read from one of its octets. -/
theorem msgBit_congr {s u : State} (h : ∀ a < frameBytes, u.bufRead a = s.bufRead a) {b : Nat} (hb : b < 8 * 252) :
    u.msgBit b = s.msgBit b := by
  rw [State.msgBit, State.msgBit, h _ (by simp only [hdr, frameBytes]; omega)]

theorem bits_congr {s u : State} (h : ∀ a < frameBytes, u.bufRead a = s.bufRead a) {o w : Nat} (hin : o + w ≤ 8 * 252) :
    u.bits o w = s.bits o w := by
  rw [bits_eq_sum, bits_eq_sum]
  exact Finset.sum_congr rfl fun t ht => by rw [msgBit_congr h (by have := Finset.mem_range.mp ht; omega)]

theorem text_congr {s u : State} (h : ∀ a < frameBytes, u.bufRead a = s.bufRead a) {o c : Nat}
    (hin : o + 6 * c ≤ 8 * 252) : u.text o c = s.text o c := by
  refine List.map_congr_left fun q hq => ?_
  rw [bits_congr h (by have := List.mem_range.mp hq; omega)]

/-- The record is a function of `mid` and the frame (R139). -/
theorem recordByMid_congr {s u : State} (h : ∀ a < frameBytes, u.bufRead a = s.bufRead a) (hmid : u.mid = s.mid) :
    u.recordByMid = s.recordByMid := by
  have hbits : ∀ o w, o + w ≤ 8 * 252 → u.bits o w = s.bits o w := fun _ _ => bits_congr h
  have htext : ∀ o c, o + 6 * c ≤ 8 * 252 → u.text o c = s.text o c := fun _ _ => text_congr h
  simp [State.recordByMid, State.posRecord, State.baseRecord, State.staticRecord, State.unknownRecord,
    State.signedBits, hbits, htext, hmid]

/-- Both attempts end with the same outcome and the same resume index, and with the same record if there is one. -/
structure SameReport (t v : State) : Prop where
  res : v.res = t.res
  resume : v.resume = t.resume
  record : t.res = .attempt .record → v.record = t.record

theorem sameReport_unpackAndEmit {s u t v : State} (h : ∀ a < frameBytes, u.bufRead a = s.bufRead a)
    (hmid : u.mid = s.mid) (hresume : u.resume = s.resume) (ht : unpackAndEmit s = .next t)
    (hv : unpackAndEmit u = .next v) : SameReport t v := by
  have hrecord : (u.enter .unpack).recordByMid = (s.enter .unpack).recordByMid := recordByMid_congr h hmid
  obtain ⟨htres, htresume⟩ := unpackAndEmit_return ht
  obtain ⟨hvres, hvresume⟩ := unpackAndEmit_return hv
  refine ⟨hvres.trans htres.symm, hvresume.trans (hresume.trans htresume.symm), fun _ => ?_⟩
  cases (unpackAndEmit_eq s).symm.trans ht
  cases (unpackAndEmit_eq u).symm.trans hv
  simpa using hrecord

/-- LENSEL and CRCCHK leave the same message ID, the same body length and the same verdicts. -/
theorem lengthSet_congr {s u : State} (h : SameReadIn s u) :
    u.lengthSet.mid = s.lengthSet.mid ∧ u.lengthSet.blen = s.lengthSet.blen ∧
      u.lengthSet.short = s.lengthSet.short := by
  have hfirst : u.bufRead hdr = s.bufRead hdr := h.bytes _ (by decide)
  simp [State.lengthSet, hfirst, h.nbits]

theorem checkSet_crcOk_congr {s u : State} (h : ∀ a < frameBytes, u.bufRead a = s.bufRead a) (hblen : u.blen = s.blen) :
    u.checkSet.crcOk = s.checkSet.crcOk := by
  have hoctets : s.blen.octets ≤ 53 := by cases s.blen <;> decide
  have hbody : u.bufOctets hdr s.blen.octets = s.bufOctets hdr s.blen.octets :=
    List.map_congr_left fun q hq => h _ (by have := List.mem_range.mp hq; simp only [hdr, frameBytes]; omega)
  have hfcs : u.receivedFcs = s.receivedFcs := by
    rw [State.receivedFcs, State.receivedFcs, hblen, h _ (by simp only [hdr, frameBytes]; omega),
      h (hdr + 1 + _) (by simp only [hdr, frameBytes]; omega)]
  simp [State.checkSet, hblen, hbody, hfcs]

/-- A frame in CHECK that is long enough. -/
def State.lengthChecked (s : State) : State := (s.enter .check).lengthSet.ret .plain

/-- The tests of CHECK in their order (R155). -/
theorem checkFrame_eq (s : State) : checkFrame s =
    if (s.enter .check).lengthSet.short = true then
      .next (((s.enter .check).lengthSet.raise .midFrameFade (some s.idx)).finish .short)
    else if s.lengthChecked.checkSet.crcOk = true then unpackAndEmit (s.lengthChecked.checkSet.ret .plain)
    else .next ((s.lengthChecked.checkSet.raise .crcMismatch (some s.idx)).finish .crcfail) := by
  obtain ⟨hs, e⟩ | ⟨hs, ⟨hok, e⟩ | ⟨hok, e⟩⟩ := checkFrame_cases s
  · rw [if_pos hs, e]
  · rw [if_neg (by simp [hs]), if_neg (by simp [State.lengthChecked, hok]), e]
    rfl
  · have hok : s.lengthChecked.checkSet.crcOk = true := hok
    rw [if_neg (by simp [hs]), if_pos hok, e]
    rfl

theorem sameReport_checkFrame {s u t v : State} (h : SameReadIn s u) (ht : checkFrame s = .next t)
    (hv : checkFrame u = .next v) : SameReport t v := by
  obtain ⟨hmid, hblen, hshort⟩ := lengthSet_congr (s := s.enter .check) (u := u.enter .check)
    ⟨h.bytes, h.nbits, h.idx, h.resume⟩
  have hbytes : ∀ a < frameBytes, u.lengthChecked.bufRead a = s.lengthChecked.bufRead a := h.bytes
  have hok := checkSet_crcOk_congr hbytes hblen
  rw [checkFrame_eq] at ht hv
  rw [hshort, hok] at hv
  split at ht
  next hs =>
    rw [if_pos hs] at hv
    cases ht
    cases hv
    exact ⟨rfl, by simp [h.idx], nofun⟩
  next hs =>
    rw [if_neg hs] at hv
    split at ht
    next hs =>
      rw [if_pos hs] at hv
      refine sameReport_unpackAndEmit (s := s.lengthChecked.checkSet.ret .plain)
        (u := u.lengthChecked.checkSet.ret .plain) h.bytes hmid ?_ ht hv
      simpa [State.lengthChecked, State.checkSet, State.lengthSet] using h.resume
    next hs =>
      rw [if_neg hs] at hv
      cases ht
      cases hv
      exact ⟨rfl, by simp [h.idx], nofun⟩

/-! ### An attempt -/

theorem sameReport_locateFrame {s u t v : State} (h : SameInput s u) (htail : s.i + tailGuard ≤ s.n)
    (ht : locateFrame s = .next t) (hv : locateFrame u = .next v) : SameReport t v := by
  obtain ⟨r, -, -, hr, hs⟩ := locateFrame_cases s htail
  obtain ⟨q, -, -, hq, hu⟩ := locateFrame_cases u (by rwa [h.i, h.n])
  obtain rfl : q = r := by
    rw [h.i, h.streams.fAt? h.ch, correlate_congr _ _ ⟨s.k, s.j, s.score, s.smax, s.imax⟩] at hq
    exact Option.some.inj (hq.symm.trans hr)
  obtain ⟨hlost, e⟩ | ⟨hfound, e⟩ := hs
  · obtain ⟨-, e'⟩ | ⟨hfound, -⟩ := hu
    · cases e.symm.trans ht
      cases e'.symm.trans hv
      exact ⟨rfl, congrArg (· + skipAhead) h.i, nofun⟩
    · exact absurd hlost hfound
  · obtain ⟨hlost, -⟩ | ⟨-, e'⟩ := hu
    · exact absurd hlost hfound
    · obtain ⟨a, ha, ht⟩ := seqOp_eq_next.mp (e.symm.trans ht)
      obtain ⟨b, hb, hv⟩ := seqOp_eq_next.mp (e'.symm.trans hv)
      refine sameReport_checkFrame (sameReadIn_deframe ⟨?_, ?_, fun x => ?_⟩ ha hb) ht hv
      · simpa using h.ch
      · simp [h.i]
      · simpa using h.streams x

theorem sameReport_execAisdec {s u t v : State} (h : SameInput s u) (ht : execAisdec s = .next t)
    (hv : execAisdec u = .next v) : SameReport t v := by
  obtain hshort | hlong := lt_or_ge s.n (s.gateIndex + 500)
  · rw [execAisdec_of_short hshort] at ht
    rw [execAisdec_of_short (by rwa [h.n, h.gateIndex])] at hv
    cases ht
    cases hv
    exact ⟨rfl, h.gateIndex, nofun⟩
  · rw [execAisdec_of_long hlong] at ht
    rw [execAisdec_of_long (by rwa [h.n, h.gateIndex])] at hv
    have hgated : SameInput (((s.enter .gate).setGate s.gateIndex s.gateCount).ret .plain)
        (((u.enter .gate).setGate u.gateIndex u.gateCount).ret .plain) := ⟨h.ch, h.gateIndex, h.streams⟩
    exact sameReport_locateFrame hgated hlong ht hv

/-! ### A scan -/

/-- Both runs append the same items to their sinks. -/
def SameAppend (s t u v : State) : Prop := ∃ rs, t.sink = s.sink ++ rs ∧ v.sink = u.sink ++ rs

theorem sameAppend_of_sink_eq {s t u v : State} (h : t.sink = s.sink) (h' : v.sink = u.sink) : SameAppend s t u v :=
  ⟨[], by simp [h], by simp [h']⟩

theorem SameAppend.trans {s t t' u v v' : State} (h : SameAppend s t u v) (h' : SameAppend t t' v v') :
    SameAppend s t' u v' := by
  obtain ⟨rs, ht, hv⟩ := h
  obtain ⟨rs', ht', hv'⟩ := h'
  exact ⟨rs ++ rs', by rw [ht', ht, List.append_assoc], by rw [hv', hv, List.append_assoc]⟩

theorem SameReport.sameAppend {s t u v : State} {o o' : AttemptOutcome} (h : SameReport t v) (ht : Ended s t o)
    (hv : Ended u v o') : SameAppend s t u v := by
  obtain rfl : o' = o := by
    have hres := h.res
    rw [ht.res, hv.res] at hres
    exact Result.attempt.inj hres
  by_cases ho : o' = .record
  · have hrecord := h.record (ho ▸ ht.res)
    exact ⟨[.item t.record], ht.emitted ho, hrecord ▸ hv.emitted ho⟩
  · exact sameAppend_of_sink_eq (ht.kept ho).1 (hv.kept ho).1

theorem SameStreams.of_sameOutsideAttempt {s u t v : State} (h : SameStreams s u) (ht : sameOutsideAttempt s t)
    (hv : sameOutsideAttempt u v) : SameStreams t v := by
  rw [ht, hv]
  exact h

theorem sameAppend_scanLoop {left : Nat} {s u t v : State} (h : SameInput s u) (ht : scanLoop left s = .next t)
    (hv : scanLoop left u = .next v) : SameAppend s t u v := by
  induction left generalizing s u with
  | zero =>
    cases ht
    cases hv
    exact sameAppend_of_sink_eq rfl rfl
  | succ left ih =>
    obtain hstop | hcontinues := lt_or_ge s.n (s.i + 500)
    · cases (scanLoop_stop hstop _).symm.trans ht
      cases (scanLoop_stop (by rwa [h.n, h.i]) _).symm.trans hv
      exact sameAppend_of_sink_eq rfl rfl
    obtain ⟨a, o, ha, haended, -⟩ := execAisdec_ended s
    obtain ⟨b, o', hb, hbended, -⟩ := execAisdec_ended u
    have hreport := sameReport_execAisdec h ha hb
    have hstreams : SameStreams a b := h.streams.of_sameOutsideAttempt haended.outside hbended.outside
    have hnext : SameInput (a.setI a.resume) (b.setI b.resume) :=
      ⟨hbended.ch.trans (h.ch.trans haended.ch.symm), hreport.resume, hstreams⟩
    have hfirst : SameAppend s (a.setI a.resume) u (b.setI b.resume) := hreport.sameAppend haended hbended
    rw [scanLoop_attempt hcontinues ha] at ht
    rw [scanLoop_attempt (by rwa [h.n, h.i]) hb] at hv
    exact hfirst.trans (ih hnext ht hv)

theorem sameAppend_execScan {s u t v : State} (h : SameStreams s u) (harg : u.argCh = s.argCh)
    (ht : execScan s = .next t) (hv : execScan u = .next v) : SameAppend s t u v := by
  obtain ⟨a, ha, -, -, ht'⟩ := execScan_loop s
  obtain ⟨b, hb, -, -, hv'⟩ := execScan_loop u
  have hlen : u.len u.argCh = s.len s.argCh := by
    rw [harg, ← streamLen_iStream, ← streamLen_iStream, (h _).1]
  rw [hlen] at hb
  have hloop : SameAppend s a u b :=
    sameAppend_scanLoop (s := s.beginScan s.argCh) (u := u.beginScan u.argCh) ⟨harg, rfl, h⟩ ha hb
  cases ht'.symm.trans ht
  cases hv'.symm.trans hv
  exact hloop

/-! ### A sweep -/

/-- Two sweeps of one block under the same parameters append the same records. -/
theorem execSweep_sameAppend {s u : State} (hcfg : u.cfg = s.cfg)
    (hraw : ∀ a < 2 * s.cfg.n, u.rawRead a = s.rawRead a) : ∃ t v, execSweep s = .next t ∧ execSweep u = .next v ∧ SameAppend s t u v := by
  obtain ⟨a, b, c, d, e, f, hs⟩ := exists_frontEnd s
  obtain ⟨a', b', c', d', e', f', hu⟩ := exists_frontEnd u
  have hstreams : SameStreams f f' := fun x => by
    obtain ⟨hlen, helem⟩ := hs.carries (raw := s.rawRead) (fun _ _ => rfl) x
    obtain ⟨hlen', helem'⟩ := hu.carries (raw := s.rawRead) (by rwa [hcfg]) x
    rw [hcfg] at hlen' helem'
    exact ⟨hlen'.trans hlen.symm, fun i hi => (helem' i (hlen ▸ hi)).trans (helem i (hlen ▸ hi)).symm⟩
  obtain ⟨g, t, hg, ht, hsweep, -⟩ := hs.scans
  obtain ⟨g', v, hg', hv, hsweep', -⟩ := hu.scans
  obtain ⟨-, -, -, hgout⟩ := of_next (execScan_spec _) hg
  obtain ⟨-, -, -, hgout'⟩ := of_next (execScan_spec _) hg'
  have hfront : SameAppend s f u f' := sameAppend_of_sink_eq hs.onlyStreams.sink hu.onlyStreams.sink
  have hone : SameAppend f g f' g' :=
    sameAppend_execScan (s := f.setArgCh .one) (u := f'.setArgCh .one) hstreams rfl hg hg'
  have hgstreams : SameStreams g g' :=
    SameStreams.of_sameOutsideAttempt (s := f.setArgCh .one) (u := f'.setArgCh .one) hstreams hgout hgout'
  have htwo : SameAppend g t g' v :=
    sameAppend_execScan (s := g.setArgCh .two) (u := g'.setArgCh .two) hgstreams rfl ht hv
  exact ⟨_, _, hsweep, hsweep', (hfront.trans hone).trans htwo⟩

end Sys2Proof.Machine

open Sys2Proof Sys2Proof.Machine

/-- Settles O50: the signals are those of the block, and from the same signals both runs append the same records. -/
theorem sweepDependsOnBlockAlone : Obligations.SweepDependsOnBlockAlone := by
  intro s u hcfg hraw
  obtain ⟨t, v, ht, hv, rs, hts, hvs⟩ := execSweep_sameAppend hcfg.symm fun a ha => (hraw a ha).symm
  exact ⟨t, v, rs, ht, hv, hts, hvs⟩
end

section
/-! PROOFS. RUN (O51): block by block it appends what SWEEP appends when `RAW` holds that block. -/

namespace Sys2Proof.Machine

open Stated

/-! ### One block -/

/-- The state in which a block's sweep is read off: `RAW` holds the block and nothing has been appended yet. -/
def State.holding (s : State) (block : List Byte) : State := { s with raw := Memory.ofBytes 0 block, sink := [] }

theorem sweptFrom_of_next {s t : State} {block : List Byte} (h : execSweep (s.holding block) = .next t) :
    sweptFrom s block = t.sink := by
  rw [State.holding] at h
  unfold sweptFrom exec
  rw [h]

/-- What SWEEP appends is what `sweptFrom` reads off a state with the same parameters, when `RAW` holds the block. -/
theorem execSweep_sink {s u : State} {block : List Byte} (hcfg : s.cfg = u.cfg) (hraw : s.raw = Memory.ofBytes 0 block)
    (hlen : 2 * s.cfg.n ≤ block.length) : ∃ t, execSweep s = .next t ∧ t.sink = s.sink ++ sweptFrom u block := by
  have hsame : ∀ a < 2 * s.cfg.n, (u.holding block).rawRead a = s.rawRead a := fun a ha =>
    Option.some.inj ((rawRead_of_ofBytes rfl (by omega)).trans (rawRead_of_ofBytes hraw (by omega)).symm)
  obtain ⟨t, v, ht, hv, rs, hts, hvs⟩ := execSweep_sameAppend (u := u.holding block) hcfg.symm hsame
  have hswept : sweptFrom u block = rs := (sweptFrom_of_next hv).trans hvs
  exact ⟨t, ht, hswept ▸ hts⟩

/-- What a sweep appends is records. -/
theorem sweptFrom_records (u : State) (block : List Byte) : ∃ rs : List Record, sweptFrom u block = rs.map .item := by
  obtain ⟨t, ht, -, ⟨rs, hrs⟩, -⟩ := execSweep_spec (u.holding block)
  exact ⟨rs, (sweptFrom_of_next ht).trans hrs⟩

theorem sweptFromSource_records (s : State) : ∃ rs : List Record, sweptFromSource s = rs.map .item := by
  choose rs hrs using sweptFrom_records s
  exact ⟨(List.range (s.src.length / (2 * s.cfg.n))).flatMap fun q => rs (blockAt s q),
    by simp only [sweptFromSource, hrs, List.map_flatMap]⟩

/-- READ and SWEEP on a source with a whole block: the block leaves the source and its records reach the sink. -/
theorem runLoop_block {s : State} (u : State) (hcfg : s.cfg = u.cfg) (h : 2 * s.cfg.n ≤ s.src.length) (left : Nat) :
    ∃ t, runLoop (left + 1) s = runLoop left t ∧ t.sink = s.sink ++ sweptFrom u (s.src.take (2 * s.cfg.n)) ∧
      t.src = s.src.drop (2 * s.cfg.n) ∧ t.cfg = s.cfg ∧ t.srcClosed = s.srcClosed ∧ t.started = s.started := by
  obtain ⟨t, ht, -, -, htcfg, htsrc, htclosed, htstarted, -⟩ := execSweep_spec ((s.setPhase .read).takeBlock.ret .block)
  obtain ⟨v, hv, hsink⟩ := execSweep_sink (s := (s.setPhase .read).takeBlock.ret .block) hcfg rfl
    (List.length_take_of_le h).ge
  cases ht.symm.trans hv
  exact ⟨t, (seqOp_of (execRead_block h) _).trans (seqOp_of ht _), hsink, htsrc, htcfg, htclosed, htstarted⟩

/-! ### All blocks -/

/-- The states in which the run stops on a source with less than a block: the end, or the wait for the source. -/
def State.stopped (s : State) : State :=
  if s.srcClosed then ((s.setPhase .read).dropPartial.raise .sourceClosed none).setPhase .done
  else (s.setPhase .read).ret .waiting

theorem runLoop_stop {s : State} (h : s.src.length < 2 * s.cfg.n) (left : Nat) :
    runLoop (left + 1) s = .next s.stopped := by
  unfold State.stopped
  cases hc : s.srcClosed with
  | true => exact seqOp_of (execRead_closed h hc) _
  | false => exact seqOp_of (execRead_waiting h hc) _

/-- The blocks of a source without its first block. -/
theorem blockAt_succ {s t : State} (hcfg : t.cfg = s.cfg) (hsrc : t.src = s.src.drop (2 * s.cfg.n)) (q : Nat) :
    blockAt s (q + 1) = blockAt t q := by
  rw [blockAt, blockAt, hcfg, hsrc, List.drop_drop, Nat.mul_succ, Nat.add_comm]

/-- The loop sweeps the `q` blocks the source has, in order, and stops on what is left (R159). -/
theorem runLoop_blocks {s : State} (u : State) (hcfg : s.cfg = u.cfg) {q : Nat} (hpos : 0 < s.cfg.n)
    (hq : s.src.length / (2 * s.cfg.n) = q) :
    ∃ t : State, runLoop (q + 1) s = .next t.stopped ∧
      t.sink = s.sink ++ (List.range q).flatMap (fun j => sweptFrom u (blockAt s j)) ∧
      t.src = s.src.drop (2 * s.cfg.n * q) ∧ t.cfg = s.cfg ∧ t.srcClosed = s.srcClosed ∧ t.started = s.started := by
  induction q generalizing s with
  | zero =>
    have hless : s.src.length < 2 * s.cfg.n := (Nat.div_eq_zero_iff_lt (by omega)).mp hq
    exact ⟨s, runLoop_stop hless 0, by simp, by simp, rfl, rfl, rfl⟩
  | succ q ih =>
    have hblock : 2 * s.cfg.n ≤ s.src.length := by
      by_contra hless
      rw [Nat.div_eq_of_lt (by omega)] at hq
      omega
    obtain ⟨a, ha, hsink, hsrc, hacfg, haclosed, hastarted⟩ := runLoop_block u hcfg hblock (q + 1)
    have hq' : a.src.length / (2 * a.cfg.n) = q := by
      rw [Nat.div_eq_sub_div (by omega) hblock] at hq
      rw [hacfg, hsrc, List.length_drop]
      exact Nat.succ.inj hq
    obtain ⟨t, ht, htsink, htsrc, htcfg, htclosed, htstarted⟩ := ih (hacfg.trans hcfg) (by rwa [hacfg]) hq'
    refine ⟨t, ha.trans ht, ?_, ?_, htcfg.trans hacfg, htclosed.trans haclosed, htstarted.trans hastarted⟩
    · rw [htsink, hsink, List.range_succ_eq_map, List.flatMap_cons, List.flatMap_map, List.append_assoc]
      simp only [blockAt_succ hacfg hsrc]
      simp [blockAt]
    · rw [htsrc, hsrc, hacfg, List.drop_drop, Nat.mul_succ, Nat.add_comm]

/-! ### The run -/

/-- The state in which a run reads its first block: reset, with the stream-start event in the sink (R160). -/
def State.begun (s : State) : State := s.runReset.streamStart

theorem begun_sink (s : State) : s.begun.sink = s.sink ++ [.streamStart] := rfl

theorem running_eq_false_iff {s : State} : s.running = false ↔ s.phase = .idle ∨ s.phase = .done := by
  simp [State.running, or_iff_not_imp_left]

theorem execRun_of_admitted {s : State} (hphase : s.phase = .idle ∨ s.phase = .done) (hok : s.cfg.ok = true) :
    execRun s = runLoop (s.src.length / (2 * s.cfg.n) + 1) s.begun := by
  rw [execRun, running_eq_false_iff.mpr hphase, if_neg Bool.false_ne_true, if_pos hok, State.begun]

theorem execRun_of_running {s : State} (hidle : s.phase ≠ .idle) (hdone : s.phase ≠ .done) :
    execRun s = .refused .runInProgress :=
  if_pos (by simp [State.running, hidle, hdone])

theorem execRun_of_inadmissible {s : State} (hphase : s.phase = .idle ∨ s.phase = .done) (hok : s.cfg.ok = false) :
    execRun s = .refused .kernelConstraint := by
  rw [execRun, running_eq_false_iff.mpr hphase, if_neg Bool.false_ne_true, hok, if_neg Bool.false_ne_true]

/-- What a run leaves when it stops: the phase and the source by what the source has (R161, R162). -/
theorem stopped_fields (s : State) : s.stopped.sink = s.sink ∧ s.stopped.started = s.started ∧ s.stopped.cfg = s.cfg ∧
    s.stopped.srcClosed = s.srcClosed ∧ (s.srcClosed = true → s.stopped.phase = .done ∧ s.stopped.src = []) ∧
    (s.srcClosed = false → s.stopped.phase = .read ∧ s.stopped.src = s.src) := by
  unfold State.stopped
  cases hc : s.srcClosed <;> simp [hc]

/-- An empty block has no signal to decode. -/
theorem sweptFrom_of_no_samples {s : State} (h : s.cfg.n = 0) (block : List Byte) : sweptFrom s block = [] := by
  obtain ⟨t, ht, -⟩ := execSweep_spec (s.holding block)
  have hshort : frontEndLen (s.holding block).cfg < 500 := by
    simp [frontEndLen, dec2Len, dec3Len, State.holding, h]
  rw [sweptFrom_of_next ht]
  exact (execSweep_short hshort ht).1

/-- A run on blocks of at least one sample. -/
theorem execRun_blocks {s : State} (hphase : s.phase = .idle ∨ s.phase = .done) (hok : s.cfg.ok = true)
    (hpos : 0 < s.cfg.n) : ∃ t : State, execRun s = .next t.stopped ∧ t.started = true ∧
      t.sink = s.sink ++ .streamStart :: sweptFromSource s ∧
      t.src = s.src.drop (2 * s.cfg.n * (s.src.length / (2 * s.cfg.n))) ∧ t.cfg = s.cfg ∧
      t.srcClosed = s.srcClosed := by
  obtain ⟨t, ht, hsink, hsrc, hcfg, hclosed, hstarted⟩ := runLoop_blocks (s := s.begun) s rfl hpos rfl
  refine ⟨t, (execRun_of_admitted hphase hok).trans ht, hstarted, ?_, hsrc, hcfg, hclosed⟩
  rw [hsink, begun_sink, List.append_assoc]
  rfl

/-- A run on blocks without samples sweeps one of them (log 10). -/
theorem execRun_no_samples {s : State} (hphase : s.phase = .idle ∨ s.phase = .done) (hok : s.cfg.ok = true)
    (hzero : s.cfg.n = 0) : ∃ t : State, execRun s = .next (t.setPhase .read) ∧ t.started = true ∧
      t.sink = s.sink ++ .streamStart :: sweptFromSource s ∧ t.src = s.src ∧ t.cfg = s.cfg ∧
      t.srcClosed = s.srcClosed := by
  have hblock : 2 * s.begun.cfg.n ≤ s.begun.src.length := by
    have hn : s.begun.cfg.n = 0 := hzero
    omega
  obtain ⟨t, ht, hsink, hsrc, hcfg, hclosed, hstarted⟩ := runLoop_block s (s := s.begun) rfl hblock 0
  have hcount : s.src.length / (2 * s.cfg.n) = 0 := by rw [hzero, Nat.mul_zero, Nat.div_zero]
  have hnothing : sweptFromSource s = [] := by rw [sweptFromSource, hcount]; rfl
  refine ⟨t, ?_, hstarted, ?_, ?_, hcfg, hclosed⟩
  · rw [execRun_of_admitted hphase hok, hcount]
    exact ht
  · rw [hsink, sweptFrom_of_no_samples hzero, hnothing, List.append_nil]
    rfl
  · rw [hsrc]
    show s.src.drop (2 * s.cfg.n) = s.src
    rw [hzero]
    rfl

end Sys2Proof.Machine

open Sys2Proof Sys2Proof.Machine

/-- Settles O51: the blocks by `runLoop_blocks`, the phase by what the source has at the end. -/
theorem runProcessesEveryBlock : Obligations.RunProcessesEveryBlock := by
  intro s
  refine ⟨fun hphase hok => ?_, execRun_of_running, execRun_of_inadmissible⟩
  have hrecords := sweptFromSource_records s
  obtain hzero | hpos := Nat.eq_zero_or_pos s.cfg.n
  · obtain ⟨t, ht, hstarted, hsink, hsrc, hcfg, hclosed⟩ := execRun_no_samples hphase hok hzero
    exact ⟨_, ht, hstarted, hsink, hrecords, fun hpos => absurd hzero hpos.ne', fun hpos => absurd hzero hpos.ne',
      fun _ => ⟨rfl, hsrc⟩, hcfg, hclosed⟩
  · obtain ⟨t, ht, hstarted, hsink, hsrc, hcfg, hclosed⟩ := execRun_blocks hphase hok hpos
    obtain ⟨hsink', hstarted', hcfg', hclosed', hdone, hread⟩ := stopped_fields t
    refine ⟨_, ht, hstarted'.trans hstarted, hsink'.trans hsink, hrecords, fun _ hc => hdone (hclosed.trans hc),
      fun _ hc => ?_, fun hzero => absurd hzero hpos.ne', hcfg'.trans hcfg, hclosed'.trans hclosed⟩
    obtain ⟨hphase', hsrc'⟩ := hread (hclosed.trans hc)
    have hsrc := hsrc'.trans hsrc
    refine ⟨hphase', ?_, hsrc⟩
    rw [hsrc, List.length_drop, ← Nat.mod_eq_sub_mul_div]
    exact Nat.mod_lt _ (by omega)
end

section
/-! PROOFS. Every step of a sequenced machine makes the transition of R167 whose guard holds (O60), phase by phase. -/

namespace Sys2Proof.Machine

/-! ### The operation of a step -/

/-- Every operation index decodes to its operation. -/
theorem decode_fetchOf {i : Instr} (hi : (encode i).1 = .op) : decode .op (encode i).2 = .ok i := by
  refine decode_eq_ok_iff_encode.mpr ⟨?_, Prod.ext hi rfl⟩
  cases i with
  | msgPos1 | msgPos2 | msgPos3 | msgBase | msgStatic | msgUnknown0 | msgUnknown6to7 | msgUnknown8to15
  | msgUnknown16to31 | msgUnknown32to63 => cases hi
  | _ => rfl

/-- With the index of an operation in the latch a step is that operation and its transition. -/
theorem step_of_fetchOf {s : State} {i : Instr} (hf : s.fetch = fetchOf i) (hi : (encode i).1 = .op) :
    step s = seqOp (exec i s) fun u => .next (advance i u) :=
  step_of_selected (selected_of_tag hf (decode_fetchOf hi))

theorem exec_of_step {s t : State} {i : Instr} (hf : s.fetch = fetchOf i) (hi : (encode i).1 = .op)
    (h : step s = .next t) : ∃ u, exec i s = .next u ∧ t = advance i u := by
  obtain ⟨u, hu, ht⟩ := seqOp_eq_next.mp ((step_of_fetchOf hf hi).symm.trans h)
  cases ht
  exact ⟨u, hu, rfl⟩

/-! ### The end of an attempt -/

theorem OnlySequencer.short {s t : State} (h : OnlySequencer s t) : t.short = s.short := by rw [h]

theorem OnlySequencer.crcOk {s t : State} (h : OnlySequencer s t) : t.crcOk = s.crcOk := by rw [h]

theorem phaseAfterScan_congr {s u : State} (h : ∀ d, u.len d = s.len d) (c : Channel) :
    phaseAfterScan u c = phaseAfterScan s c := by
  have hlen : u.len2 = s.len2 := h .two
  rw [phaseAfterScan, phaseAfterScan, hlen]

theorem phaseAfterAttempt_congr {s u : State} (h : ∀ d, u.len d = s.len d) (c : Channel) (a : Nat) :
    phaseAfterAttempt u c a = phaseAfterAttempt s c a := by
  rw [phaseAfterAttempt, phaseAfterAttempt, h, phaseAfterScan_congr h]

/-- The end of an attempt reports its outcome, keeps the resume index and goes by it (R158, R167). -/
theorem attemptEnd_follows {s u : State} {c : Channel} (hlen : ∀ d, u.len d = s.len d) (hc : u.ch = c)
    (o : AttemptOutcome) :
    (u.finish o).afterAttempt.res = .attempt o ∧ (u.finish o).afterAttempt.resume = u.resume ∧
      (u.finish o).afterAttempt.phase = phaseAfterAttempt s c u.resume := by
  obtain ⟨hres, hresume, -, -⟩ := scanNext_keeps ((u.finish o).setI u.resume)
  refine ⟨hres, hresume, ?_⟩
  rw [afterAttempt_phase (u.finish o) c hc, ← phaseAfterAttempt_congr (u := u.finish o) hlen]
  rfl

/-- The transition of the end of an attempt whose resume index is `a`, as the guards of R167 state it. -/
theorem attemptEnd_guard {s u : State} {c : Channel} {a : Nat} (hlen : ∀ d, u.len d = s.len d) (hc : u.ch = c)
    (o : AttemptOutcome) (ha : u.resume = a) :
    (u.finish o).afterAttempt.res = .attempt o ∧ (u.finish o).afterAttempt.resume = a ∧
      (u.finish o).afterAttempt.phase = phaseAfterAttempt s c (u.finish o).afterAttempt.resume := by
  obtain ⟨hres, hresume, hphase⟩ := attemptEnd_follows hlen hc o
  exact ⟨hres, hresume.trans ha, hphase.trans (by rw [hresume])⟩

/-! ### Outside the scans -/

theorem phaseFollows_idle {s t : State} (hcfg : s.cfg.ok = true) (hp : s.phase = .idle) (hf : s.fetch = fetchOf .runOp)
    (h : step s = .next t) : phaseFollows s t := by
  obtain ⟨u, hu, rfl⟩ := exec_of_step hf rfl h
  obtain ⟨hrun, -⟩ := runProcessesEveryBlock s
  obtain ⟨-, -, -, hdone, hread, hzero, -⟩ := of_next (hrun (.inl hp) hcfg) hu
  simp only [phaseFollows, hp, advance]
  obtain hn | hpos := Nat.eq_zero_or_pos s.cfg.n
  · simp [(hzero hn).1, hn, State.toRead]
  obtain hc | hc := Bool.eq_false_or_eq_true s.srcClosed
  · simp [(hdone hpos hc).1, hc, hpos]
  · simp [(hread hpos hc).1, hc, State.toRead]

theorem phaseFollows_read {s t : State} (hp : s.phase = .read) (hf : s.fetch = fetchOf .readOp) (h : step s = .next t) :
    phaseFollows s t := by
  obtain ⟨u, hu, rfl⟩ := exec_of_step hf rfl h
  simp only [phaseFollows, hp]
  obtain hblock | hless := le_or_gt (2 * s.cfg.n) s.src.length
  · cases (execRead_block hblock).symm.trans hu
    rw [if_pos hblock]
    rfl
  rw [if_neg (not_le.mpr hless)]
  obtain hc | hc := Bool.eq_false_or_eq_true s.srcClosed
  · cases (execRead_closed hless hc).symm.trans hu
    rw [if_pos hc]
    rfl
  · cases (execRead_waiting hless hc).symm.trans hu
    rw [if_neg (by simp [hc])]
    rfl

/-- After DEMOD the scan of channel 1 begins, or is passed over (log 27). -/
theorem toScanOne_phase (s : State) : s.toScanOne.phase = phaseAfterDemod s.toScanOne := by
  obtain ⟨-, -, hlen1, hlen2⟩ := scanNext_keeps (s.beginScan .one)
  rw [State.toScanOne, phaseAfterDemod, phaseAfterScan, hlen1, hlen2, scanNext_phase _ .one rfl]
  rfl

theorem phaseFollows_demod {s t : State} (hp : s.phase = .demod) (hf : s.fetch ∈ phaseOps .demod) (h : step s = .next t) :
    phaseFollows s t := by
  obtain hf | hf : s.fetch = fetchOf .fmdem ∨ s.fetch = fetchOf .amenv := by simpa [phaseOps] using hf
  · obtain ⟨u, hu, rfl⟩ := exec_of_step hf rfl h
    have hne : fetchOf .fmdem ≠ fetchOf .amenv := by decide
    simp [phaseFollows, hp, hf, hne, advance]
  · obtain ⟨u, hu, rfl⟩ := exec_of_step hf rfl h
    obtain ⟨-, harg, -⟩ := of_next (execAmenv_spec s) hu
    simp only [phaseFollows, hp, hf, advance, harg]
    cases s.argCh with
    | one => simp
    | two => simp [toScanOne_phase]

/-! ### An attempt -/

theorem phaseFollows_gate {s t : State} {c : Channel} (hp : s.phase = .scan c .gate) (hc : s.ch = c)
    (hf : s.fetch = fetchOf .gate) (h : step s = .next t) : phaseFollows s t := by
  obtain ⟨u, hu, rfl⟩ := exec_of_step hf rfl h
  have hn : s.n = s.len c := by rw [State.n, hc]
  simp only [phaseFollows, hp]
  obtain ⟨b, run, -, ⟨hshort, e⟩ | ⟨-, hlong, e⟩⟩ := execGate_cases s
  · cases e.symm.trans hu
    have hshort : s.len c < b + tailGuard := hn ▸ hshort
    simp only [advance, hasRaised_raise, beq_self_eq_true, if_true]
    obtain ⟨hres, hresume, hphase⟩ := attemptEnd_guard (s := s) (a := b)
      (u := (s.setGate b run).raise .bufferExhaustion (some b)) (fun _ => rfl) hc .eob rfl
    rw [hresume, phaseAfterAttempt, if_neg (not_le.mpr hshort)] at hphase
    exact .inr ⟨hresume.symm ▸ hshort, hres, hphase⟩
  · cases e.symm.trans hu
    rw [hn] at hlong
    exact .inl ⟨hlong, rfl, by simp [advance, hc]⟩

theorem phaseFollows_corr {s t : State} {c : Channel} (hp : s.phase = .scan c .corr) (hc : s.ch = c)
    (hf : s.fetch ∈ phaseOps (.scan c .corr)) (h : step s = .next t) : phaseFollows s t := by
  obtain hf | hf : s.fetch = fetchOf .corr ∨ s.fetch = fetchOf .syncOp := by simpa [phaseOps] using hf
  · obtain ⟨u, hu, rfl⟩ := exec_of_step hf rfl h
    obtain ⟨r, -, rfl⟩ := execCorr_eq_next hu
    simp [phaseFollows, hp, hf, advance, hc]
  · obtain ⟨u, hu, rfl⟩ := exec_of_step hf rfl h
    have hne : fetchOf .syncOp ≠ fetchOf .corr := by decide
    simp only [phaseFollows, hp, hf, if_neg hne]
    cases hs : s.sync with
    | true =>
      cases (execSync_found hs).symm.trans hu
      simp [advance, State.inDeframe, hc]
    | false =>
      cases (execSync_lost hs).symm.trans hu
      rw [if_neg Bool.false_ne_true]
      exact attemptEnd_guard (u := s.raise .noSync (some (s.i + skipAhead))) (fun _ => rfl) hc .nosync rfl

theorem phaseFollows_check {s t : State} {c : Channel} (hp : s.phase = .scan c .check) (hc : s.ch = c)
    (hf : s.fetch ∈ phaseOps (.scan c .check)) (h : step s = .next t) : phaseFollows s t := by
  obtain hf | hf : s.fetch = fetchOf .lensel ∨ s.fetch = fetchOf .crcchk := by simpa [phaseOps] using hf
  · obtain ⟨u, hu, rfl⟩ := exec_of_step hf rfl h
    simp only [phaseFollows, hp, hf, if_true]
    cases hs : s.lengthSet.short with
    | true =>
      cases (execLensel_short hs).symm.trans hu
      have hshort := (onlySequencer_attemptEnd (s.lengthSet.raise .midFrameFade (some s.idx)) .short).short
      simp only [advance, hasRaised_raise, beq_self_eq_true, if_true]
      rw [if_pos (hshort.trans hs)]
      exact attemptEnd_guard (u := s.lengthSet.raise .midFrameFade (some s.idx)) (fun _ => rfl) hc .short rfl
    | false =>
      cases (execLensel_long hs).symm.trans hu
      have hch : s.lengthSet.ch = c := hc
      simp [advance, hs, hch]
  · obtain ⟨u, hu, rfl⟩ := exec_of_step hf rfl h
    have hne : fetchOf .crcchk ≠ fetchOf .lensel := by decide
    simp only [phaseFollows, hp, hf, if_neg hne]
    cases hs : s.checkSet.crcOk with
    | true =>
      cases (execCrcchk_ok hs).symm.trans hu
      have hch : s.checkSet.ch = c := hc
      simp [advance, hs, hch]
    | false =>
      cases (execCrcchk_bad hs).symm.trans hu
      have hbad := (onlySequencer_attemptEnd (s.checkSet.raise .crcMismatch (some s.idx)) .crcfail).crcOk
      simp only [advance, hasRaised_raise, beq_self_eq_true, if_true]
      rw [if_neg (by rw [hbad]; simp [hs])]
      exact attemptEnd_guard (u := s.checkSet.raise .crcMismatch (some s.idx)) (fun _ => rfl) hc .crcfail rfl

theorem phaseFollows_unpack {s t : State} {c : Channel} (hp : s.phase = .scan c .unpack) (hc : s.ch = c)
    (hf : s.fetch = .body) (h : step s = .next t) : phaseFollows s t := by
  obtain ⟨i, hi, hformat⟩ := decode_msgId_total (s.bufRead hdr)
  obtain ⟨u, hu, ht⟩ := seqOp_eq_next.mp ((step_of_selected (selected_of_body hf hi)).symm.trans h)
  have hframe := of_next (exec_message hformat s) hu
  have hch : u.ch = c := by rw [hframe, hc]
  cases ht
  simp only [phaseFollows, hp, advance_message hformat, hch]
  rfl

theorem phaseFollows_emit {s t : State} {c : Channel} (hp : s.phase = .scan c .emit) (hc : s.ch = c)
    (hf : s.fetch = fetchOf .emitOp) (h : step s = .next t) : phaseFollows s t := by
  obtain ⟨u, hu, rfl⟩ := exec_of_step hf rfl h
  cases hu
  simp only [phaseFollows, hp]
  exact attemptEnd_guard (u := (s.appendSink (.item s.record)).ret .plain) (fun _ => rfl) hc .record rfl

/-- Inside the deframer while nothing has stopped it (R119). -/
theorem phaseFollows_inDeframe {s u : State} {c : Channel} (hp : s.phase = .scan c .deframe) (hc : u.ch = c)
    (hgo : ¬ (u.res = .stop .exhausted ∨ u.res = .stop .fade ∨ u.wp = frameBytes)) (i : Instr) :
    phaseFollows s (u.inDeframe i) := by
  simp only [phaseFollows, hp]
  exact (congrArg (Phase.scan · .deframe) hc).trans (if_neg hgo).symm

/-- Out of the deframer when a stop or the full frame ends it (R119). -/
theorem phaseFollows_toCheck {s u : State} {c : Channel} (hp : s.phase = .scan c .deframe) (hc : u.ch = c)
    (hstop : u.res = .stop .exhausted ∨ u.res = .stop .fade ∨ u.wp = frameBytes) : phaseFollows s u.toCheck := by
  simp only [phaseFollows, hp]
  exact (congrArg (Phase.scan · .check) hc).trans (if_pos hstop).symm

section
variable {s t : State} {c : Channel} (hp : s.phase = .scan c .deframe) (hc : s.ch = c) (h : step s = .next t)
include hp hc h

theorem phaseFollows_clearOp (hf : s.fetch = fetchOf .clearOp) : phaseFollows s t := by
  obtain ⟨u, hu, rfl⟩ := exec_of_step hf rfl h
  cases hu
  exact phaseFollows_inDeframe (u := s.clearFrame.ret .plain) hp hc (by simp [hdr, frameBytes]) .slice

theorem phaseFollows_slice (hf : s.fetch = fetchOf .slice) (hroom : s.wp < frameBytes) : phaseFollows s t := by
  obtain ⟨u, hu, rfl⟩ := exec_of_step hf rfl h
  obtain hout | hin := le_or_gt s.n s.symbolIdx
  · cases (execSlice_exhausted hout).symm.trans hu
    exact phaseFollows_toCheck hp hc (.inl rfl)
  obtain hlow | hhigh := lt_or_ge (s.aAt s.symbolIdx) gateOff
  · cases (execSlice_fade hin hlow).symm.trans hu
    exact phaseFollows_toCheck hp hc (.inr (.inl rfl))
  · cases (execSlice_symbol hin hhigh).symm.trans hu
    refine phaseFollows_inDeframe (i := .nrzi) hp ?_ ?_
    · simpa using hc
    · simpa using hroom.ne

theorem phaseFollows_nrzi (hf : s.fetch = fetchOf .nrzi) (hroom : s.wp < frameBytes) : phaseFollows s t := by
  obtain ⟨u, hu, rfl⟩ := exec_of_step hf rfl h
  cases hu
  exact phaseFollows_inDeframe (u := (s.setOut (nrziBit s.prev s.sym)).ret .plain) hp hc (by simpa using hroom.ne) .destuff

theorem phaseFollows_destuff (hf : s.fetch = fetchOf .destuff) (hroom : s.wp < frameBytes) : phaseFollows s t := by
  obtain ⟨u, hu, rfl⟩ := exec_of_step hf rfl h
  by_cases hstuff : s.hist = 0b11111 ∧ s.out = false
  · cases (execDestuff_drop hstuff).symm.trans hu
    exact phaseFollows_inDeframe (u := (s.setHist 0).ret .drop) hp hc (by simpa using hroom.ne) .slice
  · cases (execDestuff_keep hstuff).symm.trans hu
    exact phaseFollows_inDeframe (u := (s.setHist (histShift s.hist s.out)).ret .keep) hp hc (by simpa using hroom.ne) .pack

theorem phaseFollows_pack (hf : s.fetch = fetchOf .pack) : phaseFollows s t := by
  obtain ⟨u, hu, rfl⟩ := exec_of_step hf rfl h
  obtain rfl : u = s.packed := (execPack_eq_next hu).2
  have hres : s.packed.res = .plain := rfl
  simp only [advance]
  split
  next hfull => exact phaseFollows_toCheck hp hc (.inr (.inr hfull))
  next hroom => exact phaseFollows_inDeframe (u := s.packed) hp hc (by simpa [hres] using hroom) .slice

end

theorem phaseFollows_deframe {s t : State} {c : Channel} (hp : s.phase = .scan c .deframe) (hc : s.ch = c)
    (hf : s.fetch ∈ phaseOps (.scan c .deframe)) (hroom : s.fetch ≠ fetchOf .clearOp → s.wp < frameBytes)
    (h : step s = .next t) : phaseFollows s t := by
  have hroom : ∀ {i}, s.fetch = fetchOf i → fetchOf i ≠ fetchOf .clearOp → s.wp < frameBytes :=
    fun hf hi => hroom (hf ▸ hi)
  obtain hf | hf | hf | hf | hf : s.fetch = fetchOf .clearOp ∨ s.fetch = fetchOf .slice ∨ s.fetch = fetchOf .nrzi ∨
      s.fetch = fetchOf .destuff ∨ s.fetch = fetchOf .pack := by simpa [phaseOps] using hf
  · exact phaseFollows_clearOp hp hc h hf
  · exact phaseFollows_slice hp hc h hf (hroom hf (by decide))
  · exact phaseFollows_nrzi hp hc h hf (hroom hf (by decide))
  · exact phaseFollows_destuff hp hc h hf (hroom hf (by decide))
  · exact phaseFollows_pack hp hc h hf

end Sys2Proof.Machine

open Sys2Proof Sys2Proof.Machine

/-- Settles O60: the phase names the operations that may be next, and each of them makes its transition. -/
theorem phaseTransitions : Obligations.PhaseTransitions := by
  rintro s t ⟨hcfg, hf, hch, -, hroom, -, -⟩ h
  cases hp : s.phase with
  | idle => exact phaseFollows_idle hcfg hp (by simpa [hp, phaseOps] using hf) h
  | read => exact phaseFollows_read hp (by simpa [hp, phaseOps] using hf) h
  | sdec | dec3 | split | dec2 =>
    obtain ⟨u, hu, rfl⟩ := exec_of_step (by simpa [hp, phaseOps] using hf) rfl h
    simp [phaseFollows, hp, advance]
  | demod => exact phaseFollows_demod hp (hp ▸ hf) h
  | done =>
    cases (step_of_halt (by simpa [hp, phaseOps] using hf)).symm.trans h
    simp [phaseFollows, hp]
  | scan c sub =>
    have hc := hch c sub hp
    rw [hp] at hf
    cases sub with
    | gate => exact phaseFollows_gate hp hc (List.mem_singleton.mp hf) h
    | corr => exact phaseFollows_corr hp hc hf h
    | deframe => exact phaseFollows_deframe hp hc hf (hroom c hp) h
    | check => exact phaseFollows_check hp hc hf h
    | unpack => exact phaseFollows_unpack hp hc (List.mem_singleton.mp hf) h
    | emit => exact phaseFollows_emit hp hc (List.mem_singleton.mp hf) h
end

section
/-! PROOFS. The composite AISDEC is its operations performed one by one (O52). The two forms of an attempt are in step
up to the sequencer's position, which the composite form keeps in `phase` only, and the operand latch `argCh`. -/

namespace Sys2Proof

/-- The operations R167 issues in an attempt, UNPACK excepted. -/
def Instr.inAttempt : Instr → Bool
  | .gate | .corr | .syncOp | .clearOp | .slice | .nrzi | .destuff | .pack | .lensel | .crcchk | .emitOp => true
  | _ => false

end Sys2Proof

namespace Sys2Proof.Machine

open Stated

/-! ### Runs of steps -/

/-- Some number of steps leads from one state to the other. -/
def Reaches (s t : State) : Prop := ∃ k, Host.Core.run Sys2Proof.core k s = .next t

theorem Reaches.refl (s : State) : Reaches s s := ⟨0, rfl⟩

theorem run_succ_eq_next {M : Host.Core} {k : Nat} {s t : M.State} :
    M.run (k + 1) s = .next t ↔ ∃ u, M.step s = .next u ∧ M.run k u = .next t := by
  rw [Host.Core.run]
  cases M.step s <;> simp

theorem Reaches.head {s u t : State} (h : step s = .next u) (h' : Reaches u t) : Reaches s t := by
  obtain ⟨k, hk⟩ := h'
  exact ⟨k + 1, run_succ_eq_next.mpr ⟨u, h, hk⟩⟩

theorem Reaches.trans {s u t : State} (h : Reaches s u) (h' : Reaches u t) : Reaches s t := by
  obtain ⟨k, hk⟩ := h
  induction k generalizing s with
  | zero =>
    cases hk
    exact h'
  | succ k ih =>
    obtain ⟨a, ha, hk⟩ := run_succ_eq_next.mp hk
    exact .head ha (ih hk)

/-! ### The sequencer's position -/

/-- The state with another position of the sequencer and another channel operand. -/
def State.placed (s : State) (p : Phase) (f : Fetch) (c : Channel) : State :=
  { s with phase := p, fetch := f, argCh := c }

section
variable (s : State) (p : Phase) (f : Fetch) (c : Channel)

@[simp] theorem State.placed_res : (s.placed p f c).res = s.res := rfl
@[simp] theorem State.placed_ch : (s.placed p f c).ch = s.ch := rfl

/-- The loop test of SCAN overwrites the position. -/
theorem scanNext_placed : (s.placed p f c).scanNext = (s.setArgCh c).scanNext := by
  have htest : scanContinues (s.placed p f c).n (s.placed p f c).i = scanContinues s.n s.i := rfl
  have htest' : scanContinues (s.setArgCh c).n (s.setArgCh c).i = scanContinues s.n s.i := rfl
  unfold State.scanNext
  rw [htest, htest']
  split
  · rfl
  · cases hch : s.ch with
    | one =>
      simp only [State.placed_ch, State.setArgCh_ch, hch]
      rfl
    | two =>
      simp only [State.placed_ch, State.setArgCh_ch, hch]
      rfl

theorem afterAttempt_placed : (s.placed p f c).afterAttempt = (s.setArgCh c).afterAttempt :=
  scanNext_placed (s.setI s.resume) p f c

end

/-! ### An operation of an attempt -/

theorem execCorr_of_correlate {s : State} {r : CorrRegs}
    (h : correlate s.fAt? s.i ⟨s.k, s.j, s.score, s.smax, s.imax⟩ = some r) :
    execCorr s = .next ((s.setCorr r).ret .plain) := by
  simp only [execCorr, h]

theorem gateEnd_placed (s : State) (p : Phase) (f : Fetch) (c : Channel) (b run : Nat) :
    (s.placed p f c).gateEnd b run = (s.gateEnd b run).placed p f c := by
  obtain h | h := lt_or_ge s.n (b + 500)
  · rw [gateEnd_of_short h, gateEnd_of_short (s := s.placed p f c) h]
    rfl
  · rw [gateEnd_of_long h, gateEnd_of_long (s := s.placed p f c) h]
    rfl

/-- An operation of an attempt neither reads nor writes the position. -/
theorem exec_placed {i : Instr} (hi : i.inAttempt = true) {s t : State} (h : exec i s = .next t) (p : Phase)
    (f : Fetch) (c : Channel) : exec i (s.placed p f c) = .next (t.placed p f c) := by
  cases i with
  | gate =>
    cases (execGate_eq s).symm.trans h
    exact (execGate_eq (s.placed p f c)).trans (congrArg Host.Outcome.next (gateEnd_placed s p f c _ _))
  | corr =>
    obtain ⟨r, hr, rfl⟩ := execCorr_eq_next h
    exact execCorr_of_correlate (s := s.placed p f c) hr
  | syncOp =>
    cases hs : s.sync with
    | true => cases (execSync_found hs).symm.trans h; exact execSync_found (s := s.placed p f c) hs
    | false => cases (execSync_lost hs).symm.trans h; exact execSync_lost (s := s.placed p f c) hs
  | clearOp | nrzi | emitOp =>
    cases h
    rfl
  | slice =>
    obtain hout | hin := le_or_gt s.n s.symbolIdx
    · cases (execSlice_exhausted hout).symm.trans h
      exact execSlice_exhausted (s := s.placed p f c) hout
    obtain hlow | hhigh := lt_or_ge (s.aAt s.symbolIdx) gateOff
    · cases (execSlice_fade hin hlow).symm.trans h
      exact execSlice_fade (s := s.placed p f c) hin hlow
    · cases (execSlice_symbol hin hhigh).symm.trans h
      exact execSlice_symbol (s := s.placed p f c) hin hhigh
  | destuff =>
    by_cases hstuff : s.hist = 0b11111 ∧ s.out = false
    · cases (execDestuff_drop hstuff).symm.trans h
      exact execDestuff_drop (s := s.placed p f c) hstuff
    · cases (execDestuff_keep hstuff).symm.trans h
      exact execDestuff_keep (s := s.placed p f c) hstuff
  | pack =>
    obtain ⟨hroom, rfl⟩ := execPack_eq_next h
    exact execPack_eq (s := s.placed p f c) hroom
  | lensel =>
    cases hs : s.lengthSet.short with
    | true => cases (execLensel_short hs).symm.trans h; exact execLensel_short (s := s.placed p f c) hs
    | false => cases (execLensel_long hs).symm.trans h; exact execLensel_long (s := s.placed p f c) hs
  | crcchk =>
    cases hs : s.checkSet.crcOk with
    | true => cases (execCrcchk_ok hs).symm.trans h; exact execCrcchk_ok (s := s.placed p f c) hs
    | false => cases (execCrcchk_bad hs).symm.trans h; exact execCrcchk_bad (s := s.placed p f c) hs
  | _ => cases hi

theorem encode_inAttempt {i : Instr} (hi : i.inAttempt = true) : (encode i).1 = .op := by
  cases i with
  | gate | corr | syncOp | clearOp | slice | nrzi | destuff | pack | lensel | crcchk | emitOp => rfl
  | _ => cases hi

/-- One operation of an attempt and its transition, performed as a step from any position. -/
theorem Reaches.attemptOp {i : Instr} (hi : i.inAttempt = true) {s t u v : State} (h : exec i s = .next t) {p : Phase}
    {c : Channel} (hadvance : advance i (t.placed p (fetchOf i) c) = u) (hrest : Reaches u v) :
    Reaches (s.placed p (fetchOf i) c) v := by
  have hstep := step_of_fetchOf (s := s.placed p (fetchOf i) c) rfl (encode_inAttempt hi)
  rw [exec_placed hi h, seqOp_next, hadvance] at hstep
  exact .head hstep hrest

/-! ### UNPACK and EMIT -/

/-- `mid` and `blen` are the columns of R66 for the first body octet, as LENSEL leaves them. -/
def State.OctetSelected (s : State) : Prop :=
  s.mid = messageId (s.bufRead hdr) ∧ s.blen = bodyLenOf (messageId (s.bufRead hdr))

theorem octetSelected_execLensel {s t : State} (h : execLensel s = .next t) : t.OctetSelected := by
  cases hs : s.lengthSet.short with
  | true => cases (execLensel_short hs).symm.trans h; exact ⟨rfl, rfl⟩
  | false => cases (execLensel_long hs).symm.trans h; exact ⟨rfl, rfl⟩

theorem octetSelected_execCrcchk {s t : State} (hs : s.OctetSelected) (h : execCrcchk s = .next t) :
    t.OctetSelected := by
  cases hok : s.checkSet.crcOk with
  | true => cases (execCrcchk_ok hok).symm.trans h; exact hs
  | false => cases (execCrcchk_bad hok).symm.trans h; exact hs

theorem selectOctet_of_selected {s : State} (h : s.OctetSelected) : s.selectOctet (s.bufRead hdr) = s := by
  obtain ⟨hmid, hblen⟩ := h
  rw [State.selectOctet, State.selectMessage, ← hmid]
  rw [← hmid] at hblen
  rw [← hblen]

theorem unpackByMid_placed {s t : State} (h : unpackByMid s = .next t) (p : Phase) (f : Fetch) (c : Channel) :
    unpackByMid (s.placed p f c) = .next (t.placed p f c) := by
  cases (unpackByMid_eq s).symm.trans h
  exact unpackByMid_eq (s.placed p f c)

/-- On a checked frame the message class of `BUF[4]` is the unpacker that `mid` chooses (R66, R139). -/
theorem step_body {s t : State} (hs : s.OctetSelected) (h : unpackByMid s = .next t) (p : Phase) (c : Channel) :
    step (s.placed p .body c) = .next (t.placed (.scan t.ch .emit) (fetchOf .emitOp) c) := by
  obtain ⟨i, hi, hformat⟩ := decode_msgId_total (s.bufRead hdr)
  obtain ⟨hwf, hencode⟩ := decode_eq_ok_iff_encode.mp hi
  have hexec : exec i (s.placed p .body c) = .next (t.placed p .body c) := by
    rw [exec_message_eq_unpackByMid hwf hencode, ← unpackByMid_placed h]
    congr 1
    exact selectOctet_of_selected (s := s.placed p .body c) hs
  rw [step_of_selected (selected_of_body (s := s.placed p .body c) rfl hi), hexec, seqOp_next, advance_message hformat]
  rfl

/-- After the last operation of an attempt the loop test follows, whatever the position. -/
theorem attemptEnd_placed (s : State) (p : Phase) (f : Fetch) (c : Channel) (o : AttemptOutcome) :
    ((s.placed p f c).finish o).afterAttempt = ((s.finish o).setArgCh c).afterAttempt :=
  afterAttempt_placed (s.finish o) p f c

theorem reaches_unpackAndEmit {s t : State} (hs : s.OctetSelected) (h : unpackAndEmit s = .next t) (p : Phase)
    (c : Channel) : Reaches (s.placed p .body c) (t.setArgCh c).afterAttempt := by
  obtain ⟨a, ha, h⟩ := seqOp_eq_next.mp h
  obtain ⟨b, hb, h⟩ := seqOp_eq_next.mp h
  cases h
  refine .head (step_body (s := s.enter .unpack) hs ha p c) ?_
  exact .attemptOp (i := .emitOp) (s := a.enter .emit) rfl hb (attemptEnd_placed b _ _ c .record) (.refl _)

/-! ### CHECK -/

theorem reaches_checkFrame {s t : State} (h : checkFrame s = .next t) (p : Phase) (c : Channel) :
    Reaches (s.placed p (fetchOf .lensel) c) (t.setArgCh c).afterAttempt := by
  obtain ⟨a, ha, h⟩ := seqOp_eq_next.mp h
  split at h
  next hshort =>
    cases h
    exact .attemptOp (i := .lensel) (s := s.enter .check) rfl ha
      ((if_pos hshort).trans (attemptEnd_placed a _ _ c .short)) (.refl _)
  next hlong =>
    obtain ⟨b, hb, h⟩ := seqOp_eq_next.mp h
    refine .attemptOp (i := .lensel) (s := s.enter .check) rfl ha (if_neg hlong) ?_
    split at h
    next hbad =>
      cases h
      exact .attemptOp (i := .crcchk) (s := a) rfl hb
        ((if_pos hbad).trans (attemptEnd_placed b _ _ c .crcfail)) (.refl _)
    next hgood =>
      refine .attemptOp (i := .crcchk) (s := a) rfl hb (if_neg hgood) ?_
      exact reaches_unpackAndEmit (octetSelected_execCrcchk (octetSelected_execLensel ha) hb) h _ c

/-! ### DEFRAME -/

theorem symbolIdx_succ_gt {s t : State} (hp0 : t.p0 = s.p0) (hm : t.m = s.m + 1) : s.symbolIdx < t.symbolIdx := by
  have hgrid := off_succ (patLen + s.m)
  rw [State.symbolIdx, State.symbolIdx, hp0, hm, ← Nat.add_assoc]
  omega

theorem deframeLoop_stop {s a : State} {r : StopReason} (ha : execSlice s = .next a) (hr : a.res = .stop r)
    (left : Nat) : deframeLoop (left + 1) s = .next a := by
  rw [deframeLoop, seqOp_of ha]
  simp only [hr]

/-- One symbol through SLICE, NRZI and DESTUFF; the next one is counted in `m`. -/
theorem deframeLoop_symbol {s : State} (hin : s.symbolIdx < s.n) (hpower : gateOff ≤ s.aAt s.symbolIdx) (left : Nat) :
    ∃ a b d, execSlice s = .next a ∧ a.res = .plain ∧ execNrzi a = .next b ∧ execDestuff b = .next d ∧
      d.n = s.n ∧ d.p0 = s.p0 ∧ d.m = s.m + 1 ∧
      ((d.res = .drop ∧ deframeLoop (left + 1) s = deframeLoop left d) ∨
       (d.res = .keep ∧ deframeLoop (left + 1) s =
        seqOp (execPack d) fun e => if e.wp = frameBytes then .next e else deframeLoop left e)) := by
  have ha := execSlice_symbol hin hpower
  obtain ⟨b, hb⟩ : ∃ b, s.afterSlice = b := ⟨_, rfl⟩
  have hn : b.n = s.n := hb ▸ by simp [State.afterSlice]
  have hp0 : b.p0 = s.p0 := hb ▸ by simp [State.afterSlice]
  have hm : b.m = s.m + 1 := hb ▸ by simp [State.afterSlice]
  have hloop := deframeLoop_succ left s
  rw [if_neg (not_le.mpr hin), if_neg (not_lt.mpr hpower), hb] at hloop
  by_cases hstuff : b.hist = 0b11111 ∧ b.out = false
  · rw [if_pos hstuff] at hloop
    exact ⟨_, b, _, ha, rfl, congrArg Host.Outcome.next hb, execDestuff_drop hstuff, hn, hp0, hm, .inl ⟨rfl, hloop⟩⟩
  · rw [if_neg hstuff] at hloop
    exact ⟨_, b, _, ha, rfl, congrArg Host.Outcome.next hb, execDestuff_keep hstuff, hn, hp0, hm, .inr ⟨rfl, hloop⟩⟩

theorem execPack_position {s t : State} (h : execPack s = .next t) : t.n = s.n ∧ t.symbolIdx = s.symbolIdx := by
  obtain ⟨-, rfl⟩ := execPack_eq_next h
  exact ⟨rfl, rfl⟩

/-- The deframer loop ends by a stop or a full frame, before its bound: the index of the symbol grows with each turn. -/
theorem reaches_deframeLoop {left : Nat} {s t : State} (hleft : 0 < left ∧ s.n < s.symbolIdx + left)
    (h : deframeLoop left s = .next t) (p : Phase) (c : Channel) :
    Reaches (s.placed p (fetchOf .slice) c) (t.endDeframe.placed (.scan t.ch .check) (fetchOf .lensel) c) := by
  induction left generalizing s p with
  | zero => exact absurd hleft.1 (lt_irrefl 0)
  | succ left ih =>
    obtain hout | hin := le_or_gt s.n s.symbolIdx
    · have ha := execSlice_exhausted hout
      obtain rfl : _ = t := Host.Outcome.next.inj ((deframeLoop_stop ha rfl left).symm.trans h)
      exact .attemptOp (i := .slice) rfl ha rfl (.refl _)
    obtain hlow | hhigh := lt_or_ge (s.aAt s.symbolIdx) gateOff
    · have ha := execSlice_fade hin hlow
      obtain rfl : _ = t := Host.Outcome.next.inj ((deframeLoop_stop ha rfl left).symm.trans h)
      exact .attemptOp (i := .slice) rfl ha rfl (.refl _)
    obtain ⟨a, b, d, ha, hares, hb, hd, hn, hp0, hm, hcases⟩ := deframeLoop_symbol hin hhigh left
    have hgrows := symbolIdx_succ_gt hp0 hm
    have hslice : advance .slice (a.placed p (fetchOf .slice) c) = (a.placed p (fetchOf .slice) c).inDeframe .nrzi := by
      simp only [advance, State.placed_res, hares]
    refine .attemptOp (i := .slice) rfl ha hslice (.attemptOp (i := .nrzi) rfl hb rfl ?_)
    obtain ⟨hres, e⟩ | ⟨hres, e⟩ := hcases
    · refine .attemptOp (i := .destuff) (s := b) rfl hd (if_pos hres) ?_
      exact ih (by omega) (e.symm.trans h) _
    refine .attemptOp (i := .destuff) (s := b) rfl hd (if_neg (by simp [hres])) ?_
    obtain ⟨e', he, h⟩ := seqOp_eq_next.mp (e.symm.trans h)
    split at h
    next hfull =>
      cases h
      exact .attemptOp (i := .pack) (s := d) rfl he (if_pos hfull) (.refl _)
    next hroom =>
      refine .attemptOp (i := .pack) (s := d) rfl he (if_neg hroom) ?_
      obtain ⟨hn', hidx'⟩ := execPack_position he
      exact ih (by omega) h _

theorem reaches_deframe {s t : State} (h : deframe s = .next t) (p : Phase) (c : Channel) :
    Reaches (s.placed p (fetchOf .clearOp) c) (t.placed (.scan t.ch .check) (fetchOf .lensel) c) := by
  obtain ⟨a, ha, h⟩ := seqOp_eq_next.mp h
  obtain ⟨b, hb, h⟩ := seqOp_eq_next.mp h
  cases h
  exact .attemptOp (i := .clearOp) rfl ha rfl (reaches_deframeLoop ⟨Nat.succ_pos _, by omega⟩ hb _ c)

/-! ### The attempt -/

theorem reaches_locateFrame {s t : State} (h : locateFrame s = .next t) (p : Phase) (c : Channel) :
    Reaches (s.placed p (fetchOf .corr) c) (t.setArgCh c).afterAttempt := by
  obtain ⟨a, ha, h⟩ := seqOp_eq_next.mp h
  obtain ⟨b, hb, h⟩ := seqOp_eq_next.mp h
  refine .attemptOp (i := .corr) (s := s.enter .corr) rfl ha rfl ?_
  split at h
  next hlost =>
    cases h
    exact .attemptOp (i := .syncOp) (s := a) rfl hb ((if_pos hlost).trans (attemptEnd_placed b _ _ c .nosync)) (.refl _)
  next hfound =>
    obtain ⟨d, hd, h⟩ := seqOp_eq_next.mp h
    refine .attemptOp (i := .syncOp) (s := a) rfl hb (if_neg hfound) ?_
    exact (reaches_deframe (s := b.enter .deframe) hd _ c).trans (reaches_checkFrame h _ c)

/-- From GATE, at any position, the operations of an attempt lead to where AISDEC and the loop test after it do. -/
theorem reaches_execAisdec {s t : State} (h : execAisdec s = .next t) (p : Phase) (c : Channel) :
    Reaches (s.placed p (fetchOf .gate) c) (t.setArgCh c).afterAttempt := by
  obtain ⟨a, ha, h⟩ := seqOp_eq_next.mp h
  split at h
  next hend =>
    cases h
    exact .attemptOp (i := .gate) (s := s.enter .gate) rfl ha
      ((if_pos hend).trans (attemptEnd_placed a _ _ c .eob)) (.refl _)
  next hburst =>
    refine .attemptOp (i := .gate) (s := s.enter .gate) rfl ha (if_neg hburst) ?_
    exact reaches_locateFrame h _ c

end Sys2Proof.Machine

open Sys2Proof Sys2Proof.Machine

/-- Settles O52: the attempt starts at its own position and keeps the channel operand. -/
theorem attemptIsItsOperations : Obligations.AttemptIsItsOperations := by
  intro s hf
  obtain ⟨t, o, ht, hended, -⟩ := execAisdec_ended s
  obtain ⟨k, hk⟩ := reaches_execAisdec ht s.phase s.argCh
  have hstart : s.placed s.phase (fetchOf .gate) s.argCh = s := by rw [← hf]; rfl
  have hend : t.setArgCh s.argCh = t := by rw [← sameOutsideAttempt_argCh hended.outside]; rfl
  exact ⟨k, t, ht, by rw [hstart, hend] at hk; exact hk⟩
end

section
/-! PROOFS. The composite SWEEP is its operations performed one by one (O53): the stages, then both scans, attempt by
attempt. -/

namespace Sys2Proof

/-- The stages of a sweep before its scans. -/
def Instr.isStage : Instr → Bool
  | .sdec | .dec3 | .splitOp | .dec2 | .fmdem | .amenv => true
  | _ => false

end Sys2Proof

namespace Sys2Proof.Machine

open Stated

/-! ### The stages -/

/-- A stage neither reads nor writes the phase and the latch. -/
theorem exec_goto {i : Instr} (hi : i.isStage = true) {s t : State} (h : exec i s = .next t) (p : Phase) (f : Fetch) :
    exec i (s.goto p f) = .next (t.goto p f) := by
  cases i with
  | sdec | dec3 | splitOp | dec2 | fmdem | amenv =>
    cases h
    rfl
  | _ => cases hi

theorem encode_isStage {i : Instr} (hi : i.isStage = true) : (encode i).1 = .op := by
  cases i with
  | sdec | dec3 | splitOp | dec2 | fmdem | amenv => rfl
  | _ => cases hi

/-- One stage and its transition, performed as a step from any phase. -/
theorem Reaches.stageOp {i : Instr} (hi : i.isStage = true) {s t u v : State} (h : exec i s = .next t) {p : Phase}
    (hadvance : advance i (t.goto p (fetchOf i)) = u) (hrest : Reaches u v) : Reaches (s.goto p (fetchOf i)) v := by
  have hstep := step_of_fetchOf (s := s.goto p (fetchOf i)) rfl (encode_isStage hi)
  rw [exec_goto hi h, seqOp_next, hadvance] at hstep
  exact .head hstep hrest

theorem commitDemod_goto (s : State) (p : Phase) (f : Fetch) : (s.goto p f).commitDemod = s.commitDemod.goto p f := by
  unfold State.commitDemod
  rw [State.goto_argCh]
  cases s.argCh <;> rfl

/-- The transition after AMENV replaces the streams, whatever the phase (log 12). -/
theorem advance_amenv_one {s : State} (h : s.argCh = .one) (p : Phase) (f : Fetch) :
    advance .amenv (s.goto p f) = (s.commitDemod.setArgCh .two).goto .demod (fetchOf .fmdem) := by
  simp only [advance, State.goto_argCh, h, commitDemod_goto]
  rfl

theorem advance_amenv_two {s : State} (h : s.argCh = .two) (p : Phase) (f : Fetch) :
    advance .amenv (s.goto p f) = (s.commitDemod.goto p f).toScanOne := by
  simp only [advance, State.goto_argCh, h, commitDemod_goto]

/-- DEMOD of a channel is FMDEM and AMENV on it, then the replacement of its streams (R92). -/
theorem demodChannel_ops {s t : State} {c : Channel} (h : demodChannel s c = .next t) :
    ∃ x y, execFmdem (s.setArgCh c) = .next x ∧ execAmenv x = .next y ∧ y.argCh = c ∧ y.commitDemod = t := by
  obtain ⟨x, hx, h⟩ := seqOp_eq_next.mp h
  obtain ⟨y, hy, h⟩ := seqOp_eq_next.mp h
  obtain ⟨-, hxarg, -⟩ := of_next (execFmdem_spec _) hx
  obtain ⟨-, hyarg, -⟩ := of_next (execAmenv_spec _) hy
  cases h
  exact ⟨x, y, hx, hy, hyarg.trans hxarg, rfl⟩

theorem reaches_demodChannel_one {s t : State} (h : demodChannel (s.setPhase .demod) .one = .next t) :
    Reaches ((s.setArgCh .one).goto .demod (fetchOf .fmdem)) ((t.setArgCh .two).goto .demod (fetchOf .fmdem)) := by
  obtain ⟨x, y, hx, hy, harg, rfl⟩ := demodChannel_ops h
  refine .stageOp (i := .fmdem) (s := (s.setPhase .demod).setArgCh .one) rfl hx rfl ?_
  exact .stageOp (i := .amenv) (s := x) rfl hy (advance_amenv_one harg _ _) (.refl _)

/-- The loop test overwrites the position that the stages left. -/
theorem toScanOne_goto (s : State) (p : Phase) (f : Fetch) : (s.goto p f).toScanOne = s.toScanOne :=
  scanNext_placed (s.beginScan .one) (.scan .one .gate) f s.argCh

theorem reaches_demodChannel_two {s t : State} (h : demodChannel s .two = .next t) :
    Reaches ((s.setArgCh .two).goto .demod (fetchOf .fmdem)) t.toScanOne := by
  obtain ⟨x, y, hx, hy, harg, rfl⟩ := demodChannel_ops h
  refine .stageOp (i := .fmdem) (s := s.setArgCh .two) rfl hx rfl ?_
  refine .stageOp (i := .amenv) (s := x) rfl hy (advance_amenv_two harg _ _) ?_
  rw [toScanOne_goto]
  exact .refl _

/-- The stages of the front end, one step each for SDEC to DEC2 and two for DEMOD of a channel, lead to the scan of
channel 1. -/
theorem FrontEnd.reaches {s a b c d e f : State} (h : FrontEnd s a b c d e f) :
    Reaches (s.goto .sdec (fetchOf .sdec)) f.toScanOne := by
  refine .stageOp (i := .sdec) (s := s.setPhase .sdec) rfl h.sdec rfl ?_
  refine .stageOp (i := .dec3) (s := a.setPhase .dec3) rfl h.dec3 rfl ?_
  refine .stageOp (i := .splitOp) (s := b.setPhase .split) rfl h.split rfl ?_
  refine .stageOp (i := .dec2) (s := c.setPhase .dec2) rfl h.dec2 rfl ?_
  exact (reaches_demodChannel_one h.demod1).trans (reaches_demodChannel_two h.demod2)

/-! ### The scans -/

/-- GATE overwrites what was returned before the attempt. -/
theorem execAisdec_ret (s : State) (r : Result) : execAisdec (s.ret r) = execAisdec s := by
  obtain h | h := lt_or_ge s.n (s.gateIndex + 500)
  · rw [execAisdec_of_short h, execAisdec_of_short (s := s.ret r) h]
    rfl
  · rw [execAisdec_of_long h, execAisdec_of_long (s := s.ret r) h]
    rfl

theorem scanNext_continues {s : State} (h : s.i + 500 ≤ s.n) : s.scanNext = s.toGate :=
  if_pos (scanContinues_iff.mpr h)

theorem scanNext_end_one {s : State} (hch : s.ch = .one) (h : s.n < s.i + 500) :
    s.scanNext = (s.beginScan .two).scanNext := by
  unfold State.scanNext
  rw [if_neg fun hc => absurd (scanContinues_iff.mp hc) (not_le.mpr h), hch]
  rfl

theorem scanNext_end_two {s : State} (hch : s.ch = .two) (h : s.n < s.i + 500) : s.scanNext = s.toRead := by
  unfold State.scanNext
  rw [if_neg fun hc => absurd (scanContinues_iff.mp hc) (not_le.mpr h), hch]

/-- The state at a loop test of SCAN: as the composite form has it, but for what was returned and the channel
operand. -/
def State.atTest (s : State) (r : Result) (c : Channel) : State := (s.ret r).setArgCh c

/-- The attempts of a scan lead from one loop test to the last. -/
theorem reaches_scanLoop {left : Nat} {s t : State} (h : scanLoop left s = .next t) (r : Result) (c : Channel) :
    ∃ r', Reaches (s.atTest r c).scanNext (t.atTest r' c).scanNext := by
  induction left generalizing s r with
  | zero =>
    cases h
    exact ⟨r, .refl _⟩
  | succ left ih =>
    obtain hstop | hcontinues := lt_or_ge s.n (s.i + 500)
    · cases (scanLoop_stop hstop _).symm.trans h
      exact ⟨r, .refl _⟩
    obtain ⟨a, ha⟩ := execAisdec_completes s
    obtain ⟨r', hrest⟩ := ih ((scanLoop_attempt hcontinues ha left).symm.trans h) a.res
    refine ⟨r', ?_⟩
    rw [scanNext_continues (s := s.atTest r c) hcontinues]
    exact (reaches_execAisdec ((execAisdec_ret s r).trans ha) (.scan s.ch .gate) c).trans hrest

/-- Both scans, from the loop test at the start of the first to READ after the second. -/
theorem reaches_scans {f g u : State} (hf : f.argCh = .two) (hg : execScan (f.setArgCh .one) = .next g)
    (hu : execScan (g.setArgCh .two) = .next u) : ∃ v : State, Reaches f.toScanOne v.toRead ∧ v.ret .plain = u := by
  obtain ⟨a, ha, hascanned, haend, hg'⟩ := execScan_loop (f.setArgCh .one)
  cases hg'.symm.trans hg
  obtain ⟨b, hb, hbscanned, hbend, hu'⟩ := execScan_loop ((a.ret .plain).setArgCh .two)
  cases hu'.symm.trans hu
  obtain ⟨r, hone⟩ := reaches_scanLoop ha f.res .two
  obtain ⟨r', htwo⟩ := reaches_scanLoop hb r .two
  have hstart : ((f.setArgCh .one).beginScan .one).atTest f.res .two = f.beginScan .one := by
    rw [← hf]
    rfl
  have hbetween : (a.atTest r .two).scanNext = ((a.atTest r .two).beginScan .two).scanNext :=
    scanNext_end_one hascanned.ch (hascanned.n.symm ▸ haend)
  have hend : (b.atTest r' .two).scanNext = (b.atTest r' .two).toRead :=
    scanNext_end_two hbscanned.ch (hbscanned.n.symm ▸ hbend)
  have harg : b.argCh = .two := sameOutsideAttempt_argCh hbscanned.outside
  refine ⟨b.atTest r' .two, ?_, ?_⟩
  · have hfirst : Reaches f.toScanOne (a.atTest r .two).scanNext := by
      rw [State.toScanOne, ← hstart]
      exact hone
    rw [hbetween] at hfirst
    rw [← hend]
    exact hfirst.trans htwo
  · rw [← harg]
    rfl

end Sys2Proof.Machine

open Sys2Proof Sys2Proof.Machine

/-- Settles O53: the front end stage by stage, then the scans attempt by attempt. -/
theorem sweepIsItsOperations : Obligations.SweepIsItsOperations := by
  intro s
  obtain ⟨a, b, c, d, e, f, hfront⟩ := exists_frontEnd s
  obtain ⟨g, u, hg, hu, ht, -⟩ := hfront.scans
  obtain ⟨-, harg, -⟩ := of_next (demodChannel_spec e .two) hfront.demod2
  obtain ⟨v, hscans, rfl⟩ := reaches_scans harg hg hu
  obtain ⟨k, hk⟩ := hfront.reaches.trans hscans
  exact ⟨k, _, v.toRead, ht, hk, rfl⟩
end
